-- ==== Sys2Proof/Word.lean ====
section
/-! DEFINITION. Word.lean: the machine's word types (00_scope R14: 32-bit registers, addresses and command words). -/

namespace Sys2Proof

/-- One byte of LMEM (20_memory R100). -/
abbrev Byte := BitVec 8

/-- A 32-bit register, address or command word (00_scope R14). -/
abbrev Word := BitVec 32

/-- A 64-bit value held in a register pair (10_state R43). -/
abbrev DWord := BitVec 64

end Sys2Proof
end

