-- ==== Sys2Proof/Config.lean ====
section
/-! DEFINITION. Config.lean: what is fixed for one block, and the values the spec leaves open (opaque: no proof can see them). -/

namespace Sys2Proof

/-- ID, the ASCII letters FXP1 (00_scope R4, 10_state R71). -/
def Config.idValue : Word := 0x46585031#32

/-- The bus address of the block's register window, an open parameter of the platform (00_scope R13; log entry 9). -/
opaque Config.mmioBase : Nat

/-- FREE VALUE, DESIGN CHOICE (log entry 6, safe): the 32-bit FAULTINFO recorded for a faulting address, a VLC entry's, that is 2^32 or more.
60_exceptions R502 reports "the address"; the spec does not say what a 32-bit register then holds. -/
opaque Config.wideFaultInfo : Nat → Word

end Sys2Proof
end

