-- ==== Sys2Proof/Syntax.lean ====
section
/-! DEFINITION. Syntax.lean: the commands of the FXP block, one constructor per row of spec/opcode_table.json. -/

namespace Sys2Proof

/-- A general register number, 0 to 15 (10_state R41). -/
abbrev Reg := Fin 16

/-- A register pair: pair k is R(2k), bits 31:0, with R(2k+1), bits 63:32 (10_state R43). -/
abbrev Pair := Fin 8

/-- The special registers SR0 to SR22, in the order of their numbers (10_state R49). -/
inductive SReg where
  | bsbase | bslen | bspos | astat | ncoef | rltab | escw | runw | gthr | gwid | dqmult | nseed
  | nmul | ninc | nshift | nidx | ntsize | mdtrig | mdtw | wcfg | wdir | cgain | cstages
deriving DecidableEq, Repr

/-- One command (30_encoding R146, R149). Operands stand in field order A, B, C, then immediate or P parameters. -/
inductive Instr where
  | halt
  | nop
  | j (off : BitVec 26)
  | jal (rd : Reg) (off : BitVec 18)
  | jr (rs : Reg)
  | beq (ra rb : Reg) (off : BitVec 18)
  | bne (ra rb : Reg) (off : BitVec 18)
  | blt (ra rb : Reg) (off : BitVec 18)
  | bge (ra rb : Reg) (off : BitVec 18)
  | bltu (ra rb : Reg) (off : BitVec 18)
  | bgeu (ra rb : Reg) (off : BitVec 18)
  | mfs (rd : Reg) (sr : SReg)
  | mts (sr : SReg) (rs : Reg)
  | add (rd rs rt : Reg)
  | sub (rd rs rt : Reg)
  | and (rd rs rt : Reg)
  | or (rd rs rt : Reg)
  | xor (rd rs rt : Reg)
  | sll (rd rs rt : Reg)
  | srl (rd rs rt : Reg)
  | sra (rd rs rt : Reg)
  | slt (rd rs rt : Reg)
  | sltu (rd rs rt : Reg)
  | addi (rd rs : Reg) (imm : BitVec 18)
  | andi (rd rs : Reg) (imm : BitVec 18)
  | ori (rd rs : Reg) (imm : BitVec 18)
  | xori (rd rs : Reg) (imm : BitVec 18)
  | lui (rd : Reg) (imm : BitVec 16)
  | slli (rd rs : Reg) (shamt : BitVec 5)
  | srli (rd rs : Reg) (shamt : BitVec 5)
  | srai (rd rs : Reg) (shamt : BitVec 5)
  | lb (rd rbase : Reg) (imm : BitVec 18)
  | lbu (rd rbase : Reg) (imm : BitVec 18)
  | lh (rd rbase : Reg) (imm : BitVec 18)
  | lhu (rd rbase : Reg) (imm : BitVec 18)
  | lw (rd rbase : Reg) (imm : BitVec 18)
  | sb (rv rbase : Reg) (imm : BitVec 18)
  | sh (rv rbase : Reg) (imm : BitVec 18)
  | sw (rv rbase : Reg) (imm : BitVec 18)
  | fmul (rd rs rt : Reg)
  | fmulr (rd rs rt : Reg)
  | fdiv (rd rs rt : Reg)
  | fsqrt (rd rs : Reg)
  | fadd (rd rs rt : Reg)
  | fsub (rd rs rt : Reg)
  | wmul (pd ps : Pair) (rt : Reg)
  | wmulw (pd ps pt : Pair)
  | wdiv (pd ps pt : Pair)
  | wext (pd : Pair) (rs : Reg)
  | wnrw (rd : Reg) (ps : Pair)
  | sincos (rsin rphase rcos : Reg)
  | bsinit (rbase rlen : Reg)
  | readr (rd rn : Reg)
  | skipr (rn : Reg)
  | align
  | peekr (rd rn : Reg)
  | peek (rd : Reg) (n : BitVec 6)
  | read (rd : Reg) (n : BitVec 6)
  | skip (n : BitVec 6)
  | vlcdec (rd rtab : Reg) (nb : BitVec 5)
  | gain (rd : Reg)
  | rldec (rd rcoef rtab : Reg) (nb : BitVec 5)
  | deq (rout rq re : Reg)
  | deqn (rout rnoise re : Reg)
  | ngen (rdst rcnt : Reg)
  | brev (rbuf : Reg) (m : BitVec 4)
  | fft (rbuf rtw : Reg) (m : BitVec 4) (sc : Bool)
  | imdct (rout rin : Reg) (n : BitVec 4) (sc : Bool)
  | wola (rfp rin : Reg)
  | fshift (rbuf rk rl : Reg)
  | pcmout (rdst rsrc rcnt : Reg) (chm1 : BitVec 3)
deriving DecidableEq, Repr

end Sys2Proof
end

