-- ==== Sys2Proof/Machine/State.lean ====
section
/-! DEFINITION. Machine/State.lean: the state of one FXP block (10_state R40), as plain data, and its value after reset. -/

namespace Sys2Proof.Machine

/-- STATUS.CAUSE (60_exceptions R502): one constructor per code 0 to 12; codes 13 to 255 are never reported. -/
inductive Cause where
  | none | illegal | ialign | iaddr | dalign | daddr | bsovr | vlcmiss | vlctbl | rlovr | cfg | abort | oprange
deriving DecidableEq, Repr

/-- Why the MODEL stops where the block would go on. The block's own faults are not here: taking one is a next state (`takeFault`). -/
inductive Fault where
  /-- Raised by any read (a load, a fetch, an array element, a stream bit, a host read) of an LMEM byte that nothing has written
  since reset: 70_reset R564 treats it as holding no value (log entry 2). SAFE: the block would read an arbitrary byte. -/
  | unwrittenByte (addr : Nat)
deriving DecidableEq, Repr

/-- Why the model gives an instruction no meaning. -/
inductive Refusal where
  /-- Raised by an arm of `exec` that has no meaning yet; no arm is in that state. SAFE: nothing is claimed. -/
  | notModelled (mnemonic : String)
deriving DecidableEq, Repr

/-- LMEM (20_memory R100): the bytes written since reset, as (address, byte) pairs with addresses strictly rising. An unlisted address
holds no value (70_reset R564; log entry 2). -/
abbrev Memory := List Host.Cell

/-- The special registers SR0 to SR22 (10_state R49). A register that uses fewer than 32 bits is held at exactly the bits it uses
(R50; log entry 10). -/
structure SpecialRegs where
  /-- SR0, LMEM byte address of the bit stream (R51). -/
  bsbase : Word
  /-- SR1, stream length in bits (R51). -/
  bslen : Word
  /-- SR2, cursor: bits consumed since BSINIT (R51). -/
  bspos : Word
  /-- SR3, sticky flags: bit 0 SAT, 1 DZ, 2 NV, 3 VLCM (R52). -/
  astat : BitVec 4
  /-- SR4, coefficient count (R53). -/
  ncoef : Word
  /-- SR5, run-level table address (R54). -/
  rltab : Word
  /-- SR6, escaped level width (R55). -/
  escw : BitVec 5
  /-- SR7, escaped run width (R55). -/
  runw : BitVec 5
  /-- SR8, gain thresholds T1 to T4, one byte each (R56). -/
  gthr : Word
  /-- SR9, gain bucket widths W0 to W4, five bits each (R57). -/
  gwid : BitVec 25
  /-- SR10, Q16.16 output multiplier (R58). -/
  dqmult : Word
  /-- SR11, noise generator state (R59). -/
  nseed : Word
  /-- SR12, noise generator multiplier (R59). -/
  nmul : Word
  /-- SR13, noise generator increment (R59). -/
  ninc : Word
  /-- SR14, noise value shift (R59). -/
  nshift : BitVec 5
  /-- SR15, noise table index (R60). -/
  nidx : Word
  /-- SR16, noise table size (R60). -/
  ntsize : Word
  /-- SR17, IMDCT rotation table address (R61). -/
  mdtrig : Word
  /-- SR18, IMDCT inner twiddle table address (R61). -/
  mdtw : Word
  /-- SR19 WCFG bits 4:0, previous block exponent (R62). -/
  wpb : BitVec 5
  /-- SR19 WCFG bits 12:8, current block exponent (R62). -/
  wcb : BitVec 5
  /-- SR19 WCFG bits 20:16, next block exponent (R62). -/
  wnb : BitVec 5
  /-- SR20, window directory address (R63). -/
  wdir : Word
  /-- SR21, CORDIC initial x (R64). -/
  cgain : Word
  /-- SR22, CORDIC stage count (R65). -/
  cstages : BitVec 5
deriving DecidableEq, Repr

/-- The host-visible control registers that are state (10_state R72, R73, R75). -/
structure ControlRegs where
  /-- CTRL bit 2 (R72). -/
  irqen : Bool
  /-- STATUS bit 0: the sequencer runs (R73). -/
  busy : Bool
  /-- STATUS bit 1: HALT completed (R73). -/
  done : Bool
  /-- STATUS bit 2: a fault stopped the sequencer (R73). -/
  fault : Bool
  /-- STATUS bit 3: the host touched a busy-protected location (R73). -/
  herr : Bool
  /-- STATUS bits 15:8 (R73). -/
  cause : Cause
  /-- FAULTPC (R75). -/
  faultpc : Word
  /-- FAULTINFO (R75). -/
  faultinfo : Word
deriving DecidableEq, Repr

/-- The state of one block (10_state R40). -/
structure State where
  /-- R0 to R15 (R41). -/
  regs : Vector Word 16
  /-- PC (R45). -/
  pc : Word
  /-- SR0 to SR22 (R49). -/
  sr : SpecialRegs
  /-- CTRL, STATUS, FAULTPC, FAULTINFO (R70). -/
  ctl : ControlRegs
  /-- The pending-abort latch (R68). -/
  abortPending : Bool
  /-- The parameter LMEM_SIZE = 2^(12 + lmemLog), from 4096 to 1048576 (00_scope R12; log entry 3). No step and no access changes it. -/
  lmemLog : Fin 9
  /-- LMEM (20_memory R100). -/
  mem : Memory
deriving DecidableEq, Repr

/-- The special registers after reset (10_state R49, 70_reset R563). -/
def SpecialRegs.reset : SpecialRegs where
  bsbase := 0
  bslen := 0
  bspos := 0
  astat := 0
  ncoef := 0
  rltab := 0
  escw := 0
  runw := 0
  gthr := 0x2D28200F
  gwid := 0x00952D8D
  dqmult := 0x00010000
  nseed := 1
  nmul := 0x0004CB2F
  ninc := 1
  nshift := 15
  nidx := 0
  ntsize := 8192
  mdtrig := 0
  mdtw := 0
  wpb := 0
  wcb := 0
  wnb := 0
  wdir := 0
  cgain := 0x26DD3B6A
  cstages := 24

/-- CTRL, STATUS, FAULTPC and FAULTINFO after reset (70_reset R565). -/
def ControlRegs.reset : ControlRegs where
  irqen := false
  busy := false
  done := false
  fault := false
  herr := false
  cause := .none
  faultpc := 0
  faultinfo := 0

/-- The state right after reset of a block whose LMEM_SIZE is 2^(12 + n) (70_reset R560 to R565). The general registers are
unspecified there (R561); 0 is a DESIGN CHOICE (log entry 1, unsafe). No LMEM byte holds a value (R564; log entry 2). -/
def State.resetOf (n : Fin 9) : State where
  regs := Vector.replicate 16 0#32
  pc := 0
  sr := SpecialRegs.reset
  ctl := ControlRegs.reset
  abortPending := false
  lmemLog := n
  mem := []

/-- Reset with the spec's default LMEM_SIZE, 262144 = 2^18 (00_scope R12; log entry 3). -/
def State.reset : State := State.resetOf 6

end Sys2Proof.Machine
end

