-- ==== Sys2Proof/Machine/Flags.lean ====
section
/-! DEFINITION. Machine/Flags.lean: saturation (00_scope R23) and the four sticky ASTAT flags (10_state R52). -/

namespace Sys2Proof.Machine

/-- ASTAT bit 0: a saturation clamped a result. -/
def flagSat : BitVec 4 := 1#4
/-- ASTAT bit 1: a divide had a zero divisor. -/
def flagDz : BitVec 4 := 2#4
/-- ASTAT bit 2: FSQRT of a negative operand. -/
def flagNv : BitVec 4 := 4#4
/-- ASTAT bit 3: VLCDEC met a table miss. -/
def flagVlcm : BitVec 4 := 8#4

/-- 2^(n-1), the first integer above the range of a signed n-bit number (n >= 1). -/
def satLimit (n : Nat) : Int := ((2 ^ (n - 1) : Nat) : Int)

/-- sat_n(v), n >= 1: clamp to [-2^(n-1), 2^(n-1) - 1]. -/
def sat (n : Nat) (v : Int) : Int :=
  if v < -satLimit n then -satLimit n else if v < satLimit n then v else satLimit n - 1

/-- Whether sat_n(v) clamps. -/
def clamps (n : Nat) (v : Int) : Bool := v < -satLimit n || satLimit n ≤ v

/-- usat_32(v): clamp to [0, 2^32 - 1]. -/
def usat32 (v : Int) : Int := if v < 0 then 0 else if v < 4294967296 then v else 4294967295

/-- Whether usat_32(v) clamps. -/
def uclamps32 (v : Int) : Bool := v < 0 || 4294967296 ≤ v

/-- The ASTAT bits an instruction sets when one of its saturations clamped. -/
def satFlag (clamped : Bool) : BitVec 4 := if clamped then flagSat else 0

/-- OR sticky flags into ASTAT (10_state R52). -/
def orFlags (s : State) (f : BitVec 4) : State := { s with sr := { s.sr with astat := s.sr.astat ||| f } }

end Sys2Proof.Machine
end

