-- ==== Sys2Proof/Machine/Operands.lean ====
section
/-! DEFINITION. Machine/Operands.lean: how operands are read and written: general registers, register pairs, immediates, effective
addresses, and the number conversions of 00_scope R22. -/

namespace Sys2Proof.Machine

/-! ## Integers and bit patterns (00_scope R22) -/

/-- `v >> k` on a mathematical integer: floor(v / 2^k). -/
def asr (v : Int) (k : Nat) : Int := v / ((2 ^ k : Nat) : Int)

/-- u32(v): the low 32 bits of a mathematical integer. -/
def u32 (v : Int) : Word := BitVec.ofInt 32 v

/-- s32(w): a 32-bit pattern read as two's complement. -/
def s32 (w : Word) : Int := w.toInt

/-! ## General registers (10_state R41, R42) -/

/-- `x[r]` (00_scope R24). -/
def reg (s : State) (r : Reg) : Word := s.regs.get r

/-- `sx[r]` (00_scope R24). -/
def sreg (s : State) (r : Reg) : Int := s32 (reg s r)

/-- `x[r] <- v` (00_scope R24). -/
def setReg (s : State) (r : Reg) (v : Word) : State := { s with regs := s.regs.set r v }

/-! ## Register pairs (10_state R43) -/

/-- The even register of a pair, bits 31:0. -/
def pairLo (p : Pair) : Reg := ⟨2 * p.val, by omega⟩

/-- The odd register of a pair, bits 63:32. -/
def pairHi (p : Pair) : Reg := ⟨2 * p.val + 1, by omega⟩

/-- `pair[p]`: the signed 64-bit value of the pair (00_scope R24). -/
def pair (s : State) (p : Pair) : Int := (reg s (pairHi p) ++ reg s (pairLo p) : DWord).toInt

/-- `pair[p] <- v` (00_scope R24). -/
def setPair (s : State) (p : Pair) (v : Int) : State :=
  setReg (setReg s (pairLo p) (u32 v)) (pairHi p) (u32 (asr v 32))

/-! ## Immediates and addresses (30_encoding R147) -/

/-- sext_18(IMM18). -/
def sext18 (imm : BitVec 18) : Word := imm.signExtend 32

/-- zext_18(IMM18). -/
def zext18 (imm : BitVec 18) : Word := imm.zeroExtend 32

/-- The target of a branch or JAL: pc + 4 * sext_18(IMM18), modulo 2^32. -/
def branchTarget (pc : Word) (off : BitVec 18) : Word := pc + 4 * off.signExtend 32

/-- The target of J: pc + 4 * sext_26(OFF26), modulo 2^32. -/
def jumpTarget (pc : Word) (off : BitVec 26) : Word := pc + 4 * off.signExtend 32

/-- The effective address of a load or store: u32(x[B] + sext_18(IMM18)) (49_loadstore R468). -/
def effAddr (s : State) (rb : Reg) (imm : BitVec 18) : Word := reg s rb + sext18 imm

/-- The address of entry k of a table of words at `base`, the sum taken modulo 2^32 before any check: address arithmetic wraps (00_scope R20,
90_conflicts C3, decision D10 of 92_eei_decisions). DEDUCED (log entry 18): the window directory (46_window R362) and the run-level table
(44_spectral R303), whose own rules name no width. A VLC entry (43_vlc R282) is a mathematical integer instead. -/
def entryAddr (base : Word) (k : Nat) : Nat := (base.toNat + 4 * k) % 2 ^ 32

end Sys2Proof.Machine
end

