-- ==== Sys2Proof/Machine/Ops.lean ====
section
/-! DEFINITION. Machine/Ops.lean: the shared operations: LMEM bytes, checked accesses, region checks, fault entry, completion, loops,
and reading and writing special registers. -/

namespace Sys2Proof.Machine

/-! ## LMEM as a canonical list (20_memory R100) -/

/-- The byte at an address; none when nothing has written it (70_reset R564; log entry 2). -/
def memGet (a : Nat) : Memory → Option Byte
  | [] => none
  | c :: m => if a = c.1 then some c.2 else memGet a m

/-- Write one byte, keeping addresses strictly rising. -/
def memPut (a : Nat) (v : Byte) : Memory → Memory
  | [] => [(a, v)]
  | c :: m => if a < c.1 then (a, v) :: c :: m else if a = c.1 then (a, v) :: m else c :: memPut a v m

/-- Every address is at least `lo` and addresses rise strictly. -/
def Memory.risesFrom : Nat → Memory → Bool
  | _, [] => true
  | lo, c :: m => decide (lo ≤ c.1) && Memory.risesFrom (c.1 + 1) m

/-- The canonical form: addresses strictly rising. An unlisted address reads as no value, so no entry can equal what it reads as. -/
def Memory.wf (m : Memory) : Bool := Memory.risesFrom 0 m

/-- LMEM_SIZE in bytes (00_scope R12). -/
def lmemSize (s : State) : Nat := 2 ^ (12 + s.lmemLog.val)

/-! ## Ending an instruction early (00_scope R26) -/

/-- Why the pseudocode of an instruction does not reach its end. -/
inductive Stop where
  /-- `raise c(info)`: a fault of the block (60_exceptions R501); `info` is a mathematical integer. -/
  | raise (c : Cause) (info : Nat)
  /-- A stop of the model. -/
  | stuck (f : Fault)
deriving DecidableEq, Repr

/-- The result of a piece of pseudocode. -/
abbrev Run (α : Type) := Except Stop α

/-- `raise c(info)`. -/
def raise {α : Type} (c : Cause) (info : Nat) : Run α := .error (.raise c info)

/-- Run `f i` for i = start, start + 1, ..., `count` times, each on the state the previous one left (00_scope R27). -/
def forFrom {σ : Type} (f : Nat → σ → Run σ) : Nat → Nat → σ → Run σ
  | _, 0, st => .ok st
  | start, count + 1, st =>
    match f start st with
    | .ok st' => forFrom f (start + 1) count st'
    | .error e => .error e

/-! ## LMEM accesses (20_memory R104 to R107) -/

/-- One byte; a byte that nothing has written stops the model. -/
def readByte (m : Memory) (a : Nat) : Run Byte :=
  match memGet a m with
  | some b => .ok b
  | none => .error (.stuck (.unwrittenByte a))

/-- The unsigned little-endian value of the n bytes at `a` (20_memory R106), without checks. -/
def readLE (m : Memory) (a : Nat) : Nat → Run Nat
  | 0 => .ok 0
  | n + 1 =>
    match readByte m a with
    | .error e => .error e
    | .ok b =>
      match readLE m (a + 1) n with
      | .error e => .error e
      | .ok r => .ok (b.toNat + 256 * r)

/-- Write the low 8n bits of `v` little-endian at `a` (20_memory R106), without checks. -/
def writeLE (m : Memory) (a : Nat) : Nat → Nat → Memory
  | 0, _ => m
  | n + 1, v => writeLE (memPut a (BitVec.ofNat 8 v) m) (a + 1) n (v / 256)

/-- Alignment (R104), then bounds (R105), of an access of `n` bytes at `a`. -/
def checkAccess (size a n : Nat) : Run Unit :=
  if a % n ≠ 0 then raise .dalign a else if size < a + n then raise .daddr a else .ok ()

/-- MemRead(a, n) (00_scope R25). -/
def memRead (size : Nat) (m : Memory) (a n : Nat) : Run Nat :=
  match checkAccess size a n with
  | .error e => .error e
  | .ok _ => readLE m a n

/-- MemWrite(a, n, v) (00_scope R25). -/
def memWrite (size : Nat) (m : Memory) (a n v : Nat) : Run Memory :=
  match checkAccess size a n with
  | .error e => .error e
  | .ok _ => .ok (writeLE m a n v)

/-- Region(base, nbytes, align) (20_memory R107). -/
def region (size base nbytes align : Nat) : Run Unit :=
  if nbytes = 0 then .ok ()
  else if base % align ≠ 0 then raise .dalign base
  else if size < base + nbytes then raise .daddr base
  else .ok ()

/-- `W(a)` of an element that a region check already covers: the signed word at `a`. -/
def loadW (m : Memory) (a : Nat) : Run Int :=
  match readLE m a 4 with
  | .error e => .error e
  | .ok v => .ok (s32 (BitVec.ofNat 32 v))

/-- `W(a) <- v` of an element that a region check already covers. -/
def storeW (m : Memory) (a : Nat) (v : Int) : Memory := writeLE m a 4 (u32 v).toNat

/-! ## Completing an instruction, and taking a fault -/

/-- `pc <- u32(pc + 4)` (10_state R46). -/
def advance (s : State) : State := { s with pc := s.pc + 4 }

/-- `pc <- target` (10_state R46). -/
def jumpTo (s : State) (target : Word) : State := { s with pc := target }

/-- The 32-bit FAULTINFO of a fault's information value: the value itself when it fits (60_exceptions R502); a free value when it does
not (log entry 6). -/
def faultInfoWord (info : Nat) : Word := if info < 2 ^ 32 then BitVec.ofNat 32 info else Config.wideFaultInfo info

/-- Fault entry (60_exceptions R501): BUSY <- 0, FAULT <- 1, CAUSE, FAULTPC and FAULTINFO recorded; nothing else changes. -/
def takeFault (c : Cause) (fpc : Word) (info : Nat) (s : State) : State :=
  { s with ctl := { s.ctl with busy := false, fault := true, cause := c, faultpc := fpc, faultinfo := faultInfoWord info } }

/-- End an instruction whose pseudocode ran from state `s` (with the LMEM writes it made so far): its next state, the fault entry of
the fault it raised, at its own address (60_exceptions R501, R503), or the model's stop. -/
def conclude (s : State) : Run State → Host.Outcome State Fault Refusal
  | .ok t => .next t
  | .error (.raise c info) => .next (takeFault c s.pc info s)
  | .error (.stuck f) => .fault f

/-- HALT's effect on STATUS (60_exceptions R506). -/
def endRun (s : State) : State := { s with ctl := { s.ctl with busy := false, done := true } }

/-! ## Special registers (10_state R49, R50) -/

/-- The 32-bit value a special register reads as: unused bits are 0. -/
def readSr (s : State) : SReg → Word
  | .bsbase => s.sr.bsbase
  | .bslen => s.sr.bslen
  | .bspos => s.sr.bspos
  | .astat => s.sr.astat.zeroExtend 32
  | .ncoef => s.sr.ncoef
  | .rltab => s.sr.rltab
  | .escw => s.sr.escw.zeroExtend 32
  | .runw => s.sr.runw.zeroExtend 32
  | .gthr => s.sr.gthr
  | .gwid => s.sr.gwid.zeroExtend 32
  | .dqmult => s.sr.dqmult
  | .nseed => s.sr.nseed
  | .nmul => s.sr.nmul
  | .ninc => s.sr.ninc
  | .nshift => s.sr.nshift.zeroExtend 32
  | .nidx => s.sr.nidx
  | .ntsize => s.sr.ntsize
  | .mdtrig => s.sr.mdtrig
  | .mdtw => s.sr.mdtw
  | .wcfg => 0#11 ++ s.sr.wnb ++ 0#3 ++ s.sr.wcb ++ 0#3 ++ s.sr.wpb
  | .wdir => s.sr.wdir
  | .cgain => s.sr.cgain
  | .cstages => s.sr.cstages.zeroExtend 32

/-- A write of a special register, legalised by its row of 10_state R49: the used bits are stored, the others dropped; BSPOS is clamped
to BSLEN (R51); BSBASE and BSLEN are not writable. -/
def writeSr (s : State) (r : SReg) (v : Word) : State :=
  match r with
  | .bsbase => s
  | .bslen => s
  | .bspos => { s with sr := { s.sr with bspos := if v.toNat ≤ s.sr.bslen.toNat then v else s.sr.bslen } }
  | .astat => { s with sr := { s.sr with astat := v.extractLsb' 0 4 } }
  | .ncoef => { s with sr := { s.sr with ncoef := v } }
  | .rltab => { s with sr := { s.sr with rltab := v } }
  | .escw => { s with sr := { s.sr with escw := v.extractLsb' 0 5 } }
  | .runw => { s with sr := { s.sr with runw := v.extractLsb' 0 5 } }
  | .gthr => { s with sr := { s.sr with gthr := v } }
  | .gwid => { s with sr := { s.sr with gwid := v.extractLsb' 0 25 } }
  | .dqmult => { s with sr := { s.sr with dqmult := v } }
  | .nseed => { s with sr := { s.sr with nseed := v } }
  | .nmul => { s with sr := { s.sr with nmul := v } }
  | .ninc => { s with sr := { s.sr with ninc := v } }
  | .nshift => { s with sr := { s.sr with nshift := v.extractLsb' 0 5 } }
  | .nidx => { s with sr := { s.sr with nidx := v } }
  | .ntsize => { s with sr := { s.sr with ntsize := v } }
  | .mdtrig => { s with sr := { s.sr with mdtrig := v } }
  | .mdtw => { s with sr := { s.sr with mdtw := v } }
  | .wcfg => { s with sr := { s.sr with wpb := v.extractLsb' 0 5, wcb := v.extractLsb' 8 5, wnb := v.extractLsb' 16 5 } }
  | .wdir => { s with sr := { s.sr with wdir := v } }
  | .cgain => { s with sr := { s.sr with cgain := v } }
  | .cstages => { s with sr := { s.sr with cstages := v.extractLsb' 0 5 } }

/-! ## Array commands -/

/-- What the loop of an array command carries: LMEM as written so far, and whether a saturation has clamped. -/
structure Work where
  mem : Memory
  clamped : Bool
deriving DecidableEq, Repr

/-- The work an array command starts from. -/
def startWork (s : State) : Work := ⟨s.mem, false⟩

/-- Commit an array command that writes LMEM and ASTAT only (10_state R46, R52). -/
def commitWork (s : State) (w : Work) : State := advance (orFlags { s with mem := w.mem } (satFlag w.clamped))

end Sys2Proof.Machine
end

