-- ==== Sys2Proof/Machine/BitReader.lean ====
section
/-! DEFINITION. Machine/BitReader.lean: 42_bitreader: the stream primitives and the eight bit-reader instructions. The primitives take
the LMEM contents apart from the state, because RLDEC reads the stream between its own writes (R263). -/

namespace Sys2Proof.Machine

/-- `bit(k)` (R251): 0 at or past BSLEN; else the stream's bit k, most significant bit of each byte first. -/
def bit (s : State) (m : Memory) (k : Nat) : Run Bool :=
  if s.sr.bslen.toNat ≤ k then .ok false
  else
    match memRead (lmemSize s) m (s.sr.bsbase.toNat + k / 8) 1 with
    | .error e => .error e
    | .ok b => .ok (b.testBit (7 - k % 8))

/-- The loop of peekbits (R252), with the value read so far. -/
def peekLoop (s : State) (m : Memory) : Nat → Nat → Nat → Run Nat
  | _, 0, v => .ok v
  | pos, n + 1, v =>
    match bit s m pos with
    | .error e => .error e
    | .ok b => peekLoop s m (pos + 1) n (2 * v + b.toNat)

/-- `peekbits(pos, n)` (R252). -/
def peekBits (s : State) (m : Memory) (pos n : Nat) : Run Nat := peekLoop s m pos n 0

/-- `takebits(pos, n)` (R253): the value and the new position, or BSOVR. -/
def takeBits (s : State) (m : Memory) (pos n : Nat) : Run (Nat × Nat) :=
  if s.sr.bslen.toNat < pos + n then raise .bsovr pos
  else
    match peekBits s m pos n with
    | .error e => .error e
    | .ok v => .ok (v, pos + n)

/-- Commit a cursor position (R253). -/
def setPos (s : State) (pos : Nat) : State := { s with sr := { s.sr with bspos := BitVec.ofNat 32 pos } }

/-- BSINIT (R254). -/
def execBsinit (rbase rlen : Reg) (s : State) : Host.Outcome State Fault Refusal :=
  let base := reg s rbase
  let len := reg s rlen
  conclude s <|
    if 0 < len.toNat ∧ lmemSize s < base.toNat + (len.toNat + 7) / 8 then raise .daddr base.toNat
    else .ok (advance { s with sr := { s.sr with bsbase := base, bslen := len, bspos := 0 } })

/-- The common part of PEEK and PEEKR: `n` bits at BSPOS into x[rd], the cursor unmoved. -/
def peekInto (rd : Reg) (n : Nat) (s : State) : Run State :=
  match peekBits s s.mem s.sr.bspos.toNat n with
  | .error e => .error e
  | .ok v => .ok (advance (setReg s rd (BitVec.ofNat 32 v)))

/-- The common part of READ and READR: `n` bits at BSPOS into x[rd], the cursor moved past them. -/
def readInto (rd : Reg) (n : Nat) (s : State) : Run State :=
  match takeBits s s.mem s.sr.bspos.toNat n with
  | .error e => .error e
  | .ok r => .ok (advance (setPos (setReg s rd (BitVec.ofNat 32 r.1)) r.2))

/-- The common part of SKIP and SKIPR. -/
def skipBits (n : Nat) (s : State) : Run State :=
  if s.sr.bslen.toNat < s.sr.bspos.toNat + n then raise .bsovr s.sr.bspos.toNat
  else .ok (advance (setPos s (s.sr.bspos.toNat + n)))

/-- PEEK (R255). -/
def execPeek (rd : Reg) (n : BitVec 6) (s : State) : Host.Outcome State Fault Refusal := conclude s (peekInto rd n.toNat s)

/-- PEEKR (R256). -/
def execPeekr (rd rn : Reg) (s : State) : Host.Outcome State Fault Refusal :=
  conclude s <| if 32 < (reg s rn).toNat then raise .oprange (reg s rn).toNat else peekInto rd (reg s rn).toNat s

/-- READ (R257). -/
def execRead (rd : Reg) (n : BitVec 6) (s : State) : Host.Outcome State Fault Refusal := conclude s (readInto rd n.toNat s)

/-- READR (R258). -/
def execReadr (rd rn : Reg) (s : State) : Host.Outcome State Fault Refusal :=
  conclude s <| if 32 < (reg s rn).toNat then raise .oprange (reg s rn).toNat else readInto rd (reg s rn).toNat s

/-- SKIP (R259). -/
def execSkip (n : BitVec 6) (s : State) : Host.Outcome State Fault Refusal := conclude s (skipBits n.toNat s)

/-- SKIPR (R260): any count. -/
def execSkipr (rn : Reg) (s : State) : Host.Outcome State Fault Refusal := conclude s (skipBits (reg s rn).toNat s)

/-- ALIGN (R261): to 8 * ceil(BSPOS / 8). -/
def execAlign (s : State) : Host.Outcome State Fault Refusal :=
  let t := 8 * ((s.sr.bspos.toNat + 7) / 8)
  conclude s <|
    if s.sr.bslen.toNat < t then raise .bsovr s.sr.bspos.toNat else .ok (advance (setPos s t))

end Sys2Proof.Machine
end

