-- ==== Sys2Proof/Machine/Control.lean ====
section
/-! DEFINITION. Machine/Control.lean: 47_control: HALT, NOP, jumps, branches, special-register moves. -/

namespace Sys2Proof.Machine

/-- The end of a branch (47_control R405 to R410): to the target when taken, else to the next word. -/
def branch (taken : Bool) (off : BitVec 18) (s : State) : Host.Outcome State Fault Refusal :=
  .next (if taken then jumpTo s (branchTarget s.pc off) else advance s)

/-- HALT (R400). -/
def execHalt (s : State) : Host.Outcome State Fault Refusal := .next (endRun (advance s))

/-- NOP (R401). -/
def execNop (s : State) : Host.Outcome State Fault Refusal := .next (advance s)

/-- J (R402). -/
def execJ (off : BitVec 26) (s : State) : Host.Outcome State Fault Refusal := .next (jumpTo s (jumpTarget s.pc off))

/-- JAL (R403). -/
def execJal (rd : Reg) (off : BitVec 18) (s : State) : Host.Outcome State Fault Refusal :=
  .next (jumpTo (setReg s rd (s.pc + 4)) (branchTarget s.pc off))

/-- JR (R404). -/
def execJr (rs : Reg) (s : State) : Host.Outcome State Fault Refusal := .next (jumpTo s (reg s rs))

/-- BEQ (R405). -/
def execBeq (ra rb : Reg) (off : BitVec 18) (s : State) : Host.Outcome State Fault Refusal :=
  branch (reg s ra == reg s rb) off s

/-- BNE (R406). -/
def execBne (ra rb : Reg) (off : BitVec 18) (s : State) : Host.Outcome State Fault Refusal :=
  branch (reg s ra != reg s rb) off s

/-- BLT (R407), signed. -/
def execBlt (ra rb : Reg) (off : BitVec 18) (s : State) : Host.Outcome State Fault Refusal :=
  branch (sreg s ra < sreg s rb) off s

/-- BGE (R408), signed. -/
def execBge (ra rb : Reg) (off : BitVec 18) (s : State) : Host.Outcome State Fault Refusal :=
  branch (sreg s rb ≤ sreg s ra) off s

/-- BLTU (R409), unsigned. -/
def execBltu (ra rb : Reg) (off : BitVec 18) (s : State) : Host.Outcome State Fault Refusal :=
  branch ((reg s ra).toNat < (reg s rb).toNat) off s

/-- BGEU (R410), unsigned. -/
def execBgeu (ra rb : Reg) (off : BitVec 18) (s : State) : Host.Outcome State Fault Refusal :=
  branch ((reg s rb).toNat ≤ (reg s ra).toNat) off s

/-- MFS (R411). -/
def execMfs (rd : Reg) (sr : SReg) (s : State) : Host.Outcome State Fault Refusal :=
  .next (advance (setReg s rd (readSr s sr)))

/-- MTS (R412). -/
def execMts (sr : SReg) (rs : Reg) (s : State) : Host.Outcome State Fault Refusal :=
  .next (advance (writeSr s sr (reg s rs)))

end Sys2Proof.Machine
end

