-- ==== Sys2Proof/Machine/FixedPoint.lean ====
section
/-! DEFINITION. Machine/FixedPoint.lean: 41_fixedpoint: Q16.16 and Q16.48 arithmetic and CORDIC, each exact, rounded once, saturated
(R200); none touches LMEM and none faults. -/

namespace Sys2Proof.Machine

/-- Saturate an exact result into x[rd], record SAT, go on (R200). -/
def fxResult (rd : Reg) (v : Int) (s : State) : Host.Outcome State Fault Refusal :=
  .next (advance (orFlags (setReg s rd (u32 (sat 32 v))) (satFlag (clamps 32 v))))

/-- Write a value into x[rd] and OR its sticky flags in (R203, R204). -/
def fxPut (rd : Reg) (v : Word) (f : BitVec 4) (s : State) : Host.Outcome State Fault Refusal :=
  .next (advance (orFlags (setReg s rd v) f))

/-- Saturate an exact result into pair[pd], record SAT, go on (R208 to R210). -/
def wideResult (pd : Pair) (v : Int) (s : State) : Host.Outcome State Fault Refusal :=
  .next (advance (orFlags (setPair s pd (sat 64 v)) (satFlag (clamps 64 v))))

/-- FMUL (R201): floor. -/
def execFmul (rd rs rt : Reg) (s : State) : Host.Outcome State Fault Refusal :=
  fxResult rd (asr (sreg s rs * sreg s rt) 16) s

/-- FMULR (R202): round half up. -/
def execFmulr (rd rs rt : Reg) (s : State) : Host.Outcome State Fault Refusal :=
  fxResult rd (asr (sreg s rs * sreg s rt + 32768) 16) s

/-- FDIV (R203): toward zero; a zero divisor gives 0x7FFFFFFF and DZ. -/
def execFdiv (rd rs rt : Reg) (s : State) : Host.Outcome State Fault Refusal :=
  if sreg s rt = 0 then fxPut rd 0x7FFFFFFF#32 flagDz s
  else fxResult rd ((sreg s rs * 65536).tdiv (sreg s rt)) s

/-- The loop of isqrt_dd (R205), `count` iterations left, the next with k = count - 1. -/
def isqrtLoop : Nat → Nat → Nat → Nat
  | 0, _, root => root
  | k + 1, rem, root =>
    let b := 4 ^ k
    if root + b ≤ rem then isqrtLoop k (rem - (root + b)) (root / 2 + b) else isqrtLoop k rem (root / 2)

/-- isqrt_dd(v) for 0 <= v < 2^48 (R205). -/
def isqrtDd (v : Nat) : Nat := isqrtLoop 24 v 0

/-- FSQRT (R204): a negative operand gives 0x80000000 and NV. -/
def execFsqrt (rd rs : Reg) (s : State) : Host.Outcome State Fault Refusal :=
  if sreg s rs < 0 then fxPut rd 0x80000000#32 flagNv s
  else fxPut rd (BitVec.ofNat 32 (isqrtDd ((sreg s rs).toNat * 65536))) 0 s

/-- FADD (R206). -/
def execFadd (rd rs rt : Reg) (s : State) : Host.Outcome State Fault Refusal := fxResult rd (sreg s rs + sreg s rt) s

/-- FSUB (R207). -/
def execFsub (rd rs rt : Reg) (s : State) : Host.Outcome State Fault Refusal := fxResult rd (sreg s rs - sreg s rt) s

/-- WMUL (R208). -/
def execWmul (pd ps : Pair) (rt : Reg) (s : State) : Host.Outcome State Fault Refusal :=
  wideResult pd (asr (pair s ps * sreg s rt) 16) s

/-- WMULW (R209). -/
def execWmulw (pd ps pt : Pair) (s : State) : Host.Outcome State Fault Refusal :=
  wideResult pd (asr (pair s ps * pair s pt) 48) s

/-- WDIV (R210): a zero divisor gives 0x7FFFFFFFFFFFFFFF and DZ. -/
def execWdiv (pd ps pt : Pair) (s : State) : Host.Outcome State Fault Refusal :=
  if pair s pt = 0 then .next (advance (orFlags (setPair s pd 0x7FFFFFFFFFFFFFFF) flagDz))
  else wideResult pd ((pair s ps * 281474976710656).tdiv (pair s pt)) s

/-- WEXT (R211): exact. -/
def execWext (pd : Pair) (rs : Reg) (s : State) : Host.Outcome State Fault Refusal :=
  .next (advance (setPair s pd (sreg s rs * 4294967296)))

/-- WNRW (R212): floor. -/
def execWnrw (rd : Reg) (ps : Pair) (s : State) : Host.Outcome State Fault Refusal :=
  .next (advance (setReg s rd (u32 (asr (pair s ps) 32))))

/-- ATAN[i] for i = 0 to 30, in phase units (R213). -/
def atanTable : List Int :=
  [536870912, 316933406, 167458907, 85004756, 42667331, 21354465, 10679838, 5340245,
   2670163, 1335087, 667544, 333772, 166886, 83443, 41722, 20861,
   10430, 5215, 2608, 1304, 652, 326, 163, 81,
   41, 20, 10, 5, 3, 1, 1]

/-- ATAN[i]; CSTAGES is at most 31, so i is at most 30. -/
def atan (i : Nat) : Int := atanTable.getD i 0

/-- One CORDIC stage (R214): (xc, yc, z) to the next. -/
def cordicStage (i : Nat) (t : Int × Int × Int) : Int × Int × Int :=
  if 0 ≤ t.2.2 then (t.1 - asr t.2.1 i, t.2.1 + asr t.1 i, t.2.2 - atan i)
  else (t.1 + asr t.2.1 i, t.2.1 - asr t.1 i, t.2.2 + atan i)

/-- Stages start, start + 1, ..., `count` of them. -/
def cordicLoop : Nat → Nat → Int × Int × Int → Int × Int × Int
  | _, 0, t => t
  | start, count + 1, t => cordicLoop (start + 1) count (cordicStage start t)

/-- (c, s): the rotation result folded into its quadrant (R214). -/
def quadrantFold (q : Nat) (xc yc : Int) : Int × Int :=
  if q = 0 then (xc, yc) else if q = 1 then (-yc, xc) else if q = 2 then (-xc, -yc) else (yc, -xc)

/-- The exact (cosine, sine) of a phase before saturation (R214). -/
def cordic (cgain : Int) (stages : Nat) (phase : Nat) : Int × Int :=
  let t := cordicLoop 0 stages (cgain, 0, ((phase % 1073741824 : Nat) : Int))
  quadrantFold (phase / 1073741824) t.1 t.2.1

/-- SINCOS (R214): sine into A, cosine into C, Q2.30. -/
def execSincos (rsin rphase rcos : Reg) (s : State) : Host.Outcome State Fault Refusal :=
  let cs := cordic (s32 s.sr.cgain) s.sr.cstages.toNat (reg s rphase).toNat
  .next (advance (orFlags (setReg (setReg s rsin (u32 (sat 32 cs.2))) rcos (u32 (sat 32 cs.1)))
    (satFlag (clamps 32 cs.2 || clamps 32 cs.1))))

end Sys2Proof.Machine
end

