-- ==== Sys2Proof/Machine/Integer.lean ====
section
/-! DEFINITION. Machine/Integer.lean: 48_integer: arithmetic that wraps modulo 2^32, sets no flag and never faults. -/

namespace Sys2Proof.Machine

/-- Write an integer result and go on: no flag, no fault. -/
def intResult (rd : Reg) (v : Word) (s : State) : Host.Outcome State Fault Refusal := .next (advance (setReg s rd v))

/-- 1 or 0, the result of SLT and SLTU. -/
def boolWord (b : Bool) : Word := if b then 1 else 0

/-- The shift amount of a register shift: x[C][4:0]. -/
def shiftAmount (v : Word) : Nat := (v.extractLsb' 0 5).toNat

/-- `v << k` kept to 32 bits. -/
def shiftLeft (v : Word) (k : Nat) : Word := v <<< k

/-- `v >> k` with zeros shifted in. -/
def shiftRight (v : Word) (k : Nat) : Word := v >>> k

/-- `v >> k` with the sign bit shifted in. -/
def shiftRightArith (v : Word) (k : Nat) : Word := v.sshiftRight k

/-- ADD (R430). -/
def execAdd (rd rs rt : Reg) (s : State) : Host.Outcome State Fault Refusal := intResult rd (reg s rs + reg s rt) s

/-- SUB (R431). -/
def execSub (rd rs rt : Reg) (s : State) : Host.Outcome State Fault Refusal := intResult rd (reg s rs - reg s rt) s

/-- AND (R432). -/
def execAnd (rd rs rt : Reg) (s : State) : Host.Outcome State Fault Refusal := intResult rd (reg s rs &&& reg s rt) s

/-- OR (R433). -/
def execOr (rd rs rt : Reg) (s : State) : Host.Outcome State Fault Refusal := intResult rd (reg s rs ||| reg s rt) s

/-- XOR (R434). -/
def execXor (rd rs rt : Reg) (s : State) : Host.Outcome State Fault Refusal := intResult rd (reg s rs ^^^ reg s rt) s

/-- SLL (R435). -/
def execSll (rd rs rt : Reg) (s : State) : Host.Outcome State Fault Refusal :=
  intResult rd (shiftLeft (reg s rs) (shiftAmount (reg s rt))) s

/-- SRL (R436). -/
def execSrl (rd rs rt : Reg) (s : State) : Host.Outcome State Fault Refusal :=
  intResult rd (shiftRight (reg s rs) (shiftAmount (reg s rt))) s

/-- SRA (R437). -/
def execSra (rd rs rt : Reg) (s : State) : Host.Outcome State Fault Refusal :=
  intResult rd (shiftRightArith (reg s rs) (shiftAmount (reg s rt))) s

/-- SLT (R438), signed. -/
def execSlt (rd rs rt : Reg) (s : State) : Host.Outcome State Fault Refusal :=
  intResult rd (boolWord (sreg s rs < sreg s rt)) s

/-- SLTU (R439), unsigned. -/
def execSltu (rd rs rt : Reg) (s : State) : Host.Outcome State Fault Refusal :=
  intResult rd (boolWord ((reg s rs).toNat < (reg s rt).toNat)) s

/-- ADDI (R440). -/
def execAddi (rd rs : Reg) (imm : BitVec 18) (s : State) : Host.Outcome State Fault Refusal :=
  intResult rd (reg s rs + sext18 imm) s

/-- ANDI (R441). -/
def execAndi (rd rs : Reg) (imm : BitVec 18) (s : State) : Host.Outcome State Fault Refusal :=
  intResult rd (reg s rs &&& zext18 imm) s

/-- ORI (R442). -/
def execOri (rd rs : Reg) (imm : BitVec 18) (s : State) : Host.Outcome State Fault Refusal :=
  intResult rd (reg s rs ||| zext18 imm) s

/-- XORI (R443). -/
def execXori (rd rs : Reg) (imm : BitVec 18) (s : State) : Host.Outcome State Fault Refusal :=
  intResult rd (reg s rs ^^^ zext18 imm) s

/-- LUI (R444). -/
def execLui (rd : Reg) (imm : BitVec 16) (s : State) : Host.Outcome State Fault Refusal :=
  intResult rd (imm ++ 0#16) s

/-- SLLI (R445). -/
def execSlli (rd rs : Reg) (sh : BitVec 5) (s : State) : Host.Outcome State Fault Refusal :=
  intResult rd (shiftLeft (reg s rs) sh.toNat) s

/-- SRLI (R446). -/
def execSrli (rd rs : Reg) (sh : BitVec 5) (s : State) : Host.Outcome State Fault Refusal :=
  intResult rd (shiftRight (reg s rs) sh.toNat) s

/-- SRAI (R447). -/
def execSrai (rd rs : Reg) (sh : BitVec 5) (s : State) : Host.Outcome State Fault Refusal :=
  intResult rd (shiftRightArith (reg s rs) sh.toNat) s

end Sys2Proof.Machine
end

