-- ==== Sys2Proof/Machine/LoadStore.lean ====
section
/-! DEFINITION. Machine/LoadStore.lean: 49_loadstore: base plus signed 18-bit offset, naturally aligned, in bounds. -/

namespace Sys2Proof.Machine

/-- A load of `n` bytes whose unsigned value `v` becomes `ext v` in the destination (R460 to R464). -/
def load (n : Nat) (ext : Nat → Word) (rd rb : Reg) (imm : BitVec 18) (s : State) : Host.Outcome State Fault Refusal :=
  conclude s <|
    match memRead (lmemSize s) s.mem (effAddr s rb imm).toNat n with
    | .error e => .error e
    | .ok v => .ok (advance (setReg s rd (ext v)))

/-- A store of the low `n` bytes of x[A] (R465 to R467). -/
def store (n : Nat) (rv rb : Reg) (imm : BitVec 18) (s : State) : Host.Outcome State Fault Refusal :=
  conclude s <|
    match memWrite (lmemSize s) s.mem (effAddr s rb imm).toNat n (reg s rv).toNat with
    | .error e => .error e
    | .ok m => .ok (advance { s with mem := m })

/-- LB (R460). -/
def execLb (rd rb : Reg) (imm : BitVec 18) (s : State) : Host.Outcome State Fault Refusal :=
  load 1 (fun v => (BitVec.ofNat 8 v).signExtend 32) rd rb imm s

/-- LBU (R461). -/
def execLbu (rd rb : Reg) (imm : BitVec 18) (s : State) : Host.Outcome State Fault Refusal :=
  load 1 (fun v => BitVec.ofNat 32 v) rd rb imm s

/-- LH (R462). -/
def execLh (rd rb : Reg) (imm : BitVec 18) (s : State) : Host.Outcome State Fault Refusal :=
  load 2 (fun v => (BitVec.ofNat 16 v).signExtend 32) rd rb imm s

/-- LHU (R463). -/
def execLhu (rd rb : Reg) (imm : BitVec 18) (s : State) : Host.Outcome State Fault Refusal :=
  load 2 (fun v => BitVec.ofNat 32 v) rd rb imm s

/-- LW (R464). -/
def execLw (rd rb : Reg) (imm : BitVec 18) (s : State) : Host.Outcome State Fault Refusal :=
  load 4 (fun v => BitVec.ofNat 32 v) rd rb imm s

/-- SB (R465). -/
def execSb (rv rb : Reg) (imm : BitVec 18) (s : State) : Host.Outcome State Fault Refusal := store 1 rv rb imm s

/-- SH (R466). -/
def execSh (rv rb : Reg) (imm : BitVec 18) (s : State) : Host.Outcome State Fault Refusal := store 2 rv rb imm s

/-- SW (R467). -/
def execSw (rv rb : Reg) (imm : BitVec 18) (s : State) : Host.Outcome State Fault Refusal := store 4 rv rb imm s

end Sys2Proof.Machine
end

