-- ==== Sys2Proof/Machine/Vlc.lean ====
section
/-! DEFINITION. Machine/Vlc.lean: 43_vlc: the multi-level table lookup and VLCDEC. -/

namespace Sys2Proof.Machine

/-- What a lookup finds (R282): a symbol with the bits its code uses, or a miss at an entry address. -/
inductive VlcResult where
  | leaf (sym total : Nat)
  | miss (ea : Nat)
deriving DecidableEq, Repr

/-- The levels of vlc_lookup (R282) with `left` levels to go (3, 2, 1), `consumed` bits used by earlier levels, entry offset `off` and
index width `w`. The case of no level left is not reached: the third level ends in a leaf, a miss or VLCTBL. -/
def vlcLevels (s : State) (m : Memory) (T pos0 : Nat) : Nat → Nat → Nat → Nat → Run VlcResult
  | 0, _, _, _ => raise .vlctbl T
  | left + 1, consumed, off, w =>
    match peekBits s m (pos0 + consumed) w with
    | .error e => .error e
    | .ok idx =>
      let ea := T + 4 * (off + idx)
      if lmemSize s < ea + 4 then raise .daddr ea
      else
        match memRead (lmemSize s) m ea 4 with
        | .error e => .error e
        | .ok e =>
          if e / 2 ^ 30 = 1 then
            let len := e / 2 ^ 24 % 64
            if len = 0 ∨ w < len then raise .vlctbl ea
            else if s.sr.bslen.toNat < pos0 + (consumed + len) then raise .bsovr pos0
            else .ok (.leaf (e % 65536) (consumed + len))
          else if e / 2 ^ 30 = 2 then
            let w2 := e / 2 ^ 24 % 64
            if left = 0 then raise .vlctbl ea
            else if w2 = 0 ∨ 16 < w2 then raise .vlctbl ea
            else vlcLevels s m T pos0 left (consumed + w) (e % 2 ^ 24) w2
          else .ok (.miss ea)

/-- `vlc_lookup(T, nb, pos0)` (R282). -/
def vlcLookup (s : State) (m : Memory) (T nb pos0 : Nat) : Run VlcResult := vlcLevels s m T pos0 3 0 0 nb

/-- VLCDEC (R283): a symbol, or the sentinel 0xFFFFFFFF with VLCM and the cursor unmoved. -/
def execVlcdec (rd rtab : Reg) (nb : BitVec 5) (s : State) : Host.Outcome State Fault Refusal :=
  let T := (reg s rtab).toNat
  conclude s <|
    if T % 4 ≠ 0 then raise .dalign T
    else
      match vlcLookup s s.mem T nb.toNat s.sr.bspos.toNat with
      | .error e => .error e
      | .ok (.leaf sym total) =>
        .ok (advance (setPos (setReg s rd (BitVec.ofNat 32 sym)) (s.sr.bspos.toNat + total)))
      | .ok (.miss _) => .ok (advance (orFlags (setReg s rd 0xFFFFFFFF#32) flagVlcm))

end Sys2Proof.Machine
end

