-- ==== Sys2Proof/Machine/Spectral.lean ====
section
/-! DEFINITION. Machine/Spectral.lean: 44_spectral: gain, run-level expansion, dequantiser, noise. -/

namespace Sys2Proof.Machine

/-- The check of NCOEF (R300): 1 to 65536, else CFG(4). -/
def checkNcoef (s : State) : Run Unit :=
  if s.sr.ncoef.toNat < 1 ∨ 65536 < s.sr.ncoef.toNat then raise .cfg 4 else .ok ()

/-! ## Gain -/

/-- Bits hi:lo of GTHR or GWID as a number. -/
def subfield (v lo width : Nat) : Nat := v / 2 ^ lo % 2 ^ width

/-- bucket_width(g) (R302): thresholds compared in this order. -/
def bucketWidth (s : State) (g : Nat) : Nat :=
  let t := s.sr.gthr.toNat
  let w := s.sr.gwid.toNat
  if g < subfield t 0 8 then subfield w 0 5
  else if g < subfield t 8 8 then subfield w 5 5
  else if g < subfield t 16 8 then subfield w 10 5
  else if g < subfield t 24 8 then subfield w 15 5
  else subfield w 20 5

/-- The loop of GAIN (R301): (g, position, whether usat_32 clamped). The fuel, BSLEN / 7 + 1, is never short (70_reset R574): when it
is used up the next seven bits run past BSLEN, which is what the last case reports. -/
def gainLoop (s : State) : Nat → Nat → Int → Bool → Run (Int × Nat × Bool)
  | 0, pos, _, _ => raise .bsovr pos
  | fuel + 1, pos, g, clamped =>
    match takeBits s s.mem pos 7 with
    | .error e => .error e
    | .ok r =>
      let g' := usat32 (g + r.1)
      let clamped' := clamped || uclamps32 (g + r.1)
      if r.1 ≠ 127 then .ok (g', r.2, clamped') else gainLoop s fuel r.2 g' clamped'

/-- GAIN (R301): the gain into x[A], its escape width into ESCW. -/
def execGain (rd : Reg) (s : State) : Host.Outcome State Fault Refusal :=
  conclude s <|
    match gainLoop s (s.sr.bslen.toNat / 7 + 1) s.sr.bspos.toNat 1 false with
    | .error e => .error e
    | .ok (g, pos, clamped) =>
      let t := setPos (setReg s rd (u32 g)) pos
      .ok (advance (orFlags { t with sr := { t.sr with escw := BitVec.ofNat 5 (bucketWidth s g.toNat) } } (satFlag clamped)))

/-! ## Run-level expansion -/

/-- One turn of RLDEC's loop up to its write (R303): the end of the block, or a run with a signed level; and the new position. -/
inductive RlCode where
  | endOfBlock (pos : Nat)
  | coef (run : Nat) (v : Int) (pos : Nat)
deriving DecidableEq, Repr

/-- The run, level and position of a symbol other than 1: escape fields for 0, else the run-level table (R303, R304), its entry address
modulo 2^32 (`entryAddr`). -/
def rldecRunLevel (s : State) (m : Memory) (sym pos : Nat) : Run (Nat × Nat × Nat) :=
  if sym = 0 then
    match takeBits s m pos s.sr.escw.toNat with
    | .error e => .error e
    | .ok l =>
      match takeBits s m l.2 s.sr.runw.toNat with
      | .error e => .error e
      | .ok r => .ok (r.1, l.1, r.2)
  else
    let ea := entryAddr s.sr.rltab sym
    if lmemSize s < ea + 4 then raise .daddr ea
    else
      match memRead (lmemSize s) m ea 4 with
      | .error e => .error e
      | .ok e => .ok (e / 65536, e % 65536, pos)

/-- One code of RLDEC, with its sign bit (R303). -/
def rldecCode (s : State) (m : Memory) (T nb pos : Nat) : Run RlCode :=
  match vlcLookup s m T nb pos with
  | .error e => .error e
  | .ok (.miss ea) => raise .vlcmiss ea
  | .ok (.leaf sym total) =>
    if sym = 1 then .ok (.endOfBlock (pos + total))
    else
      match rldecRunLevel s m sym (pos + total) with
      | .error e => .error e
      | .ok (run, level, pos1) =>
        match takeBits s m pos1 1 with
        | .error e => .error e
        | .ok (sign, pos2) => .ok (.coef run (if sign = 1 then (level : Int) else -(level : Int)) pos2)

/-- RLDEC's loop (R303): LMEM as written so far, with the position and write index at the end, or the fault raised. The write index
rises at every turn that does not end the loop, so N turns always suffice (70_reset R574). -/
def rldecLoop (s : State) (cb T nb N : Nat) : Nat → Memory → Nat → Nat → Memory × Run (Nat × Nat)
  | 0, m, pos, p => (m, .ok (p, pos))
  | fuel + 1, m, pos, p =>
    match rldecCode s m T nb pos with
    | .error e => (m, .error e)
    | .ok (.endOfBlock pos1) => (m, .ok (p, pos1))
    | .ok (.coef run v pos1) =>
      if N ≤ p + run then (m, raise .rlovr (p + run))
      else
        let m1 := storeW m (cb + 4 * (p + run)) v
        if p + run + 1 = N then (m1, .ok (p + run + 1, pos1)) else rldecLoop s cb T nb N fuel m1 pos1 (p + run + 1)

/-- Write zero to `count` words from `a` on. -/
def zeroFill (a : Nat) : Nat → Memory → Memory
  | 0, m => m
  | count + 1, m => zeroFill (a + 4) count (storeW m a 0)

/-- RLDEC's checks before its first write, in the order of R303. -/
def rldecChecks (s : State) (cb T : Nat) : Run Unit :=
  match checkNcoef s with
  | .error e => .error e
  | .ok _ =>
    match region (lmemSize s) cb (4 * s.sr.ncoef.toNat) 4 with
    | .error e => .error e
    | .ok _ =>
      if T % 4 ≠ 0 then raise .dalign T
      else if s.sr.rltab.toNat % 4 ≠ 0 then raise .dalign s.sr.rltab.toNat
      else .ok ()

/-- RLDEC (R303). On a fault after the zero-fill, the LMEM writes made so far stay (60_exceptions R505). -/
def execRldec (rd rcoef rtab : Reg) (nb : BitVec 5) (s : State) : Host.Outcome State Fault Refusal :=
  let cb := (reg s rcoef).toNat
  let T := (reg s rtab).toNat
  let N := s.sr.ncoef.toNat
  match rldecChecks s cb T with
  | .error e => conclude s (.error e)
  | .ok _ =>
    let r := rldecLoop s cb T nb.toNat N N (zeroFill cb N s.mem) s.sr.bspos.toNat 0
    let t := { s with mem := r.1 }
    conclude t <|
      match r.2 with
      | .error e => .error e
      | .ok (p, pos) => .ok (advance (setPos (setReg t rd (BitVec.ofNat 32 p)) pos))

/-! ## Dequantiser and noise -/

/-- The last step of DEQ and DEQN: scale by DQMULT, saturate, store (R305, R307). `t` is the exact value before its own saturation. -/
def storeScaled (s : State) (a : Nat) (t : Int) (w : Work) : Work :=
  let r := asr (sat 32 t * s32 s.sr.dqmult) 16
  ⟨storeW w.mem a (sat 32 r), w.clamped || clamps 32 t || clamps 32 r⟩

/-- Element i of DEQ (R305). -/
def deqElem (s : State) (o q e i : Nat) (w : Work) : Run Work :=
  match loadW w.mem (q + 4 * i) with
  | .error x => .error x
  | .ok lev =>
    match loadW w.mem (e + 4 * i) with
    | .error x => .error x
    | .ok sc => .ok (storeScaled s (o + 4 * i) (lev * sc) w)

/-- The checks of DEQ (R305): NCOEF, then out, q, e. -/
def deqChecks (s : State) (o q e : Nat) : Run Unit :=
  match checkNcoef s with
  | .error x => .error x
  | .ok _ =>
    match region (lmemSize s) o (4 * s.sr.ncoef.toNat) 4 with
    | .error x => .error x
    | .ok _ =>
      match region (lmemSize s) q (4 * s.sr.ncoef.toNat) 4 with
      | .error x => .error x
      | .ok _ => region (lmemSize s) e (4 * s.sr.ncoef.toNat) 4

/-- DEQ (R305). -/
def execDeq (rout rq re : Reg) (s : State) : Host.Outcome State Fault Refusal :=
  let o := (reg s rout).toNat
  let q := (reg s rq).toNat
  let e := (reg s re).toNat
  conclude s <|
    match deqChecks s o q e with
    | .error x => .error x
    | .ok _ =>
      match forFrom (deqElem s o q e) 0 s.sr.ncoef.toNat (startWork s) with
      | .error x => .error x
      | .ok w => .ok (commitWork s w)

/-- Element i of DEQN (R307): the noise entry is (NIDX + i) mod NTSIZE. -/
def deqnElem (s : State) (o nz e i : Nat) (w : Work) : Run Work :=
  match loadW w.mem (nz + 4 * ((s.sr.nidx.toNat + i) % s.sr.ntsize.toNat)) with
  | .error x => .error x
  | .ok v =>
    match loadW w.mem (e + 4 * i) with
    | .error x => .error x
    | .ok sc => .ok (storeScaled s (o + 4 * i) (asr (v * sc) 16) w)

/-- The checks of DEQN (R307): NCOEF, NTSIZE, NIDX, then out, noise, e. -/
def deqnChecks (s : State) (o nz e : Nat) : Run Unit :=
  match checkNcoef s with
  | .error x => .error x
  | .ok _ =>
    if s.sr.ntsize.toNat = 0 then raise .cfg 16
    else if s.sr.ntsize.toNat ≤ s.sr.nidx.toNat then raise .cfg 15
    else
      match region (lmemSize s) o (4 * s.sr.ncoef.toNat) 4 with
      | .error x => .error x
      | .ok _ =>
        match region (lmemSize s) nz (4 * s.sr.ntsize.toNat) 4 with
        | .error x => .error x
        | .ok _ => region (lmemSize s) e (4 * s.sr.ncoef.toNat) 4

/-- NIDX after DEQN: advanced NCOEF times modulo NTSIZE (R307). -/
def nextNidx (s : State) : Word := BitVec.ofNat 32 ((s.sr.nidx.toNat + s.sr.ncoef.toNat) % s.sr.ntsize.toNat)

/-- DEQN (R307). -/
def execDeqn (rout rnoise re : Reg) (s : State) : Host.Outcome State Fault Refusal :=
  let o := (reg s rout).toNat
  let nz := (reg s rnoise).toNat
  let e := (reg s re).toNat
  conclude s <|
    match deqnChecks s o nz e with
    | .error x => .error x
    | .ok _ =>
      match forFrom (deqnElem s o nz e) 0 s.sr.ncoef.toNat (startWork s) with
      | .error x => .error x
      | .ok w =>
        let t := commitWork s w
        .ok { t with sr := { t.sr with nidx := nextNidx s } }

/-- One turn of the generator: s * NMUL + NINC modulo 2^32 (R306). -/
def nextNoise (s : State) (x : Word) : Word := x * s.sr.nmul + s.sr.ninc

/-- NGEN's loop (R306): LMEM and the generator word after `count` entries from address `a` on. -/
def ngenLoop (s : State) : Nat → Nat → Memory → Word → Memory × Word
  | _, 0, m, x => (m, x)
  | a, count + 1, m, x =>
    ngenLoop s (a + 4) count (storeW m a (asr (s32 (nextNoise s x)) s.sr.nshift.toNat)) (nextNoise s x)

/-- NGEN (R306). -/
def execNgen (rdst rcnt : Reg) (s : State) : Host.Outcome State Fault Refusal :=
  let d := (reg s rdst).toNat
  let cnt := (reg s rcnt).toNat
  conclude s <|
    match region (lmemSize s) d (4 * cnt) 4 with
    | .error e => .error e
    | .ok _ =>
      let r := ngenLoop s d cnt s.mem s.sr.nseed
      .ok (advance { s with mem := r.1, sr := { s.sr with nseed := r.2 } })

end Sys2Proof.Machine
end

