-- ==== Sys2Proof/Machine/Transform.lean ====
section
/-! DEFINITION. Machine/Transform.lean: 45_transform: bit reversal, the radix-2 butterfly network, inverse MDCT. Elements are read and
written in place, in the order the pseudocode writes them (20_memory R122). -/

namespace Sys2Proof.Machine

/-- Element k of the complex array at z (R330): (real part, imaginary part). -/
def loadC (m : Memory) (z k : Nat) : Run (Int × Int) :=
  match loadW m (z + 8 * k) with
  | .error e => .error e
  | .ok re =>
    match loadW m (z + 8 * k + 4) with
    | .error e => .error e
    | .ok im => .ok (re, im)

/-- `z[k] <- (re, im)` (R330). -/
def storeC (m : Memory) (z k : Nat) (v : Int × Int) : Memory := storeW (storeW m (z + 8 * k) v.1) (z + 8 * k + 4) v.2

/-- The exact real part of a product before saturation (R331). -/
def cmulReExact (a b : Int × Int) : Int := asr (a.1 * b.1 - a.2 * b.2) 30

/-- The exact imaginary part of a product before saturation (R331). -/
def cmulImExact (a b : Int × Int) : Int := asr (a.1 * b.2 + a.2 * b.1) 30

/-- cmul(a, b) (R331). -/
def cmul (a b : Int × Int) : Int × Int := (sat 32 (cmulReExact a b), sat 32 (cmulImExact a b))

/-- Whether cmul(a, b) clamps. -/
def cmulClamps (a b : Int × Int) : Bool := clamps 32 (cmulReExact a b) || clamps 32 (cmulImExact a b)

/-- Saturate both parts. -/
def satC (v : Int × Int) : Int × Int := (sat 32 v.1, sat 32 v.2)

/-- Whether saturating both parts clamps. -/
def clampsC (v : Int × Int) : Bool := clamps 32 v.1 || clamps 32 v.2

/-- rev_m(k): the m low bits of k in reverse order (R332). -/
def bitRev : Nat → Nat → Nat
  | 0, _ => 0
  | m + 1, k => (k % 2) * 2 ^ m + bitRev m (k / 2)

/-! ## BREV -/

/-- Turn k of BREV (R333): swap the 8-byte elements z[k] and z[rev_m(k)] when the latter is higher. -/
def brevElem (z m k : Nat) (mem : Memory) : Run Memory :=
  let j := bitRev m k
  if k < j then
    match loadC mem z k with
    | .error e => .error e
    | .ok a =>
      match loadC mem z j with
      | .error e => .error e
      | .ok b => .ok (storeC (storeC mem z k b) z j a)
  else .ok mem

/-- BREV (R333). -/
def execBrev (rbuf : Reg) (m : BitVec 4) (s : State) : Host.Outcome State Fault Refusal :=
  let z := (reg s rbuf).toNat
  let M := 2 ^ m.toNat
  conclude s <|
    match region (lmemSize s) z (8 * M) 4 with
    | .error e => .error e
    | .ok _ =>
      match forFrom (brevElem z m.toNat) 0 M s.mem with
      | .error e => .error e
      | .ok mem => .ok (advance { s with mem := mem })

/-! ## FFT -/

/-- One butterfly of fft_core (R334): twiddle index t, elements i and i + h, right shift sc. -/
def butterfly (z tw sc t i h : Nat) (w : Work) : Run Work :=
  match loadC w.mem tw t with
  | .error e => .error e
  | .ok wf =>
    match loadC w.mem z i with
    | .error e => .error e
    | .ok a =>
      match loadC w.mem z (i + h) with
      | .error e => .error e
      | .ok b =>
        let p := cmul b wf
        let up := (asr (a.1 + p.1) sc, asr (a.2 + p.2) sc)
        let dn := (asr (a.1 - p.1) sc, asr (a.2 - p.2) sc)
        .ok ⟨storeC (storeC w.mem z i (satC up)) z (i + h) (satC dn),
          w.clamped || cmulClamps b wf || clampsC up || clampsC dn⟩

/-- Stage `st` (1 to m) of fft_core (R334): blocks of L = 2^st elements, j inside each. -/
def fftStage (z tw m sc st : Nat) (w : Work) : Run Work :=
  forFrom (fun blk w =>
    forFrom (fun j w => butterfly z tw sc (j * 2 ^ (m - st)) (blk * 2 ^ st + j) (2 ^ (st - 1)) w) 0 (2 ^ (st - 1)) w)
    0 (2 ^ (m - st)) w

/-- fft_core(z, tw, m, sc) (R334). -/
def fftCore (z tw m sc : Nat) (w : Work) : Run Work := forFrom (fftStage z tw m sc) 1 m w

/-- FFT (R335). -/
def execFft (rbuf rtw : Reg) (m : BitVec 4) (sc : Bool) (s : State) : Host.Outcome State Fault Refusal :=
  let z := (reg s rbuf).toNat
  let tw := (reg s rtw).toNat
  let M := 2 ^ m.toNat
  conclude s <|
    match region (lmemSize s) z (8 * M) 4 with
    | .error e => .error e
    | .ok _ =>
      match region (lmemSize s) tw (4 * M) 4 with
      | .error e => .error e
      | .ok _ =>
        match fftCore z tw m.toNat sc.toNat (startWork s) with
        | .error e => .error e
        | .ok w => .ok (commitWork s w)

/-! ## IMDCT -/

/-- Turn k of the pre-rotation (R336), written into bit-reversed order. -/
def imdctPre (inp tr zb n k : Nat) (w : Work) : Run Work :=
  match loadW w.mem (inp + 4 * (2 ^ (n - 1) - 1 - 2 * k)) with
  | .error e => .error e
  | .ok re =>
    match loadW w.mem (inp + 4 * (2 * k)) with
    | .error e => .error e
    | .ok im =>
      match loadC w.mem tr k with
      | .error e => .error e
      | .ok t => .ok ⟨storeC w.mem zb (bitRev (n - 2) k) (cmul (re, im) t), w.clamped || cmulClamps (re, im) t⟩

/-- Turn k of the post-rotation (R336): elements a = n8 - k - 1 and b = n8 + k, both read before either is written. -/
def imdctPost (tr zb n8 k : Nat) (w : Work) : Run Work :=
  let a := n8 - k - 1
  let b := n8 + k
  match loadC w.mem zb a with
  | .error e => .error e
  | .ok za =>
    match loadC w.mem tr a with
    | .error e => .error e
    | .ok ta =>
      match loadC w.mem zb b with
      | .error e => .error e
      | .ok zb' =>
        match loadC w.mem tr b with
        | .error e => .error e
        | .ok tb =>
          let p := cmul (za.2, za.1) (ta.2, ta.1)
          let q := cmul (zb'.2, zb'.1) (tb.2, tb.1)
          .ok ⟨storeC (storeC w.mem zb a (p.1, q.2)) zb b (q.1, p.2),
            w.clamped || cmulClamps (za.2, za.1) (ta.2, ta.1) || cmulClamps (zb'.2, zb'.1) (tb.2, tb.1)⟩

/-- Turn k of the unpacking (R336): each statement sees the one before it. -/
def imdctUnpack (out n k : Nat) (w : Work) : Run Work :=
  match loadW w.mem (out + 4 * (2 ^ (n - 1) - k - 1)) with
  | .error e => .error e
  | .ok u =>
    let m1 := storeW w.mem (out + 4 * k) (sat 32 (-u))
    match loadW m1 (out + 4 * (2 ^ (n - 1) + k)) with
    | .error e => .error e
    | .ok v => .ok ⟨storeW m1 (out + 4 * (2 ^ n - k - 1)) v, w.clamped || clamps 32 (-u)⟩

/-- The body of IMDCT after its checks (R336), N = 2^n outputs, n >= 3. -/
def imdctCore (out inp tr tw n sc : Nat) (w : Work) : Run Work :=
  let zb := out + 4 * 2 ^ (n - 2)
  match forFrom (imdctPre inp tr zb n) 0 (2 ^ (n - 2)) w with
  | .error e => .error e
  | .ok w1 =>
    match fftCore zb tw (n - 2) sc w1 with
    | .error e => .error e
    | .ok w2 =>
      match forFrom (imdctPost tr zb (2 ^ (n - 3))) 0 (2 ^ (n - 3)) w2 with
      | .error e => .error e
      | .ok w3 => forFrom (imdctUnpack out n) 0 (2 ^ (n - 2)) w3

/-- The checks of IMDCT (R336): out, in, rotation table, twiddle table. -/
def imdctChecks (s : State) (out inp n : Nat) : Run Unit :=
  match region (lmemSize s) out (4 * 2 ^ n) 4 with
  | .error e => .error e
  | .ok _ =>
    match region (lmemSize s) inp (4 * 2 ^ (n - 1)) 4 with
    | .error e => .error e
    | .ok _ =>
      match region (lmemSize s) s.sr.mdtrig.toNat (8 * 2 ^ (n - 2)) 4 with
      | .error e => .error e
      | .ok _ => region (lmemSize s) s.sr.mdtw.toNat (4 * 2 ^ (n - 2)) 4

/-- IMDCT (R336). -/
def execImdct (rout rin : Reg) (n : BitVec 4) (sc : Bool) (s : State) : Host.Outcome State Fault Refusal :=
  let out := (reg s rout).toNat
  let inp := (reg s rin).toNat
  conclude s <|
    match imdctChecks s out inp n.toNat with
    | .error e => .error e
    | .ok _ =>
      match imdctCore out inp s.sr.mdtrig.toNat s.sr.mdtw.toNat n.toNat sc.toNat (startWork s) with
      | .error e => .error e
      | .ok w => .ok (commitWork s w)

end Sys2Proof.Machine
end

