-- ==== Sys2Proof/Machine/Window.lean ====
section
/-! DEFINITION. Machine/Window.lean: 46_window: windowed overlap-add, buffer shift, PCM output. -/

namespace Sys2Proof.Machine

/-- wm(x, w) before saturation: floor of x * w / 2^30 (R361). -/
def wmExact (x w : Int) : Int := asr (x * w) 30

/-! ## WOLA -/

/-- `fp[i] <- sat_32(fp[i] + wm(in[i], WL[k]))` (R362). -/
def overlapElem (fp inp wl i k : Nat) (w : Work) : Run Work :=
  match loadW w.mem (fp + 4 * i) with
  | .error e => .error e
  | .ok f =>
    match loadW w.mem (inp + 4 * i) with
    | .error e => .error e
    | .ok x =>
      match loadW w.mem (wl + 4 * k) with
      | .error e => .error e
      | .ok c =>
        let p := wmExact x c
        let r := f + sat 32 p
        .ok ⟨storeW w.mem (fp + 4 * i) (sat 32 r), w.clamped || clamps 32 p || clamps 32 r⟩

/-- `fo[j] <- wm(io[j], WR[k])` (R362). -/
def tailElem (fo io wr j k : Nat) (w : Work) : Run Work :=
  match loadW w.mem (io + 4 * j) with
  | .error e => .error e
  | .ok x =>
    match loadW w.mem (wr + 4 * k) with
    | .error e => .error e
    | .ok c => .ok ⟨storeW w.mem (fo + 4 * j) (sat 32 (wmExact x c)), w.clamped || clamps 32 (wmExact x c)⟩

/-- `d[i] <- s[i]`, a constant-1 part (R362). -/
def copyElem (d src i : Nat) (w : Work) : Run Work :=
  match loadW w.mem (src + 4 * i) with
  | .error e => .error e
  | .ok x => .ok ⟨storeW w.mem (d + 4 * i) x, w.clamped⟩

/-- `d[i] <- 0`, a constant-0 part (R362). -/
def zeroElem (d i : Nat) (w : Work) : Run Work := .ok ⟨storeW w.mem (d + 4 * i) 0, w.clamped⟩

/-- The left half of WOLA (R362): rising window over the previous block's overlap. -/
def wolaLeft (fp inp wl pb cb : Nat) (w : Work) : Run Work :=
  let B := 2 ^ cb
  if cb ≤ pb then forFrom (fun i w => overlapElem fp inp wl i i w) 0 B w
  else
    let L := 2 ^ pb
    let n := (B - L) / 2
    match forFrom (fun i w => overlapElem fp inp wl i (i - n) w) n L w with
    | .error e => .error e
    | .ok w1 => forFrom (copyElem fp inp) (n + L) (B - (n + L)) w1

/-- The right half of WOLA (R362): falling window, stored for the next block. -/
def wolaRight (fo io wr nb cb : Nat) (w : Work) : Run Work :=
  let B := 2 ^ cb
  if cb ≤ nb then forFrom (fun j w => tailElem fo io wr j (B - 1 - j) w) 0 B w
  else
    let L := 2 ^ nb
    let n := (B - L) / 2
    match forFrom (copyElem fo io) 0 n w with
    | .error e => .error e
    | .ok w1 =>
      match forFrom (fun j w => tailElem fo io wr j (L - 1 - (j - n)) w) n L w1 with
      | .error e => .error e
      | .ok w2 => forFrom (zeroElem fo) (n + L) (B - (n + L)) w2

/-- A WCFG exponent is legal: 1 to 14 (10_state R62). -/
def expOk (b : Nat) : Bool := 1 ≤ b && b ≤ 14

/-- The word of a window directory entry, whose bounds are already checked (R362). -/
def dirEntry (s : State) (k : Nat) : Run Nat := memRead (lmemSize s) s.mem (entryAddr s.sr.wdir k) 4

/-- The checks of WOLA before its first write, in the order of R362; the two window addresses WL and WR. A directory entry's address
WDIR + 4k is modulo 2^32 (`entryAddr`). -/
def wolaChecks (s : State) (fp inp : Nat) : Run (Nat × Nat) :=
  let pb := s.sr.wpb.toNat
  let cb := s.sr.wcb.toNat
  let nb := s.sr.wnb.toNat
  if !(expOk pb && expOk cb && expOk nb) then raise .cfg 19
  else
    match region (lmemSize s) fp (8 * 2 ^ cb) 4 with
    | .error e => .error e
    | .ok _ =>
      match region (lmemSize s) inp (8 * 2 ^ cb) 4 with
      | .error e => .error e
      | .ok _ =>
        if s.sr.wdir.toNat % 4 ≠ 0 then raise .dalign s.sr.wdir.toNat
        else if lmemSize s < entryAddr s.sr.wdir (min cb pb) + 4 then raise .daddr (entryAddr s.sr.wdir (min cb pb))
        else if lmemSize s < entryAddr s.sr.wdir (min cb nb) + 4 then raise .daddr (entryAddr s.sr.wdir (min cb nb))
        else
          match dirEntry s (min cb pb) with
          | .error e => .error e
          | .ok wl =>
            match dirEntry s (min cb nb) with
            | .error e => .error e
            | .ok wr =>
              match region (lmemSize s) wl (4 * 2 ^ min cb pb) 4 with
              | .error e => .error e
              | .ok _ =>
                match region (lmemSize s) wr (4 * 2 ^ min cb nb) 4 with
                | .error e => .error e
                | .ok _ => .ok (wl, wr)

/-- WOLA (R362). -/
def execWola (rfp rin : Reg) (s : State) : Host.Outcome State Fault Refusal :=
  let fp := (reg s rfp).toNat
  let inp := (reg s rin).toNat
  let cb := s.sr.wcb.toNat
  conclude s <|
    match wolaChecks s fp inp with
    | .error e => .error e
    | .ok (wl, wr) =>
      match wolaLeft fp inp wl s.sr.wpb.toNat cb (startWork s) with
      | .error e => .error e
      | .ok w1 =>
        match wolaRight (fp + 4 * 2 ^ cb) (inp + 4 * 2 ^ cb) wr s.sr.wnb.toNat cb w1 with
        | .error e => .error e
        | .ok w2 => .ok (commitWork s w2)

/-! ## FSHIFT -/

/-- Word i of FSHIFT (R364). -/
def fshiftElem (base K L i : Nat) (m : Memory) : Run Memory :=
  if i + K < L then
    match loadW m (base + 4 * (i + K)) with
    | .error e => .error e
    | .ok v => .ok (storeW m (base + 4 * i) v)
  else .ok (storeW m (base + 4 * i) 0)

/-- FSHIFT (R364). -/
def execFshift (rbuf rk rl : Reg) (s : State) : Host.Outcome State Fault Refusal :=
  let base := (reg s rbuf).toNat
  let K := (reg s rk).toNat
  let L := (reg s rl).toNat
  conclude s <|
    match region (lmemSize s) base (4 * L) 4 with
    | .error e => .error e
    | .ok _ =>
      match forFrom (fshiftElem base K L) 0 L s.mem with
      | .error e => .error e
      | .ok m => .ok (advance { s with mem := m })

/-! ## PCMOUT -/

/-- (v + 2^15) >> 16, the exact PCM value before sat_16: round half up (R365). -/
def pcmExact (v : Int) : Int := asr (v + 32768) 16

/-- Sample i of PCMOUT (R365), stride S halfwords. -/
def pcmElem (dst src S i : Nat) (w : Work) : Run Work :=
  match loadW w.mem (src + 4 * i) with
  | .error e => .error e
  | .ok v =>
    .ok ⟨writeLE w.mem (dst + 2 * S * i) 2 (u32 (sat 16 (pcmExact v))).toNat, w.clamped || clamps 16 (pcmExact v)⟩

/-- The checks of PCMOUT (R365): destination, then source; none when cnt = 0. -/
def pcmChecks (s : State) (dst src cnt S : Nat) : Run Unit :=
  if cnt = 0 then .ok ()
  else if dst % 2 ≠ 0 then raise .dalign dst
  else if lmemSize s < dst + 2 * (S * (cnt - 1) + 1) then raise .daddr dst
  else region (lmemSize s) src (4 * cnt) 4

/-- PCMOUT (R365): ch = chm1 + 1 channels. -/
def execPcmout (rdst rsrc rcnt : Reg) (chm1 : BitVec 3) (s : State) : Host.Outcome State Fault Refusal :=
  let dst := (reg s rdst).toNat
  let src := (reg s rsrc).toNat
  let cnt := (reg s rcnt).toNat
  let S := chm1.toNat + 1
  conclude s <|
    match pcmChecks s dst src cnt S with
    | .error e => .error e
    | .ok _ =>
      match forFrom (pcmElem dst src S) 0 cnt (startWork s) with
      | .error e => .error e
      | .ok w => .ok (commitWork s w)

end Sys2Proof.Machine
end

