-- ==== Sys2Proof/Machine/Dispatch.lean ====
section
/-! DEFINITION. Machine/Dispatch.lean: one arm per command, each a direct call of its meaning. -/

namespace Sys2Proof.Machine

def exec (i : Instr) (s : State) : Host.Outcome State Fault Refusal :=
  match i with
  | .halt => Sys2Proof.Machine.execHalt s
  | .nop => Sys2Proof.Machine.execNop s
  | .j off => Sys2Proof.Machine.execJ off s
  | .jal rd off => Sys2Proof.Machine.execJal rd off s
  | .jr rs => Sys2Proof.Machine.execJr rs s
  | .beq ra rb off => Sys2Proof.Machine.execBeq ra rb off s
  | .bne ra rb off => Sys2Proof.Machine.execBne ra rb off s
  | .blt ra rb off => Sys2Proof.Machine.execBlt ra rb off s
  | .bge ra rb off => Sys2Proof.Machine.execBge ra rb off s
  | .bltu ra rb off => Sys2Proof.Machine.execBltu ra rb off s
  | .bgeu ra rb off => Sys2Proof.Machine.execBgeu ra rb off s
  | .mfs rd sr => Sys2Proof.Machine.execMfs rd sr s
  | .mts sr rs => Sys2Proof.Machine.execMts sr rs s
  | .add rd rs rt => Sys2Proof.Machine.execAdd rd rs rt s
  | .sub rd rs rt => Sys2Proof.Machine.execSub rd rs rt s
  | .and rd rs rt => Sys2Proof.Machine.execAnd rd rs rt s
  | .or rd rs rt => Sys2Proof.Machine.execOr rd rs rt s
  | .xor rd rs rt => Sys2Proof.Machine.execXor rd rs rt s
  | .sll rd rs rt => Sys2Proof.Machine.execSll rd rs rt s
  | .srl rd rs rt => Sys2Proof.Machine.execSrl rd rs rt s
  | .sra rd rs rt => Sys2Proof.Machine.execSra rd rs rt s
  | .slt rd rs rt => Sys2Proof.Machine.execSlt rd rs rt s
  | .sltu rd rs rt => Sys2Proof.Machine.execSltu rd rs rt s
  | .addi rd rs imm => Sys2Proof.Machine.execAddi rd rs imm s
  | .andi rd rs imm => Sys2Proof.Machine.execAndi rd rs imm s
  | .ori rd rs imm => Sys2Proof.Machine.execOri rd rs imm s
  | .xori rd rs imm => Sys2Proof.Machine.execXori rd rs imm s
  | .lui rd imm => Sys2Proof.Machine.execLui rd imm s
  | .slli rd rs shamt => Sys2Proof.Machine.execSlli rd rs shamt s
  | .srli rd rs shamt => Sys2Proof.Machine.execSrli rd rs shamt s
  | .srai rd rs shamt => Sys2Proof.Machine.execSrai rd rs shamt s
  | .lb rd rbase imm => Sys2Proof.Machine.execLb rd rbase imm s
  | .lbu rd rbase imm => Sys2Proof.Machine.execLbu rd rbase imm s
  | .lh rd rbase imm => Sys2Proof.Machine.execLh rd rbase imm s
  | .lhu rd rbase imm => Sys2Proof.Machine.execLhu rd rbase imm s
  | .lw rd rbase imm => Sys2Proof.Machine.execLw rd rbase imm s
  | .sb rv rbase imm => Sys2Proof.Machine.execSb rv rbase imm s
  | .sh rv rbase imm => Sys2Proof.Machine.execSh rv rbase imm s
  | .sw rv rbase imm => Sys2Proof.Machine.execSw rv rbase imm s
  | .fmul rd rs rt => Sys2Proof.Machine.execFmul rd rs rt s
  | .fmulr rd rs rt => Sys2Proof.Machine.execFmulr rd rs rt s
  | .fdiv rd rs rt => Sys2Proof.Machine.execFdiv rd rs rt s
  | .fsqrt rd rs => Sys2Proof.Machine.execFsqrt rd rs s
  | .fadd rd rs rt => Sys2Proof.Machine.execFadd rd rs rt s
  | .fsub rd rs rt => Sys2Proof.Machine.execFsub rd rs rt s
  | .wmul pd ps rt => Sys2Proof.Machine.execWmul pd ps rt s
  | .wmulw pd ps pt => Sys2Proof.Machine.execWmulw pd ps pt s
  | .wdiv pd ps pt => Sys2Proof.Machine.execWdiv pd ps pt s
  | .wext pd rs => Sys2Proof.Machine.execWext pd rs s
  | .wnrw rd ps => Sys2Proof.Machine.execWnrw rd ps s
  | .sincos rsin rphase rcos => Sys2Proof.Machine.execSincos rsin rphase rcos s
  | .bsinit rbase rlen => Sys2Proof.Machine.execBsinit rbase rlen s
  | .readr rd rn => Sys2Proof.Machine.execReadr rd rn s
  | .skipr rn => Sys2Proof.Machine.execSkipr rn s
  | .align => Sys2Proof.Machine.execAlign s
  | .peekr rd rn => Sys2Proof.Machine.execPeekr rd rn s
  | .peek rd n => Sys2Proof.Machine.execPeek rd n s
  | .read rd n => Sys2Proof.Machine.execRead rd n s
  | .skip n => Sys2Proof.Machine.execSkip n s
  | .vlcdec rd rtab nb => Sys2Proof.Machine.execVlcdec rd rtab nb s
  | .gain rd => Sys2Proof.Machine.execGain rd s
  | .rldec rd rcoef rtab nb => Sys2Proof.Machine.execRldec rd rcoef rtab nb s
  | .deq rout rq re => Sys2Proof.Machine.execDeq rout rq re s
  | .deqn rout rnoise re => Sys2Proof.Machine.execDeqn rout rnoise re s
  | .ngen rdst rcnt => Sys2Proof.Machine.execNgen rdst rcnt s
  | .brev rbuf m => Sys2Proof.Machine.execBrev rbuf m s
  | .fft rbuf rtw m sc => Sys2Proof.Machine.execFft rbuf rtw m sc s
  | .imdct rout rin n sc => Sys2Proof.Machine.execImdct rout rin n sc s
  | .wola rfp rin => Sys2Proof.Machine.execWola rfp rin s
  | .fshift rbuf rk rl => Sys2Proof.Machine.execFshift rbuf rk rl s
  | .pcmout rdst rsrc rcnt chm1 => Sys2Proof.Machine.execPcmout rdst rsrc rcnt chm1 s

end Sys2Proof.Machine
end

