-- ==== Sys2Proof/WellFormed.lean ====
section
/-! DEFINITION. WellFormed.lean: the operand conditions of 30_encoding R151 that the types of Syntax.lean do not already carry
(a pair field cannot be odd there, and a special-register number cannot be unassigned). -/

namespace Sys2Proof

/-- A bit count of PEEK, READ or SKIP is at most 32 (30_encoding R151). -/
def countOk (n : BitVec 6) : Bool := n.toNat ≤ 32

/-- A VLC primary width is 1 to 16 (30_encoding R151). -/
def widthOk (nb : BitVec 5) : Bool := 1 ≤ nb.toNat && nb.toNat ≤ 16

/-- MTS must not name BSBASE or BSLEN (30_encoding R148, R151). -/
def mtsOk (r : SReg) : Bool := r != .bsbase && r != .bslen

/-- The operand conditions of 30_encoding R151; every constructor is named. -/
def Instr.wellFormed : Instr → Bool
  | .halt | .nop | .j _ | .jal _ _ | .jr _ => true
  | .beq _ _ _ | .bne _ _ _ | .blt _ _ _ | .bge _ _ _ | .bltu _ _ _ | .bgeu _ _ _ => true
  | .mfs _ _ => true
  | .mts r _ => mtsOk r
  | .add _ _ _ | .sub _ _ _ | .and _ _ _ | .or _ _ _ | .xor _ _ _ => true
  | .sll _ _ _ | .srl _ _ _ | .sra _ _ _ | .slt _ _ _ | .sltu _ _ _ => true
  | .addi _ _ _ | .andi _ _ _ | .ori _ _ _ | .xori _ _ _ | .lui _ _ => true
  | .slli _ _ _ | .srli _ _ _ | .srai _ _ _ => true
  | .lb _ _ _ | .lbu _ _ _ | .lh _ _ _ | .lhu _ _ _ | .lw _ _ _ => true
  | .sb _ _ _ | .sh _ _ _ | .sw _ _ _ => true
  | .fmul _ _ _ | .fmulr _ _ _ | .fdiv _ _ _ | .fsqrt _ _ | .fadd _ _ _ | .fsub _ _ _ => true
  | .wmul _ _ _ | .wmulw _ _ _ | .wdiv _ _ _ | .wext _ _ | .wnrw _ _ => true
  | .sincos rsin _ rcos => rsin != rcos
  | .bsinit _ _ | .readr _ _ | .skipr _ | .align | .peekr _ _ => true
  | .peek _ n | .read _ n | .skip n => countOk n
  | .vlcdec _ _ nb | .rldec _ _ _ nb => widthOk nb
  | .gain _ | .deq _ _ _ | .deqn _ _ _ | .ngen _ _ => true
  | .brev _ m | .fft _ _ m _ => 1 ≤ m.toNat
  | .imdct _ _ n _ => 3 ≤ n.toNat
  | .wola _ _ | .fshift _ _ _ | .pcmout _ _ _ _ => true

end Sys2Proof
end

