-- ==== Sys2Proof/Decode.lean ====
section
/-! DEFINITION. Decode.lean: the decoder (30_encoding R141 to R154), total on any word and on any bytes, rejecting by name; and the
encoder, written from the same tables. -/

namespace Sys2Proof

/-! ## Fields of a command word (30_encoding R141) -/

/-- OP = w[31:26]. -/
def fieldOp (w : Word) : BitVec 6 := w.extractLsb' 26 6
/-- A = w[25:22]. -/
def fieldA (w : Word) : BitVec 4 := w.extractLsb' 22 4
/-- B = w[21:18]. -/
def fieldB (w : Word) : BitVec 4 := w.extractLsb' 18 4
/-- C = w[17:14]. -/
def fieldC (w : Word) : BitVec 4 := w.extractLsb' 14 4
/-- P = w[13:4]. -/
def fieldP (w : Word) : BitVec 10 := w.extractLsb' 4 10
/-- FN = w[3:0]. -/
def fieldFn (w : Word) : BitVec 4 := w.extractLsb' 0 4
/-- IMM18 = w[17:0]. -/
def fieldImm (w : Word) : BitVec 18 := w.extractLsb' 0 18
/-- OFF26 = w[25:0]. -/
def fieldOff (w : Word) : BitVec 26 := w.extractLsb' 0 26

/-- nb = w[8:4] of VLCDEC and RLDEC (30_encoding R146). -/
def pNb (p : BitVec 10) : BitVec 5 := p.extractLsb' 0 5
/-- m (or n) = w[7:4] of BREV, FFT and IMDCT (30_encoding R146). -/
def pM (p : BitVec 10) : BitVec 4 := p.extractLsb' 0 4
/-- sc = w[8] of FFT and IMDCT (30_encoding R146). -/
def pSc (p : BitVec 10) : Bool := p.getLsbD 4
/-- chm1 = w[6:4] of PCMOUT (30_encoding R146). -/
def pCh (p : BitVec 10) : BitVec 3 := p.extractLsb' 0 3

/-- The register a 4-bit field names (30_encoding R148). -/
def regOf (f : BitVec 4) : Reg := f.toFin

/-- The pair an even field value names (10_state R43); none for an odd one. -/
def pairOf (f : BitVec 4) : Option Pair :=
  if f.toNat % 2 = 0 then some ⟨f.toNat / 2, by omega⟩ else none

/-- The special register of a number 0 to 22 (10_state R49); none for a reserved number. -/
def sregOf (n : BitVec 6) : Option SReg :=
  match n.toNat with
  | 0 => some .bsbase | 1 => some .bslen | 2 => some .bspos | 3 => some .astat
  | 4 => some .ncoef | 5 => some .rltab | 6 => some .escw | 7 => some .runw
  | 8 => some .gthr | 9 => some .gwid | 10 => some .dqmult | 11 => some .nseed
  | 12 => some .nmul | 13 => some .ninc | 14 => some .nshift | 15 => some .nidx
  | 16 => some .ntsize | 17 => some .mdtrig | 18 => some .mdtw | 19 => some .wcfg
  | 20 => some .wdir | 21 => some .cgain | 22 => some .cstages
  | _ => none

/-! ## Decoding -/

/-- Why a word is illegal (30_encoding R152); the block itself reports all four as ILLEGAL. -/
inductive Illegal where
  /-- OP is not in the opcode map (R149). -/
  | reservedOp
  /-- FN is not assigned in the group (R150). -/
  | reservedFn
  /-- A field that must be 0 is not (R146, R147, R149). -/
  | nonzeroField
  /-- A condition of R151 fails. -/
  | badOperand
  /-- Fewer than four bytes were given to `decode`. -/
  | tooShort
deriving DecidableEq, Repr

/-- The operand conditions of R151, checked at decode before any operand is read. -/
def operandsLegal (i : Instr) : Bool := i.wellFormed

/-- The instruction, provided the must-be-0 fields are 0 (`zero`) and the operand conditions of R151 hold (30_encoding R154). -/
def accept (zero : Bool) (i : Instr) : Except Illegal Instr :=
  if zero then (if operandsLegal i then .ok i else .error .badOperand) else .error .nonzeroField

/-- As `accept` for an instruction that exists only when its pair fields are even and its special-register number is assigned. -/
def acceptSome (zero : Bool) (i : Option Instr) : Except Illegal Instr :=
  match i with
  | some i => accept zero i
  | none => if zero then .error .badOperand else .error .nonzeroField

/-- INT group, OP 0x10 (30_encoding R146). -/
def decodeInt (w : Word) : Except Illegal Instr :=
  let a := regOf (fieldA w); let b := regOf (fieldB w); let c := regOf (fieldC w)
  let p0 := fieldP w == 0
  match (fieldFn w).toNat with
  | 0 => accept p0 (.add a b c)
  | 1 => accept p0 (.sub a b c)
  | 2 => accept p0 (.and a b c)
  | 3 => accept p0 (.or a b c)
  | 4 => accept p0 (.xor a b c)
  | 5 => accept p0 (.sll a b c)
  | 6 => accept p0 (.srl a b c)
  | 7 => accept p0 (.sra a b c)
  | 8 => accept p0 (.slt a b c)
  | 9 => accept p0 (.sltu a b c)
  | _ => .error .reservedFn

/-- FXP group, OP 0x28 (30_encoding R146). -/
def decodeFxp (w : Word) : Except Illegal Instr :=
  let a := regOf (fieldA w); let b := regOf (fieldB w); let c := regOf (fieldC w)
  let pa := pairOf (fieldA w); let pb := pairOf (fieldB w); let pc := pairOf (fieldC w)
  let p0 := fieldP w == 0; let c0 := fieldC w == 0
  match (fieldFn w).toNat with
  | 0 => accept p0 (.fmul a b c)
  | 1 => accept p0 (.fmulr a b c)
  | 2 => accept p0 (.fdiv a b c)
  | 3 => accept (p0 && c0) (.fsqrt a b)
  | 4 => accept p0 (.fadd a b c)
  | 5 => accept p0 (.fsub a b c)
  | 6 => acceptSome p0 (pa.bind fun pd => pb.map fun ps => .wmul pd ps c)
  | 7 => acceptSome p0 (pa.bind fun pd => pb.bind fun ps => pc.map fun pt => .wmulw pd ps pt)
  | 8 => acceptSome p0 (pa.bind fun pd => pb.bind fun ps => pc.map fun pt => .wdiv pd ps pt)
  | 9 => acceptSome (p0 && c0) (pa.map fun pd => .wext pd b)
  | 10 => acceptSome (p0 && c0) (pb.map fun ps => .wnrw a ps)
  | 11 => accept p0 (.sincos a b c)
  | _ => .error .reservedFn

/-- BS group, OP 0x30 (30_encoding R146). -/
def decodeBs (w : Word) : Except Illegal Instr :=
  let a := regOf (fieldA w); let b := regOf (fieldB w); let c := regOf (fieldC w)
  let p0 := fieldP w == 0; let a0 := fieldA w == 0; let b0 := fieldB w == 0; let c0 := fieldC w == 0
  match (fieldFn w).toNat with
  | 0 => accept (p0 && a0) (.bsinit b c)
  | 1 => accept (p0 && c0) (.readr a b)
  | 2 => accept (p0 && a0 && c0) (.skipr b)
  | 3 => accept (p0 && a0 && b0 && c0) .align
  | 4 => accept (p0 && c0) (.peekr a b)
  | _ => .error .reservedFn

/-- BLK group, OP 0x38 (30_encoding R146). -/
def decodeBlk (w : Word) : Except Illegal Instr :=
  let a := regOf (fieldA w); let b := regOf (fieldB w); let c := regOf (fieldC w)
  let p := fieldP w
  let p0 := p == 0; let b0 := fieldB w == 0; let c0 := fieldC w == 0
  let above5 := p.extractLsb' 5 5 == 0
  let above4 := p.extractLsb' 4 6 == 0
  let above3 := p.extractLsb' 3 7 == 0
  match (fieldFn w).toNat with
  | 0 => accept (above5 && c0) (.vlcdec a b (pNb p))
  | 1 => accept (p0 && b0 && c0) (.gain a)
  | 2 => accept above5 (.rldec a b c (pNb p))
  | 3 => accept p0 (.deq a b c)
  | 4 => accept p0 (.deqn a b c)
  | 5 => accept (p0 && c0) (.ngen a b)
  | 6 => accept (above4 && b0 && c0) (.brev a (pM p))
  | 7 => accept (above5 && c0) (.fft a b (pM p) (pSc p))
  | 8 => accept (above5 && c0) (.imdct a b (pM p) (pSc p))
  | 9 => accept (p0 && c0) (.wola a b)
  | 10 => accept p0 (.fshift a b c)
  | 11 => accept above3 (.pcmout a b c (pCh p))
  | _ => .error .reservedFn

/-- The decoder: a total function of the word alone (30_encoding R149, R154). -/
def decodeWord (w : Word) : Except Illegal Instr :=
  let a := regOf (fieldA w); let b := regOf (fieldB w); let imm := fieldImm w
  let a0 := fieldA w == 0; let b0 := fieldB w == 0; let c0 := fieldC w == 0
  let sr := sregOf (imm.extractLsb' 0 6); let sr0 := imm.extractLsb' 6 12 == 0
  let sh := imm.extractLsb' 0 5; let sh0 := imm.extractLsb' 5 13 == 0
  let n := imm.extractLsb' 0 6
  match (fieldOp w).toNat with
  | 0x00 => accept (fieldOff w == 0) .halt
  | 0x01 => accept (fieldOff w == 0) .nop
  | 0x02 => accept true (.j (fieldOff w))
  | 0x03 => accept b0 (.jal a imm)
  | 0x04 => accept (a0 && c0 && fieldP w == 0 && fieldFn w == 0) (.jr b)
  | 0x05 => accept true (.beq a b imm)
  | 0x06 => accept true (.bne a b imm)
  | 0x07 => accept true (.blt a b imm)
  | 0x08 => accept true (.bge a b imm)
  | 0x09 => accept true (.bltu a b imm)
  | 0x0A => accept true (.bgeu a b imm)
  | 0x0B => acceptSome (b0 && sr0) (sr.map fun r => .mfs a r)
  | 0x0C => acceptSome (a0 && sr0) (sr.map fun r => .mts r b)
  | 0x10 => decodeInt w
  | 0x11 => accept true (.addi a b imm)
  | 0x12 => accept true (.andi a b imm)
  | 0x13 => accept true (.ori a b imm)
  | 0x14 => accept true (.xori a b imm)
  | 0x15 => accept (b0 && imm.extractLsb' 16 2 == 0) (.lui a (imm.extractLsb' 0 16))
  | 0x16 => accept sh0 (.slli a b sh)
  | 0x17 => accept sh0 (.srli a b sh)
  | 0x18 => accept sh0 (.srai a b sh)
  | 0x20 => accept true (.lb a b imm)
  | 0x21 => accept true (.lbu a b imm)
  | 0x22 => accept true (.lh a b imm)
  | 0x23 => accept true (.lhu a b imm)
  | 0x24 => accept true (.lw a b imm)
  | 0x25 => accept true (.sb a b imm)
  | 0x26 => accept true (.sh a b imm)
  | 0x27 => accept true (.sw a b imm)
  | 0x28 => decodeFxp w
  | 0x30 => decodeBs w
  | 0x31 => accept (b0 && sr0) (.peek a n)
  | 0x32 => accept (b0 && sr0) (.read a n)
  | 0x33 => accept (a0 && b0 && sr0) (.skip n)
  | 0x38 => decodeBlk w
  | _ => .error .reservedOp

/-- The little-endian word of four bytes, the first at the lowest address (20_memory R106). -/
def wordOfBytes (b0 b1 b2 b3 : Byte) : Word := b3 ++ b2 ++ b1 ++ b0

/-- Byte k of a word in little-endian order (20_memory R106). -/
def byteOfWord (w : Word) (k : Nat) : Byte := w.extractLsb' (8 * k) 8

/-- Decode the first command of a byte string: exactly four bytes (30_encoding R140), the rest returned. -/
def decode : List Byte → Except Illegal (Instr × List Byte)
  | b0 :: b1 :: b2 :: b3 :: rest =>
    match decodeWord (wordOfBytes b0 b1 b2 b3) with
    | .ok i => .ok (i, rest)
    | .error e => .error e
  | _ => .error .tooShort

/-- The four bytes of the table's instruction whose lowest `nbits` bits are `w`, the bits above being 0. -/
def tableBytes (nbits w : Nat) : List Byte :=
  let x : Word := BitVec.ofNat 32 (w % 2 ^ nbits)
  [byteOfWord x 0, byteOfWord x 1, byteOfWord x 2, byteOfWord x 3]

/-- The instruction the decoder reads from an instruction whose bits are `w`, stored as the hardware stores it. -/
def decodeTableWord (nbits w : Nat) : Option Instr :=
  match decode (tableBytes nbits w) with
  | .ok (i, _) => some i
  | .error _ => none

/-! ## Encoding (30_encoding R142 to R149) -/

/-- The 4-bit field that names a register. -/
def fieldOfReg (r : Reg) : BitVec 4 := BitVec.ofFin r

/-- The even field value that names a pair (10_state R43). -/
def fieldOfPair (p : Pair) : BitVec 4 := BitVec.ofNat 4 (2 * p.val)

/-- The number of a special register (10_state R49). -/
def sregNumber : SReg → BitVec 6
  | .bsbase => 0 | .bslen => 1 | .bspos => 2 | .astat => 3 | .ncoef => 4 | .rltab => 5 | .escw => 6 | .runw => 7
  | .gthr => 8 | .gwid => 9 | .dqmult => 10 | .nseed => 11 | .nmul => 12 | .ninc => 13 | .nshift => 14 | .nidx => 15
  | .ntsize => 16 | .mdtrig => 17 | .mdtw => 18 | .wcfg => 19 | .wdir => 20 | .cgain => 21 | .cstages => 22

/-- Formats N and J (30_encoding R142, R143). -/
def packJ (op : BitVec 6) (off : BitVec 26) : Word := op ++ off

/-- Format I (30_encoding R144). -/
def packI (op : BitVec 6) (a b : BitVec 4) (imm : BitVec 18) : Word := op ++ a ++ b ++ imm

/-- Format R (30_encoding R145). -/
def packR (op : BitVec 6) (a b c : BitVec 4) (p : BitVec 10) (fn : BitVec 4) : Word := op ++ a ++ b ++ c ++ p ++ fn

/-- The command word of an instruction (30_encoding R146, R149). -/
def encode : Instr → Word
  | .halt => packJ 0x00 0
  | .nop => packJ 0x01 0
  | .j off => packJ 0x02 off
  | .jal rd off => packI 0x03 (fieldOfReg rd) 0 off
  | .jr rs => packR 0x04 0 (fieldOfReg rs) 0 0 0
  | .beq ra rb off => packI 0x05 (fieldOfReg ra) (fieldOfReg rb) off
  | .bne ra rb off => packI 0x06 (fieldOfReg ra) (fieldOfReg rb) off
  | .blt ra rb off => packI 0x07 (fieldOfReg ra) (fieldOfReg rb) off
  | .bge ra rb off => packI 0x08 (fieldOfReg ra) (fieldOfReg rb) off
  | .bltu ra rb off => packI 0x09 (fieldOfReg ra) (fieldOfReg rb) off
  | .bgeu ra rb off => packI 0x0A (fieldOfReg ra) (fieldOfReg rb) off
  | .mfs rd sr => packI 0x0B (fieldOfReg rd) 0 (0#12 ++ sregNumber sr)
  | .mts sr rs => packI 0x0C 0 (fieldOfReg rs) (0#12 ++ sregNumber sr)
  | .add rd rs rt => packR 0x10 (fieldOfReg rd) (fieldOfReg rs) (fieldOfReg rt) 0 0
  | .sub rd rs rt => packR 0x10 (fieldOfReg rd) (fieldOfReg rs) (fieldOfReg rt) 0 1
  | .and rd rs rt => packR 0x10 (fieldOfReg rd) (fieldOfReg rs) (fieldOfReg rt) 0 2
  | .or rd rs rt => packR 0x10 (fieldOfReg rd) (fieldOfReg rs) (fieldOfReg rt) 0 3
  | .xor rd rs rt => packR 0x10 (fieldOfReg rd) (fieldOfReg rs) (fieldOfReg rt) 0 4
  | .sll rd rs rt => packR 0x10 (fieldOfReg rd) (fieldOfReg rs) (fieldOfReg rt) 0 5
  | .srl rd rs rt => packR 0x10 (fieldOfReg rd) (fieldOfReg rs) (fieldOfReg rt) 0 6
  | .sra rd rs rt => packR 0x10 (fieldOfReg rd) (fieldOfReg rs) (fieldOfReg rt) 0 7
  | .slt rd rs rt => packR 0x10 (fieldOfReg rd) (fieldOfReg rs) (fieldOfReg rt) 0 8
  | .sltu rd rs rt => packR 0x10 (fieldOfReg rd) (fieldOfReg rs) (fieldOfReg rt) 0 9
  | .addi rd rs imm => packI 0x11 (fieldOfReg rd) (fieldOfReg rs) imm
  | .andi rd rs imm => packI 0x12 (fieldOfReg rd) (fieldOfReg rs) imm
  | .ori rd rs imm => packI 0x13 (fieldOfReg rd) (fieldOfReg rs) imm
  | .xori rd rs imm => packI 0x14 (fieldOfReg rd) (fieldOfReg rs) imm
  | .lui rd imm => packI 0x15 (fieldOfReg rd) 0 (0#2 ++ imm)
  | .slli rd rs sh => packI 0x16 (fieldOfReg rd) (fieldOfReg rs) (0#13 ++ sh)
  | .srli rd rs sh => packI 0x17 (fieldOfReg rd) (fieldOfReg rs) (0#13 ++ sh)
  | .srai rd rs sh => packI 0x18 (fieldOfReg rd) (fieldOfReg rs) (0#13 ++ sh)
  | .lb rd rb imm => packI 0x20 (fieldOfReg rd) (fieldOfReg rb) imm
  | .lbu rd rb imm => packI 0x21 (fieldOfReg rd) (fieldOfReg rb) imm
  | .lh rd rb imm => packI 0x22 (fieldOfReg rd) (fieldOfReg rb) imm
  | .lhu rd rb imm => packI 0x23 (fieldOfReg rd) (fieldOfReg rb) imm
  | .lw rd rb imm => packI 0x24 (fieldOfReg rd) (fieldOfReg rb) imm
  | .sb rv rb imm => packI 0x25 (fieldOfReg rv) (fieldOfReg rb) imm
  | .sh rv rb imm => packI 0x26 (fieldOfReg rv) (fieldOfReg rb) imm
  | .sw rv rb imm => packI 0x27 (fieldOfReg rv) (fieldOfReg rb) imm
  | .fmul rd rs rt => packR 0x28 (fieldOfReg rd) (fieldOfReg rs) (fieldOfReg rt) 0 0
  | .fmulr rd rs rt => packR 0x28 (fieldOfReg rd) (fieldOfReg rs) (fieldOfReg rt) 0 1
  | .fdiv rd rs rt => packR 0x28 (fieldOfReg rd) (fieldOfReg rs) (fieldOfReg rt) 0 2
  | .fsqrt rd rs => packR 0x28 (fieldOfReg rd) (fieldOfReg rs) 0 0 3
  | .fadd rd rs rt => packR 0x28 (fieldOfReg rd) (fieldOfReg rs) (fieldOfReg rt) 0 4
  | .fsub rd rs rt => packR 0x28 (fieldOfReg rd) (fieldOfReg rs) (fieldOfReg rt) 0 5
  | .wmul pd ps rt => packR 0x28 (fieldOfPair pd) (fieldOfPair ps) (fieldOfReg rt) 0 6
  | .wmulw pd ps pt => packR 0x28 (fieldOfPair pd) (fieldOfPair ps) (fieldOfPair pt) 0 7
  | .wdiv pd ps pt => packR 0x28 (fieldOfPair pd) (fieldOfPair ps) (fieldOfPair pt) 0 8
  | .wext pd rs => packR 0x28 (fieldOfPair pd) (fieldOfReg rs) 0 0 9
  | .wnrw rd ps => packR 0x28 (fieldOfReg rd) (fieldOfPair ps) 0 0 10
  | .sincos rsin rph rcos => packR 0x28 (fieldOfReg rsin) (fieldOfReg rph) (fieldOfReg rcos) 0 11
  | .bsinit rbase rlen => packR 0x30 0 (fieldOfReg rbase) (fieldOfReg rlen) 0 0
  | .readr rd rn => packR 0x30 (fieldOfReg rd) (fieldOfReg rn) 0 0 1
  | .skipr rn => packR 0x30 0 (fieldOfReg rn) 0 0 2
  | .align => packR 0x30 0 0 0 0 3
  | .peekr rd rn => packR 0x30 (fieldOfReg rd) (fieldOfReg rn) 0 0 4
  | .peek rd n => packI 0x31 (fieldOfReg rd) 0 (0#12 ++ n)
  | .read rd n => packI 0x32 (fieldOfReg rd) 0 (0#12 ++ n)
  | .skip n => packI 0x33 0 0 (0#12 ++ n)
  | .vlcdec rd rt nb => packR 0x38 (fieldOfReg rd) (fieldOfReg rt) 0 (0#5 ++ nb) 0
  | .gain rd => packR 0x38 (fieldOfReg rd) 0 0 0 1
  | .rldec rd rc rt nb => packR 0x38 (fieldOfReg rd) (fieldOfReg rc) (fieldOfReg rt) (0#5 ++ nb) 2
  | .deq ro rq re => packR 0x38 (fieldOfReg ro) (fieldOfReg rq) (fieldOfReg re) 0 3
  | .deqn ro rn re => packR 0x38 (fieldOfReg ro) (fieldOfReg rn) (fieldOfReg re) 0 4
  | .ngen rd rc => packR 0x38 (fieldOfReg rd) (fieldOfReg rc) 0 0 5
  | .brev rb m => packR 0x38 (fieldOfReg rb) 0 0 (0#6 ++ m) 6
  | .fft rb rt m sc => packR 0x38 (fieldOfReg rb) (fieldOfReg rt) 0 (0#5 ++ BitVec.ofBool sc ++ m) 7
  | .imdct ro ri n sc => packR 0x38 (fieldOfReg ro) (fieldOfReg ri) 0 (0#5 ++ BitVec.ofBool sc ++ n) 8
  | .wola rf ri => packR 0x38 (fieldOfReg rf) (fieldOfReg ri) 0 0 9
  | .fshift rb rk rl => packR 0x38 (fieldOfReg rb) (fieldOfReg rk) (fieldOfReg rl) 0 10
  | .pcmout rd rs rc ch => packR 0x38 (fieldOfReg rd) (fieldOfReg rs) (fieldOfReg rc) (0#7 ++ ch) 11

end Sys2Proof
end

