-- ==== Sys2Proof/Machine/Fetch.lean ====
section
/-! DEFINITION. Machine/Fetch.lean: what the sequencer does at an instruction boundary, before it executes (47_control R413). -/

namespace Sys2Proof.Machine

/-- The four bytes at PC (47_control R413): IALIGN, then IADDR, then the bytes. -/
def fetchBytes (s : State) : Run (List Byte) :=
  if s.pc.toNat % 4 ≠ 0 then raise .ialign s.pc.toNat
  else if lmemSize s < s.pc.toNat + 4 then raise .iaddr s.pc.toNat
  else
    match readByte s.mem s.pc.toNat with
    | .error e => .error e
    | .ok b0 =>
      match readByte s.mem (s.pc.toNat + 1) with
      | .error e => .error e
      | .ok b1 =>
        match readByte s.mem (s.pc.toNat + 2) with
        | .error e => .error e
        | .ok b2 =>
          match readByte s.mem (s.pc.toNat + 3) with
          | .error e => .error e
          | .ok b3 => .ok [b0, b1, b2, b3]

/-- The word a list of fetched bytes holds, for FAULTINFO of ILLEGAL (60_exceptions R502). -/
def fetchedWord : List Byte → Word
  | [b0, b1, b2, b3] => wordOfBytes b0 b1 b2 b3
  | _ => 0

/-- What a step is about to do. -/
inductive Boundary where
  /-- No instruction runs; the state becomes `t`: idle, an abort taken, a fetch fault or ILLEGAL. -/
  | settle (t : State)
  /-- Execute this instruction. -/
  | run (i : Instr)
  /-- A stop of the model. -/
  | stuck (f : Fault)
deriving Repr

/-- The boundary of a step (47_control R413, 60_exceptions R504): idle, a pending abort, the fetch faults, ILLEGAL, else the decoded
instruction. While BUSY = 0 the sequencer does nothing (70_reset R560; log entry 4). -/
def boundary (s : State) : Boundary :=
  if !s.ctl.busy then .settle s
  else if s.abortPending then .settle (takeFault .abort s.pc 0 { s with abortPending := false })
  else
    match fetchBytes s with
    | .error (.raise c info) => .settle (takeFault c s.pc info s)
    | .error (.stuck f) => .stuck f
    | .ok bs =>
      match decode bs with
      | .ok (i, _) => .run i
      | .error _ => .settle (takeFault .illegal s.pc (fetchedWord bs).toNat s)

/-- Whether the fetch at PC passes its checks (10_state R47). -/
def fetchable (s : State) : Bool := s.pc.toNat % 4 == 0 && s.pc.toNat + 4 ≤ lmemSize s

/-- Store bytes from address `a` on. -/
def putBytes (a : Nat) : List Byte → Memory → Memory
  | [], m => m
  | b :: bs, m => putBytes (a + 1) bs (memPut a b m)

/-- Place a command where the next step fetches it, and start the sequencer: what the host does to load and start a program
(70_reset R566; log entry 4). PC is moved, to 0, only when no word can be fetched at it. -/
def placeCommand (s : State) (bs : List Byte) : State :=
  let pc := if fetchable s then s.pc else 0
  { s with pc := pc, abortPending := false, ctl := { s.ctl with busy := true }, mem := putBytes pc.toNat bs s.mem }

end Sys2Proof.Machine
end

