-- ==== Sys2Proof/Machine/Step.lean ====
section
/-! DEFINITION. Machine/Step.lean: one step of the sequencer (47_control R413). -/

namespace Sys2Proof.Machine

/-- One step: what the boundary settles, or the decoded instruction's meaning. -/
def step (s : State) : Host.Outcome State Fault Refusal :=
  match boundary s with
  | .settle t => .next t
  | .run i => exec i s
  | .stuck f => .fault f

/-- The state in which the table's instruction with bits `w` stands where the next step fetches it, and the sequencer runs. -/
def State.withFetchWord (s : State) (nbits w : Nat) : State := placeCommand s (tableBytes nbits w)

end Sys2Proof.Machine
end

