-- ==== Sys2Proof/Machine/HostPort.lean ====
section
/-! DEFINITION. Machine/HostPort.lean: what the host and the platform can do to the block, each access one indivisible action between two
steps (60_exceptions R519; log entry 8). -/

namespace Sys2Proof.Machine

/-! ## Register values the host reads (10_state R70 to R76) -/

/-- The 8-bit code of a cause (60_exceptions R502). -/
def causeCode : Cause → BitVec 8
  | .none => 0 | .illegal => 1 | .ialign => 2 | .iaddr => 3 | .dalign => 4 | .daddr => 5 | .bsovr => 6
  | .vlcmiss => 7 | .vlctbl => 8 | .rlovr => 9 | .cfg => 10 | .abort => 11 | .oprange => 12

/-- STATUS as a word (10_state R73). -/
def statusWord (s : State) : Word :=
  0#16 ++ causeCode s.ctl.cause ++ 0#4 ++ BitVec.ofBool s.ctl.herr ++ BitVec.ofBool s.ctl.fault ++ BitVec.ofBool s.ctl.done
    ++ BitVec.ofBool s.ctl.busy

/-- CTRL as a word: IRQEN in bit 2, START and ABORT read 0 (10_state R72). -/
def ctrlWord (s : State) : Word := 0#29 ++ BitVec.ofBool s.ctl.irqen ++ 0#2

/-- The interrupt output (60_exceptions R507). -/
def irq (s : State) : Bool := s.ctl.irqen && (s.ctl.done || s.ctl.fault)

/-! ## The address map (10_state R69, R70, R78; 20_memory R113) -/

/-- The width of a host access. -/
inductive HostWidth where
  | byte | half | word
deriving DecidableEq, Repr

/-- The bytes of a host access. -/
def hostBytes : HostWidth → Nat
  | .byte => 1 | .half => 2 | .word => 4

/-- What a window offset with a width reaches. -/
inductive HostLoc where
  | id | ctrl | status | pc | faultpc | faultinfo | lmemsize
  | gpr (r : Reg)
  | sreg (r : SReg)
  /-- An aligned access that lies in LMEM. -/
  | lmem (a : Nat)
  /-- An access that begins in LMEM but is misaligned or runs past its end. -/
  | lmemBad (a : Nat)
  /-- An unassigned offset, or a register offset with the wrong width or alignment. -/
  | nothing
deriving DecidableEq, Repr

/-- The register at an aligned offset of the register window (10_state R70). -/
def regLoc (off : Nat) : HostLoc :=
  if off = 0x000 then .id
  else if off = 0x004 then .ctrl
  else if off = 0x008 then .status
  else if off = 0x00C then .pc
  else if off = 0x010 then .faultpc
  else if off = 0x014 then .faultinfo
  else if off = 0x018 then .lmemsize
  else if 0x100 ≤ off ∧ off < 0x140 then .gpr (Fin.ofNat 16 ((off - 0x100) / 4))
  else if 0x200 ≤ off ∧ off < 0x25C then
    match sregOf (BitVec.ofNat 6 ((off - 0x200) / 4)) with
    | some r => .sreg r
    | none => .nothing
  else .nothing

/-- What a host access at a window offset reaches, for an LMEM of `size` bytes. -/
def hostLoc (size off : Nat) (wd : HostWidth) : HostLoc :=
  if off < 0x1000 then (if wd = .word ∧ off % 4 = 0 then regLoc off else .nothing)
  else if off < 0x100000 then .nothing
  else
    let a := off - 0x100000
    if size ≤ a then .nothing
    else if a % hostBytes wd ≠ 0 ∨ size < a + hostBytes wd then .lmemBad a
    else .lmem a

/-! ## Host actions -/

/-- STATUS.HERR <- 1 (20_memory R115). -/
def setHerr (s : State) : State := { s with ctl := { s.ctl with herr := true } }

/-- The state after an access that begins in LMEM but is misaligned or runs past its end: it moves no byte (20_memory R113), and while
busy it sets HERR, as every host access of LMEM does (R115, 60_exceptions R519; log entry 7, DEDUCED). -/
def badWindowAccess (s : State) : State := if s.ctl.busy then setHerr s else s

/-- The start action (60_exceptions R508), when BUSY = 0. -/
def startRun (s : State) : State :=
  { s with abortPending := false, ctl := { s.ctl with busy := true, done := false, fault := false, cause := .none } }

/-- A host write of CTRL (10_state R72, 60_exceptions R508, R509): IRQEN stored; ABORT wins over START; ABORT acts only while busy, START
only while idle. -/
def writeCtrl (s : State) (v : Word) : State :=
  let t := { s with ctl := { s.ctl with irqen := v.getLsbD 2 } }
  if v.getLsbD 1 then (if s.ctl.busy then { t with abortPending := true } else t)
  else if v.getLsbD 0 then (if s.ctl.busy then t else startRun t)
  else t

/-- A host write of STATUS: 1 clears DONE, FAULT, HERR (10_state R73). -/
def writeStatus (s : State) (v : Word) : State :=
  { s with ctl := { s.ctl with
      done := s.ctl.done && !v.getLsbD 1
      fault := s.ctl.fault && !v.getLsbD 2
      herr := s.ctl.herr && !v.getLsbD 3 } }

/-- A host write of a special register (10_state R66): as MTS, but BSBASE, BSLEN and BSPOS are ignored. -/
def hostWriteSr (s : State) (r : SReg) (v : Word) : State :=
  match r with
  | .bspos => s
  | r => writeSr s r v

/-- A host read (60_exceptions R519): the value and the state after. A byte that nothing has written stops the model (log entry 2). -/
def hostRead (off : Nat) (wd : HostWidth) (s : State) : Host.Outcome (Word × State) Fault Refusal :=
  match hostLoc (lmemSize s) off wd with
  | .id => .next (Config.idValue, s)
  | .ctrl => .next (ctrlWord s, s)
  | .status => .next (statusWord s, s)
  | .pc => if s.ctl.busy then .next (0, setHerr s) else .next (s.pc, s)
  | .faultpc => .next (s.ctl.faultpc, s)
  | .faultinfo => .next (s.ctl.faultinfo, s)
  | .lmemsize => .next (BitVec.ofNat 32 (lmemSize s), s)
  | .gpr r => if s.ctl.busy then .next (0, setHerr s) else .next (reg s r, s)
  | .sreg r => if s.ctl.busy then .next (0, setHerr s) else .next (readSr s r, s)
  | .lmem a =>
    if s.ctl.busy then .next (0, setHerr s)
    else
      match readLE s.mem a (hostBytes wd) with
      | .ok v => .next (BitVec.ofNat 32 v, s)
      | .error (.stuck f) => .fault f
      | .error (.raise _ _) => .next (0, s)
  | .lmemBad _ => .next (0, badWindowAccess s)
  | .nothing => .next (0, s)

/-- A host write (60_exceptions R519). -/
def hostWrite (off : Nat) (wd : HostWidth) (v : Word) (s : State) : State :=
  match hostLoc (lmemSize s) off wd with
  | .id => s
  | .ctrl => writeCtrl s v
  | .status => writeStatus s v
  | .pc => if s.ctl.busy then setHerr s else { s with pc := v }
  | .faultpc => s
  | .faultinfo => s
  | .lmemsize => s
  | .gpr r => if s.ctl.busy then setHerr s else setReg s r v
  | .sreg r => if s.ctl.busy then setHerr s else hostWriteSr s r v
  | .lmem a => if s.ctl.busy then setHerr s else { s with mem := writeLE s.mem a (hostBytes wd) v.toNat }
  | .lmemBad _ => badWindowAccess s
  | .nothing => s

/-- The window offset of a bus address (10_state R69; log entry 9). -/
def busOffset (addr : Nat) : Option Nat := if Config.mmioBase ≤ addr then some (addr - Config.mmioBase) else none

/-- A host read by bus address: none when the address is below the block's windows. -/
def busRead (addr : Nat) (wd : HostWidth) (s : State) : Option (Host.Outcome (Word × State) Fault Refusal) :=
  (busOffset addr).map fun off => hostRead off wd s

/-- A host write by bus address. -/
def busWrite (addr : Nat) (wd : HostWidth) (v : Word) (s : State) : State :=
  match busOffset addr with
  | some off => hostWrite off wd v s
  | none => s

/-- The platform's reset (70_reset R560): every field at its reset value, whatever the block was doing. -/
def platformReset (s : State) : State := State.resetOf s.lmemLog

end Sys2Proof.Machine
end

