-- ==== Sys2Proof/Machine/System.lean ====
section
/-! DEFINITION. Machine/System.lean: the block with its host and its platform: what can happen to it next, in any order (log entry 8). -/

namespace Sys2Proof.Machine

/-- One thing that can happen to the block (00_scope R3, 60_exceptions R519, 70_reset R560). -/
inductive Event where
  | sequencerStep
  | hostRead (off : Nat) (wd : HostWidth)
  | hostWrite (off : Nat) (wd : HostWidth) (v : Word)
  | reset
deriving DecidableEq, Repr

/-- The state after an event (the value a host read returns is not part of it). -/
def react (e : Event) (s : State) : Host.Outcome State Fault Refusal :=
  match e with
  | .sequencerStep => step s
  | .hostRead off wd =>
    match Sys2Proof.Machine.hostRead off wd s with
    | .next r => .next r.2
    | .fault f => .fault f
    | .refused r => .refused r
  | .hostWrite off wd v => .next (Sys2Proof.Machine.hostWrite off wd v s)
  | .reset => .next (platformReset s)

end Sys2Proof.Machine
end

