-- ==== Sys2Proof/Safety.lean ====
section
/-! DEFINITION. Safety.lean: what a legal state of the block is, and the words the statements use: what an instruction keeps, what a
stretch of LMEM holds, what a bit of the stream is. -/

namespace Sys2Proof.Machine

/-! ## Legal states -/

/-- The invariant of one block, kept by every step and by every host access. -/
structure Inv (s : State) : Prop where
  /-- LMEM keeps its canonical form. -/
  canonical : s.mem.wf = true
  /-- No byte outside LMEM holds a value (20_memory R100). -/
  inside : ∀ a, lmemSize s ≤ a → memGet a s.mem = none
  /-- BSPOS <= BSLEN (10_state R51). -/
  cursor : s.sr.bspos.toNat ≤ s.sr.bslen.toNat
  /-- When BSLEN > 0, BSBASE + ceil(BSLEN / 8) <= LMEM_SIZE (10_state R51). -/
  stream : 0 < s.sr.bslen.toNat → s.sr.bsbase.toNat + (s.sr.bslen.toNat + 7) / 8 ≤ lmemSize s
  /-- While the sequencer runs nothing has ended it (60_exceptions R508, R510). -/
  running : s.ctl.busy = true → s.ctl.done = false ∧ s.ctl.fault = false ∧ s.ctl.cause = .none
  /-- DONE and FAULT are not both 1 after one run (60_exceptions R506), and DONE goes with CAUSE 0 (R520). -/
  oneEnd : s.ctl.done = true → s.ctl.fault = false ∧ s.ctl.cause = .none
  /-- FAULT goes with a cause (60_exceptions R520). -/
  caused : s.ctl.fault = true → s.ctl.cause ≠ .none

/-! ## What an instruction keeps -/

/-- Every general register but those named keeps its value. -/
def RegsKept (s t : State) (but : List Reg) : Prop := ∀ r, r ∉ but → reg t r = reg s r

/-- Every special register but those named reads as before. -/
def SrsKept (s t : State) (but : List SReg) : Prop := ∀ r, r ∉ but → readSr t r = readSr s r

/-- CTRL, STATUS, FAULTPC, FAULTINFO, the abort latch and LMEM_SIZE are as before. -/
def ControlKept (s t : State) : Prop := t.ctl = s.ctl ∧ t.abortPending = s.abortPending ∧ t.lmemLog = s.lmemLog

/-- Every byte of LMEM is as before. -/
def MemKept (s t : State) : Prop := ∀ a, memGet a t.mem = memGet a s.mem

/-- Every byte of LMEM outside the `n` bytes at `lo` is as before. -/
def MemKeptOutside (s t : State) (lo n : Nat) : Prop := ∀ a, a < lo ∨ lo + n ≤ a → memGet a t.mem = memGet a s.mem

/-- The frame of an instruction that writes general registers only. -/
def OnlyRegs (s t : State) (but : List Reg) : Prop :=
  RegsKept s t but ∧ SrsKept s t [] ∧ ControlKept s t ∧ MemKept s t

/-- The frame of an instruction that writes general registers and ASTAT only. -/
def OnlyRegsAndFlags (s t : State) (but : List Reg) : Prop :=
  RegsKept s t but ∧ SrsKept s t [.astat] ∧ ControlKept s t ∧ MemKept s t

/-- The frame of an instruction that writes general registers and the special registers named. -/
def OnlyRegsAndSrs (s t : State) (but : List Reg) (sbut : List SReg) : Prop :=
  RegsKept s t but ∧ SrsKept s t sbut ∧ ControlKept s t ∧ MemKept s t

/-- The frame of an array command: no general register; the special registers named; LMEM in the `n` bytes at `lo`. -/
def OnlyArray (s t : State) (sbut : List SReg) (lo n : Nat) : Prop :=
  RegsKept s t [] ∧ SrsKept s t sbut ∧ ControlKept s t ∧ MemKeptOutside s t lo n

/-- `pc <- u32(pc + 4)`, as a number (10_state R46). -/
def NextPc (s t : State) : Prop := t.pc.toNat = (s.pc.toNat + 4) % 2 ^ 32

/-- ASTAT after is ASTAT before with the flags of `f` added, none removed (10_state R52). -/
def FlagsAdded (s t : State) (f : BitVec 4) : Prop := t.sr.astat = s.sr.astat ||| f

/-- The state `t` is what fault entry leaves of `s` (60_exceptions R501): BUSY 0, FAULT 1, CAUSE, FAULTPC and FAULTINFO recorded, all
else unchanged. -/
def FaultEntered (s t : State) (c : Cause) (fpc info : Word) : Prop :=
  t = { s with ctl := { s.ctl with busy := false, fault := true, cause := c, faultpc := fpc, faultinfo := info } }

/-- What the region checks of an array command report, in their order: the cause and FAULTINFO of the first region (base, bytes, alignment)
that fails, each region's alignment before its bounds, an empty region never; none when all pass (20_memory R107, 60_exceptions R504). -/
def firstBadRegion (size : Nat) : List (Word × Nat × Nat) → Option (Cause × Word)
  | [] => none
  | (base, bytes, align) :: rest =>
    if bytes = 0 then firstBadRegion size rest
    else if base.toNat % align ≠ 0 then some (.dalign, base)
    else if size < base.toNat + bytes then some (.daddr, base)
    else firstBadRegion size rest

/-! ## What LMEM holds -/

/-- The `n` bytes at `a` all hold a value. -/
def Written (m : Memory) (a n : Nat) : Prop := ∀ k, k < n → (memGet (a + k) m).isSome = true

/-- The `n` bytes at `a` are the low `n` bytes of `v`, little-endian (20_memory R106). -/
def HoldsBytes (m : Memory) (a n v : Nat) : Prop :=
  ∀ k, k < n → ∃ b : Byte, memGet (a + k) m = some b ∧ b.toNat = v / 256 ^ k % 256

/-- The two bytes at `a`, little-endian, as a signed number (20_memory R106). -/
def HoldsHalf (m : Memory) (a : Nat) (v : Int) : Prop :=
  ∃ b0 b1, memGet a m = some b0 ∧ memGet (a + 1) m = some b1 ∧ (b1 ++ b0 : BitVec 16).toInt = v

/-- The four bytes at `a`, little-endian, as a signed number (20_memory R106). -/
def HoldsWord (m : Memory) (a : Nat) (v : Int) : Prop :=
  ∃ b0 b1 b2 b3, memGet a m = some b0 ∧ memGet (a + 1) m = some b1 ∧ memGet (a + 2) m = some b2 ∧ memGet (a + 3) m = some b3 ∧
    (b3 ++ b2 ++ b1 ++ b0 : BitVec 32).toInt = v

/-- Bit k of the stream as the reader sees it: 0 from BSLEN on, else the bit in LMEM, most significant of its byte first
(42_bitreader R250, R251). -/
def StreamBit (s : State) (k : Nat) (b : Bool) : Prop :=
  if s.sr.bslen.toNat ≤ k then b = false
  else s.sr.bsbase.toNat + k / 8 < lmemSize s ∧
    ∃ byte, memGet (s.sr.bsbase.toNat + k / 8) s.mem = some byte ∧ byte.getLsbD (7 - k % 8) = b

/-- The `n` bits of the stream from `pos` on, the first most significant, are the number `v` (42_bitreader R252). -/
def StreamBits (s : State) (pos n v : Nat) : Prop :=
  v < 2 ^ n ∧ ∀ j, j < n → StreamBit s (pos + j) (v.testBit (n - 1 - j))

/-! ## Numbers -/

/-- The nearest integer to `v` in the range of a signed n-bit number (00_scope R23). -/
def clampTo (n : Nat) (v : Int) : Int := max (-(2 ^ (n - 1) : Int)) (min v (2 ^ (n - 1) - 1))

/-- `v` lies outside the range of a signed n-bit number: a saturation of it clamps (00_scope R23). -/
def OutOf (n : Nat) (v : Int) : Prop := v < -(2 ^ (n - 1) : Int) ∨ (2 ^ (n - 1) : Int) ≤ v

/-- The SAT bit an instruction ORs into ASTAT, from whether one of its saturations clamped. -/
def SatAdded (s t : State) (clamped : Prop) : Prop :=
  (clamped → FlagsAdded s t 1#4) ∧ (¬clamped → FlagsAdded s t 0#4)

/-- The signed 64-bit value of a register pair: the odd register is the high half (10_state R43, 00_scope R24). -/
def pairValue (s : State) (p : Pair) : Int := (reg s (pairHi p)).toInt * 4294967296 + (reg s (pairLo p)).toNat

/-- The bits a special register uses (the table of 10_state R49). -/
def usedBits : SReg → Word
  | .astat => 0x0000000F
  | .escw | .runw | .nshift | .cstages => 0x0000001F
  | .gwid => 0x01FFFFFF
  | .wcfg => 0x001F1F1F
  | _ => 0xFFFFFFFF

/-! ## Illegal words (30_encoding R152), with every field of the word as a number -/

/-- OP. -/
def opNum (w : Word) : Nat := w.toNat / 2 ^ 26

/-- A. -/
def aNum (w : Word) : Nat := w.toNat / 2 ^ 22 % 16

/-- B. -/
def bNum (w : Word) : Nat := w.toNat / 2 ^ 18 % 16

/-- C. -/
def cNum (w : Word) : Nat := w.toNat / 2 ^ 14 % 16

/-- P. -/
def pNum (w : Word) : Nat := w.toNat / 16 % 1024

/-- FN. -/
def fnNum (w : Word) : Nat := w.toNat % 16

/-- IMM18. -/
def immNum (w : Word) : Nat := w.toNat % 2 ^ 18

/-- OP is not in the opcode map (R149, R152). -/
abbrev ReservedOp (w : Word) : Prop :=
  (0x0D ≤ opNum w ∧ opNum w ≤ 0x0F) ∨ (0x19 ≤ opNum w ∧ opNum w ≤ 0x1F) ∨ (0x29 ≤ opNum w ∧ opNum w ≤ 0x2F) ∨
    (0x34 ≤ opNum w ∧ opNum w ≤ 0x37) ∨ 0x39 ≤ opNum w

/-- FN is not assigned in its group (R150). -/
abbrev ReservedFn (w : Word) : Prop :=
  (opNum w = 0x10 ∧ 10 ≤ fnNum w) ∨ (opNum w = 0x28 ∧ 12 ≤ fnNum w) ∨ (opNum w = 0x30 ∧ 5 ≤ fnNum w) ∨ (opNum w = 0x38 ∧ 12 ≤ fnNum w)

/-- A field that the tables of R146, R147 and R149 require to be 0 is not 0. In the order of R149: HALT and NOP; JAL; JR; MFS; MTS; the
INT group; LUI; the immediate shifts; the FXP, BS and BLK groups by FN; PEEK and READ; SKIP. -/
abbrev NonzeroMustBeZero (w : Word) : Prop :=
  (opNum w ≤ 0x01 ∧ w.toNat % 2 ^ 26 ≠ 0) ∨
  (opNum w = 0x03 ∧ bNum w ≠ 0) ∨
  (opNum w = 0x04 ∧ (aNum w ≠ 0 ∨ w.toNat % 2 ^ 18 ≠ 0)) ∨
  (opNum w = 0x0B ∧ (bNum w ≠ 0 ∨ immNum w / 64 ≠ 0)) ∨
  (opNum w = 0x0C ∧ (aNum w ≠ 0 ∨ immNum w / 64 ≠ 0)) ∨
  (opNum w = 0x10 ∧ pNum w ≠ 0) ∨
  (opNum w = 0x15 ∧ (bNum w ≠ 0 ∨ immNum w / 65536 ≠ 0)) ∨
  ((opNum w = 0x16 ∨ opNum w = 0x17 ∨ opNum w = 0x18) ∧ immNum w / 32 ≠ 0) ∨
  (opNum w = 0x28 ∧ (pNum w ≠ 0 ∨ ((fnNum w = 3 ∨ fnNum w = 9 ∨ fnNum w = 10) ∧ cNum w ≠ 0))) ∨
  (opNum w = 0x30 ∧ (pNum w ≠ 0 ∨ ((fnNum w = 0 ∨ fnNum w = 2 ∨ fnNum w = 3) ∧ aNum w ≠ 0) ∨ (fnNum w = 3 ∧ bNum w ≠ 0) ∨
    (1 ≤ fnNum w ∧ cNum w ≠ 0))) ∨
  (opNum w = 0x38 ∧ ((fnNum w = 0 ∨ fnNum w = 7 ∨ fnNum w = 8) ∧ (pNum w / 32 ≠ 0 ∨ cNum w ≠ 0))) ∨
  (opNum w = 0x38 ∧ fnNum w = 1 ∧ (pNum w ≠ 0 ∨ bNum w ≠ 0 ∨ cNum w ≠ 0)) ∨
  (opNum w = 0x38 ∧ fnNum w = 2 ∧ pNum w / 32 ≠ 0) ∨
  (opNum w = 0x38 ∧ (fnNum w = 3 ∨ fnNum w = 4 ∨ fnNum w = 10) ∧ pNum w ≠ 0) ∨
  (opNum w = 0x38 ∧ (fnNum w = 5 ∨ fnNum w = 9) ∧ (pNum w ≠ 0 ∨ cNum w ≠ 0)) ∨
  (opNum w = 0x38 ∧ fnNum w = 6 ∧ (pNum w / 16 ≠ 0 ∨ bNum w ≠ 0 ∨ cNum w ≠ 0)) ∨
  (opNum w = 0x38 ∧ fnNum w = 11 ∧ pNum w / 8 ≠ 0) ∨
  ((opNum w = 0x31 ∨ opNum w = 0x32) ∧ (bNum w ≠ 0 ∨ immNum w / 64 ≠ 0)) ∨
  (opNum w = 0x33 ∧ (aNum w ≠ 0 ∨ bNum w ≠ 0 ∨ immNum w / 64 ≠ 0))

/-- A condition of R151 fails: an odd pair; SINCOS with A = C; nb, m or n out of range; a bit count above 32; a special register that does
not exist, or that MTS may not name. -/
abbrev BadOperand (w : Word) : Prop :=
  (opNum w = 0x28 ∧ fnNum w = 6 ∧ (aNum w % 2 = 1 ∨ bNum w % 2 = 1)) ∨
  (opNum w = 0x28 ∧ (fnNum w = 7 ∨ fnNum w = 8) ∧ (aNum w % 2 = 1 ∨ bNum w % 2 = 1 ∨ cNum w % 2 = 1)) ∨
  (opNum w = 0x28 ∧ fnNum w = 9 ∧ aNum w % 2 = 1) ∨
  (opNum w = 0x28 ∧ fnNum w = 10 ∧ bNum w % 2 = 1) ∨
  (opNum w = 0x28 ∧ fnNum w = 11 ∧ aNum w = cNum w) ∨
  (opNum w = 0x38 ∧ (fnNum w = 0 ∨ fnNum w = 2) ∧ (pNum w % 32 = 0 ∨ 16 < pNum w % 32)) ∨
  (opNum w = 0x38 ∧ (fnNum w = 6 ∨ fnNum w = 7) ∧ pNum w % 16 = 0) ∨
  (opNum w = 0x38 ∧ fnNum w = 8 ∧ pNum w % 16 < 3) ∨
  ((opNum w = 0x31 ∨ opNum w = 0x32 ∨ opNum w = 0x33) ∧ 32 < immNum w % 64) ∨
  (opNum w = 0x0B ∧ 22 < immNum w % 64) ∨
  (opNum w = 0x0C ∧ (immNum w % 64 ≤ 1 ∨ 22 < immNum w % 64))

/-- An illegal word (R152). -/
abbrev IllegalWord (w : Word) : Prop := ReservedOp w ∨ ReservedFn w ∨ NonzeroMustBeZero w ∨ BadOperand w

/-! ## Running -/

/-- The sequencer runs, no abort is pending, and the word at PC is `w`: the fetch of the next step reads it (47_control R413). -/
def Fetches (s : State) (w : Word) : Prop :=
  s.ctl.busy = true ∧ s.abortPending = false ∧ s.pc.toNat % 4 = 0 ∧ s.pc.toNat + 4 ≤ lmemSize s ∧ HoldsWord s.mem s.pc.toNat w.toInt

/-! ## Variable-length codes (43_vlc R281, R282) -/

/-- The entry word `e` stands at the entry address for index `idx` of the level at offset `off` of the table at T, inside LMEM. -/
def VlcEntry (s : State) (T off idx : Nat) (e : Word) : Prop :=
  T + 4 * (off + idx) + 4 ≤ lmemSize s ∧ HoldsWord s.mem (T + 4 * (off + idx)) e.toInt

/-- Looking up one code at stream bit `pos` in the table at T, at level `level` (1 to 3) with `consumed` bits behind it, entry offset
`off` and index width `w`, ends in the result `r`. -/
inductive VlcReads (s : State) (T pos : Nat) : Nat → Nat → Nat → Nat → VlcResult → Prop where
  /-- A leaf whose code ends within BSLEN. -/
  | leaf {level consumed off w idx : Nat} {e : Word} (hb : StreamBits s (pos + consumed) w idx) (he : VlcEntry s T off idx e)
      (hk : e.toNat / 2 ^ 30 = 1) (h1 : 1 ≤ e.toNat / 2 ^ 24 % 64) (hw : e.toNat / 2 ^ 24 % 64 ≤ w)
      (hl : pos + (consumed + e.toNat / 2 ^ 24 % 64) ≤ s.sr.bslen.toNat) :
      VlcReads s T pos level consumed off w (.leaf (e.toNat % 65536) (consumed + e.toNat / 2 ^ 24 % 64))
  /-- A miss: kind 0b00 or 0b11. -/
  | miss {level consumed off w idx : Nat} {e : Word} (hb : StreamBits s (pos + consumed) w idx) (he : VlcEntry s T off idx e)
      (hk : e.toNat / 2 ^ 30 = 0 ∨ e.toNat / 2 ^ 30 = 3) :
      VlcReads s T pos level consumed off w (.miss (T + 4 * (off + idx)))
  /-- A sub-table entry, below the third level. -/
  | sub {level consumed off w idx : Nat} {e : Word} {r : VlcResult} (hb : StreamBits s (pos + consumed) w idx)
      (he : VlcEntry s T off idx e) (hk : e.toNat / 2 ^ 30 = 2) (hlev : level < 3) (h1 : 1 ≤ e.toNat / 2 ^ 24 % 64)
      (h16 : e.toNat / 2 ^ 24 % 64 ≤ 16)
      (hr : VlcReads s T pos (level + 1) (consumed + w) (e.toNat % 2 ^ 24) (e.toNat / 2 ^ 24 % 64) r) :
      VlcReads s T pos level consumed off w r

/-- Looking up one code at stream bit `pos` in the table at T with primary width `nb` comes to level `level` (1 to 3) with `consumed` bits
behind it, entry offset `off` and index width `w`: the primary level, or one that a well-formed sub-table entry of the level before it
leads to. -/
inductive VlcReaches (s : State) (T pos nb : Nat) : Nat → Nat → Nat → Nat → Prop where
  | primary : VlcReaches s T pos nb 1 0 0 nb
  | sub {level consumed off w idx : Nat} {e : Word} (hr : VlcReaches s T pos nb level consumed off w)
      (hb : StreamBits s (pos + consumed) w idx) (he : VlcEntry s T off idx e) (hk : e.toNat / 2 ^ 30 = 2) (hlev : level < 3)
      (h1 : 1 ≤ e.toNat / 2 ^ 24 % 64) (h16 : e.toNat / 2 ^ 24 % 64 ≤ 16) :
      VlcReaches s T pos nb (level + 1) (consumed + w) (e.toNat % 2 ^ 24) (e.toNat / 2 ^ 24 % 64)

/-- The state with other LMEM contents. -/
def withMem (s : State) (m : Memory) : State := { s with mem := m }

/-! ## Run-level codes (44_spectral R303, R304) -/

/-- One coefficient code at stream bit `pos` is read from `s`: its run, its signed level, and the position after its sign bit. -/
inductive RlReads (s : State) (T nb pos : Nat) : Nat → Int → Nat → Prop where
  /-- Symbol 0: level and run are read from the stream in ESCW and RUNW bits. -/
  | escape {total level run sign : Nat} (hv : VlcReads s T pos 1 0 0 nb (.leaf 0 total))
      (hl : StreamBits s (pos + total) s.sr.escw.toNat level)
      (hr : StreamBits s (pos + total + s.sr.escw.toNat) s.sr.runw.toNat run)
      (hs : StreamBits s (pos + total + s.sr.escw.toNat + s.sr.runw.toNat) 1 sign)
      (hb : pos + total + s.sr.escw.toNat + s.sr.runw.toNat + 1 ≤ s.sr.bslen.toNat) :
      RlReads s T nb pos run (if sign = 1 then level else -level) (pos + total + s.sr.escw.toNat + s.sr.runw.toNat + 1)
  /-- A symbol of 2 or more: run and level stand in the run-level table, whose entry address wraps modulo 2^32 (00_scope R20). -/
  | table {total sym sign : Nat} {e : Word} (hv : VlcReads s T pos 1 0 0 nb (.leaf sym total)) (hsym : 2 ≤ sym)
      (ha : (s.sr.rltab.toNat + 4 * sym) % 2 ^ 32 + 4 ≤ lmemSize s)
      (he : HoldsWord s.mem ((s.sr.rltab.toNat + 4 * sym) % 2 ^ 32) e.toInt)
      (hs : StreamBits s (pos + total) 1 sign) (hb : pos + total + 1 ≤ s.sr.bslen.toNat) :
      RlReads s T nb pos (e.toNat / 65536) (if sign = 1 then (e.toNat % 65536 : Nat) else -(e.toNat % 65536 : Nat)) (pos + total + 1)

/-- RLDEC's codes from LMEM `m`, stream bit `pos` and write index `p` on, up to the end of the block or of the buffer, leave LMEM `m'`,
stream bit `pos'` and write index `p'`; every code reads LMEM as the earlier ones left it. -/
inductive RlRun (s : State) (cb T nb N : Nat) : Memory → Nat → Nat → Memory → Nat → Nat → Prop where
  | endOfBlock {m : Memory} {pos p total : Nat} (hv : VlcReads (withMem s m) T pos 1 0 0 nb (.leaf 1 total)) :
      RlRun s cb T nb N m pos p m (pos + total) p
  | full {m : Memory} {pos p run pos1 : Nat} {v : Int} (hc : RlReads (withMem s m) T nb pos run v pos1) (hp : p + run + 1 = N) :
      RlRun s cb T nb N m pos p (storeW m (cb + 4 * (p + run)) v) pos1 (p + run + 1)
  | more {m m' : Memory} {pos p run pos1 pos' p' : Nat} {v : Int} (hc : RlReads (withMem s m) T nb pos run v pos1)
      (hp : p + run + 1 < N) (hr : RlRun s cb T nb N (storeW m (cb + 4 * (p + run)) v) pos1 (p + run + 1) m' pos' p') :
      RlRun s cb T nb N m pos p m' pos' p'

/-- A prefix of RLDEC's codes: from (m, pos, p) some coefficients are written, and the loop stands at (m', pos', p') with p' < N. -/
inductive RlPrefix (s : State) (cb T nb N : Nat) : Memory → Nat → Nat → Memory → Nat → Nat → Prop where
  | here {m : Memory} {pos p : Nat} (hp : p < N) : RlPrefix s cb T nb N m pos p m pos p
  | more {m m' : Memory} {pos p run pos1 pos' p' : Nat} {v : Int} (hc : RlReads (withMem s m) T nb pos run v pos1)
      (hp : p + run + 1 < N) (hr : RlPrefix s cb T nb N (storeW m (cb + 4 * (p + run)) v) pos1 (p + run + 1) m' pos' p') :
      RlPrefix s cb T nb N m pos p m' pos' p'

/-! ## Complex arrays (45_transform R330, R331) -/

/-- LMEM holds the complex element `v` as element k of the array at z. -/
def HoldsC (m : Memory) (z k : Nat) (v : Int × Int) : Prop := HoldsWord m (z + 8 * k) v.1 ∧ HoldsWord m (z + 8 * k + 4) v.2

/-- A complex product by a Q2.30 factor, exact, floor-shifted, not yet saturated (45_transform R331). -/
def exactMul (a b : Int × Int) : Int × Int := ((a.1 * b.1 - a.2 * b.2) / 2 ^ 30, (a.1 * b.2 + a.2 * b.1) / 2 ^ 30)

/-- Both parts clamped to 32 bits. -/
def clampC (v : Int × Int) : Int × Int := (clampTo 32 v.1, clampTo 32 v.2)

/-- One of the parts is outside 32 bits. -/
def OutC (v : Int × Int) : Prop := OutOf 32 v.1 ∨ OutOf 32 v.2

/-- The exact upper output of a butterfly, (a + b*w) >> sc, before saturation (45_transform R334). -/
def upper (sc : Nat) (a b w : Int × Int) : Int × Int :=
  ((a.1 + (clampC (exactMul b w)).1) / 2 ^ sc, (a.2 + (clampC (exactMul b w)).2) / 2 ^ sc)

/-- The exact lower output of a butterfly, (a - b*w) >> sc, before saturation (45_transform R334). -/
def lower (sc : Nat) (a b w : Int × Int) : Int × Int :=
  ((a.1 - (clampC (exactMul b w)).1) / 2 ^ sc, (a.2 - (clampC (exactMul b w)).2) / 2 ^ sc)

/-- Element k after stage st + 1 of the butterfly network of 2^m points, from the elements `z` before the stage and the twiddles `tw`
(45_transform R334): upper half of its block of L = 2^(st + 1), or lower half. -/
def stageElem (m sc st : Nat) (tw z : Nat → Int × Int) (k : Nat) : Int × Int :=
  let L := 2 ^ (st + 1)
  let h := 2 ^ st
  let j := k % L
  if j < h then clampC (upper sc (z k) (z (k + h)) (tw (j * (2 ^ m / L))))
  else clampC (lower sc (z (k - h)) (z k) (tw ((j - h) * (2 ^ m / L))))

/-- Stage st + 1 clamps somewhere. -/
def StageClamps (m sc st : Nat) (tw z : Nat → Int × Int) : Prop :=
  ∃ k, k < 2 ^ m ∧ k % 2 ^ (st + 1) < 2 ^ st ∧
    let w := tw (k % 2 ^ (st + 1) * (2 ^ m / 2 ^ (st + 1)))
    OutC (exactMul (z (k + 2 ^ st)) w) ∨ OutC (upper sc (z k) (z (k + 2 ^ st)) w) ∨ OutC (lower sc (z k) (z (k + 2 ^ st)) w)

/-- `k` and `j` are below 2^m and bit i of `j` is bit m - 1 - i of `k` (45_transform R332). -/
def Reversed (m k j : Nat) : Prop := k < 2 ^ m ∧ j < 2 ^ m ∧ ∀ i, i < m → j.testBit i = k.testBit (m - 1 - i)

/-! ## Window (46_window R361) -/

/-- The exact product of a sample by a Q2.30 window value before saturation. -/
def windowed (x w : Int) : Int := x * w / 2 ^ 30

end Sys2Proof.Machine
end

