-- ==== Sys2Proof/Certificates/Slice0/Obligations.lean ====
section
/-! DEFINITION. Obligations.lean: what the provers are asked to prove about the FXP block, from the numbered rules of spec/. -/

open Sys2Proof Sys2Proof.Machine

/-! ## Encoding -/

/-- 30_encoding R141 to R149: the command word of every well-formed instruction decodes to that instruction. -/
def Obligations.EncodedInstructionsDecode : Prop :=
  ∀ i : Instr, i.wellFormed = true → decodeWord (encode i) = .ok i

/-- 30_encoding R152, R154: a word that decodes is the command word of the instruction it decodes to, which is well-formed; so two words
never decode to one instruction and every bit that must be 0 is 0. -/
def Obligations.DecodedWordsAreEncodings : Prop :=
  ∀ (w : Word) (i : Instr), decodeWord w = .ok i → encode i = w ∧ i.wellFormed = true

/-- Words that the examples of spec/ spell out decode to the instructions they stand for. -/
def Obligations.SpecWordsDecode : Prop :=
  decodeWord 0x0BFFFFFF#32 = .ok (.j 0x3FFFFFF#26) ∧
  decodeWord 0x14480003#32 = .ok (.beq 1 2 3) ∧
  decodeWord 0x2C40000A#32 = .ok (.mfs 1 .dqmult) ∧
  decodeWord 0x4048C001#32 = .ok (.sub 1 2 3) ∧
  decodeWord 0x904BFFFC#32 = .ok (.lw 1 2 0x3FFFC#18) ∧
  decodeWord 0xC8400003#32 = .ok (.read 1 3) ∧
  decodeWord 0xE0480020#32 = .ok (.vlcdec 1 2 2) ∧
  decodeWord 0xE0480038#32 = .ok (.imdct 1 2 3 false) ∧
  decodeWord 0xE048C01B#32 = .ok (.pcmout 1 2 3 1) ∧
  decodeWord 0x2C400017#32 = .error .badOperand

/-- 30_encoding R150 to R152: a word with a reserved opcode, a reserved function, a nonzero bit in a field that must be 0, or a bad operand
is exactly a word that decodes to no instruction; fetching one faults with ILLEGAL and FAULTINFO = the word, and has no other effect. The
four kinds (IllegalWord) are written over the word's fields as numbers. -/
def Obligations.ReservedWordsFault : Prop :=
  (∀ w : Word, IllegalWord w ↔ ∀ i : Instr, decodeWord w ≠ .ok i) ∧
  ∀ (s : State) (w : Word), Fetches s w → IllegalWord w → ∃ t, step s = .next t ∧ FaultEntered s t .illegal s.pc w

/-! ## The step -/

/-- 47_control R413: when the word at PC decodes, the step is that instruction's meaning, and the instruction is well-formed. -/
def Obligations.StepRunsTheDecodedInstruction : Prop :=
  ∀ (s : State) (w : Word) (i : Instr), Fetches s w → decodeWord w = .ok i → step s = exec i s ∧ i.wellFormed = true

/-- 47_control R413, 70_reset R560: the sequencer steps while BUSY = 1. That a step asked for while BUSY = 0 changes nothing is the model's
reading (log entry 4). -/
def Obligations.IdleStepChangesNothing : Prop :=
  ∀ s : State, s.ctl.busy = false → step s = .next s

/-- 10_state R47, 60_exceptions R504: the fetch checks PC, alignment first, with FAULTPC = FAULTINFO = PC. -/
def Obligations.FetchChecksThePc : Prop :=
  ∀ s : State, s.ctl.busy = true → s.abortPending = false →
    (s.pc.toNat % 4 ≠ 0 → ∃ t, step s = .next t ∧ FaultEntered s t .ialign s.pc s.pc) ∧
    (s.pc.toNat % 4 = 0 → lmemSize s < s.pc.toNat + 4 → ∃ t, step s = .next t ∧ FaultEntered s t .iaddr s.pc s.pc)

/-- 60_exceptions R509: a host write of 1 to CTRL.ABORT while busy sets the latch and changes only it and IRQEN; the next step then takes
the fault ABORT at PC with FAULTINFO 0 and clears the latch, whatever the word at PC; while idle the write changes IRQEN alone. -/
def Obligations.AbortEndsTheRun : Prop :=
  ∀ (s : State) (v : Word), v.getLsbD 1 = true →
    let u := hostWrite 0x004 .word v s
    (s.ctl.busy = false → u = { s with ctl := { s.ctl with irqen := v.getLsbD 2 } }) ∧
    (s.ctl.busy = true →
      u = { s with abortPending := true, ctl := { s.ctl with irqen := v.getLsbD 2 } } ∧
      ∃ t, step u = .next t ∧ FaultEntered { u with abortPending := false } t .abort s.pc 0)

/-! ## The machine as a whole -/

/-- 70_reset R562 to R565: reset satisfies the invariant, for every LMEM_SIZE. That no LMEM byte holds a value is how the model writes R564
(log entry 2). -/
def Obligations.InvariantAtReset : Prop := ∀ n : Fin 9, Inv (State.resetOf n)

/-- 10_state R51, 42_bitreader R250, 60_exceptions R506, R510, R520: every step keeps the invariant: the memory stays canonical and inside
LMEM, the cursor stays in its stream and the stream in LMEM, and STATUS stays consistent. The canonical form of the memory is the model's own
(log entry 2). -/
def Obligations.StepKeepsTheInvariant : Prop :=
  ∀ s t : State, Inv s → step s = .next t → Inv t

/-- 10_state R66, 60_exceptions R519: so does everything that can happen to the block: a step, a host read or write of any width at any
offset, a reset (events between steps: log entry 8). -/
def Obligations.EveryEventKeepsTheInvariant : Prop :=
  ∀ (e : Event) (s t : State), Inv s → react e s = .next t → Inv t

/-- 60_exceptions R501, R505: an instruction that faults records CAUSE, its own address and FAULTINFO, and leaves PC, every general and
special register, DONE, HERR, IRQEN and the latch as they were; LMEM too, except RLDEC's coefficient array. The cause is one an
instruction can raise. -/
def Obligations.FaultsArePrecise : Prop :=
  ∀ (i : Instr) (s t : State), i.wellFormed = true → exec i s = .next t → s.ctl.fault = false → t.ctl.fault = true →
    t.regs = s.regs ∧ t.sr = s.sr ∧ t.pc = s.pc ∧ t.abortPending = s.abortPending ∧ t.lmemLog = s.lmemLog ∧
    t.ctl = { s.ctl with busy := false, fault := true, cause := t.ctl.cause, faultpc := s.pc, faultinfo := t.ctl.faultinfo } ∧
    t.ctl.cause ∈ [Cause.dalign, .daddr, .bsovr, .vlcmiss, .vlctbl, .rlovr, .cfg, .oprange] ∧
    (match i with
      | .rldec _ rcoef _ _ => MemKeptOutside s t (reg s rcoef).toNat (4 * s.sr.ncoef.toNat)
      | _ => MemKept s t)

/-- 10_state R51, 42_bitreader R250: only BSINIT writes BSBASE and BSLEN; only BSINIT and an MTS to BSPOS can move the cursor backward. -/
def Obligations.OnlyBsinitSetsTheStream : Prop :=
  ∀ (i : Instr) (s t : State), exec i s = .next t → (∀ rbase rlen, i ≠ .bsinit rbase rlen) →
    t.sr.bsbase = s.sr.bsbase ∧ t.sr.bslen = s.sr.bslen ∧
    ((∀ rs, i ≠ .mts .bspos rs) → s.sr.bspos.toNat ≤ t.sr.bspos.toNat)

/-- 10_state R52: no instruction clears a sticky flag except an MTS to ASTAT. -/
def Obligations.FlagsAreSticky : Prop :=
  ∀ (i : Instr) (s t : State), exec i s = .next t → (∀ rs, i ≠ .mts .astat rs) →
    ∀ k, s.sr.astat.getLsbD k = true → t.sr.astat.getLsbD k = true

/-- 10_state R46: an instruction that completes without a fault moves PC on by 4 modulo 2^32, except a taken branch, J and JAL, which go to
their targets, and JR, which goes to a register's value; HALT moves PC on by 4 and stops the sequencer; one that faults leaves PC. -/
def Obligations.PcAfterAnInstruction : Prop :=
  ∀ (i : Instr) (s t : State), exec i s = .next t → s.ctl.fault = false →
    let goes := fun (off : Int) => (t.pc.toNat : Int) = (s.pc.toNat + 4 * off) % 2 ^ 32
    let branches := fun (taken : Prop) (off : BitVec 18) => (taken → goes off.toInt) ∧ (¬taken → NextPc s t)
    (t.ctl.fault = true → t.pc = s.pc) ∧
    (t.ctl.fault = false →
      match i with
      | .j off => goes off.toInt
      | .jal _ off => goes off.toInt
      | .jr rs => t.pc = reg s rs
      | .beq ra rb off => branches (reg s ra = reg s rb) off
      | .bne ra rb off => branches (reg s ra ≠ reg s rb) off
      | .blt ra rb off => branches ((reg s ra).toInt < (reg s rb).toInt) off
      | .bge ra rb off => branches ((reg s rb).toInt ≤ (reg s ra).toInt) off
      | .bltu ra rb off => branches ((reg s ra).toNat < (reg s rb).toNat) off
      | .bgeu ra rb off => branches ((reg s rb).toNat ≤ (reg s ra).toNat) off
      | .halt => NextPc s t ∧ t.ctl.busy = false
      | _ => NextPc s t)

/-- 60_exceptions R506, R520: the step that ends a run ends it in exactly one way: HALT (DONE = 1, FAULT = 0, CAUSE = 0) or a fault
(FAULT = 1, DONE = 0, CAUSE not 0). -/
def Obligations.RunsEndInOneWay : Prop :=
  ∀ s t : State, Inv s → s.ctl.busy = true → step s = .next t → t.ctl.busy = false →
    (t.ctl.done = true ∧ t.ctl.fault = false ∧ t.ctl.cause = .none) ∨
    (t.ctl.fault = true ∧ t.ctl.done = false ∧ t.ctl.cause ≠ .none)

/-- 60_exceptions R503, R513, 10_state R73: a step never changes HERR, IRQEN or LMEM_SIZE, never starts the sequencer, and writes FAULTPC,
FAULTINFO, FAULT and CAUSE only by a fault entry at PC; DONE only by HALT. -/
def Obligations.StepsLeaveTheHostRegisters : Prop :=
  ∀ s t : State, step s = .next t →
    t.ctl.herr = s.ctl.herr ∧ t.ctl.irqen = s.ctl.irqen ∧ t.lmemLog = s.lmemLog ∧ (t.ctl.busy = true → s.ctl.busy = true) ∧
    ((t.ctl.faultpc = s.ctl.faultpc ∧ t.ctl.faultinfo = s.ctl.faultinfo ∧ t.ctl.fault = s.ctl.fault ∧ t.ctl.cause = s.ctl.cause) ∨
      (t.ctl.busy = false ∧ t.ctl.fault = true ∧ t.ctl.faultpc = s.pc ∧ t.pc = s.pc ∧ t.ctl.done = s.ctl.done)) ∧
    (t.ctl.done ≠ s.ctl.done → Fetches s 0x00000000#32 ∧ t.ctl.done = true ∧ t.ctl.busy = false)

/-! ## Integer instructions -/

/-- 48_integer R430, R431, R440: ADD, SUB and ADDI wrap modulo 2^32, set no flag and change only rd and PC. -/
def Obligations.IntegerAddSubtract : Prop :=
  ∀ (rd rs rt : Reg) (imm : BitVec 18) (s : State),
    (∃ t, exec (.add rd rs rt) s = .next t ∧ (reg t rd).toNat = ((reg s rs).toNat + (reg s rt).toNat) % 2 ^ 32 ∧
      OnlyRegs s t [rd] ∧ NextPc s t) ∧
    (∃ t, exec (.sub rd rs rt) s = .next t ∧ ((reg t rd).toNat : Int) = ((reg s rs).toNat - (reg s rt).toNat) % 2 ^ 32 ∧
      OnlyRegs s t [rd] ∧ NextPc s t) ∧
    (∃ t, exec (.addi rd rs imm) s = .next t ∧ ((reg t rd).toNat : Int) = ((reg s rs).toNat + imm.toInt) % 2 ^ 32 ∧
      OnlyRegs s t [rd] ∧ NextPc s t)

/-- 48_integer R432 to R434, R441 to R443: the bitwise instructions, bit by bit; an immediate is zero-extended from 18 bits. -/
def Obligations.IntegerBitwise : Prop :=
  ∀ (rd rs rt : Reg) (imm : BitVec 18) (s : State),
    (∃ t, exec (.and rd rs rt) s = .next t ∧
      (∀ k, k < 32 → (reg t rd).getLsbD k = ((reg s rs).getLsbD k && (reg s rt).getLsbD k)) ∧ OnlyRegs s t [rd] ∧ NextPc s t) ∧
    (∃ t, exec (.or rd rs rt) s = .next t ∧
      (∀ k, k < 32 → (reg t rd).getLsbD k = ((reg s rs).getLsbD k || (reg s rt).getLsbD k)) ∧ OnlyRegs s t [rd] ∧ NextPc s t) ∧
    (∃ t, exec (.xor rd rs rt) s = .next t ∧
      (∀ k, k < 32 → (reg t rd).getLsbD k = ((reg s rs).getLsbD k != (reg s rt).getLsbD k)) ∧ OnlyRegs s t [rd] ∧ NextPc s t) ∧
    (∃ t, exec (.andi rd rs imm) s = .next t ∧
      (∀ k, k < 32 → (reg t rd).getLsbD k = ((reg s rs).getLsbD k && (decide (k < 18) && imm.getLsbD k))) ∧
      OnlyRegs s t [rd] ∧ NextPc s t) ∧
    (∃ t, exec (.ori rd rs imm) s = .next t ∧
      (∀ k, k < 32 → (reg t rd).getLsbD k = ((reg s rs).getLsbD k || (decide (k < 18) && imm.getLsbD k))) ∧
      OnlyRegs s t [rd] ∧ NextPc s t) ∧
    (∃ t, exec (.xori rd rs imm) s = .next t ∧
      (∀ k, k < 32 → (reg t rd).getLsbD k = ((reg s rs).getLsbD k != (decide (k < 18) && imm.getLsbD k))) ∧
      OnlyRegs s t [rd] ∧ NextPc s t)

/-- 48_integer R435 to R437, R445 to R447: a left shift is a product modulo 2^32, a logical right shift a quotient, an arithmetic right
shift the floor of a signed quotient; a register shift uses the low five bits of its amount. -/
def Obligations.IntegerShifts : Prop :=
  ∀ (rd rs rt : Reg) (sh : BitVec 5) (s : State),
    (∃ t, exec (.sll rd rs rt) s = .next t ∧
      (reg t rd).toNat = (reg s rs).toNat * 2 ^ ((reg s rt).toNat % 32) % 2 ^ 32 ∧ OnlyRegs s t [rd] ∧ NextPc s t) ∧
    (∃ t, exec (.srl rd rs rt) s = .next t ∧
      (reg t rd).toNat = (reg s rs).toNat / 2 ^ ((reg s rt).toNat % 32) ∧ OnlyRegs s t [rd] ∧ NextPc s t) ∧
    (∃ t, exec (.sra rd rs rt) s = .next t ∧
      (reg t rd).toInt = (reg s rs).toInt / 2 ^ ((reg s rt).toNat % 32) ∧ OnlyRegs s t [rd] ∧ NextPc s t) ∧
    (∃ t, exec (.slli rd rs sh) s = .next t ∧
      (reg t rd).toNat = (reg s rs).toNat * 2 ^ sh.toNat % 2 ^ 32 ∧ OnlyRegs s t [rd] ∧ NextPc s t) ∧
    (∃ t, exec (.srli rd rs sh) s = .next t ∧
      (reg t rd).toNat = (reg s rs).toNat / 2 ^ sh.toNat ∧ OnlyRegs s t [rd] ∧ NextPc s t) ∧
    (∃ t, exec (.srai rd rs sh) s = .next t ∧
      (reg t rd).toInt = (reg s rs).toInt / 2 ^ sh.toNat ∧ OnlyRegs s t [rd] ∧ NextPc s t)

/-- 48_integer R438, R439, R444: SLT compares signed and SLTU unsigned, writing 1 or 0; LUI writes its immediate times 2^16. -/
def Obligations.IntegerCompareAndUpper : Prop :=
  ∀ (rd rs rt : Reg) (imm : BitVec 16) (s : State),
    (∃ t, exec (.slt rd rs rt) s = .next t ∧ (reg t rd).toNat = (if (reg s rs).toInt < (reg s rt).toInt then 1 else 0) ∧
      OnlyRegs s t [rd] ∧ NextPc s t) ∧
    (∃ t, exec (.sltu rd rs rt) s = .next t ∧ (reg t rd).toNat = (if (reg s rs).toNat < (reg s rt).toNat then 1 else 0) ∧
      OnlyRegs s t [rd] ∧ NextPc s t) ∧
    (∃ t, exec (.lui rd imm) s = .next t ∧ (reg t rd).toNat = imm.toNat * 65536 ∧ OnlyRegs s t [rd] ∧ NextPc s t)

/-! ## Control -/

/-- 47_control R400, R401: HALT clears BUSY, sets DONE and moves PC on; NOP moves PC on; nothing else changes. -/
def Obligations.HaltAndNop : Prop :=
  ∀ s : State,
    (∃ t, exec .halt s = .next t ∧ t.ctl = { s.ctl with busy := false, done := true } ∧ NextPc s t ∧
      RegsKept s t [] ∧ SrsKept s t [] ∧ t.abortPending = s.abortPending ∧ t.lmemLog = s.lmemLog ∧ MemKept s t) ∧
    (∃ t, exec .nop s = .next t ∧ OnlyRegs s t [] ∧ NextPc s t)

/-- 47_control R402 to R404: J and JAL go to PC plus four times a signed word offset modulo 2^32, JR to a register; JAL writes the address
of the next word. -/
def Obligations.JumpsGoToTheirTargets : Prop :=
  ∀ (off : BitVec 26) (rd rs : Reg) (off18 : BitVec 18) (s : State),
    (∃ t, exec (.j off) s = .next t ∧ (t.pc.toNat : Int) = (s.pc.toNat + 4 * off.toInt) % 2 ^ 32 ∧ OnlyRegs s t []) ∧
    (∃ t, exec (.jal rd off18) s = .next t ∧ (t.pc.toNat : Int) = (s.pc.toNat + 4 * off18.toInt) % 2 ^ 32 ∧
      (reg t rd).toNat = (s.pc.toNat + 4) % 2 ^ 32 ∧ OnlyRegs s t [rd]) ∧
    (∃ t, exec (.jr rs) s = .next t ∧ t.pc = reg s rs ∧ OnlyRegs s t [])

/-- 47_control R405 to R410: each branch goes to PC plus four times its signed word offset modulo 2^32 when its comparison holds, else to
the next word, and changes nothing else. -/
def Obligations.BranchesCompareRegisters : Prop :=
  ∀ (ra rb : Reg) (off : BitVec 18) (s : State),
    let a := reg s ra
    let b := reg s rb
    let goes := fun (i : Instr) (taken : Prop) =>
      ∃ t, exec i s = .next t ∧ OnlyRegs s t [] ∧
        (taken → (t.pc.toNat : Int) = (s.pc.toNat + 4 * off.toInt) % 2 ^ 32) ∧ (¬taken → NextPc s t)
    goes (.beq ra rb off) (a.toNat = b.toNat) ∧ goes (.bne ra rb off) (a.toNat ≠ b.toNat) ∧
    goes (.blt ra rb off) (a.toInt < b.toInt) ∧ goes (.bge ra rb off) (b.toInt ≤ a.toInt) ∧
    goes (.bltu ra rb off) (a.toNat < b.toNat) ∧ goes (.bgeu ra rb off) (b.toNat ≤ a.toNat)

/-- 47_control R411, R412, 10_state R49 to R51: MFS copies a special register, whose unused bits read 0; MTS stores the used bits, clamps
BSPOS to BSLEN, and changes no other register. -/
def Obligations.SpecialRegisterMoves : Prop :=
  ∀ (rd rs : Reg) (sr : SReg) (s : State),
    (∃ t, exec (.mfs rd sr) s = .next t ∧ reg t rd = readSr s sr ∧ reg t rd &&& ~~~usedBits sr = 0 ∧ OnlyRegs s t [rd] ∧
      NextPc s t) ∧
    (sr ≠ .bsbase → sr ≠ .bslen →
      ∃ t, exec (.mts sr rs) s = .next t ∧
        (sr ≠ .bspos → readSr t sr = reg s rs &&& usedBits sr) ∧
        (sr = .bspos → (readSr t sr).toNat = min (reg s rs).toNat s.sr.bslen.toNat) ∧
        OnlyRegsAndSrs s t [] [sr] ∧ NextPc s t)

/-! ## Loads and stores -/

/-- 49_loadstore R460 to R464: a load inside LMEM and aligned puts the little-endian value at its address, sign- or zero-extended, in rd. -/
def Obligations.LoadsReadLmem : Prop :=
  ∀ (rd rb : Reg) (imm : BitVec 18) (s : State),
    let ea := (effAddr s rb imm).toNat
    (ea : Int) = ((reg s rb).toNat + imm.toInt) % 2 ^ 32 ∧
    (∀ b : Byte, ea + 1 ≤ lmemSize s → memGet ea s.mem = some b →
      (∃ t, exec (.lb rd rb imm) s = .next t ∧ (reg t rd).toInt = b.toInt ∧ OnlyRegs s t [rd] ∧ NextPc s t) ∧
      (∃ t, exec (.lbu rd rb imm) s = .next t ∧ (reg t rd).toNat = b.toNat ∧ OnlyRegs s t [rd] ∧ NextPc s t)) ∧
    (∀ v : Int, ea % 2 = 0 → ea + 2 ≤ lmemSize s → HoldsHalf s.mem ea v →
      (∃ t, exec (.lh rd rb imm) s = .next t ∧ (reg t rd).toInt = v ∧ OnlyRegs s t [rd] ∧ NextPc s t) ∧
      (∃ t, exec (.lhu rd rb imm) s = .next t ∧ ((reg t rd).toNat : Int) = v % 65536 ∧ OnlyRegs s t [rd] ∧ NextPc s t)) ∧
    (∀ v : Int, ea % 4 = 0 → ea + 4 ≤ lmemSize s → HoldsWord s.mem ea v →
      ∃ t, exec (.lw rd rb imm) s = .next t ∧ (reg t rd).toInt = v ∧ OnlyRegs s t [rd] ∧ NextPc s t)

/-- 49_loadstore R465 to R467: a store inside LMEM and aligned writes the low bytes of its register little-endian at its address, and no
other byte. -/
def Obligations.StoresWriteLmem : Prop :=
  ∀ (rv rb : Reg) (imm : BitVec 18) (s : State),
    let ea := (effAddr s rb imm).toNat
    let stores := fun (i : Instr) (n : Nat) =>
      ∃ t, exec i s = .next t ∧
        (∀ k, k < n → ∃ b : Byte, memGet (ea + k) t.mem = some b ∧ b.toNat = (reg s rv).toNat / 256 ^ k % 256) ∧
        OnlyArray s t [] ea n ∧ NextPc s t
    (ea : Int) = ((reg s rb).toNat + imm.toInt) % 2 ^ 32 ∧
    (ea + 1 ≤ lmemSize s → stores (.sb rv rb imm) 1) ∧
    (ea % 2 = 0 → ea + 2 ≤ lmemSize s → stores (.sh rv rb imm) 2) ∧
    (ea % 4 = 0 → ea + 4 ≤ lmemSize s → stores (.sw rv rb imm) 4)

/-- 20_memory R104, R105, 49_loadstore R460 to R467: a load or store that is misaligned raises DALIGN, and one that is aligned but runs past
LMEM raises DADDR, with FAULTINFO = its address; it writes nothing. -/
def Obligations.LoadsAndStoresCheckAddresses : Prop :=
  ∀ (r rb : Reg) (imm : BitVec 18) (s : State),
    let ea := effAddr s rb imm
    ∀ p ∈ [(Instr.lb r rb imm, 1), (.lbu r rb imm, 1), (.lh r rb imm, 2), (.lhu r rb imm, 2), (.lw r rb imm, 4),
      (.sb r rb imm, 1), (.sh r rb imm, 2), (.sw r rb imm, 4)],
      (ea.toNat % p.2 ≠ 0 → ∃ t, exec p.1 s = .next t ∧ FaultEntered s t .dalign s.pc ea) ∧
      (ea.toNat % p.2 = 0 → lmemSize s < ea.toNat + p.2 → ∃ t, exec p.1 s = .next t ∧ FaultEntered s t .daddr s.pc ea)

/-- 20_memory R106: MemRead after MemWrite of the same access returns the low bytes written; the read of one byte inside it returns that byte
of the value; no byte outside changes. That the memory keeps its canonical form is no rule of the spec: the form is the model's own choice
(log entry 2, DESIGN CHOICE). -/
def Obligations.MemoryReadAfterWrite : Prop :=
  ∀ (size a n v : Nat) (m m' : Memory), memWrite size m a n v = .ok m' →
    memRead size m' a n = .ok (v % 256 ^ n) ∧
    (∀ k, k < n → memRead size m' (a + k) 1 = .ok (v / 256 ^ k % 256)) ∧
    (∀ b, b < a ∨ a + n ≤ b → memGet b m' = memGet b m) ∧
    (m.wf = true → m'.wf = true)

/-! ## Fixed point -/

/-- 41_fixedpoint R201, R202, R206, R207: FMUL floors, FMULR rounds half up, FADD and FSUB are exact; each saturates to 32 bits and records
SAT exactly when it clamps. -/
def Obligations.FixedMultiplyAddSubtract : Prop :=
  ∀ (rd rs rt : Reg) (s : State),
    let a := (reg s rs).toInt
    let b := (reg s rt).toInt
    let gives := fun (i : Instr) (v : Int) =>
      ∃ t, exec i s = .next t ∧ (reg t rd).toInt = clampTo 32 v ∧ SatAdded s t (OutOf 32 v) ∧ OnlyRegsAndFlags s t [rd] ∧ NextPc s t
    gives (.fmul rd rs rt) (a * b / 65536) ∧ gives (.fmulr rd rs rt) ((a * b + 32768) / 65536) ∧
    gives (.fadd rd rs rt) (a + b) ∧ gives (.fsub rd rs rt) (a - b)

/-- 41_fixedpoint R203: FDIV rounds the scaled quotient toward zero and saturates it; a zero divisor gives 0x7FFFFFFF and DZ. -/
def Obligations.FixedDivide : Prop :=
  ∀ (rd rs rt : Reg) (s : State),
    let a := (reg s rs).toInt
    let b := (reg s rt).toInt
    ∃ t, exec (.fdiv rd rs rt) s = .next t ∧ OnlyRegsAndFlags s t [rd] ∧ NextPc s t ∧
      (b = 0 → reg t rd = 0x7FFFFFFF#32 ∧ FlagsAdded s t 2#4) ∧
      (b ≠ 0 → (reg t rd).toInt = clampTo 32 ((a * 65536).tdiv b) ∧ SatAdded s t (OutOf 32 ((a * 65536).tdiv b)))

/-- 41_fixedpoint R204, R205: FSQRT gives the floor of the square root of the operand times 2^16, at most 0x00B504F3, with no flag; a
negative operand gives 0x80000000 and NV. -/
def Obligations.FixedSquareRoot : Prop :=
  ∀ (rd rs : Reg) (s : State),
    let a := (reg s rs).toInt
    ∃ t, exec (.fsqrt rd rs) s = .next t ∧ OnlyRegsAndFlags s t [rd] ∧ NextPc s t ∧
      (a < 0 → reg t rd = 0x80000000#32 ∧ FlagsAdded s t 4#4) ∧
      (0 ≤ a → ((reg t rd).toNat : Int) * (reg t rd).toNat ≤ a * 65536 ∧
        a * 65536 < ((reg t rd).toNat + 1) * ((reg t rd).toNat + 1) ∧ (reg t rd).toNat ≤ 0x00B504F3 ∧ FlagsAdded s t 0#4)

/-- 41_fixedpoint R208 to R210: WMUL and WMULW floor, WDIV rounds toward zero; each saturates to 64 bits into its pair; a zero divisor gives
0x7FFFFFFFFFFFFFFF and DZ. -/
def Obligations.WideMultiplyDivide : Prop :=
  ∀ (pd ps pt : Pair) (rt : Reg) (s : State),
    let a := pairValue s ps
    let b := pairValue s pt
    let gives := fun (i : Instr) (v : Int) =>
      ∃ t, exec i s = .next t ∧ pairValue t pd = clampTo 64 v ∧ SatAdded s t (OutOf 64 v) ∧
        OnlyRegsAndFlags s t [pairLo pd, pairHi pd] ∧ NextPc s t
    gives (.wmul pd ps rt) (a * (reg s rt).toInt / 2 ^ 16) ∧ gives (.wmulw pd ps pt) (a * b / 2 ^ 48) ∧
    (b ≠ 0 → gives (.wdiv pd ps pt) ((a * 2 ^ 48).tdiv b)) ∧
    (b = 0 → ∃ t, exec (.wdiv pd ps pt) s = .next t ∧ pairValue t pd = 0x7FFFFFFFFFFFFFFF ∧ FlagsAdded s t 2#4 ∧
      OnlyRegsAndFlags s t [pairLo pd, pairHi pd] ∧ NextPc s t)

/-- 41_fixedpoint R211, R212: WEXT is exact, WNRW floors; neither sets a flag. -/
def Obligations.WideMoves : Prop :=
  ∀ (pd ps : Pair) (rd rs : Reg) (s : State),
    (∃ t, exec (.wext pd rs) s = .next t ∧ pairValue t pd = (reg s rs).toInt * 2 ^ 32 ∧
      OnlyRegs s t [pairLo pd, pairHi pd] ∧ NextPc s t) ∧
    (∃ t, exec (.wnrw rd ps) s = .next t ∧ (reg t rd).toInt = pairValue s ps / 2 ^ 32 ∧ reg t rd = reg s (pairHi ps) ∧
      OnlyRegs s t [rd] ∧ NextPc s t)

/-- 41_fixedpoint R213, R214: SINCOS rotates (CGAIN, 0) through CSTAGES stages toward a residual angle of 0, by the 31 constants of R213,
folds the quadrant in, and writes the saturated sine and cosine. -/
def Obligations.SincosRotates : Prop :=
  ∀ (rsin rphase rcos : Reg) (s : State), rsin ≠ rcos →
    let n := s.sr.cstages.toNat
    let u := (reg s rphase).toNat
    let angle := fun (i : Nat) => ([536870912, 316933406, 167458907, 85004756, 42667331, 21354465, 10679838, 5340245, 2670163, 1335087,
      667544, 333772, 166886, 83443, 41722, 20861, 10430, 5215, 2608, 1304, 652, 326, 163, 81, 41, 20, 10, 5, 3, 1, 1] : List Int).getD i 0
    ∃ (t : State) (X Y Z : Nat → Int) (c sn : Int),
      X 0 = s.sr.cgain.toInt ∧ Y 0 = 0 ∧ Z 0 = (u % 2 ^ 30 : Nat) ∧
      (∀ i, i < n →
        (0 ≤ Z i → X (i + 1) = X i - Y i / 2 ^ i ∧ Y (i + 1) = Y i + X i / 2 ^ i ∧ Z (i + 1) = Z i - angle i) ∧
        (Z i < 0 → X (i + 1) = X i + Y i / 2 ^ i ∧ Y (i + 1) = Y i - X i / 2 ^ i ∧ Z (i + 1) = Z i + angle i)) ∧
      (u / 2 ^ 30 = 0 → c = X n ∧ sn = Y n) ∧ (u / 2 ^ 30 = 1 → c = -Y n ∧ sn = X n) ∧
      (u / 2 ^ 30 = 2 → c = -X n ∧ sn = -Y n) ∧ (u / 2 ^ 30 = 3 → c = Y n ∧ sn = -X n) ∧
      exec (.sincos rsin rphase rcos) s = .next t ∧
      (reg t rsin).toInt = clampTo 32 sn ∧ (reg t rcos).toInt = clampTo 32 c ∧ SatAdded s t (OutOf 32 sn ∨ OutOf 32 c) ∧
      OnlyRegsAndFlags s t [rsin, rcos] ∧ NextPc s t

/-! ## Bit reader -/

/-- 42_bitreader R254: BSINIT sets the stream and puts the cursor at 0 when the stream is empty or lies in LMEM, else raises DADDR with
FAULTINFO = the base. -/
def Obligations.BsinitSetsTheStream : Prop :=
  ∀ (rbase rlen : Reg) (s : State),
    let base := reg s rbase
    let len := reg s rlen
    (len.toNat = 0 ∨ base.toNat + (len.toNat + 7) / 8 ≤ lmemSize s →
      ∃ t, exec (.bsinit rbase rlen) s = .next t ∧ t.sr.bsbase = base ∧ t.sr.bslen = len ∧ t.sr.bspos = 0 ∧
        OnlyRegsAndSrs s t [] [.bsbase, .bslen, .bspos] ∧ NextPc s t) ∧
    (0 < len.toNat → lmemSize s < base.toNat + (len.toNat + 7) / 8 →
      ∃ t, exec (.bsinit rbase rlen) s = .next t ∧ FaultEntered s t .daddr s.pc base)

/-- 42_bitreader R257, R258: READ and READR put the next n bits of the stream, the first most significant, in rd and move the cursor past
them, when n is at most 32 and the bits lie below BSLEN. -/
def Obligations.ReadTakesBits : Prop :=
  ∀ (rd rn : Reg) (n : BitVec 6) (v : Nat) (s : State),
    let reads := fun (i : Instr) (n : Nat) =>
      n ≤ 32 → s.sr.bspos.toNat + n ≤ s.sr.bslen.toNat → StreamBits s s.sr.bspos.toNat n v →
        ∃ t, exec i s = .next t ∧ (reg t rd).toNat = v ∧ t.sr.bspos.toNat = s.sr.bspos.toNat + n ∧
          OnlyRegsAndSrs s t [rd] [.bspos] ∧ NextPc s t
    reads (.read rd n) n.toNat ∧ reads (.readr rd rn) (reg s rn).toNat

/-- 42_bitreader R255, R256: PEEK and PEEKR put the next n bits, zeros past BSLEN, in rd and leave the cursor. -/
def Obligations.PeekShowsBits : Prop :=
  ∀ (rd rn : Reg) (n : BitVec 6) (v : Nat) (s : State),
    let peeks := fun (i : Instr) (n : Nat) =>
      n ≤ 32 → StreamBits s s.sr.bspos.toNat n v →
        ∃ t, exec i s = .next t ∧ (reg t rd).toNat = v ∧ OnlyRegs s t [rd] ∧ NextPc s t
    peeks (.peek rd n) n.toNat ∧ peeks (.peekr rd rn) (reg s rn).toNat

/-- 42_bitreader R259 to R261: SKIP and SKIPR move the cursor by their count, ALIGN to the next byte boundary, when that does not pass BSLEN;
else they raise BSOVR with FAULTINFO = the cursor. -/
def Obligations.SkipAndAlignMoveTheCursor : Prop :=
  ∀ (rn : Reg) (n : BitVec 6) (s : State),
    let pos := s.sr.bspos.toNat
    let moves := fun (i : Instr) (target : Nat) =>
      (target ≤ s.sr.bslen.toNat →
        ∃ t, exec i s = .next t ∧ t.sr.bspos.toNat = target ∧ OnlyRegsAndSrs s t [] [.bspos] ∧ NextPc s t) ∧
      (s.sr.bslen.toNat < target → ∃ t, exec i s = .next t ∧ FaultEntered s t .bsovr s.pc s.sr.bspos)
    moves (.skip n) (pos + n.toNat) ∧ moves (.skipr rn) (pos + (reg s rn).toNat) ∧ moves .align (8 * ((pos + 7) / 8))

/-- 42_bitreader R253, R256 to R258: READ and READR past BSLEN raise BSOVR with FAULTINFO = the cursor; READR and PEEKR with a count above
32 raise OPRANGE with FAULTINFO = the count, first. -/
def Obligations.ReadersCheckTheirCounts : Prop :=
  ∀ (rd rn : Reg) (n : BitVec 6) (s : State),
    (s.sr.bslen.toNat < s.sr.bspos.toNat + n.toNat →
      ∃ t, exec (.read rd n) s = .next t ∧ FaultEntered s t .bsovr s.pc s.sr.bspos) ∧
    ((reg s rn).toNat ≤ 32 → s.sr.bslen.toNat < s.sr.bspos.toNat + (reg s rn).toNat →
      ∃ t, exec (.readr rd rn) s = .next t ∧ FaultEntered s t .bsovr s.pc s.sr.bspos) ∧
    (32 < (reg s rn).toNat →
      (∃ t, exec (.readr rd rn) s = .next t ∧ FaultEntered s t .oprange s.pc (reg s rn)) ∧
      (∃ t, exec (.peekr rd rn) s = .next t ∧ FaultEntered s t .oprange s.pc (reg s rn)))

/-! ## Variable-length codes -/

/-- 43_vlc R282, R283: VLCDEC writes the symbol its lookup finds, through up to three table levels, and moves the cursor past the code; a
miss writes 0xFFFFFFFF, sets VLCM and leaves the cursor. -/
def Obligations.VlcdecDecodes : Prop :=
  ∀ (rd rtab : Reg) (nb : BitVec 5) (s : State),
    let T := (reg s rtab).toNat
    let pos := s.sr.bspos.toNat
    T % 4 = 0 →
    (∀ sym total, VlcReads s T pos 1 0 0 nb.toNat (.leaf sym total) →
      ∃ t, exec (.vlcdec rd rtab nb) s = .next t ∧ (reg t rd).toNat = sym ∧ t.sr.bspos.toNat = pos + total ∧
        OnlyRegsAndSrs s t [rd] [.bspos] ∧ NextPc s t) ∧
    (∀ ea, VlcReads s T pos 1 0 0 nb.toNat (.miss ea) →
      ∃ t, exec (.vlcdec rd rtab nb) s = .next t ∧ reg t rd = 0xFFFFFFFF#32 ∧ FlagsAdded s t 8#4 ∧
        OnlyRegsAndFlags s t [rd] ∧ NextPc s t)

/-- 43_vlc R281 to R283: VLCDEC's faults, in their order: DALIGN of the table; then, at any level the lookup comes to, DADDR of an entry
outside LMEM; VLCTBL of a leaf with a bad length, of a sub-table entry with a bad width and of any sub-table entry at the third level; BSOVR
of a code that runs past BSLEN, with FAULTINFO = the code's first bit. FAULTINFO of an entry address of 2^32 or more is a free value (log
entry 6), so it is not stated. -/
def Obligations.VlcdecFaults : Prop :=
  ∀ (rd rtab : Reg) (nb : BitVec 5) (level consumed off w idx : Nat) (e : Word) (s : State),
    let T := (reg s rtab).toNat
    let pos := s.sr.bspos.toNat
    let ea := T + 4 * (off + idx)
    let k := e.toNat / 2 ^ 30
    let f := e.toNat / 2 ^ 24 % 64
    let faults := fun (c : Cause) (info : Word) => ∃ t, exec (.vlcdec rd rtab nb) s = .next t ∧ FaultEntered s t c s.pc info
    (T % 4 ≠ 0 → faults .dalign (reg s rtab)) ∧
    (T % 4 = 0 → VlcReaches s T pos nb.toNat level consumed off w → StreamBits s (pos + consumed) w idx →
      (lmemSize s < ea + 4 → ∃ info, faults .daddr info ∧ (ea < 2 ^ 32 → info = BitVec.ofNat 32 ea)) ∧
      (VlcEntry s T off idx e →
        ((k = 1 ∧ (f = 0 ∨ w < f)) ∨ (k = 2 ∧ (level = 3 ∨ f = 0 ∨ 16 < f)) → faults .vlctbl (BitVec.ofNat 32 ea)) ∧
        (k = 1 → 1 ≤ f → f ≤ w → s.sr.bslen.toNat < pos + (consumed + f) → faults .bsovr s.sr.bspos)))

/-! ## Spectral commands -/

/-- 44_spectral R301, R302: GAIN adds 7-bit groups to 1 while they are 127, saturating at 2^32 - 1, writes the gain, the width of its bucket
into ESCW, and the cursor; a group that runs past BSLEN raises BSOVR at its position. -/
def Obligations.GainDecodes : Prop :=
  ∀ (rd : Reg) (k r : Nat) (s : State),
    let pos := s.sr.bspos.toNat
    let total := 1 + 127 * k + r
    let g := min total (2 ^ 32 - 1)
    let T := s.sr.gthr.toNat
    let W := s.sr.gwid.toNat
    (∀ j, j < k → StreamBits s (pos + 7 * j) 7 127) →
    (r < 127 → StreamBits s (pos + 7 * k) 7 r → pos + 7 * k + 7 ≤ s.sr.bslen.toNat →
      ∃ t, exec (.gain rd) s = .next t ∧ (reg t rd).toNat = g ∧ t.sr.bspos.toNat = pos + 7 * k + 7 ∧
        t.sr.escw.toNat = (if g < T % 2 ^ 8 then W % 2 ^ 5 else if g < T / 2 ^ 8 % 2 ^ 8 then W / 2 ^ 5 % 2 ^ 5
          else if g < T / 2 ^ 16 % 2 ^ 8 then W / 2 ^ 10 % 2 ^ 5 else if g < T / 2 ^ 24 then W / 2 ^ 15 % 2 ^ 5 else W / 2 ^ 20) ∧
        SatAdded s t (2 ^ 32 ≤ total) ∧ OnlyRegsAndSrs s t [rd] [.escw, .bspos, .astat] ∧ NextPc s t) ∧
    (pos + 7 * k ≤ s.sr.bslen.toNat → s.sr.bslen.toNat < pos + 7 * k + 7 →
      ∃ t, exec (.gain rd) s = .next t ∧ FaultEntered s t .bsovr s.pc (BitVec.ofNat 32 (pos + 7 * k)))

/-- 44_spectral R303, R304: RLDEC zero-fills the coefficient array, then writes one level for each code it reads, until the end of the block
or of the array; rd is the index one past the last coefficient written and the cursor stands after the last code. A run-level
entry's address wraps modulo 2^32 (00_scope R20; log entry 18). -/
def Obligations.RldecDecodes : Prop :=
  ∀ (rd rcoef rtab : Reg) (nb : BitVec 5) (m' : Memory) (pos' p' : Nat) (s : State),
    let cb := (reg s rcoef).toNat
    let T := (reg s rtab).toNat
    let N := s.sr.ncoef.toNat
    1 ≤ N → N ≤ 65536 → cb % 4 = 0 → cb + 4 * N ≤ lmemSize s → T % 4 = 0 → s.sr.rltab.toNat % 4 = 0 →
    RlRun s cb T nb.toNat N (zeroFill cb N s.mem) s.sr.bspos.toNat 0 m' pos' p' →
      ∃ t, exec (.rldec rd rcoef rtab nb) s = .next t ∧ (reg t rd).toNat = p' ∧ t.sr.bspos.toNat = pos' ∧ t.mem = m' ∧
        p' ≤ N ∧ (∀ i, p' ≤ i → i < N → HoldsWord t.mem (cb + 4 * i) 0) ∧
        RegsKept s t [rd] ∧ SrsKept s t [.bspos] ∧ ControlKept s t ∧ MemKeptOutside s t cb (4 * N) ∧ NextPc s t

/-- 44_spectral R303, 60_exceptions R505: when a code of RLDEC hits a miss entry it raises VLCMISS at the entry; when the entry of a symbol in the
run-level table, at its address modulo 2^32 (00_scope R20; log entry 18), runs past LMEM it raises DADDR there; and when a run takes the write position to
NCOEF or beyond it raises RLOVR with that position; the zero-fill and the coefficients already written stay, and nothing
else changes. -/
def Obligations.RldecFaultsKeepWrites : Prop :=
  ∀ (rd rcoef rtab : Reg) (nb : BitVec 5) (m' : Memory) (pos' p' : Nat) (s : State),
    let cb := (reg s rcoef).toNat
    let T := (reg s rtab).toNat
    let N := s.sr.ncoef.toNat
    1 ≤ N → N ≤ 65536 → cb % 4 = 0 → cb + 4 * N ≤ lmemSize s → T % 4 = 0 → s.sr.rltab.toNat % 4 = 0 →
    RlPrefix s cb T nb.toNat N (zeroFill cb N s.mem) s.sr.bspos.toNat 0 m' pos' p' →
      (∀ ea, VlcReads (withMem s m') T pos' 1 0 0 nb.toNat (.miss ea) →
        ∃ t, exec (.rldec rd rcoef rtab nb) s = .next t ∧ FaultEntered (withMem s m') t .vlcmiss s.pc (BitVec.ofNat 32 ea)) ∧
      (∀ sym total, VlcReads (withMem s m') T pos' 1 0 0 nb.toNat (.leaf sym total) → 2 ≤ sym →
        lmemSize s < (s.sr.rltab.toNat + 4 * sym) % 2 ^ 32 + 4 →
        ∃ t, exec (.rldec rd rcoef rtab nb) s = .next t ∧
          FaultEntered (withMem s m') t .daddr s.pc (BitVec.ofNat 32 ((s.sr.rltab.toNat + 4 * sym) % 2 ^ 32))) ∧
      (∀ run v pos1, RlReads (withMem s m') T nb.toNat pos' run v pos1 → N ≤ p' + run →
        ∃ t, exec (.rldec rd rcoef rtab nb) s = .next t ∧ FaultEntered (withMem s m') t .rlovr s.pc (BitVec.ofNat 32 (p' + run)))

/-- 44_spectral R305: DEQ multiplies level by scale, saturates, multiplies by DQMULT, floors and saturates, for each of NCOEF elements, into
out, where each source array is out itself or disjoint from it. -/
def Obligations.DeqScales : Prop :=
  ∀ (rout rq re : Reg) (x y : Nat → Int) (s : State),
    let o := (reg s rout).toNat
    let q := (reg s rq).toNat
    let e := (reg s re).toNat
    let N := s.sr.ncoef.toNat
    let r := fun i => clampTo 32 (x i * y i) * s.sr.dqmult.toInt / 2 ^ 16
    1 ≤ N → N ≤ 65536 → o % 4 = 0 → q % 4 = 0 → e % 4 = 0 →
    o + 4 * N ≤ lmemSize s → q + 4 * N ≤ lmemSize s → e + 4 * N ≤ lmemSize s →
    (q = o ∨ q + 4 * N ≤ o ∨ o + 4 * N ≤ q) → (e = o ∨ e + 4 * N ≤ o ∨ o + 4 * N ≤ e) →
    (∀ i, i < N → HoldsWord s.mem (q + 4 * i) (x i) ∧ HoldsWord s.mem (e + 4 * i) (y i)) →
      ∃ t, exec (.deq rout rq re) s = .next t ∧ (∀ i, i < N → HoldsWord t.mem (o + 4 * i) (clampTo 32 (r i))) ∧
        SatAdded s t (∃ i, i < N ∧ (OutOf 32 (x i * y i) ∨ OutOf 32 (r i))) ∧ OnlyArray s t [.astat] o (4 * N) ∧ NextPc s t

/-- 44_spectral R307: DEQN does the same from the noise table, element i from entry (NIDX + i) mod NTSIZE with a floor after the first
product, and advances NIDX by NCOEF modulo NTSIZE. -/
def Obligations.DeqnScalesNoise : Prop :=
  ∀ (rout rnoise re : Reg) (z y : Nat → Int) (s : State),
    let o := (reg s rout).toNat
    let nz := (reg s rnoise).toNat
    let e := (reg s re).toNat
    let N := s.sr.ncoef.toNat
    let M := s.sr.ntsize.toNat
    let p := fun i => z ((s.sr.nidx.toNat + i) % M) * y i / 2 ^ 16
    let r := fun i => clampTo 32 (p i) * s.sr.dqmult.toInt / 2 ^ 16
    1 ≤ N → N ≤ 65536 → s.sr.nidx.toNat < M → o % 4 = 0 → nz % 4 = 0 → e % 4 = 0 →
    o + 4 * N ≤ lmemSize s → nz + 4 * M ≤ lmemSize s → e + 4 * N ≤ lmemSize s →
    (nz + 4 * M ≤ o ∨ o + 4 * N ≤ nz) → (e = o ∨ e + 4 * N ≤ o ∨ o + 4 * N ≤ e) →
    (∀ i, i < M → HoldsWord s.mem (nz + 4 * i) (z i)) → (∀ i, i < N → HoldsWord s.mem (e + 4 * i) (y i)) →
      ∃ t, exec (.deqn rout rnoise re) s = .next t ∧ (∀ i, i < N → HoldsWord t.mem (o + 4 * i) (clampTo 32 (r i))) ∧
        t.sr.nidx.toNat = (s.sr.nidx.toNat + N) % M ∧
        SatAdded s t (∃ i, i < N ∧ (OutOf 32 (p i) ∨ OutOf 32 (r i))) ∧ OnlyArray s t [.astat, .nidx] o (4 * N) ∧ NextPc s t

/-- 44_spectral R306: NGEN steps the congruential sequence from NSEED modulo 2^32, stores each word shifted right by NSHIFT with floor, and
leaves the last word in NSEED; a count of 0 checks nothing. -/
def Obligations.NgenGenerates : Prop :=
  ∀ (rdst rcnt : Reg) (s : State),
    let d := (reg s rdst).toNat
    let cnt := (reg s rcnt).toNat
    (cnt = 0 ∨ (d % 4 = 0 ∧ d + 4 * cnt ≤ lmemSize s)) →
      ∃ (t : State) (X : Nat → Word), exec (.ngen rdst rcnt) s = .next t ∧ X 0 = s.sr.nseed ∧
        (∀ i, i < cnt → (X (i + 1)).toNat = ((X i).toNat * s.sr.nmul.toNat + s.sr.ninc.toNat) % 2 ^ 32 ∧
          HoldsWord t.mem (d + 4 * i) ((X (i + 1)).toInt / 2 ^ s.sr.nshift.toNat)) ∧
        t.sr.nseed = X cnt ∧ OnlyArray s t [.nseed] d (4 * cnt) ∧ NextPc s t

/-! ## Transform commands -/

/-- 45_transform R332, R333: BREV moves element j to the place whose index is j's m bits reversed. -/
def Obligations.BrevPermutes : Prop :=
  ∀ (rbuf : Reg) (m : BitVec 4) (x : Nat → Int × Int) (s : State),
    let z := (reg s rbuf).toNat
    let M := 2 ^ m.toNat
    z % 4 = 0 → z + 8 * M ≤ lmemSize s → (∀ k, k < M → HoldsC s.mem z k (x k)) →
      ∃ t, exec (.brev rbuf m) s = .next t ∧ (∀ k j, Reversed m.toNat k j → HoldsC t.mem z k (x j)) ∧
        OnlyArray s t [] z (8 * M) ∧ NextPc s t

/-- 45_transform R331, R334, R335: FFT runs m stages of radix-2 butterflies on the array, whose twiddle table is disjoint from it, each
output halved sc times and saturated. -/
def Obligations.FftRunsItsStages : Prop :=
  ∀ (rbuf rtw : Reg) (m : BitVec 4) (sc : Bool) (x tw : Nat → Int × Int) (s : State),
    let z := (reg s rbuf).toNat
    let T := (reg s rtw).toNat
    let M := 2 ^ m.toNat
    1 ≤ m.toNat → z % 4 = 0 → z + 8 * M ≤ lmemSize s → T % 4 = 0 → T + 4 * M ≤ lmemSize s →
    (T + 4 * M ≤ z ∨ z + 8 * M ≤ T) →
    (∀ k, k < M → HoldsC s.mem z k (x k)) → (∀ k, k < M / 2 → HoldsC s.mem T k (tw k)) →
      ∃ (t : State) (Z : Nat → Nat → Int × Int), exec (.fft rbuf rtw m sc) s = .next t ∧
        (∀ k, k < M → Z 0 k = x k) ∧
        (∀ st, st < m.toNat → ∀ k, k < M → Z (st + 1) k = stageElem m.toNat sc.toNat st tw (Z st) k) ∧
        (∀ k, k < M → HoldsC t.mem z k (Z m.toNat k)) ∧
        SatAdded s t (∃ st, st < m.toNat ∧ StageClamps m.toNat sc.toNat st tw (Z st)) ∧
        OnlyArray s t [.astat] z (8 * M) ∧ NextPc s t

/-- 45_transform R336: IMDCT pre-rotates N/2 coefficients into bit-reversed order, runs the butterfly network on N/4 points, post-rotates
pairs, and unpacks the half frame into N samples; its input and tables are disjoint from its output. `A` is the array before the network,
`Z` the array after each stage, `P` the array after the post-rotation, as complex elements of the middle half of the output. -/
def Obligations.ImdctTransforms : Prop :=
  ∀ (rout rin : Reg) (n : BitVec 4) (sc : Bool) (x : Nat → Int) (tr tw : Nat → Int × Int) (s : State),
    let out := (reg s rout).toNat
    let inp := (reg s rin).toNat
    let TR := s.sr.mdtrig.toNat
    let TW := s.sr.mdtw.toNat
    let m := n.toNat - 2
    let n4 := 2 ^ m
    let n8 := n4 / 2
    3 ≤ n.toNat → out % 4 = 0 → out + 16 * n4 ≤ lmemSize s → inp % 4 = 0 → inp + 8 * n4 ≤ lmemSize s →
    TR % 4 = 0 → TR + 8 * n4 ≤ lmemSize s → TW % 4 = 0 → TW + 4 * n4 ≤ lmemSize s →
    (inp + 8 * n4 ≤ out ∨ out + 16 * n4 ≤ inp) → (TR + 8 * n4 ≤ out ∨ out + 16 * n4 ≤ TR) →
    (TW + 4 * n4 ≤ out ∨ out + 16 * n4 ≤ TW) →
    (∀ k, k < 2 * n4 → HoldsWord s.mem (inp + 4 * k) (x k)) → (∀ k, k < n4 → HoldsC s.mem TR k (tr k)) →
    (∀ k, k < n8 → HoldsC s.mem TW k (tw k)) →
      ∃ (t : State) (Z : Nat → Nat → Int × Int) (P : Nat → Int × Int) (h : Nat → Int),
        exec (.imdct rout rin n sc) s = .next t ∧
        (∀ k j, Reversed m k j → Z 0 j = clampC (exactMul (x (2 * n4 - 1 - 2 * k), x (2 * k)) (tr k))) ∧
        (∀ st, st < m → ∀ k, k < n4 → Z (st + 1) k = stageElem m sc.toNat st tw (Z st) k) ∧
        (∀ k, k < n8 →
          let a := n8 - k - 1
          let b := n8 + k
          let u := clampC (exactMul ((Z m a).2, (Z m a).1) ((tr a).2, (tr a).1))
          let v := clampC (exactMul ((Z m b).2, (Z m b).1) ((tr b).2, (tr b).1))
          P a = (u.1, v.2) ∧ P b = (v.1, u.2)) ∧
        (∀ k, k < n4 → h (2 * k) = (P k).1 ∧ h (2 * k + 1) = (P k).2) ∧
        (∀ k, k < n4 → HoldsWord t.mem (out + 4 * k) (clampTo 32 (-h (n4 - k - 1))) ∧
          HoldsWord t.mem (out + 4 * (4 * n4 - k - 1)) (h (n4 + k))) ∧
        (∀ k, k < 2 * n4 → HoldsWord t.mem (out + 4 * (n4 + k)) (h k)) ∧
        SatAdded s t ((∃ k, k < n4 ∧ OutC (exactMul (x (2 * n4 - 1 - 2 * k), x (2 * k)) (tr k))) ∨
          (∃ st, st < m ∧ StageClamps m sc.toNat st tw (Z st)) ∨
          (∃ k, k < n4 ∧ OutC (exactMul ((Z m k).2, (Z m k).1) ((tr k).2, (tr k).1))) ∨
          (∃ k, k < n4 ∧ OutOf 32 (-h k))) ∧
        OnlyArray s t [.astat] out (16 * n4) ∧ NextPc s t

/-! ## Window and output commands -/

/-- 46_window R361, R362, R366: WOLA adds the block, windowed by the shorter of it and its predecessor, into the frame buffer and stores its
tail windowed by the shorter of it and its successor, with flat, copied and zero parts beside a shorter neighbour; the input and the windows
are disjoint from the frame buffer, and a directory entry's address wraps modulo 2^32 (00_scope R20; log entry 18). -/
def Obligations.WolaOverlapsAndAdds : Prop :=
  ∀ (rfp rin : Reg) (f x wl wr : Nat → Int) (WL WR : Word) (s : State),
    let fp := (reg s rfp).toNat
    let inp := (reg s rin).toNat
    let pb := s.sr.wpb.toNat
    let cb := s.sr.wcb.toNat
    let nb := s.sr.wnb.toNat
    let B := 2 ^ cb
    let L := 2 ^ min cb pb
    let R := 2 ^ min cb nb
    let nl := (B - L) / 2
    let nr := (B - R) / 2
    let D := s.sr.wdir.toNat
    let eL := (D + 4 * min cb pb) % 2 ^ 32
    let eR := (D + 4 * min cb nb) % 2 ^ 32
    let left := fun i => if i < nl then f i else if i < nl + L then clampTo 32 (f i + clampTo 32 (windowed (x i) (wl (i - nl)))) else x i
    let right := fun j => if j < nr then x (B + j)
      else if j < nr + R then clampTo 32 (windowed (x (B + j)) (wr (R - 1 - (j - nr)))) else 0
    1 ≤ pb → pb ≤ 14 → 1 ≤ cb → cb ≤ 14 → 1 ≤ nb → nb ≤ 14 →
    fp % 4 = 0 → fp + 8 * B ≤ lmemSize s → inp % 4 = 0 → inp + 8 * B ≤ lmemSize s →
    D % 4 = 0 → eL + 4 ≤ lmemSize s → eR + 4 ≤ lmemSize s → HoldsWord s.mem eL WL.toInt → HoldsWord s.mem eR WR.toInt →
    WL.toNat % 4 = 0 → WL.toNat + 4 * L ≤ lmemSize s → WR.toNat % 4 = 0 → WR.toNat + 4 * R ≤ lmemSize s →
    (inp + 8 * B ≤ fp ∨ fp + 8 * B ≤ inp) → (WL.toNat + 4 * L ≤ fp ∨ fp + 8 * B ≤ WL.toNat) →
    (WR.toNat + 4 * R ≤ fp ∨ fp + 8 * B ≤ WR.toNat) →
    (∀ i, i < B → HoldsWord s.mem (fp + 4 * i) (f i)) → (∀ i, i < 2 * B → HoldsWord s.mem (inp + 4 * i) (x i)) →
    (∀ i, i < L → HoldsWord s.mem (WL.toNat + 4 * i) (wl i)) → (∀ i, i < R → HoldsWord s.mem (WR.toNat + 4 * i) (wr i)) →
      ∃ t, exec (.wola rfp rin) s = .next t ∧ (∀ i, i < B → HoldsWord t.mem (fp + 4 * i) (left i)) ∧
        (∀ j, j < B → HoldsWord t.mem (fp + 4 * (B + j)) (right j)) ∧
        SatAdded s t ((∃ i, nl ≤ i ∧ i < nl + L ∧ (OutOf 32 (windowed (x i) (wl (i - nl))) ∨
            OutOf 32 (f i + clampTo 32 (windowed (x i) (wl (i - nl)))))) ∨
          (∃ j, nr ≤ j ∧ j < nr + R ∧ OutOf 32 (windowed (x (B + j)) (wr (R - 1 - (j - nr)))))) ∧
        OnlyArray s t [.astat] fp (8 * B) ∧ NextPc s t

/-- 46_window R364: FSHIFT moves the buffer of L words down by K words and zeroes its tail; a length of 0 checks nothing. -/
def Obligations.FshiftMovesDown : Prop :=
  ∀ (rbuf rk rl : Reg) (x : Nat → Int) (s : State),
    let base := (reg s rbuf).toNat
    let K := (reg s rk).toNat
    let L := (reg s rl).toNat
    (L = 0 ∨ (base % 4 = 0 ∧ base + 4 * L ≤ lmemSize s)) → (∀ i, i < L → HoldsWord s.mem (base + 4 * i) (x i)) →
      ∃ t, exec (.fshift rbuf rk rl) s = .next t ∧
        (∀ i, i < L → HoldsWord t.mem (base + 4 * i) (if i + K < L then x (i + K) else 0)) ∧
        OnlyArray s t [] base (4 * L) ∧ NextPc s t

/-- 46_window R365: PCMOUT rounds each sample half up to 16 bits, saturates it, and writes it as a halfword every `ch` halfwords; the
halfwords between stay, and a count of 0 checks nothing. -/
def Obligations.PcmoutConverts : Prop :=
  ∀ (rdst rsrc rcnt : Reg) (chm1 : BitVec 3) (x : Nat → Int) (s : State),
    let dst := (reg s rdst).toNat
    let src := (reg s rsrc).toNat
    let cnt := (reg s rcnt).toNat
    let S := chm1.toNat + 1
    let span := 2 * (S * (cnt - 1) + 1)
    let v := fun i => (x i + 32768) / 65536
    (cnt = 0 ∨ (dst % 2 = 0 ∧ dst + span ≤ lmemSize s ∧ src % 4 = 0 ∧ src + 4 * cnt ≤ lmemSize s ∧
      (src + 4 * cnt ≤ dst ∨ dst + span ≤ src))) →
    (∀ i, i < cnt → HoldsWord s.mem (src + 4 * i) (x i)) →
      ∃ t, exec (.pcmout rdst rsrc rcnt chm1) s = .next t ∧
        (∀ i, i < cnt → HoldsHalf t.mem (dst + 2 * S * i) (clampTo 16 (v i))) ∧
        (∀ a, (∀ i, i < cnt → a ≠ dst + 2 * S * i ∧ a ≠ dst + 2 * S * i + 1) → memGet a t.mem = memGet a s.mem) ∧
        SatAdded s t (∃ i, i < cnt ∧ OutOf 16 (v i)) ∧
        RegsKept s t [] ∧ SrsKept s t [.astat] ∧ ControlKept s t ∧ NextPc s t

/-- 20_memory R107, 44_spectral R300, R303, R305 to R307, 45_transform R333, R335, R336, 46_window R362, R364, R365, 60_exceptions R504: what
an array command checks before it writes anything, in its order. A configuration register out of range raises CFG with its number; then the
arrays and tables of the command are checked, each one's alignment before its bounds, and the first failure is the one reported; RLDEC then
checks the alignment of its two tables, and WOLA its window directory, the two directory entries, left first, and the two windows they name;
an entry's address wraps modulo 2^32 before its check (00_scope R20, 90_conflicts C3; log entry 18). -/
def Obligations.ArrayCommandsCheckFirst : Prop :=
  ∀ (a b c : Reg) (nb : BitVec 5) (m n : BitVec 4) (sc : Bool) (ch : BitVec 3) (WL WR : Word) (s : State),
    let x := reg s a
    let y := reg s b
    let z := reg s c
    let N := s.sr.ncoef.toNat
    let M := s.sr.ntsize.toNat
    let F := 2 ^ n.toNat
    let B := 2 ^ s.sr.wcb.toNat
    let kL := min s.sr.wcb.toNat s.sr.wpb.toNat
    let kR := min s.sr.wcb.toNat s.sr.wnb.toNat
    let D := s.sr.wdir.toNat
    let eL := (D + 4 * kL) % 2 ^ 32
    let eR := (D + 4 * kR) % 2 ^ 32
    let faults := fun (i : Instr) (k : Cause) (info : Word) => ∃ t, exec i s = .next t ∧ FaultEntered s t k s.pc info
    let checks := fun (i : Instr) (regions : List (Word × Nat × Nat)) =>
      ∀ k info, firstBadRegion (lmemSize s) regions = some (k, info) → faults i k info
    let pass := fun (regions : List (Word × Nat × Nat)) => firstBadRegion (lmemSize s) regions = none
    let ncoefOk := 1 ≤ N ∧ N ≤ 65536
    let wcfgOk := 1 ≤ s.sr.wpb.toNat ∧ s.sr.wpb.toNat ≤ 14 ∧ 1 ≤ s.sr.wcb.toNat ∧ s.sr.wcb.toNat ≤ 14 ∧
      1 ≤ s.sr.wnb.toNat ∧ s.sr.wnb.toNat ≤ 14
    (¬ncoefOk → faults (.rldec a b c nb) .cfg 4 ∧ faults (.deq a b c) .cfg 4 ∧ faults (.deqn a b c) .cfg 4) ∧
    (ncoefOk → M = 0 → faults (.deqn a b c) .cfg 16) ∧
    (ncoefOk → 0 < M → M ≤ s.sr.nidx.toNat → faults (.deqn a b c) .cfg 15) ∧
    (ncoefOk →
      checks (.rldec a b c nb) [(y, 4 * N, 4)] ∧
      (pass [(y, 4 * N, 4)] →
        (z.toNat % 4 ≠ 0 → faults (.rldec a b c nb) .dalign z) ∧
        (z.toNat % 4 = 0 → s.sr.rltab.toNat % 4 ≠ 0 → faults (.rldec a b c nb) .dalign s.sr.rltab))) ∧
    (ncoefOk → checks (.deq a b c) [(x, 4 * N, 4), (y, 4 * N, 4), (z, 4 * N, 4)]) ∧
    (ncoefOk → s.sr.nidx.toNat < M → checks (.deqn a b c) [(x, 4 * N, 4), (y, 4 * M, 4), (z, 4 * N, 4)]) ∧
    checks (.ngen a b) [(x, 4 * y.toNat, 4)] ∧
    checks (.brev a m) [(x, 8 * 2 ^ m.toNat, 4)] ∧
    checks (.fft a b m sc) [(x, 8 * 2 ^ m.toNat, 4), (y, 4 * 2 ^ m.toNat, 4)] ∧
    (3 ≤ n.toNat → checks (.imdct a b n sc) [(x, 4 * F, 4), (y, 2 * F, 4), (s.sr.mdtrig, 2 * F, 4), (s.sr.mdtw, F, 4)]) ∧
    (¬wcfgOk → faults (.wola a b) .cfg 19) ∧
    (wcfgOk → checks (.wola a b) [(x, 8 * B, 4), (y, 8 * B, 4)]) ∧
    (wcfgOk → pass [(x, 8 * B, 4), (y, 8 * B, 4)] →
      (D % 4 ≠ 0 → faults (.wola a b) .dalign s.sr.wdir) ∧
      (D % 4 = 0 → lmemSize s < eL + 4 → faults (.wola a b) .daddr (BitVec.ofNat 32 eL)) ∧
      (D % 4 = 0 → eL + 4 ≤ lmemSize s → lmemSize s < eR + 4 → faults (.wola a b) .daddr (BitVec.ofNat 32 eR)) ∧
      (D % 4 = 0 → eL + 4 ≤ lmemSize s → eR + 4 ≤ lmemSize s → HoldsWord s.mem eL WL.toInt → HoldsWord s.mem eR WR.toInt →
        checks (.wola a b) [(WL, 4 * 2 ^ kL, 4), (WR, 4 * 2 ^ kR, 4)])) ∧
    checks (.fshift a b c) [(x, 4 * z.toNat, 4)] ∧
    checks (.pcmout a b c ch)
      [(x, if z.toNat = 0 then 0 else 2 * ((ch.toNat + 1) * (z.toNat - 1) + 1), 2), (y, 4 * z.toNat, 4)]

/-! ## Reset and the host -/

/-- 70_reset R562, R563, R565: what a reset leaves, whatever the block was doing: PC, every special register, every host-visible register,
the abort latch, a low interrupt, and the constants ID and LMEMSIZE. -/
def Obligations.ResetValues : Prop :=
  ∀ s : State,
    let t := platformReset s
    t.pc = 0 ∧ t.abortPending = false ∧ ctrlWord t = 0 ∧ statusWord t = 0 ∧ t.ctl.faultpc = 0 ∧ t.ctl.faultinfo = 0 ∧
    irq t = false ∧ hostRead 0x000 .word t = .next (0x46585031#32, t) ∧
    hostRead 0x018 .word t = .next (BitVec.ofNat 32 (lmemSize s), t) ∧
    (∀ r ∈ [SReg.bsbase, .bslen, .bspos, .astat, .ncoef, .rltab, .escw, .runw, .nidx, .mdtrig, .mdtw, .wcfg, .wdir],
      readSr t r = 0) ∧
    readSr t .gthr = 0x2D28200F ∧ readSr t .gwid = 0x00952D8D ∧ readSr t .dqmult = 0x00010000 ∧ readSr t .nseed = 1 ∧
    readSr t .nmul = 0x0004CB2F ∧ readSr t .ninc = 1 ∧ readSr t .nshift = 15 ∧ readSr t .ntsize = 8192 ∧
    readSr t .cgain = 0x26DD3B6A ∧ readSr t .cstages = 24

/-- 60_exceptions R508, 10_state R72: a host write of 1 to CTRL.START, without ABORT, while BUSY = 0 clears DONE, FAULT, CAUSE and the latch
and sets BUSY; while BUSY = 1 it is ignored and does not set HERR; IRQEN is stored either way and nothing else changes. A write of neither
START nor ABORT stores IRQEN alone, busy or not. -/
def Obligations.StartBeginsARun : Prop :=
  ∀ (s : State) (v : Word), v.getLsbD 1 = false →
    let u := hostWrite 0x004 .word v s
    (v.getLsbD 0 = true → s.ctl.busy = false →
      u = { s with
        abortPending := false
        ctl := { s.ctl with irqen := v.getLsbD 2, busy := true, done := false, fault := false, cause := .none } }) ∧
    (v.getLsbD 0 = true → s.ctl.busy = true → u = { s with ctl := { s.ctl with irqen := v.getLsbD 2 } }) ∧
    (v.getLsbD 0 = false → u = { s with ctl := { s.ctl with irqen := v.getLsbD 2 } })

/-- 20_memory R115, 60_exceptions R519: while BUSY = 1 a host read of PC, a general register, a special register or LMEM returns 0 and a host
write is ignored, and either sets HERR and changes nothing else. An access is one of LMEM when it begins in LMEM, aligned or not (log
entry 7, DEDUCED). -/
def Obligations.BusyBlockIsProtected : Prop :=
  ∀ (s : State) (off : Nat) (wd : HostWidth) (v : Word), s.ctl.busy = true →
    ((wd = .word ∧ (off = 0x00C ∨ (off % 4 = 0 ∧ 0x100 ≤ off ∧ off < 0x140) ∨ (off % 4 = 0 ∧ 0x200 ≤ off ∧ off ≤ 0x258))) ∨
      (0x100000 ≤ off ∧ off < 0x100000 + lmemSize s)) →
      let u := { s with ctl := { s.ctl with herr := true } }
      hostRead off wd s = .next (0, u) ∧ hostWrite off wd v s = u

/-- 10_state R66, R74, R77, 20_memory R113: while BUSY = 0 the host reads and writes PC, the general registers, the special registers
(legalised; BSBASE, BSLEN and BSPOS not writable) and LMEM, and a write changes nothing else. An aligned LMEM access of n bytes moves them in
little-endian order: a read of bytes that LMEM holds returns their little-endian value, and a write leaves byte k of the value at offset k;
one that is misaligned or runs past LMEM reads 0 and is ignored. -/
def Obligations.IdleBlockIsOpenToTheHost : Prop :=
  ∀ (s : State) (v : Word), s.ctl.busy = false →
    (hostRead 0x00C .word s = .next (s.pc, s) ∧ hostWrite 0x00C .word v s = { s with pc := v }) ∧
    (∀ r : Reg, hostRead (0x100 + 4 * r.val) .word s = .next (reg s r, s) ∧
      let u := hostWrite (0x100 + 4 * r.val) .word v s
      reg u r = v ∧ OnlyRegs s u [r] ∧ u.pc = s.pc) ∧
    (∀ r : SReg, hostRead (0x200 + 4 * (sregNumber r).toNat) .word s = .next (readSr s r, s) ∧
      let u := hostWrite (0x200 + 4 * (sregNumber r).toNat) .word v s
      (r ∈ [SReg.bsbase, .bslen, .bspos] → u = s) ∧
      (r ∉ [SReg.bsbase, .bslen, .bspos] → readSr u r = v &&& usedBits r ∧ OnlyRegsAndSrs s u [] [r] ∧ u.pc = s.pc)) ∧
    (∀ (a : Nat) (wd : HostWidth), a % hostBytes wd = 0 → a + hostBytes wd ≤ lmemSize s →
      (∀ x, x < 256 ^ hostBytes wd → HoldsBytes s.mem a (hostBytes wd) x →
        hostRead (0x100000 + a) wd s = .next (BitVec.ofNat 32 x, s)) ∧
      let u := hostWrite (0x100000 + a) wd v s
      HoldsBytes u.mem a (hostBytes wd) v.toNat ∧ OnlyArray s u [] a (hostBytes wd) ∧ u.pc = s.pc) ∧
    (∀ (a : Nat) (wd : HostWidth), a % hostBytes wd ≠ 0 ∨ lmemSize s < a + hostBytes wd →
      hostRead (0x100000 + a) wd s = .next (0, s) ∧ hostWrite (0x100000 + a) wd v s = s)

/-- 60_exceptions R502, R507, 10_state R69, R71 to R73, R75, R76: IRQ is IRQEN and (DONE or FAULT); a write of STATUS clears exactly the
written bits of DONE, FAULT and HERR, busy or not; a STATUS read shows BUSY, DONE, FAULT, HERR and the code of the cause; CTRL reads IRQEN; ID,
FAULTPC, FAULTINFO and LMEMSIZE read their values, busy or not, and ignore writes; an offset that is unassigned (also past the end of LMEM:
log entry 9), or in the register window with the wrong width or alignment, reads 0 and ignores writes. No read changes anything. -/
def Obligations.StatusAndInterrupt : Prop :=
  ∀ (s : State) (v : Word),
    irq s = (s.ctl.irqen && (s.ctl.done || s.ctl.fault)) ∧
    hostWrite 0x008 .word v s =
      { s with ctl := { s.ctl with done := s.ctl.done && !v.getLsbD 1, fault := s.ctl.fault && !v.getLsbD 2,
                                   herr := s.ctl.herr && !v.getLsbD 3 } } ∧
    (∀ p ∈ [(Cause.none, 0), (.illegal, 1), (.ialign, 2), (.iaddr, 3), (.dalign, 4), (.daddr, 5), (.bsovr, 6), (.vlcmiss, 7),
        (.vlctbl, 8), (.rlovr, 9), (.cfg, 10), (.abort, 11), (.oprange, 12)], s.ctl.cause = p.1 →
      ∃ w, hostRead 0x008 .word s = .next (w, s) ∧
        w.toNat = s.ctl.busy.toNat + 2 * s.ctl.done.toNat + 4 * s.ctl.fault.toNat + 8 * s.ctl.herr.toNat + 256 * p.2) ∧
    (∃ w, hostRead 0x004 .word s = .next (w, s) ∧ w.toNat = 4 * s.ctl.irqen.toNat) ∧
    hostRead 0x000 .word s = .next (0x46585031#32, s) ∧
    hostRead 0x010 .word s = .next (s.ctl.faultpc, s) ∧
    hostRead 0x014 .word s = .next (s.ctl.faultinfo, s) ∧
    hostRead 0x018 .word s = .next (BitVec.ofNat 32 (lmemSize s), s) ∧
    (∀ off ∈ [0x000, 0x010, 0x014, 0x018], hostWrite off .word v s = s) ∧
    (∀ (off : Nat) (wd : HostWidth),
      (off < 0x1000 ∧ (wd ≠ .word ∨ off % 4 ≠ 0 ∨ (0x01C ≤ off ∧ off < 0x100) ∨ (0x140 ≤ off ∧ off < 0x200) ∨ 0x25C ≤ off)) ∨
      (0x1000 ≤ off ∧ off < 0x100000) ∨ 0x100000 + lmemSize s ≤ off →
        hostRead off wd s = .next (0, s) ∧ hostWrite off wd v s = s)
end

