-- ==== Sys2Proof/Laws/State.lean ====
section
/-! SUPPORT. Laws/State.lean: what each update of the state does to each field, so that no proof unfolds a record update. -/

namespace Sys2Proof.Machine

variable (s : State)

/-! ## setReg -/

@[simp] theorem setReg_regs (r : Reg) (v : Word) : (setReg s r v).regs = s.regs.set r v := rfl
@[simp] theorem setReg_pc (r : Reg) (v : Word) : (setReg s r v).pc = s.pc := rfl
@[simp] theorem setReg_sr (r : Reg) (v : Word) : (setReg s r v).sr = s.sr := rfl
@[simp] theorem setReg_ctl (r : Reg) (v : Word) : (setReg s r v).ctl = s.ctl := rfl
@[simp] theorem setReg_abortPending (r : Reg) (v : Word) : (setReg s r v).abortPending = s.abortPending := rfl
@[simp] theorem setReg_lmemLog (r : Reg) (v : Word) : (setReg s r v).lmemLog = s.lmemLog := rfl
@[simp] theorem setReg_mem (r : Reg) (v : Word) : (setReg s r v).mem = s.mem := rfl
@[simp] theorem setReg_lmemSize (r : Reg) (v : Word) : lmemSize (setReg s r v) = lmemSize s := rfl
@[simp] theorem setReg_readSr (r : Reg) (v : Word) (q : SReg) : readSr (setReg s r v) q = readSr s q := rfl

/-! ## advance -/

@[simp] theorem advance_regs : (advance s).regs = s.regs := rfl
@[simp] theorem advance_pc : (advance s).pc = s.pc + 4 := rfl
@[simp] theorem advance_sr : (advance s).sr = s.sr := rfl
@[simp] theorem advance_ctl : (advance s).ctl = s.ctl := rfl
@[simp] theorem advance_abortPending : (advance s).abortPending = s.abortPending := rfl
@[simp] theorem advance_lmemLog : (advance s).lmemLog = s.lmemLog := rfl
@[simp] theorem advance_mem : (advance s).mem = s.mem := rfl
@[simp] theorem advance_lmemSize : lmemSize (advance s) = lmemSize s := rfl
@[simp] theorem advance_reg (q : Reg) : reg (advance s) q = reg s q := rfl
@[simp] theorem advance_readSr (q : SReg) : readSr (advance s) q = readSr s q := rfl

/-! ## jumpTo -/

@[simp] theorem jumpTo_regs (p : Word) : (jumpTo s p).regs = s.regs := rfl
@[simp] theorem jumpTo_pc (p : Word) : (jumpTo s p).pc = p := rfl
@[simp] theorem jumpTo_sr (p : Word) : (jumpTo s p).sr = s.sr := rfl
@[simp] theorem jumpTo_ctl (p : Word) : (jumpTo s p).ctl = s.ctl := rfl
@[simp] theorem jumpTo_abortPending (p : Word) : (jumpTo s p).abortPending = s.abortPending := rfl
@[simp] theorem jumpTo_lmemLog (p : Word) : (jumpTo s p).lmemLog = s.lmemLog := rfl
@[simp] theorem jumpTo_mem (p : Word) : (jumpTo s p).mem = s.mem := rfl
@[simp] theorem jumpTo_lmemSize (p : Word) : lmemSize (jumpTo s p) = lmemSize s := rfl
@[simp] theorem jumpTo_reg (p : Word) (q : Reg) : reg (jumpTo s p) q = reg s q := rfl
@[simp] theorem jumpTo_readSr (p : Word) (q : SReg) : readSr (jumpTo s p) q = readSr s q := rfl

/-! ## orFlags -/

@[simp] theorem orFlags_regs (f : BitVec 4) : (orFlags s f).regs = s.regs := rfl
@[simp] theorem orFlags_pc (f : BitVec 4) : (orFlags s f).pc = s.pc := rfl
@[simp] theorem orFlags_sr (f : BitVec 4) : (orFlags s f).sr = { s.sr with astat := s.sr.astat ||| f } := rfl
@[simp] theorem orFlags_ctl (f : BitVec 4) : (orFlags s f).ctl = s.ctl := rfl
@[simp] theorem orFlags_abortPending (f : BitVec 4) : (orFlags s f).abortPending = s.abortPending := rfl
@[simp] theorem orFlags_lmemLog (f : BitVec 4) : (orFlags s f).lmemLog = s.lmemLog := rfl
@[simp] theorem orFlags_mem (f : BitVec 4) : (orFlags s f).mem = s.mem := rfl
@[simp] theorem orFlags_lmemSize (f : BitVec 4) : lmemSize (orFlags s f) = lmemSize s := rfl
@[simp] theorem orFlags_reg (f : BitVec 4) (q : Reg) : reg (orFlags s f) q = reg s q := rfl

/-! ## endRun -/

@[simp] theorem endRun_regs : (endRun s).regs = s.regs := rfl
@[simp] theorem endRun_pc : (endRun s).pc = s.pc := rfl
@[simp] theorem endRun_sr : (endRun s).sr = s.sr := rfl
@[simp] theorem endRun_ctl : (endRun s).ctl = { s.ctl with busy := false, done := true } := rfl
@[simp] theorem endRun_abortPending : (endRun s).abortPending = s.abortPending := rfl
@[simp] theorem endRun_lmemLog : (endRun s).lmemLog = s.lmemLog := rfl
@[simp] theorem endRun_mem : (endRun s).mem = s.mem := rfl
@[simp] theorem endRun_lmemSize : lmemSize (endRun s) = lmemSize s := rfl
@[simp] theorem endRun_reg (q : Reg) : reg (endRun s) q = reg s q := rfl
@[simp] theorem endRun_readSr (q : SReg) : readSr (endRun s) q = readSr s q := rfl

/-! ## takeFault -/

@[simp] theorem takeFault_regs (c : Cause) (p : Word) (n : Nat) : (takeFault c p n s).regs = s.regs := rfl
@[simp] theorem takeFault_pc (c : Cause) (p : Word) (n : Nat) : (takeFault c p n s).pc = s.pc := rfl
@[simp] theorem takeFault_sr (c : Cause) (p : Word) (n : Nat) : (takeFault c p n s).sr = s.sr := rfl
@[simp] theorem takeFault_ctl (c : Cause) (p : Word) (n : Nat) : (takeFault c p n s).ctl = { s.ctl with busy := false, fault := true, cause := c, faultpc := p, faultinfo := faultInfoWord n } := rfl
@[simp] theorem takeFault_abortPending (c : Cause) (p : Word) (n : Nat) : (takeFault c p n s).abortPending = s.abortPending := rfl
@[simp] theorem takeFault_lmemLog (c : Cause) (p : Word) (n : Nat) : (takeFault c p n s).lmemLog = s.lmemLog := rfl
@[simp] theorem takeFault_mem (c : Cause) (p : Word) (n : Nat) : (takeFault c p n s).mem = s.mem := rfl
@[simp] theorem takeFault_lmemSize (c : Cause) (p : Word) (n : Nat) : lmemSize (takeFault c p n s) = lmemSize s := rfl
@[simp] theorem takeFault_reg (c : Cause) (p : Word) (n : Nat) (q : Reg) : reg (takeFault c p n s) q = reg s q := rfl
@[simp] theorem takeFault_readSr (c : Cause) (p : Word) (n : Nat) (q : SReg) : readSr (takeFault c p n s) q = readSr s q := rfl

/-! ## setPos -/

@[simp] theorem setPos_regs (n : Nat) : (setPos s n).regs = s.regs := rfl
@[simp] theorem setPos_pc (n : Nat) : (setPos s n).pc = s.pc := rfl
@[simp] theorem setPos_sr (n : Nat) : (setPos s n).sr = { s.sr with bspos := BitVec.ofNat 32 n } := rfl
@[simp] theorem setPos_ctl (n : Nat) : (setPos s n).ctl = s.ctl := rfl
@[simp] theorem setPos_abortPending (n : Nat) : (setPos s n).abortPending = s.abortPending := rfl
@[simp] theorem setPos_lmemLog (n : Nat) : (setPos s n).lmemLog = s.lmemLog := rfl
@[simp] theorem setPos_mem (n : Nat) : (setPos s n).mem = s.mem := rfl
@[simp] theorem setPos_lmemSize (n : Nat) : lmemSize (setPos s n) = lmemSize s := rfl
@[simp] theorem setPos_reg (n : Nat) (q : Reg) : reg (setPos s n) q = reg s q := rfl

/-! ## setHerr -/

@[simp] theorem setHerr_regs : (setHerr s).regs = s.regs := rfl
@[simp] theorem setHerr_pc : (setHerr s).pc = s.pc := rfl
@[simp] theorem setHerr_sr : (setHerr s).sr = s.sr := rfl
@[simp] theorem setHerr_ctl : (setHerr s).ctl = { s.ctl with herr := true } := rfl
@[simp] theorem setHerr_abortPending : (setHerr s).abortPending = s.abortPending := rfl
@[simp] theorem setHerr_lmemLog : (setHerr s).lmemLog = s.lmemLog := rfl
@[simp] theorem setHerr_mem : (setHerr s).mem = s.mem := rfl
@[simp] theorem setHerr_lmemSize : lmemSize (setHerr s) = lmemSize s := rfl
@[simp] theorem setHerr_reg (q : Reg) : reg (setHerr s) q = reg s q := rfl
@[simp] theorem setHerr_readSr (q : SReg) : readSr (setHerr s) q = readSr s q := rfl

/-! ## startRun -/

@[simp] theorem startRun_regs : (startRun s).regs = s.regs := rfl
@[simp] theorem startRun_pc : (startRun s).pc = s.pc := rfl
@[simp] theorem startRun_sr : (startRun s).sr = s.sr := rfl
@[simp] theorem startRun_ctl : (startRun s).ctl = { s.ctl with busy := true, done := false, fault := false, cause := .none } := rfl
@[simp] theorem startRun_abortPending : (startRun s).abortPending = false := rfl
@[simp] theorem startRun_lmemLog : (startRun s).lmemLog = s.lmemLog := rfl
@[simp] theorem startRun_mem : (startRun s).mem = s.mem := rfl
@[simp] theorem startRun_lmemSize : lmemSize (startRun s) = lmemSize s := rfl
@[simp] theorem startRun_reg (q : Reg) : reg (startRun s) q = reg s q := rfl
@[simp] theorem startRun_readSr (q : SReg) : readSr (startRun s) q = readSr s q := rfl

/-! ## Registers -/

@[simp] theorem reg_setReg_self (r : Reg) (v : Word) : reg (setReg s r v) r = v := by
  show (s.regs.set r v)[r.val] = v
  simp

theorem reg_setReg_of_ne {q r : Reg} (v : Word) (h : q ≠ r) : reg (setReg s r v) q = reg s q := by
  have h' : (r : Nat) ≠ q := fun e => h (Fin.ext e.symm)
  show (s.regs.set r v)[q.val] = s.regs[q.val]
  simp [h']

/-- The one law of the register file: a write is seen at its register and nowhere else (10_state R41). -/
theorem reg_setReg (q r : Reg) (v : Word) : reg (setReg s r v) q = if q = r then v else reg s q := by
  by_cases h : q = r
  · subst h; simp
  · rw [reg_setReg_of_ne s v h, if_neg h]

theorem pairLo_ne_pairHi (p : Pair) : pairLo p ≠ pairHi p := by
  intro h
  have := congrArg Fin.val h
  simp [pairLo, pairHi] at this

@[simp] theorem setPair_pc (p : Pair) (v : Int) : (setPair s p v).pc = s.pc := rfl
@[simp] theorem setPair_sr (p : Pair) (v : Int) : (setPair s p v).sr = s.sr := rfl
@[simp] theorem setPair_ctl (p : Pair) (v : Int) : (setPair s p v).ctl = s.ctl := rfl
@[simp] theorem setPair_abortPending (p : Pair) (v : Int) : (setPair s p v).abortPending = s.abortPending := rfl
@[simp] theorem setPair_lmemLog (p : Pair) (v : Int) : (setPair s p v).lmemLog = s.lmemLog := rfl
@[simp] theorem setPair_mem (p : Pair) (v : Int) : (setPair s p v).mem = s.mem := rfl
@[simp] theorem setPair_readSr (p : Pair) (v : Int) (q : SReg) : readSr (setPair s p v) q = readSr s q := rfl

theorem setPair_lo (p : Pair) (v : Int) : reg (setPair s p v) (pairLo p) = u32 v := by
  simp [setPair, reg_setReg, pairLo_ne_pairHi]

theorem setPair_hi (p : Pair) (v : Int) : reg (setPair s p v) (pairHi p) = u32 (asr v 32) := by
  simp [setPair]

theorem setPair_other {q : Reg} (p : Pair) (v : Int) (hl : q ≠ pairLo p) (hh : q ≠ pairHi p) :
    reg (setPair s p v) q = reg s q := by
  simp [setPair, reg_setReg, hl, hh]

/-! ## A legalised write of a special register (10_state R50) changes special registers only -/

@[simp] theorem writeSr_regs (r : SReg) (v : Word) : (writeSr s r v).regs = s.regs := by cases r <;> rfl
@[simp] theorem writeSr_pc (r : SReg) (v : Word) : (writeSr s r v).pc = s.pc := by cases r <;> rfl
@[simp] theorem writeSr_ctl (r : SReg) (v : Word) : (writeSr s r v).ctl = s.ctl := by cases r <;> rfl
@[simp] theorem writeSr_abortPending (r : SReg) (v : Word) : (writeSr s r v).abortPending = s.abortPending := by cases r <;> rfl
@[simp] theorem writeSr_lmemLog (r : SReg) (v : Word) : (writeSr s r v).lmemLog = s.lmemLog := by cases r <;> rfl
@[simp] theorem writeSr_mem (r : SReg) (v : Word) : (writeSr s r v).mem = s.mem := by cases r <;> rfl

/-- Special registers read the same in states that agree on them. -/
theorem readSr_congr {s t : State} (h : t.sr = s.sr) (q : SReg) : readSr t q = readSr s q := by
  cases q <;> simp [readSr, h]

/-- Adding flags is seen in ASTAT only (10_state R52). -/
theorem orFlags_readSr (f : BitVec 4) {q : SReg} (h : q ≠ .astat) : readSr (orFlags s f) q = readSr s q := by
  cases q <;> first | rfl | exact absurd rfl h

/-- Moving the cursor is seen in BSPOS only. -/
theorem setPos_readSr (n : Nat) {q : SReg} (h : q ≠ .bspos) : readSr (setPos s n) q = readSr s q := by
  cases q <;> first | rfl | exact absurd rfl h

/-! ## Committing an array command -/

@[simp] theorem commitWork_regs (w : Work) : (commitWork s w).regs = s.regs := rfl
@[simp] theorem commitWork_pc (w : Work) : (commitWork s w).pc = s.pc + 4 := rfl
@[simp] theorem commitWork_sr (w : Work) : (commitWork s w).sr = { s.sr with astat := s.sr.astat ||| satFlag w.clamped } := rfl
@[simp] theorem commitWork_ctl (w : Work) : (commitWork s w).ctl = s.ctl := rfl
@[simp] theorem commitWork_abortPending (w : Work) : (commitWork s w).abortPending = s.abortPending := rfl
@[simp] theorem commitWork_lmemLog (w : Work) : (commitWork s w).lmemLog = s.lmemLog := rfl
@[simp] theorem commitWork_mem (w : Work) : (commitWork s w).mem = w.mem := rfl
@[simp] theorem commitWork_reg (w : Work) (q : Reg) : reg (commitWork s w) q = reg s q := rfl

/-! ## How an instruction ends -/

@[simp] theorem conclude_ok (t : State) : conclude s (.ok t) = .next t := rfl
@[simp] theorem conclude_raise (c : Cause) (n : Nat) : conclude s (raise c n) = .next (takeFault c s.pc n s) := rfl
@[simp] theorem conclude_error_raise (c : Cause) (n : Nat) :
    conclude s (.error (.raise c n)) = .next (takeFault c s.pc n s) := rfl
@[simp] theorem conclude_stuck (f : Fault) : conclude s (.error (.stuck f)) = .fault f := rfl

/-- All that `conclude` can answer with a next state: the completed state, or the entry of the fault raised. -/
theorem conclude_next {s t : State} {r : Run State} (h : conclude s r = .next t) :
    r = .ok t ∨ ∃ c n, r = .error (.raise c n) ∧ t = takeFault c s.pc n s := by
  cases r with
  | ok u => simp only [conclude, Host.Outcome.next.injEq] at h; exact .inl (by rw [h])
  | error e =>
    cases e with
    | raise c n => simp only [conclude, Host.Outcome.next.injEq] at h; exact .inr ⟨c, n, rfl, h.symm⟩
    | stuck f => simp [conclude] at h

end Sys2Proof.Machine
end

