-- ==== Sys2Proof/Laws/Memory.lean ====
section
/-! SUPPORT. Laws/Memory.lean: reading after writing, the canonical form, and what each write of LMEM touches. -/

namespace Sys2Proof.Machine

/-! ## One byte -/

/-- Read after write, for every memory and every two addresses. -/
theorem memGet_memPut (a b : Nat) (v : Byte) (m : Memory) : memGet a (memPut b v m) = if a = b then some v else memGet a m := by
  induction m with
  | nil => simp [memPut, memGet]
  | cons c m ih =>
    simp only [memPut]
    split
    · simp only [memGet]
    · split
      · rename_i h
        simp only [memGet, ← h]
        split <;> rfl
      · simp only [memGet, ih]
        split
        · rename_i h; rw [if_neg]; omega
        · rfl

@[simp] theorem memGet_memPut_self (a : Nat) (v : Byte) (m : Memory) : memGet a (memPut a v m) = some v := by
  simp [memGet_memPut]

theorem memGet_memPut_of_ne {a b : Nat} (v : Byte) (m : Memory) (h : a ≠ b) : memGet a (memPut b v m) = memGet a m := by
  simp [memGet_memPut, h]

theorem risesFrom_mono {lo lo' : Nat} {m : Memory} (h : Memory.risesFrom lo' m = true) (hle : lo ≤ lo') :
    Memory.risesFrom lo m = true := by
  cases m with
  | nil => rfl
  | cons c m =>
    simp only [Memory.risesFrom, Bool.and_eq_true, decide_eq_true_eq] at h ⊢
    exact ⟨by omega, h.2⟩

theorem risesFrom_memPut {lo a : Nat} (v : Byte) {m : Memory} (h : Memory.risesFrom lo m = true) (hle : lo ≤ a) :
    Memory.risesFrom lo (memPut a v m) = true := by
  induction m generalizing lo with
  | nil => simp [memPut, Memory.risesFrom, hle]
  | cons c m ih =>
    simp only [Memory.risesFrom, Bool.and_eq_true, decide_eq_true_eq] at h
    simp only [memPut]
    split
    · simp only [Memory.risesFrom, Bool.and_eq_true, decide_eq_true_eq]
      exact ⟨hle, by omega, h.2⟩
    · split
      · rename_i e
        simp only [Memory.risesFrom, Bool.and_eq_true, decide_eq_true_eq]
        exact ⟨hle, e ▸ h.2⟩
      · simp only [Memory.risesFrom, Bool.and_eq_true, decide_eq_true_eq]
        exact ⟨h.1, ih h.2 (by omega)⟩

/-- A write keeps the canonical form. -/
theorem wf_memPut (a : Nat) (v : Byte) {m : Memory} (h : m.wf = true) : (memPut a v m).wf = true :=
  risesFrom_memPut v h (Nat.zero_le a)

theorem memGet_below {lo a : Nat} {m : Memory} (h : Memory.risesFrom lo m = true) (ha : a < lo) : memGet a m = none := by
  induction m generalizing lo with
  | nil => rfl
  | cons c m ih =>
    simp only [Memory.risesFrom, Bool.and_eq_true, decide_eq_true_eq] at h
    simp only [memGet]
    rw [if_neg (by omega)]
    exact ih h.2 (by omega)

theorem ext_risesFrom {lo : Nat} {m m' : Memory} (h : Memory.risesFrom lo m = true) (h' : Memory.risesFrom lo m' = true)
    (e : ∀ a, memGet a m = memGet a m') : m = m' := by
  induction m generalizing lo m' with
  | nil =>
    cases m' with
    | nil => rfl
    | cons c m' => simpa [memGet] using e c.1
  | cons c m ih =>
    cases m' with
    | nil => simpa [memGet] using e c.1
    | cons d m' =>
      simp only [Memory.risesFrom, Bool.and_eq_true, decide_eq_true_eq] at h h'
      have key : c.1 = d.1 := by
        rcases Nat.lt_trichotomy c.1 d.1 with hl | hl | hl
        · have := e c.1
          simp only [memGet, if_true] at this
          rw [if_neg (by omega), memGet_below h'.2 (by omega)] at this
          cases this
        · exact hl
        · have := e d.1
          simp only [memGet, if_true] at this
          rw [if_neg (by omega), memGet_below h.2 (by omega)] at this
          cases this
      have key2 : c.2 = d.2 := by simpa [memGet, key] using e c.1
      have hcd : c = d := Prod.ext key key2
      subst hcd
      refine congrArg (c :: ·) (ih h.2 h'.2 fun a => ?_)
      by_cases ha : a = c.1
      · rw [memGet_below h.2 (by omega), memGet_below h'.2 (by omega)]
      · simpa [memGet, ha] using e a

/-- Equal memories are equal data: two canonical memories that read the same everywhere are the same list. -/
theorem mem_ext {m m' : Memory} (h : m.wf = true) (h' : m'.wf = true) (e : ∀ a, memGet a m = memGet a m') : m = m' :=
  ext_risesFrom h h' e

/-- LMEM right after reset is canonical: nothing is listed. -/
theorem wf_reset (n : Fin 9) : (State.resetOf n).mem.wf = true := rfl

/-! ## What a piece of pseudocode touches -/

/-- `m'` comes from `m` by writes inside [lo, hi): the canonical form is kept and nothing outside changes. -/
structure Touches (lo hi : Nat) (m m' : Memory) : Prop where
  wf : m.wf = true → m'.wf = true
  out : ∀ a, a < lo ∨ hi ≤ a → memGet a m' = memGet a m

theorem Touches.refl (lo hi : Nat) (m : Memory) : Touches lo hi m m := ⟨id, fun _ _ => rfl⟩

theorem Touches.trans {lo hi : Nat} {m1 m2 m3 : Memory} (h : Touches lo hi m1 m2) (h' : Touches lo hi m2 m3) :
    Touches lo hi m1 m3 :=
  ⟨fun w => h'.wf (h.wf w), fun a ha => (h'.out a ha).trans (h.out a ha)⟩

theorem Touches.mono {lo hi lo' hi' : Nat} {m m' : Memory} (h : Touches lo hi m m') (hl : lo' ≤ lo) (hh : hi ≤ hi') :
    Touches lo' hi' m m' :=
  ⟨h.wf, fun a ha => h.out a (by omega)⟩

theorem touches_memPut {lo hi a : Nat} (v : Byte) (m : Memory) (h : lo ≤ a ∧ a < hi) : Touches lo hi m (memPut a v m) :=
  ⟨wf_memPut a v, fun b hb => memGet_memPut_of_ne v m (by omega)⟩

theorem touches_writeLE {lo hi : Nat} (n : Nat) {a : Nat} (v : Nat) (m : Memory) (h : lo ≤ a) (h' : a + n ≤ hi) :
    Touches lo hi m (writeLE m a n v) := by
  induction n generalizing a v m with
  | zero => exact Touches.refl lo hi m
  | succ n ih => exact (touches_memPut _ m ⟨h, by omega⟩).trans (ih _ _ (by omega) (by omega))

theorem touches_storeW {lo hi a : Nat} (v : Int) (m : Memory) (h : lo ≤ a) (h' : a + 4 ≤ hi) : Touches lo hi m (storeW m a v) :=
  touches_writeLE 4 _ m h h'

theorem touches_zeroFill {lo hi : Nat} (n : Nat) {a : Nat} (m : Memory) (h : lo ≤ a) (h' : a + 4 * n ≤ hi) :
    Touches lo hi m (zeroFill a n m) := by
  induction n generalizing a m with
  | zero => exact Touches.refl lo hi m
  | succ n ih => exact (touches_storeW 0 m h (by omega)).trans (ih _ (by omega) (by omega))

theorem touches_storeC {lo hi z k : Nat} (v : Int × Int) (m : Memory) (h : lo ≤ z + 8 * k) (h' : z + 8 * k + 8 ≤ hi) :
    Touches lo hi m (storeC m z k v) :=
  (touches_storeW v.1 m h (by omega)).trans (touches_storeW v.2 _ (by omega) (by omega))

theorem touches_putBytes {lo hi : Nat} (bs : List Byte) {a : Nat} (m : Memory) (h : lo ≤ a) (h' : a + bs.length ≤ hi) :
    Touches lo hi m (putBytes a bs m) := by
  induction bs generalizing a m with
  | nil => exact Touches.refl lo hi m
  | cons b bs ih =>
    simp only [List.length_cons] at h'
    exact (touches_memPut b m ⟨h, by omega⟩).trans (ih _ (by omega) (by omega))

/-! ## The canonical form is kept by every operation on LMEM -/

theorem wf_writeLE (a n v : Nat) {m : Memory} (h : m.wf = true) : (writeLE m a n v).wf = true :=
  (touches_writeLE (lo := a) (hi := a + n) n v m (Nat.le_refl a) (Nat.le_refl _)).wf h

theorem wf_storeW (a : Nat) (v : Int) {m : Memory} (h : m.wf = true) : (storeW m a v).wf = true := wf_writeLE a 4 _ h

theorem wf_zeroFill (a n : Nat) {m : Memory} (h : m.wf = true) : (zeroFill a n m).wf = true :=
  (touches_zeroFill (lo := a) (hi := a + 4 * n) n m (Nat.le_refl a) (Nat.le_refl _)).wf h

theorem wf_storeC (z k : Nat) (v : Int × Int) {m : Memory} (h : m.wf = true) : (storeC m z k v).wf = true :=
  wf_storeW _ _ (wf_storeW _ _ h)

theorem wf_putBytes (a : Nat) (bs : List Byte) {m : Memory} (h : m.wf = true) : (putBytes a bs m).wf = true :=
  (touches_putBytes (lo := a) (hi := a + bs.length) bs m (Nat.le_refl a) (Nat.le_refl _)).wf h

/-! ## Little-endian values (20_memory R106) -/

theorem memGet_writeLE (n : Nat) (a v : Nat) (m : Memory) (b : Nat) :
    memGet b (writeLE m a n v) =
      if a ≤ b ∧ b < a + n then some (BitVec.ofNat 8 (v / 256 ^ (b - a))) else memGet b m := by
  induction n generalizing a v m with
  | zero => simp [writeLE]
  | succ n ih =>
    simp only [writeLE, ih, memGet_memPut]
    by_cases hb : b = a
    · subst hb; simp
    · by_cases hc : a ≤ b ∧ b < a + (n + 1)
      · have h1 : a + 1 ≤ b ∧ b < a + 1 + n := by omega
        rw [if_pos h1, if_pos hc, Nat.div_div_eq_div_mul]
        have : b - a = (b - (a + 1)) + 1 := by omega
        rw [this, Nat.pow_succ, Nat.mul_comm]
      · rw [if_neg (by omega), if_neg hb, if_neg hc]

theorem readLE_of_get {m : Memory} (n a : Nat) (f : Nat → Byte) (h : ∀ k, k < n → memGet (a + k) m = some (f k)) :
    ∃ v, readLE m a n = .ok v ∧ v < 256 ^ n ∧ ∀ k, k < n → v / 256 ^ k % 256 = (f k).toNat := by
  induction n generalizing a f with
  | zero => exact ⟨0, rfl, by simp, by omega⟩
  | succ n ih =>
    obtain ⟨r, hr, hlt, hk⟩ := ih (a + 1) (fun k => f (k + 1)) (fun k hk => by
      have := h (k + 1) (by omega); rwa [show a + (k + 1) = a + 1 + k by omega] at this)
    have h0 : memGet a m = some (f 0) := h 0 (by omega)
    have hb := (f 0).isLt
    refine ⟨(f 0).toNat + 256 * r, ?_, ?_, ?_⟩
    · simp [readLE, readByte, h0, hr]
    · rw [Nat.pow_succ]; omega
    · intro k hk'
      cases k with
      | zero => simp; omega
      | succ k =>
        have := hk k (by omega)
        rw [Nat.pow_succ, Nat.mul_comm (256 ^ k), ← Nat.div_div_eq_div_mul]
        rw [show ((f 0).toNat + 256 * r) / 256 = r by omega]
        exact this

/-- All a little-endian read can answer: the value of written bytes, or the model's stop at an unwritten one. -/
theorem readLE_cases (m : Memory) (n a : Nat) :
    (Written m a n ∧ ∃ v, readLE m a n = .ok v ∧ v < 256 ^ n) ∨
      ∃ k, k < n ∧ memGet (a + k) m = none ∧ readLE m a n = .error (.stuck (.unwrittenByte (a + k))) := by
  induction n generalizing a with
  | zero => exact .inl ⟨fun k hk => by omega, 0, rfl, by simp⟩
  | succ n ih =>
    cases h0 : memGet a m with
    | none => exact .inr ⟨0, by omega, h0, by simp [readLE, readByte, h0]⟩
    | some b =>
      rcases ih (a + 1) with ⟨hw, v, hv, hlt⟩ | ⟨k, hk, hn, he⟩
      · refine .inl ⟨fun k hk => ?_, b.toNat + 256 * v, by simp [readLE, readByte, h0, hv], ?_⟩
        · cases k with
          | zero => simp [h0]
          | succ k => rw [show a + (k + 1) = a + 1 + k by omega]; exact hw k (by omega)
        · have := b.isLt; rw [Nat.pow_succ]; omega
      · refine .inr ⟨k + 1, by omega, by rw [show a + (k + 1) = a + 1 + k by omega]; exact hn, ?_⟩
        simp [readLE, readByte, h0, he, Nat.add_assoc, Nat.add_comm 1]

/-- Reading back what was written gives its low n bytes. -/
theorem readLE_writeLE (n a v : Nat) (m : Memory) : readLE (writeLE m a n v) a n = .ok (v % 256 ^ n) := by
  induction n generalizing a v m with
  | zero => simp [readLE, Nat.mod_one]
  | succ n ih =>
    have hb : memGet a (writeLE (memPut a (BitVec.ofNat 8 v) m) (a + 1) n (v / 256)) = some (BitVec.ofNat 8 v) := by
      rw [memGet_writeLE, if_neg (by omega)]; simp
    have hi := ih (a + 1) (v / 256) (memPut a (BitVec.ofNat 8 v) m)
    simp only [writeLE, readLE, readByte, hb, hi]
    congr 1
    simp only [BitVec.toNat_ofNat]
    rw [show 256 ^ (n + 1) = 256 * 256 ^ n by rw [Nat.pow_succ, Nat.mul_comm], Nat.mod_mul]

theorem readLE_congr {m m' : Memory} (n a : Nat) (h : ∀ k, k < n → memGet (a + k) m' = memGet (a + k) m) :
    readLE m' a n = readLE m a n := by
  induction n generalizing a with
  | zero => rfl
  | succ n ih =>
    have h0 : memGet a m' = memGet a m := h 0 (by omega)
    have h1 := ih (a + 1) fun k hk => by
      have := h (k + 1) (by omega); rwa [show a + (k + 1) = a + 1 + k by omega] at this
    simp only [readLE, readByte, h0, h1]

/-! ## Words -/

theorem four_bytes (b0 b1 b2 b3 : Byte) :
    BitVec.ofNat 32 (b0.toNat + 256 * (b1.toNat + 256 * (b2.toNat + 256 * (b3.toNat + 256 * 0)))) = b3 ++ b2 ++ b1 ++ b0 := by
  apply BitVec.eq_of_toNat_eq
  simp only [BitVec.toNat_ofNat, BitVec.toNat_append, Nat.shiftLeft_eq]
  have h0 := b0.isLt; have h1 := b1.isLt; have h2 := b2.isLt; have h3 := b3.isLt
  have key : ∀ x y : Nat, y < 2 ^ 8 → x * 2 ^ 8 ||| y = x * 2 ^ 8 + y := fun x y hy => by
    rw [Nat.mul_comm, Nat.two_pow_add_eq_or_of_lt hy]
  rw [key _ _ h2, key _ _ h1, key _ _ h0]
  omega

/-- A word that LMEM holds is what `W(a)` reads. -/
theorem loadW_of_holds {m : Memory} {a : Nat} {v : Int} (h : HoldsWord m a v) : loadW m a = .ok v := by
  obtain ⟨b0, b1, b2, b3, h0, h1, h2, h3, hv⟩ := h
  simp only [loadW, readLE, readByte, h0, h1, h2, h3, four_bytes]
  rw [← hv]; rfl

/-- A checked read of a word that LMEM holds. -/
theorem memRead_of_holds {size a : Nat} {m : Memory} {w : Word} (h : a % 4 = 0) (h' : a + 4 ≤ size) (hw : HoldsWord m a w.toInt) :
    memRead size m a 4 = .ok w.toNat := by
  obtain ⟨b0, b1, b2, b3, h0, h1, h2, h3, hv⟩ := hw
  have e := congrArg BitVec.toNat ((four_bytes b0 b1 b2 b3).trans (BitVec.eq_of_toInt_eq hv))
  rw [BitVec.toNat_ofNat, Nat.mod_eq_of_lt (by have := b0.isLt; have := b1.isLt; have := b2.isLt; have := b3.isLt; omega)] at e
  have c : checkAccess size a 4 = .ok () := by rw [checkAccess, if_neg (by omega), if_neg (by omega)]
  simp only [memRead, c, readLE, readByte, h0, h1, h2, h3, e]

/-- What `W(a)` reads, LMEM holds. -/
theorem holds_of_loadW {m : Memory} {a : Nat} {v : Int} (h : loadW m a = .ok v) : HoldsWord m a v := by
  cases h0 : memGet a m with
  | none => simp [loadW, readLE, readByte, h0] at h
  | some b0 =>
    cases h1 : memGet (a + 1) m with
    | none => simp [loadW, readLE, readByte, h0, h1] at h
    | some b1 =>
      cases h2 : memGet (a + 2) m with
      | none => simp [loadW, readLE, readByte, h0, h1, h2] at h
      | some b2 =>
        cases h3 : memGet (a + 3) m with
        | none => simp [loadW, readLE, readByte, h0, h1, h2, h3] at h
        | some b3 =>
          refine ⟨b0, b1, b2, b3, h0, h1, h2, h3, ?_⟩
          simp only [loadW, readLE, readByte, h0, h1, h2, h3, four_bytes, Except.ok.injEq] at h
          exact h

theorem holdsWord_congr {m m' : Memory} {a : Nat} {v : Int} (h : HoldsWord m a v)
    (e : ∀ b, a ≤ b → b < a + 4 → memGet b m' = memGet b m) : HoldsWord m' a v := by
  obtain ⟨b0, b1, b2, b3, h0, h1, h2, h3, hv⟩ := h
  exact ⟨b0, b1, b2, b3, by rw [e _ (by omega) (by omega), h0], by rw [e _ (by omega) (by omega), h1],
    by rw [e _ (by omega) (by omega), h2], by rw [e _ (by omega) (by omega), h3], hv⟩

/-- Writing elsewhere leaves a word as it is. -/
theorem holdsWord_of_touches {lo hi a : Nat} {m m' : Memory} {v : Int} (h : HoldsWord m a v) (t : Touches lo hi m m')
    (d : a + 4 ≤ lo ∨ hi ≤ a) : HoldsWord m' a v :=
  holdsWord_congr h fun b _ _ => t.out b (by omega)

/-- A signed 32-bit value survives its bit pattern. -/
theorem s32_u32 {v : Int} (h : -2147483648 ≤ v) (h' : v < 2147483648) : s32 (u32 v) = v := by
  simp only [s32, u32, BitVec.toInt_ofInt]
  exact Int.bmod_eq_of_le (by omega) (by omega)

/-- A word written is the word held. -/
theorem holds_storeW {v : Int} (m : Memory) (a : Nat) (h : -2147483648 ≤ v) (h' : v < 2147483648) :
    HoldsWord (storeW m a v) a v := by
  apply holds_of_loadW
  have hlt := (u32 v).isLt
  rw [loadW, storeW, readLE_writeLE, Nat.mod_eq_of_lt (by simpa using hlt)]
  simp only [BitVec.ofNat_toNat, BitVec.setWidth_eq]
  rw [s32_u32 h h']

/-- Two values of one word are equal. -/
theorem holdsWord_unique {m : Memory} {a : Nat} {v w : Int} (h : HoldsWord m a v) (h' : HoldsWord m a w) : v = w := by
  have := (loadW_of_holds h).symm.trans (loadW_of_holds h')
  simpa using this

/-- A word of LMEM is a signed 32-bit number. -/
theorem holdsWord_range {m : Memory} {a : Nat} {v : Int} (h : HoldsWord m a v) : -2147483648 ≤ v ∧ v < 2147483648 := by
  obtain ⟨b0, b1, b2, b3, -, -, -, -, rfl⟩ := h
  have h1 := BitVec.le_toInt (b3 ++ b2 ++ b1 ++ b0 : BitVec 32)
  have h2 := BitVec.toInt_lt (x := (b3 ++ b2 ++ b1 ++ b0 : BitVec 32))
  simp at h1 h2
  exact ⟨h1, h2⟩

/-- Four written bytes hold a word. -/
theorem holds_of_written {m : Memory} {a : Nat} (h : Written m a 4) : ∃ v, HoldsWord m a v := by
  rcases readLE_cases m 4 a with ⟨-, v, hv, -⟩ | ⟨k, hk, hn, -⟩
  · exact ⟨s32 (BitVec.ofNat 32 v), holds_of_loadW (by simp [loadW, hv])⟩
  · have := h k hk; simp [hn] at this

end Sys2Proof.Machine
end

