-- ==== Sys2Proof/Laws/Ops.lean ====
section
/-! SUPPORT. Laws/Ops.lean: for each shared operation, once, everything it can do. -/

namespace Sys2Proof.Machine

/-! ## Stops carry a cause -/

/-- The causes that the pseudocode of an instruction raises (60_exceptions R502): neither 0, nor those of the fetch, nor ABORT. -/
def instrCauses : List Cause := [.dalign, .daddr, .bsovr, .vlcmiss, .vlctbl, .rlovr, .cfg, .oprange]

/-- A stop that names a cause an instruction can raise. -/
def Stop.named : Stop → Prop
  | .raise c _ => c ∈ instrCauses
  | .stuck _ => True

/-- Every stop of `r` names a cause an instruction can raise. -/
def Named {α : Type} (r : Run α) : Prop := ∀ e, r = .error e → e.named

@[simp] theorem named_ok {α : Type} (a : α) : Named (.ok a : Run α) := fun _ h => by cases h

theorem named_raise {α : Type} {c : Cause} (n : Nat) (h : c ∈ instrCauses) : Named (raise c n : Run α) := fun e he => by
  cases he; exact h

theorem named_stuck {α : Type} (f : Fault) : Named (.error (.stuck f) : Run α) := fun e he => by cases he; trivial

/-- A run that stops where a named run stops is named. -/
theorem Named.forward {α β : Type} {r : Run α} {e : Stop} (h : Named r) (he : r = .error e) : Named (.error e : Run β) :=
  fun e' h' => by cases h'; exact h e he

/-! ## Loops -/

/-- A property of every turn holds of the whole loop. -/
theorem forFrom_inv {σ : Type} {f : Nat → σ → Run σ} (P : Nat → σ → Prop) (count : Nat) {start : Nat} {st st' : σ}
    (turn : ∀ i a b, start ≤ i → i < start + count → P i a → f i a = .ok b → P (i + 1) b) (h0 : P start st)
    (h : forFrom f start count st = .ok st') : P (start + count) st' := by
  induction count generalizing start st with
  | zero => simp only [forFrom, Except.ok.injEq] at h; exact h ▸ h0
  | succ n ih =>
    simp only [forFrom] at h
    split at h
    · rename_i b hb
      have := ih (start := start + 1) (fun i a c h1 h2 => turn i a c (by omega) (by omega))
        (turn start st b (Nat.le_refl _) (by omega) h0 hb) h
      rwa [show start + 1 + n = start + (n + 1) by omega] at this
    · cases h

/-- A loop whose every turn completes, completes. -/
theorem forFrom_ok {σ : Type} {f : Nat → σ → Run σ} (P : Nat → σ → Prop) (count : Nat) {start : Nat} {st : σ}
    (turn : ∀ i a, start ≤ i → i < start + count → P i a → ∃ b, f i a = .ok b ∧ P (i + 1) b) (h0 : P start st) :
    ∃ st', forFrom f start count st = .ok st' ∧ P (start + count) st' := by
  induction count generalizing start st with
  | zero => exact ⟨st, rfl, h0⟩
  | succ n ih =>
    obtain ⟨b, hb, hP⟩ := turn start st (Nat.le_refl _) (by omega) h0
    obtain ⟨c, hc, hQ⟩ := ih (start := start + 1) (fun i a h1 h2 => turn i a (by omega) (by omega)) hP
    exact ⟨c, by simp only [forFrom, hb]; exact hc, by rwa [show start + (n + 1) = start + 1 + n by omega]⟩

/-- A loop stops only where one of its turns stops. -/
theorem forFrom_named {σ : Type} {f : Nat → σ → Run σ} (h : ∀ i a, Named (f i a)) (count start : Nat) (st : σ) :
    Named (forFrom f start count st) := by
  induction count generalizing start st with
  | zero => exact named_ok st
  | succ n ih =>
    simp only [forFrom]
    split
    · exact ih _ _
    · rename_i e he; exact (h start st).forward he

/-! ## Checked accesses -/

/-- MemRead and MemWrite check alignment first, then bounds (20_memory R104, R105). -/
theorem checkAccess_cases (size a n : Nat) :
    (a % n = 0 ∧ a + n ≤ size ∧ checkAccess size a n = .ok ()) ∨
      (a % n ≠ 0 ∧ checkAccess size a n = raise .dalign a) ∨
      (a % n = 0 ∧ size < a + n ∧ checkAccess size a n = raise .daddr a) := by
  unfold checkAccess
  by_cases h : a % n = 0
  · by_cases h' : size < a + n
    · exact .inr (.inr ⟨h, h', by simp [h, h']⟩)
    · exact .inl ⟨h, by omega, by simp [h, h']⟩
  · exact .inr (.inl ⟨h, by simp [h]⟩)

theorem checkAccess_ok {size a n : Nat} (h : a % n = 0) (h' : a + n ≤ size) : checkAccess size a n = .ok () := by
  rcases checkAccess_cases size a n with ⟨-, -, e⟩ | ⟨e, -⟩ | ⟨-, e, -⟩
  · exact e
  · exact absurd h e
  · omega

/-- All that MemRead can do: read written bytes, one of its two faults, or the model's stop. -/
theorem memRead_cases (size : Nat) (m : Memory) (a n : Nat) :
    (a % n = 0 ∧ a + n ≤ size ∧ Written m a n ∧ ∃ v, memRead size m a n = .ok v ∧ readLE m a n = .ok v ∧ v < 256 ^ n) ∨
      (a % n ≠ 0 ∧ memRead size m a n = raise .dalign a) ∨
      (a % n = 0 ∧ size < a + n ∧ memRead size m a n = raise .daddr a) ∨
      (a % n = 0 ∧ a + n ≤ size ∧ ∃ k, k < n ∧ memGet (a + k) m = none ∧
        memRead size m a n = .error (.stuck (.unwrittenByte (a + k)))) := by
  unfold memRead
  rcases checkAccess_cases size a n with ⟨h1, h2, e⟩ | ⟨h1, e⟩ | ⟨h1, h2, e⟩
  · rcases readLE_cases m n a with ⟨hw, v, hv, hlt⟩ | ⟨k, hk, hn, he⟩
    · exact .inl ⟨h1, h2, hw, v, by simp [e, hv], hv, hlt⟩
    · exact .inr (.inr (.inr ⟨h1, h2, k, hk, hn, by simp [e, he]⟩))
  · exact .inr (.inl ⟨h1, by simp [e, raise]⟩)
  · exact .inr (.inr (.inl ⟨h1, h2, by simp [e, raise]⟩))

/-- All that MemWrite can do. -/
theorem memWrite_cases (size : Nat) (m : Memory) (a n v : Nat) :
    (a % n = 0 ∧ a + n ≤ size ∧ memWrite size m a n v = .ok (writeLE m a n v)) ∨
      (a % n ≠ 0 ∧ memWrite size m a n v = raise .dalign a) ∨
      (a % n = 0 ∧ size < a + n ∧ memWrite size m a n v = raise .daddr a) := by
  unfold memWrite
  rcases checkAccess_cases size a n with ⟨h1, h2, e⟩ | ⟨h1, e⟩ | ⟨h1, h2, e⟩
  · exact .inl ⟨h1, h2, by simp [e]⟩
  · exact .inr (.inl ⟨h1, by simp [e, raise]⟩)
  · exact .inr (.inr ⟨h1, h2, by simp [e, raise]⟩)

/-- All that a region check can do (20_memory R107). -/
theorem region_cases (size base n al : Nat) :
    ((n = 0 ∨ base % al = 0 ∧ base + n ≤ size) ∧ region size base n al = .ok ()) ∨
      (n ≠ 0 ∧ base % al ≠ 0 ∧ region size base n al = raise .dalign base) ∨
      (n ≠ 0 ∧ base % al = 0 ∧ size < base + n ∧ region size base n al = raise .daddr base) := by
  unfold region
  by_cases h0 : n = 0
  · exact .inl ⟨.inl h0, by simp [h0]⟩
  · by_cases h : base % al = 0
    · by_cases h' : size < base + n
      · exact .inr (.inr ⟨h0, h, h', by simp [h0, h, h']⟩)
      · exact .inl ⟨.inr ⟨h, by omega⟩, by simp [h0, h, h']⟩
    · exact .inr (.inl ⟨h0, h, by simp [h0, h]⟩)

theorem region_ok {size base n al : Nat} (h : base % al = 0) (h' : base + n ≤ size) : region size base n al = .ok () := by
  rcases region_cases size base n al with ⟨-, e⟩ | ⟨-, e, -⟩ | ⟨-, -, e, -⟩
  · exact e
  · exact absurd h e
  · omega

/-- A region check that passes a non-empty array says that the array lies in LMEM. -/
theorem region_bound {size base n al : Nat} {u : Unit} (h : region size base n al = .ok u) (hn : 0 < n) :
    base % al = 0 ∧ base + n ≤ size := by
  rcases region_cases size base n al with ⟨h1, -⟩ | ⟨-, -, e⟩ | ⟨-, -, -, e⟩
  · rcases h1 with h1 | h1
    · omega
    · exact h1
  · rw [e] at h; cases h
  · rw [e] at h; cases h

theorem named_memRead (size : Nat) (m : Memory) (a n : Nat) : Named (memRead size m a n) := by
  rcases memRead_cases size m a n with ⟨-, -, -, v, e, -⟩ | ⟨-, e⟩ | ⟨-, -, e⟩ | ⟨-, -, k, -, -, e⟩ <;> rw [e]
  · exact named_ok v
  · exact named_raise _ (by decide)
  · exact named_raise _ (by decide)
  · exact named_stuck _

theorem named_memWrite (size : Nat) (m : Memory) (a n v : Nat) : Named (memWrite size m a n v) := by
  rcases memWrite_cases size m a n v with ⟨-, -, e⟩ | ⟨-, e⟩ | ⟨-, -, e⟩ <;> rw [e]
  · exact named_ok _
  · exact named_raise _ (by decide)
  · exact named_raise _ (by decide)

theorem named_region (size base n al : Nat) : Named (region size base n al) := by
  rcases region_cases size base n al with ⟨-, e⟩ | ⟨-, -, e⟩ | ⟨-, -, -, e⟩ <;> rw [e]
  · exact named_ok _
  · exact named_raise _ (by decide)
  · exact named_raise _ (by decide)

theorem named_loadW (m : Memory) (a : Nat) : Named (loadW m a) := by
  unfold loadW
  rcases readLE_cases m 4 a with ⟨-, v, e, -⟩ | ⟨k, -, -, e⟩ <;> rw [e]
  · exact named_ok _
  · exact named_stuck _

theorem named_loadC (m : Memory) (z k : Nat) : Named (loadC m z k) := by
  unfold loadC
  split
  · rename_i e h; exact (named_loadW _ _).forward h
  · split
    · rename_i e h; exact (named_loadW _ _).forward h
    · exact named_ok _

/-! ## Saturation (00_scope R23) -/

theorem sat32_range (v : Int) : -2147483648 ≤ sat 32 v ∧ sat 32 v < 2147483648 := by
  unfold sat satLimit; norm_num; split
  · omega
  · split <;> omega

/-- A saturation that does not clamp leaves its value. -/
theorem sat_of_not_clamps {n : Nat} {v : Int} (h : clamps n v = false) : sat n v = v := by
  simp only [clamps, Bool.or_eq_false_iff, decide_eq_false_iff_not, not_lt, not_le] at h
  unfold sat; rw [if_neg (by omega), if_pos h.2]

/-! ## The bit reader (42_bitreader R251 to R253) -/

/-- What `bit` reads where LMEM holds the stream. -/
theorem bit_of_streamBit {s : State} {k : Nat} {b : Bool} (h : StreamBit s k b) : bit s s.mem k = .ok b := by
  unfold StreamBit at h
  unfold bit
  by_cases hk : s.sr.bslen.toNat ≤ k
  · rw [if_pos hk] at h; rw [if_pos hk, h]
  · rw [if_neg hk] at h
    obtain ⟨hlt, byte, hb, rfl⟩ := h
    rw [if_neg hk, memRead, checkAccess_ok (Nat.mod_one _) (by omega)]
    simp only [readLE, readByte, hb]
    simp [BitVec.getLsbD]

theorem named_bit (s : State) (m : Memory) (k : Nat) : Named (bit s m k) := by
  unfold bit
  split
  · exact named_ok _
  · split
    · rename_i e h; exact (named_memRead _ _ _ _).forward h
    · exact named_ok _

theorem named_peekLoop (s : State) (m : Memory) (n pos v : Nat) : Named (peekLoop s m pos n v) := by
  induction n generalizing pos v with
  | zero => exact named_ok v
  | succ n ih =>
    unfold peekLoop
    split
    · rename_i e h; exact (named_bit s m pos).forward h
    · exact ih _ _

theorem named_peekBits (s : State) (m : Memory) (pos n : Nat) : Named (peekBits s m pos n) := named_peekLoop s m n pos 0

/-- A peek of n bits is below 2^n. -/
theorem peekLoop_lt {s : State} {m : Memory} (n : Nat) {pos v w : Nat} (h : peekLoop s m pos n v = .ok w) :
    w < (v + 1) * 2 ^ n := by
  induction n generalizing pos v with
  | zero => simp only [peekLoop, Except.ok.injEq] at h; omega
  | succ n ih =>
    unfold peekLoop at h
    split at h
    · cases h
    · rename_i b hb
      have := ih h
      have hb' : b.toNat ≤ 1 := by cases b <;> simp
      calc w < (2 * v + b.toNat + 1) * 2 ^ n := this
        _ ≤ (2 * (v + 1)) * 2 ^ n := Nat.mul_le_mul_right _ (by omega)
        _ = (v + 1) * 2 ^ (n + 1) := by rw [Nat.pow_succ]; ring

/-- What a peek reads where LMEM holds the stream: the bits appended to the value read so far. -/
theorem peekLoop_of_bits {s : State} (n : Nat) {pos v w : Nat} (hw : w < 2 ^ n)
    (h : ∀ j, j < n → StreamBit s (pos + j) (w.testBit (n - 1 - j))) : peekLoop s s.mem pos n v = .ok (v * 2 ^ n + w) := by
  induction n generalizing pos v w with
  | zero => simp only [peekLoop]; congr 1; omega
  | succ n ih =>
    have h0 : StreamBit s pos (w.testBit n) := by simpa using h 0 (by omega)
    have hlow : w % 2 ^ n < 2 ^ n := Nat.mod_lt _ (Nat.two_pow_pos n)
    have hrest : ∀ j, j < n → StreamBit s (pos + 1 + j) ((w % 2 ^ n).testBit (n - 1 - j)) := fun j hj => by
      have := h (j + 1) (by omega)
      rw [show pos + (j + 1) = pos + 1 + j by omega, show n + 1 - 1 - (j + 1) = n - 1 - j by omega] at this
      rwa [Nat.testBit_mod_two_pow, decide_eq_true (by omega), Bool.true_and]
    have hb : (w.testBit n).toNat = w / 2 ^ n := by
      have hd : w / 2 ^ n < 2 := by
        rw [Nat.div_lt_iff_lt_mul (Nat.two_pow_pos n)]; rw [Nat.pow_succ] at hw; omega
      rw [Nat.testBit_eq_decide_div_mod_eq]
      generalize w / 2 ^ n = q at hd ⊢
      match q, hd with
      | 0, _ => rfl
      | 1, _ => rfl
    simp only [peekLoop, bit_of_streamBit h0, ih hlow hrest, hb]
    congr 1
    have := Nat.div_add_mod w (2 ^ n)
    rw [Nat.pow_succ]
    generalize 2 ^ n = p at *
    generalize w / p = q at *
    generalize w % p = r at *
    subst this; ring

/-- What `peekbits` reads where LMEM holds the stream. -/
theorem peekBits_of_streamBits {s : State} {pos n v : Nat} (h : StreamBits s pos n v) : peekBits s s.mem pos n = .ok v := by
  have := peekLoop_of_bits (v := 0) n h.1 h.2
  simpa [peekBits] using this

/-- All that `takebits` can do: read n bits that lie below BSLEN, raise BSOVR, or stop where `peekbits` stops. -/
theorem takeBits_cases (s : State) (m : Memory) (pos n : Nat) :
    (pos + n ≤ s.sr.bslen.toNat ∧ ∃ v, v < 2 ^ n ∧ peekBits s m pos n = .ok v ∧ takeBits s m pos n = .ok (v, pos + n)) ∨
      (s.sr.bslen.toNat < pos + n ∧ takeBits s m pos n = raise .bsovr pos) ∨
      (pos + n ≤ s.sr.bslen.toNat ∧ ∃ e, peekBits s m pos n = .error e ∧ takeBits s m pos n = .error e) := by
  unfold takeBits
  by_cases h : s.sr.bslen.toNat < pos + n
  · exact .inr (.inl ⟨h, by simp [h]⟩)
  · cases hp : peekBits s m pos n with
    | ok v =>
      refine .inl ⟨by omega, v, ?_, rfl, by simp [h]⟩
      have := peekLoop_lt n hp
      omega
    | error e => exact .inr (.inr ⟨by omega, e, rfl, by simp [h]⟩)

theorem named_takeBits (s : State) (m : Memory) (pos n : Nat) : Named (takeBits s m pos n) := by
  rcases takeBits_cases s m pos n with ⟨-, v, -, -, e⟩ | ⟨-, e⟩ | ⟨-, x, hx, e⟩ <;> rw [e]
  · exact named_ok _
  · exact named_raise _ (by decide)
  · exact (named_peekBits s m pos n).forward hx

/-- What `takebits` reads where LMEM holds the stream. -/
theorem takeBits_of_streamBits {s : State} {pos n v : Nat} (h : StreamBits s pos n v) (hle : pos + n ≤ s.sr.bslen.toNat) :
    takeBits s s.mem pos n = .ok (v, pos + n) := by
  unfold takeBits
  rw [if_neg (by omega), peekBits_of_streamBits h]

/-- A position that `takebits` answers is its start plus its count, within BSLEN. -/
theorem takeBits_pos {s : State} {m : Memory} {pos n : Nat} {r : Nat × Nat} (h : takeBits s m pos n = .ok r) :
    r.2 = pos + n ∧ pos + n ≤ s.sr.bslen.toNat ∧ r.1 < 2 ^ n := by
  rcases takeBits_cases s m pos n with ⟨hle, v, hv, -, e⟩ | ⟨-, e⟩ | ⟨-, x, -, e⟩ <;> rw [e] at h
  · cases h; exact ⟨rfl, hle, hv⟩
  · cases h
  · cases h

/-! ## VLC lookup (43_vlc R282) -/

theorem named_vlcLevels (s : State) (m : Memory) (T pos0 left consumed off w : Nat) :
    Named (vlcLevels s m T pos0 left consumed off w) := by
  induction left generalizing consumed off w with
  | zero => exact named_raise _ (by decide)
  | succ left ih =>
    unfold vlcLevels
    split
    · rename_i e h; exact (named_peekBits _ _ _ _).forward h
    · simp only
      split
      · exact named_raise _ (by decide)
      · split
        · rename_i e h; exact (named_memRead _ _ _ _).forward h
        · split
          · split
            · exact named_raise _ (by decide)
            · split
              · exact named_raise _ (by decide)
              · exact named_ok _
          · split
            · split
              · exact named_raise _ (by decide)
              · split
                · exact named_raise _ (by decide)
                · exact ih _ _ _
            · exact named_ok _

theorem named_vlcLookup (s : State) (m : Memory) (T nb pos0 : Nat) : Named (vlcLookup s m T nb pos0) :=
  named_vlcLevels s m T pos0 3 0 0 nb

/-- A code that a lookup finds is a 16-bit symbol, takes at least one bit and ends within BSLEN. -/
theorem vlcLevels_leaf {s : State} {m : Memory} {T pos0 left consumed off w sym total : Nat}
    (h : vlcLevels s m T pos0 left consumed off w = .ok (.leaf sym total)) :
    sym < 65536 ∧ consumed < total ∧ pos0 + total ≤ s.sr.bslen.toNat := by
  induction left generalizing consumed off w with
  | zero => cases h
  | succ left ih =>
    unfold vlcLevels at h
    split at h
    · cases h
    · simp only at h
      split at h
      · cases h
      · split at h
        · cases h
        · split at h
          · split at h
            · cases h
            · split at h
              · cases h
              · simp only [Except.ok.injEq, VlcResult.leaf.injEq] at h
                omega
          · split at h
            · split at h
              · cases h
              · split at h
                · cases h
                · have := ih h; omega
            · cases h

theorem vlcLookup_leaf {s : State} {m : Memory} {T nb pos0 sym total : Nat}
    (h : vlcLookup s m T nb pos0 = .ok (.leaf sym total)) :
    sym < 65536 ∧ 0 < total ∧ pos0 + total ≤ s.sr.bslen.toNat := vlcLevels_leaf h

/-- A lookup that comes to a level goes on as that level does (43_vlc R282). -/
theorem vlcLookup_of_reaches {s : State} {T pos nb level consumed off w : Nat} (hT : T % 4 = 0)
    (h : VlcReaches s T pos nb level consumed off w) :
    1 ≤ level ∧ level ≤ 3 ∧ vlcLookup s s.mem T nb pos = vlcLevels s s.mem T pos (4 - level) consumed off w := by
  induction h with
  | primary => exact ⟨by omega, by omega, rfl⟩
  | @sub level consumed off w idx e hr hb he hk hlev h1 h16 ih =>
    obtain ⟨-, -, ih⟩ := ih
    refine ⟨by omega, by omega, ih.trans ?_⟩
    obtain ⟨k, hk2⟩ : ∃ k, 4 - level = k + 2 := ⟨2 - level, by omega⟩
    rw [hk2, show 4 - (level + 1) = k + 1 by omega, vlcLevels, peekBits_of_streamBits hb]
    have hsize : ¬lmemSize s < T + 4 * (off + idx) + 4 := by have := he.1; omega
    simp only [if_neg hsize, memRead_of_holds (by omega) he.1 he.2, hk, if_true]
    rw [if_neg (by omega), if_neg (by omega), if_neg (by omega)]

/-! ## Region checks in order (20_memory R107) -/

/-- When a list of regions has a first bad one, either its head is that one, or its head passes and the rest has it. -/
theorem region_of_firstBad {size n al : Nat} {b info : Word} {rest : List (Word × Nat × Nat)} {k : Cause}
    (h : firstBadRegion size ((b, n, al) :: rest) = some (k, info)) :
    region size b.toNat n al = raise k info.toNat ∨
      (region size b.toNat n al = .ok () ∧ firstBadRegion size rest = some (k, info)) := by
  simp only [firstBadRegion] at h
  unfold region
  split at h
  · rename_i g; exact .inr ⟨if_pos g, h⟩
  · rename_i g1; rw [if_neg g1]
    split at h
    · rename_i g2; cases h; exact .inl (if_pos g2)
    · rename_i g2; rw [if_neg g2]
      split at h
      · rename_i g3; cases h; exact .inl (if_pos g3)
      · rename_i g3; exact .inr ⟨if_neg g3, h⟩

/-- When no region of a list is bad, its head passes and so does the rest. -/
theorem region_of_noneBad {size n al : Nat} {b : Word} {rest : List (Word × Nat × Nat)}
    (h : firstBadRegion size ((b, n, al) :: rest) = none) :
    region size b.toNat n al = .ok () ∧ firstBadRegion size rest = none := by
  simp only [firstBadRegion] at h
  unfold region
  split at h
  · rename_i g; exact ⟨if_pos g, h⟩
  · rename_i g1; rw [if_neg g1]
    split at h
    · cases h
    · rename_i g2; rw [if_neg g2]
      split at h
      · cases h
      · rename_i g3; exact ⟨if_neg g3, h⟩

/-! ## Table entries (00_scope R20) -/

/-- All that the address of a table entry is: 32 bits wide, aligned when its table is, and the plain sum where that does not wrap. -/
theorem entryAddr_spec (base : Word) (k : Nat) :
    entryAddr base k < 2 ^ 32 ∧ (base.toNat % 4 = 0 → entryAddr base k % 4 = 0) ∧
      (base.toNat + 4 * k < 2 ^ 32 → entryAddr base k = base.toNat + 4 * k) := by
  unfold entryAddr
  omega

/-! ## Taking a fault (60_exceptions R501) -/

/-- Fault entry changes STATUS, FAULTPC and FAULTINFO and nothing else. -/
theorem takeFault_entered (s : State) (c : Cause) (p : Word) (n : Nat) :
    FaultEntered s (takeFault c p n s) c p (faultInfoWord n) := rfl

/-- FAULTINFO is the information value itself when it fits in 32 bits. -/
theorem faultInfoWord_toNat {n : Nat} (h : n < 2 ^ 32) : (faultInfoWord n).toNat = n := by
  rw [faultInfoWord, if_pos h, BitVec.toNat_ofNat, Nat.mod_eq_of_lt h]

end Sys2Proof.Machine
end

