-- ==== Sys2Proof/Laws/Arrays.lean ====
section
/-! SUPPORT. Laws/Arrays.lean: where the loops of the array commands write, and that they stop only with a cause. -/

namespace Sys2Proof.Machine

/-- A loop over a work whose every turn writes inside [lo, hi) writes inside [lo, hi). -/
theorem forFrom_touches {f : Nat → Work → Run Work} {lo hi : Nat} (count : Nat) {start : Nat} {w w' : Work}
    (turn : ∀ i a b, start ≤ i → i < start + count → f i a = .ok b → Touches lo hi a.mem b.mem)
    (h : forFrom f start count w = .ok w') : Touches lo hi w.mem w'.mem :=
  forFrom_inv (P := fun _ a => Touches lo hi w.mem a.mem) count
    (fun i a b h1 h2 hp hb => hp.trans (turn i a b h1 h2 hb)) (Touches.refl lo hi w.mem) h

/-- The same for a loop that carries LMEM alone. -/
theorem forFrom_touches_mem {f : Nat → Memory → Run Memory} {lo hi : Nat} (count : Nat) {start : Nat} {m m' : Memory}
    (turn : ∀ i a b, start ≤ i → i < start + count → f i a = .ok b → Touches lo hi a b)
    (h : forFrom f start count m = .ok m') : Touches lo hi m m' :=
  forFrom_inv (P := fun _ a => Touches lo hi m a) count
    (fun i a b h1 h2 hp hb => hp.trans (turn i a b h1 h2 hb)) (Touches.refl lo hi m) h

/-! ## Spectral (44_spectral) -/

theorem storeScaled_touches {lo hi a : Nat} (s : State) (t : Int) (w : Work) (h : lo ≤ a) (h' : a + 4 ≤ hi) :
    Touches lo hi w.mem (storeScaled s a t w).mem := touches_storeW _ _ h h'

theorem deqElem_touches {s : State} {o q e i lo hi : Nat} {w w' : Work} (h : deqElem s o q e i w = .ok w')
    (hl : lo ≤ o + 4 * i) (hh : o + 4 * i + 4 ≤ hi) : Touches lo hi w.mem w'.mem := by
  unfold deqElem at h
  split at h
  · cases h
  · split at h
    · cases h
    · cases h; exact storeScaled_touches s _ w hl hh

theorem deqnElem_touches {s : State} {o nz e i lo hi : Nat} {w w' : Work} (h : deqnElem s o nz e i w = .ok w')
    (hl : lo ≤ o + 4 * i) (hh : o + 4 * i + 4 ≤ hi) : Touches lo hi w.mem w'.mem := by
  unfold deqnElem at h
  split at h
  · cases h
  · split at h
    · cases h
    · cases h; exact storeScaled_touches s _ w hl hh

theorem ngenLoop_touches {lo hi : Nat} (s : State) (count : Nat) {a : Nat} (m : Memory) (x : Word) (h : lo ≤ a)
    (h' : a + 4 * count ≤ hi) : Touches lo hi m (ngenLoop s a count m x).1 := by
  induction count generalizing a m x with
  | zero => exact Touches.refl lo hi m
  | succ n ih => exact (touches_storeW _ m h (by omega)).trans (ih _ _ (by omega) (by omega))

theorem rldecLoop_touches {lo hi : Nat} (s : State) (cb T nb N fuel : Nat) (m : Memory) (pos p : Nat) (h : lo ≤ cb)
    (h' : cb + 4 * N ≤ hi) : Touches lo hi m (rldecLoop s cb T nb N fuel m pos p).1 := by
  induction fuel generalizing m pos p with
  | zero => exact Touches.refl lo hi m
  | succ n ih =>
    unfold rldecLoop
    split
    · exact Touches.refl lo hi m
    · exact Touches.refl lo hi m
    · rename_i run v pos1 _
      split
      · exact Touches.refl lo hi m
      · have t : Touches lo hi m (storeW m (cb + 4 * (p + run)) v) := touches_storeW v m (by omega) (by omega)
        simp only
        split
        · exact t
        · exact t.trans (ih _ _ _)

theorem named_checkNcoef (s : State) : Named (checkNcoef s) := by
  unfold checkNcoef; split
  · exact named_raise _ (by decide)
  · exact named_ok _

theorem checkNcoef_ok {s : State} {u : Unit} (h : checkNcoef s = .ok u) : 1 ≤ s.sr.ncoef.toNat ∧ s.sr.ncoef.toNat ≤ 65536 := by
  unfold checkNcoef at h; split at h
  · cases h
  · omega

theorem named_gainLoop (s : State) (fuel pos : Nat) (g : Int) (c : Bool) : Named (gainLoop s fuel pos g c) := by
  induction fuel generalizing pos g c with
  | zero => exact named_raise _ (by decide)
  | succ n ih =>
    unfold gainLoop
    split
    · rename_i e h; exact (named_takeBits _ _ _ _).forward h
    · simp only
      split
      · exact named_ok _
      · exact ih _ _ _

/-- GAIN's loop ends at or after its start, within BSLEN. -/
theorem gainLoop_pos {s : State} {fuel pos pos' : Nat} {g g' : Int} {c c' : Bool}
    (h : gainLoop s fuel pos g c = .ok (g', pos', c')) : pos ≤ pos' ∧ pos' ≤ s.sr.bslen.toNat := by
  induction fuel generalizing pos g c with
  | zero => cases h
  | succ n ih =>
    unfold gainLoop at h
    split at h
    · cases h
    · rename_i r hr
      have := takeBits_pos hr
      simp only at h
      split at h
      · simp only [Except.ok.injEq, Prod.mk.injEq] at h; omega
      · have := ih h; omega

theorem named_rldecRunLevel (s : State) (m : Memory) (sym pos : Nat) : Named (rldecRunLevel s m sym pos) := by
  unfold rldecRunLevel
  split
  · split
    · rename_i e h; exact (named_takeBits _ _ _ _).forward h
    · split
      · rename_i e h; exact (named_takeBits _ _ _ _).forward h
      · exact named_ok _
  · simp only
    split
    · exact named_raise _ (by decide)
    · split
      · rename_i e h; exact (named_memRead _ _ _ _).forward h
      · exact named_ok _

theorem named_rldecCode (s : State) (m : Memory) (T nb pos : Nat) : Named (rldecCode s m T nb pos) := by
  unfold rldecCode
  split
  · rename_i e h; exact (named_vlcLookup _ _ _ _ _).forward h
  · exact named_raise _ (by decide)
  · split
    · exact named_ok _
    · split
      · rename_i e h; exact (named_rldecRunLevel _ _ _ _).forward h
      · split
        · rename_i e h; exact (named_takeBits _ _ _ _).forward h
        · exact named_ok _

theorem rldecRunLevel_pos {s : State} {m : Memory} {sym pos run level pos' : Nat}
    (h : rldecRunLevel s m sym pos = .ok (run, level, pos')) : pos ≤ pos' := by
  unfold rldecRunLevel at h
  split at h
  · split at h
    · cases h
    · rename_i l hl
      split at h
      · cases h
      · rename_i r hr
        have := takeBits_pos hl; have := takeBits_pos hr
        simp only [Except.ok.injEq, Prod.mk.injEq] at h; omega
  · simp only at h
    split at h
    · cases h
    · split at h
      · cases h
      · simp only [Except.ok.injEq, Prod.mk.injEq] at h; omega

/-- One code of RLDEC moves the position forward and stays within BSLEN. -/
theorem rldecCode_pos {s : State} {m : Memory} {T nb pos : Nat} {c : RlCode} (h : rldecCode s m T nb pos = .ok c) :
    match c with
    | .endOfBlock pos' => pos < pos' ∧ pos' ≤ s.sr.bslen.toNat
    | .coef _ _ pos' => pos < pos' ∧ pos' ≤ s.sr.bslen.toNat := by
  unfold rldecCode at h
  split at h
  · cases h
  · cases h
  · rename_i sym total hl
    have hv := vlcLookup_leaf hl
    split at h
    · cases h; simp only; omega
    · split at h
      · cases h
      · rename_i run level pos1 hr
        have := rldecRunLevel_pos hr
        split at h
        · cases h
        · rename_i sign pos2 hs
          have := takeBits_pos hs
          cases h; simp only at *; omega

theorem rldecLoop_spec (s : State) (cb T nb N fuel : Nat) (m : Memory) (pos p : Nat) (hpos : pos ≤ s.sr.bslen.toNat) :
    Named (rldecLoop s cb T nb N fuel m pos p).2 ∧
      ∀ q pos', (rldecLoop s cb T nb N fuel m pos p).2 = .ok (q, pos') → pos ≤ pos' ∧ pos' ≤ s.sr.bslen.toNat := by
  induction fuel generalizing m pos p with
  | zero => exact ⟨named_ok _, fun q pos' h => by cases h; omega⟩
  | succ n ih =>
    unfold rldecLoop
    split
    · rename_i e h; exact ⟨(named_rldecCode _ _ _ _ _).forward h, fun q pos' h' => by cases h'⟩
    · rename_i pos1 h
      have := rldecCode_pos h
      exact ⟨named_ok _, fun q pos' h' => by cases h'; simp only at this; omega⟩
    · rename_i run v pos1 h
      have hc := rldecCode_pos h
      simp only at hc
      split
      · exact ⟨named_raise _ (by decide), fun q pos' h' => by cases h'⟩
      · simp only
        split
        · exact ⟨named_ok _, fun q pos' h' => by cases h'; omega⟩
        · have := ih (storeW m (cb + 4 * (p + run)) v) pos1 (p + run + 1) hc.2
          exact ⟨this.1, fun q pos' h' => by have := this.2 q pos' h'; omega⟩

theorem named_rldecChecks (s : State) (cb T : Nat) : Named (rldecChecks s cb T) := by
  unfold rldecChecks
  split
  · rename_i e h; exact (named_checkNcoef s).forward h
  · split
    · rename_i e h; exact (named_region _ _ _ _).forward h
    · split
      · exact named_raise _ (by decide)
      · split
        · exact named_raise _ (by decide)
        · exact named_ok _

theorem rldecChecks_ok {s : State} {cb T : Nat} {u : Unit} (h : rldecChecks s cb T = .ok u) :
    1 ≤ s.sr.ncoef.toNat ∧ s.sr.ncoef.toNat ≤ 65536 ∧ cb + 4 * s.sr.ncoef.toNat ≤ lmemSize s := by
  unfold rldecChecks at h
  split at h
  · cases h
  · rename_i h1
    split at h
    · cases h
    · rename_i h2
      have := checkNcoef_ok h1
      exact ⟨this.1, this.2, (region_bound h2 (by omega)).2⟩

theorem named_deqElem (s : State) (o q e i : Nat) (w : Work) : Named (deqElem s o q e i w) := by
  unfold deqElem
  split
  · rename_i x h; exact (named_loadW _ _).forward h
  · split
    · rename_i x h; exact (named_loadW _ _).forward h
    · exact named_ok _

theorem named_deqnElem (s : State) (o q e i : Nat) (w : Work) : Named (deqnElem s o q e i w) := by
  unfold deqnElem
  split
  · rename_i x h; exact (named_loadW _ _).forward h
  · split
    · rename_i x h; exact (named_loadW _ _).forward h
    · exact named_ok _

theorem named_deqChecks (s : State) (o q e : Nat) : Named (deqChecks s o q e) := by
  unfold deqChecks
  split
  · rename_i x h; exact (named_checkNcoef s).forward h
  · split
    · rename_i x h; exact (named_region _ _ _ _).forward h
    · split
      · rename_i x h; exact (named_region _ _ _ _).forward h
      · exact named_region _ _ _ _

theorem deqChecks_ok {s : State} {o q e : Nat} {u : Unit} (h : deqChecks s o q e = .ok u) :
    1 ≤ s.sr.ncoef.toNat ∧ o + 4 * s.sr.ncoef.toNat ≤ lmemSize s := by
  unfold deqChecks at h
  split at h
  · cases h
  · rename_i h1
    split at h
    · cases h
    · rename_i h2
      have := checkNcoef_ok h1
      exact ⟨this.1, (region_bound h2 (by omega)).2⟩

theorem named_deqnChecks (s : State) (o nz e : Nat) : Named (deqnChecks s o nz e) := by
  unfold deqnChecks
  split
  · rename_i x h; exact (named_checkNcoef s).forward h
  · split
    · exact named_raise _ (by decide)
    · split
      · exact named_raise _ (by decide)
      · split
        · rename_i x h; exact (named_region _ _ _ _).forward h
        · split
          · rename_i x h; exact (named_region _ _ _ _).forward h
          · exact named_region _ _ _ _

theorem deqnChecks_ok {s : State} {o nz e : Nat} {u : Unit} (h : deqnChecks s o nz e = .ok u) :
    1 ≤ s.sr.ncoef.toNat ∧ o + 4 * s.sr.ncoef.toNat ≤ lmemSize s := by
  unfold deqnChecks at h
  split at h
  · cases h
  · rename_i h1
    split at h
    · cases h
    · split at h
      · cases h
      · split at h
        · cases h
        · rename_i h2
          have := checkNcoef_ok h1
          exact ⟨this.1, (region_bound h2 (by omega)).2⟩

/-! ## Transform (45_transform) -/

theorem bitRev_lt (m k : Nat) : bitRev m k < 2 ^ m := by
  induction m generalizing k with
  | zero => simp [bitRev]
  | succ m ih =>
    have := ih (k / 2)
    have h2 : k % 2 * 2 ^ m ≤ 2 ^ m := by
      have : k % 2 ≤ 1 := by omega
      calc k % 2 * 2 ^ m ≤ 1 * 2 ^ m := Nat.mul_le_mul_right _ this
        _ = 2 ^ m := Nat.one_mul _
    rw [bitRev, Nat.pow_succ]; omega

theorem brevElem_touches {z m k lo hi : Nat} {mem mem' : Memory} (h : brevElem z m k mem = .ok mem')
    (hl : lo ≤ z) (hh : z + 8 * 2 ^ m ≤ hi) : Touches lo hi mem mem' := by
  have hj := bitRev_lt m k
  unfold brevElem at h
  simp only at h
  split at h
  · split at h
    · cases h
    · split at h
      · cases h
      · cases h
        exact (touches_storeC _ _ (by omega) (by omega)).trans (touches_storeC _ _ (by omega) (by omega))
  · cases h; exact Touches.refl lo hi mem

theorem named_brevElem (z m k : Nat) (mem : Memory) : Named (brevElem z m k mem) := by
  unfold brevElem
  simp only
  split
  · split
    · rename_i e h; exact (named_loadC _ _ _).forward h
    · split
      · rename_i e h; exact (named_loadC _ _ _).forward h
      · exact named_ok _
  · exact named_ok _

theorem touches_storeC2 {lo hi z i j : Nat} (v u : Int × Int) (m : Memory) (h1 : lo ≤ z + 8 * i) (h2 : z + 8 * i + 8 ≤ hi)
    (h3 : lo ≤ z + 8 * j) (h4 : z + 8 * j + 8 ≤ hi) : Touches lo hi m (storeC (storeC m z i v) z j u) :=
  (touches_storeC v m h1 h2).trans (touches_storeC u _ h3 h4)

theorem butterfly_touches {z tw sc t i h lo hi : Nat} {w w' : Work} (e : butterfly z tw sc t i h w = .ok w')
    (hl : lo ≤ z) (hh : z + 8 * (i + h) + 8 ≤ hi) : Touches lo hi w.mem w'.mem := by
  unfold butterfly at e
  split at e
  · cases e
  · split at e
    · cases e
    · split at e
      · cases e
      · simp only [Except.ok.injEq] at e
        rw [← e]
        dsimp only
        exact touches_storeC2 _ _ _ (by omega) (by omega) (by omega) (by omega)

theorem named_butterfly (z tw sc t i h : Nat) (w : Work) : Named (butterfly z tw sc t i h w) := by
  unfold butterfly
  split
  · rename_i e h; exact (named_loadC _ _ _).forward h
  · split
    · rename_i e h; exact (named_loadC _ _ _).forward h
    · split
      · rename_i e h; exact (named_loadC _ _ _).forward h
      · exact named_ok _

/-- The elements of a butterfly of stage st, block blk, turn j lie in the array of 2^m. -/
theorem butterfly_index {m st blk j : Nat} (h1 : 1 ≤ st) (h2 : st ≤ m) (hb : blk < 2 ^ (m - st)) (hj : j < 2 ^ (st - 1)) :
    blk * 2 ^ st + j + 2 ^ (st - 1) < 2 ^ m := by
  obtain ⟨k, rfl⟩ : ∃ k, st = k + 1 := ⟨st - 1, by omega⟩
  have hm : 2 ^ m = 2 ^ (m - (k + 1)) * 2 ^ (k + 1) := by rw [← Nat.pow_add]; congr 1; omega
  have : (blk + 1) * 2 ^ (k + 1) ≤ 2 ^ (m - (k + 1)) * 2 ^ (k + 1) := Nat.mul_le_mul_right _ hb
  rw [hm]
  simp only [Nat.add_sub_cancel] at hj ⊢
  rw [Nat.add_mul, Nat.one_mul] at this
  have hk : 2 ^ (k + 1) = 2 * 2 ^ k := by rw [Nat.pow_succ, Nat.mul_comm]
  omega

/-- The twiddle index of stage st, turn j lies in the table of 2^(m-1). -/
theorem twiddle_index {m st j : Nat} (h1 : 1 ≤ st) (h2 : st ≤ m) (hj : j < 2 ^ (st - 1)) : j * 2 ^ (m - st) < 2 ^ (m - 1) := by
  have : 2 ^ (m - 1) = 2 ^ (st - 1) * 2 ^ (m - st) := by rw [← Nat.pow_add]; congr 1; omega
  rw [this]
  exact Nat.mul_lt_mul_of_pos_right hj (Nat.two_pow_pos _)

theorem fftStage_touches {z tw m sc st lo hi : Nat} {w w' : Work} (e : fftStage z tw m sc st w = .ok w') (h1 : 1 ≤ st)
    (h2 : st ≤ m) (hl : lo ≤ z) (hh : z + 8 * 2 ^ m ≤ hi) : Touches lo hi w.mem w'.mem :=
  forFrom_touches _ (fun blk a b _ hb h =>
    forFrom_touches _ (fun j c d _ hj h' => by
      have := butterfly_index (m := m) (blk := blk) (j := j) h1 h2 (by omega) (by omega)
      exact butterfly_touches h' hl (by omega)) h) e

theorem fftCore_touches {z tw m sc lo hi : Nat} {w w' : Work} (e : fftCore z tw m sc w = .ok w') (hl : lo ≤ z)
    (hh : z + 8 * 2 ^ m ≤ hi) : Touches lo hi w.mem w'.mem :=
  forFrom_touches _ (fun st a b h1 h2 h => fftStage_touches h h1 (by omega) hl hh) e

theorem named_fftCore (z tw m sc : Nat) (w : Work) : Named (fftCore z tw m sc w) :=
  forFrom_named (fun _ _ => forFrom_named (fun _ _ => forFrom_named (fun _ _ => named_butterfly _ _ _ _ _ _ _) _ _ _) _ _ _) _ _ _

theorem imdctPre_touches {inp tr zb n k lo hi : Nat} {w w' : Work} (e : imdctPre inp tr zb n k w = .ok w') (hl : lo ≤ zb)
    (hh : zb + 8 * 2 ^ (n - 2) ≤ hi) : Touches lo hi w.mem w'.mem := by
  have hj := bitRev_lt (n - 2) k
  unfold imdctPre at e
  split at e
  · cases e
  · split at e
    · cases e
    · split at e
      · cases e
      · cases e; exact touches_storeC _ _ (by omega) (by omega)

theorem named_imdctPre (inp tr zb n k : Nat) (w : Work) : Named (imdctPre inp tr zb n k w) := by
  unfold imdctPre
  split
  · rename_i e h; exact (named_loadW _ _).forward h
  · split
    · rename_i e h; exact (named_loadW _ _).forward h
    · split
      · rename_i e h; exact (named_loadC _ _ _).forward h
      · exact named_ok _

theorem imdctPost_touches {tr zb n8 k lo hi : Nat} {w w' : Work} (e : imdctPost tr zb n8 k w = .ok w') (hk : k < n8)
    (hl : lo ≤ zb) (hh : zb + 8 * (2 * n8) ≤ hi) : Touches lo hi w.mem w'.mem := by
  unfold imdctPost at e
  simp only at e
  split at e
  · cases e
  · split at e
    · cases e
    · split at e
      · cases e
      · split at e
        · cases e
        · simp only [Except.ok.injEq] at e
          rw [← e]
          dsimp only
          exact touches_storeC2 _ _ _ (by omega) (by omega) (by omega) (by omega)

theorem named_imdctPost (tr zb n8 k : Nat) (w : Work) : Named (imdctPost tr zb n8 k w) := by
  unfold imdctPost
  simp only
  split
  · rename_i e h; exact (named_loadC _ _ _).forward h
  · split
    · rename_i e h; exact (named_loadC _ _ _).forward h
    · split
      · rename_i e h; exact (named_loadC _ _ _).forward h
      · split
        · rename_i e h; exact (named_loadC _ _ _).forward h
        · exact named_ok _

theorem imdctUnpack_touches {out n k lo hi : Nat} {w w' : Work} (e : imdctUnpack out n k w = .ok w') (hk : k < 2 ^ n)
    (hl : lo ≤ out) (hh : out + 4 * 2 ^ n ≤ hi) : Touches lo hi w.mem w'.mem := by
  unfold imdctUnpack at e
  split at e
  · cases e
  · simp only at e
    split at e
    · cases e
    · simp only [Except.ok.injEq] at e
      rw [← e]
      exact (touches_storeW _ _ (by omega) (by omega)).trans (touches_storeW _ _ (by omega) (by omega))

theorem named_imdctUnpack (out n k : Nat) (w : Work) : Named (imdctUnpack out n k w) := by
  unfold imdctUnpack
  split
  · rename_i e h; exact (named_loadW _ _).forward h
  · simp only
    split
    · rename_i e h; exact (named_loadW _ _).forward h
    · exact named_ok _

theorem imdctCore_touches {out inp tr tw n sc lo hi : Nat} {w w' : Work} (e : imdctCore out inp tr tw n sc w = .ok w')
    (hn : 3 ≤ n) (hl : lo ≤ out) (hh : out + 4 * 2 ^ n ≤ hi) : Touches lo hi w.mem w'.mem := by
  obtain ⟨k, rfl⟩ : ∃ k, n = k + 3 := ⟨n - 3, by omega⟩
  have p3 : 2 ^ (k + 3) = 8 * 2 ^ k := by rw [Nat.pow_add]; omega
  have p1 : 2 ^ (k + 1) = 2 * 2 ^ k := by rw [Nat.pow_add]; omega
  unfold imdctCore at e
  simp only [show k + 3 - 2 = k + 1 by omega, show k + 3 - 3 = k by omega] at e
  split at e
  · cases e
  · rename_i w1 h1
    split at e
    · cases e
    · rename_i w2 h2
      split at e
      · cases e
      · rename_i w3 h3
        have t1 := forFrom_touches (lo := lo) (hi := hi) _ (fun i a b _ _ h =>
          imdctPre_touches h (by omega) (by simp only [show k + 3 - 2 = k + 1 by omega]; omega)) h1
        have t2 := fftCore_touches (lo := lo) (hi := hi) h2 (by omega) (by omega)
        have t3 := forFrom_touches (lo := lo) (hi := hi) _ (fun i a b _ _ h =>
          imdctPost_touches h (by omega) (by omega) (by omega)) h3
        have t4 := forFrom_touches (lo := lo) (hi := hi) _ (fun i a b _ _ h =>
          imdctUnpack_touches h (by omega) (by omega) (by omega)) e
        exact ((t1.trans t2).trans t3).trans t4

theorem named_imdctCore (out inp tr tw n sc : Nat) (w : Work) : Named (imdctCore out inp tr tw n sc w) := by
  unfold imdctCore
  simp only
  split
  · rename_i e h; exact (forFrom_named (fun i a => named_imdctPre _ _ _ _ _ _) _ _ _).forward h
  · split
    · rename_i e h; exact (named_fftCore _ _ _ _ _).forward h
    · split
      · rename_i e h; exact (forFrom_named (fun i a => named_imdctPost _ _ _ _ _) _ _ _).forward h
      · exact forFrom_named (fun i a => named_imdctUnpack _ _ _ _) _ _ _

theorem named_imdctChecks (s : State) (out inp n : Nat) : Named (imdctChecks s out inp n) := by
  unfold imdctChecks
  split
  · rename_i e h; exact (named_region _ _ _ _).forward h
  · split
    · rename_i e h; exact (named_region _ _ _ _).forward h
    · split
      · rename_i e h; exact (named_region _ _ _ _).forward h
      · exact named_region _ _ _ _

theorem imdctChecks_ok {s : State} {out inp n : Nat} {u : Unit} (h : imdctChecks s out inp n = .ok u) :
    out + 4 * 2 ^ n ≤ lmemSize s := by
  unfold imdctChecks at h
  split at h
  · cases h
  · rename_i h1
    have := Nat.two_pow_pos n
    exact (region_bound h1 (by omega)).2

/-! ## Window (46_window) -/

theorem overlapElem_touches {fp inp wl i k lo hi : Nat} {w w' : Work} (e : overlapElem fp inp wl i k w = .ok w')
    (hl : lo ≤ fp + 4 * i) (hh : fp + 4 * i + 4 ≤ hi) : Touches lo hi w.mem w'.mem := by
  unfold overlapElem at e
  split at e
  · cases e
  · split at e
    · cases e
    · split at e
      · cases e
      · simp only [Except.ok.injEq] at e
        rw [← e]; exact touches_storeW _ _ hl hh

theorem tailElem_touches {fo io wr j k lo hi : Nat} {w w' : Work} (e : tailElem fo io wr j k w = .ok w')
    (hl : lo ≤ fo + 4 * j) (hh : fo + 4 * j + 4 ≤ hi) : Touches lo hi w.mem w'.mem := by
  unfold tailElem at e
  split at e
  · cases e
  · split at e
    · cases e
    · cases e; exact touches_storeW _ _ hl hh

theorem copyElem_touches {d src i lo hi : Nat} {w w' : Work} (e : copyElem d src i w = .ok w')
    (hl : lo ≤ d + 4 * i) (hh : d + 4 * i + 4 ≤ hi) : Touches lo hi w.mem w'.mem := by
  unfold copyElem at e
  split at e
  · cases e
  · cases e; exact touches_storeW _ _ hl hh

theorem zeroElem_touches {d i lo hi : Nat} {w w' : Work} (e : zeroElem d i w = .ok w')
    (hl : lo ≤ d + 4 * i) (hh : d + 4 * i + 4 ≤ hi) : Touches lo hi w.mem w'.mem := by
  cases e; exact touches_storeW _ _ hl hh

theorem named_overlapElem (fp inp wl i k : Nat) (w : Work) : Named (overlapElem fp inp wl i k w) := by
  unfold overlapElem
  split
  · rename_i e h; exact (named_loadW _ _).forward h
  · split
    · rename_i e h; exact (named_loadW _ _).forward h
    · split
      · rename_i e h; exact (named_loadW _ _).forward h
      · exact named_ok _

theorem named_tailElem (fo io wr j k : Nat) (w : Work) : Named (tailElem fo io wr j k w) := by
  unfold tailElem
  split
  · rename_i e h; exact (named_loadW _ _).forward h
  · split
    · rename_i e h; exact (named_loadW _ _).forward h
    · exact named_ok _

theorem named_copyElem (d src i : Nat) (w : Work) : Named (copyElem d src i w) := by
  unfold copyElem
  split
  · rename_i e h; exact (named_loadW _ _).forward h
  · exact named_ok _

/-- The block of 2^b words fits beside its margins in one of 2^cb words. -/
theorem margin_fits {b cb : Nat} (h : b < cb) : (2 ^ cb - 2 ^ b) / 2 + 2 ^ b ≤ 2 ^ cb := by
  have : 2 ^ b ≤ 2 ^ cb := Nat.pow_le_pow_right (by omega) (by omega)
  omega

theorem wolaLeft_touches {fp inp wl pb cb lo hi : Nat} {w w' : Work} (e : wolaLeft fp inp wl pb cb w = .ok w')
    (hl : lo ≤ fp) (hh : fp + 4 * 2 ^ cb ≤ hi) : Touches lo hi w.mem w'.mem := by
  unfold wolaLeft at e
  simp only at e
  split at e
  · exact forFrom_touches _ (fun i a b _ _ h => overlapElem_touches h (by omega) (by omega)) e
  · have := margin_fits (b := pb) (cb := cb) (by omega)
    split at e
    · cases e
    · rename_i w1 h1
      have t1 := forFrom_touches (lo := lo) (hi := hi) _ (fun i a b _ _ h => overlapElem_touches h (by omega) (by omega)) h1
      exact t1.trans (forFrom_touches _ (fun i a b _ _ h => copyElem_touches h (by omega) (by omega)) e)

theorem wolaRight_touches {fo io wr nb cb lo hi : Nat} {w w' : Work} (e : wolaRight fo io wr nb cb w = .ok w')
    (hl : lo ≤ fo) (hh : fo + 4 * 2 ^ cb ≤ hi) : Touches lo hi w.mem w'.mem := by
  unfold wolaRight at e
  simp only at e
  split at e
  · exact forFrom_touches _ (fun i a b _ _ h => tailElem_touches h (by omega) (by omega)) e
  · have := margin_fits (b := nb) (cb := cb) (by omega)
    have := Nat.two_pow_pos nb
    split at e
    · cases e
    · rename_i w1 h1
      split at e
      · cases e
      · rename_i w2 h2
        have t1 := forFrom_touches (lo := lo) (hi := hi) _ (fun i a b _ _ h => copyElem_touches h (by omega) (by omega)) h1
        have t2 := forFrom_touches (lo := lo) (hi := hi) _ (fun i a b _ _ h => tailElem_touches h (by omega) (by omega)) h2
        exact (t1.trans t2).trans (forFrom_touches _ (fun i a b _ _ h => zeroElem_touches h (by omega) (by omega)) e)

theorem named_wolaLeft (fp inp wl pb cb : Nat) (w : Work) : Named (wolaLeft fp inp wl pb cb w) := by
  unfold wolaLeft
  simp only
  split
  · exact forFrom_named (fun i a => named_overlapElem _ _ _ _ _ _) _ _ _
  · split
    · rename_i e h; exact (forFrom_named (fun i a => named_overlapElem _ _ _ _ _ _) _ _ _).forward h
    · exact forFrom_named (fun i a => named_copyElem _ _ _ _) _ _ _

theorem named_wolaRight (fo io wr nb cb : Nat) (w : Work) : Named (wolaRight fo io wr nb cb w) := by
  unfold wolaRight
  simp only
  split
  · exact forFrom_named (fun i a => named_tailElem _ _ _ _ _ _) _ _ _
  · split
    · rename_i e h; exact (forFrom_named (fun i a => named_copyElem _ _ _ _) _ _ _).forward h
    · split
      · rename_i e h; exact (forFrom_named (fun i a => named_tailElem _ _ _ _ _ _) _ _ _).forward h
      · exact forFrom_named (fun i a => named_ok _) _ _ _

theorem named_wolaChecks (s : State) (fp inp : Nat) : Named (wolaChecks s fp inp) := by
  unfold wolaChecks
  simp only
  split
  · exact named_raise _ (by decide)
  · split
    · rename_i e h; exact (named_region _ _ _ _).forward h
    · split
      · rename_i e h; exact (named_region _ _ _ _).forward h
      · split
        · exact named_raise _ (by decide)
        · split
          · exact named_raise _ (by decide)
          · split
            · exact named_raise _ (by decide)
            · split
              · rename_i e h; exact (named_memRead _ _ _ _).forward h
              · split
                · rename_i e h; exact (named_memRead _ _ _ _).forward h
                · split
                  · rename_i e h; exact (named_region _ _ _ _).forward h
                  · split
                    · rename_i e h; exact (named_region _ _ _ _).forward h
                    · exact named_ok _

theorem wolaChecks_ok {s : State} {fp inp : Nat} {r : Nat × Nat} (h : wolaChecks s fp inp = .ok r) :
    fp + 8 * 2 ^ s.sr.wcb.toNat ≤ lmemSize s := by
  unfold wolaChecks at h
  simp only at h
  split at h
  · cases h
  · split at h
    · cases h
    · rename_i h1
      have := Nat.two_pow_pos s.sr.wcb.toNat
      exact (region_bound h1 (by omega)).2

theorem fshiftElem_touches {base K L i lo hi : Nat} {m m' : Memory} (e : fshiftElem base K L i m = .ok m')
    (hl : lo ≤ base + 4 * i) (hh : base + 4 * i + 4 ≤ hi) : Touches lo hi m m' := by
  unfold fshiftElem at e
  split at e
  · split at e
    · cases e
    · cases e; exact touches_storeW _ _ hl hh
  · cases e; exact touches_storeW _ _ hl hh

theorem named_fshiftElem (base K L i : Nat) (m : Memory) : Named (fshiftElem base K L i m) := by
  unfold fshiftElem
  split
  · split
    · rename_i e h; exact (named_loadW _ _).forward h
    · exact named_ok _
  · exact named_ok _

theorem pcmElem_touches {dst src S i lo hi : Nat} {w w' : Work} (e : pcmElem dst src S i w = .ok w')
    (hl : lo ≤ dst + 2 * S * i) (hh : dst + 2 * S * i + 2 ≤ hi) : Touches lo hi w.mem w'.mem := by
  unfold pcmElem at e
  split at e
  · cases e
  · cases e; exact touches_writeLE 2 _ _ hl hh

theorem named_pcmElem (dst src S i : Nat) (w : Work) : Named (pcmElem dst src S i w) := by
  unfold pcmElem
  split
  · rename_i e h; exact (named_loadW _ _).forward h
  · exact named_ok _

theorem named_pcmChecks (s : State) (dst src cnt S : Nat) : Named (pcmChecks s dst src cnt S) := by
  unfold pcmChecks
  split
  · exact named_ok _
  · split
    · exact named_raise _ (by decide)
    · split
      · exact named_raise _ (by decide)
      · exact named_region _ _ _ _

theorem pcmChecks_ok {s : State} {dst src cnt S : Nat} {u : Unit} (h : pcmChecks s dst src cnt S = .ok u) (hc : cnt ≠ 0) :
    dst + 2 * (S * (cnt - 1) + 1) ≤ lmemSize s := by
  unfold pcmChecks at h
  rw [if_neg hc] at h
  split at h
  · cases h
  · split at h
    · cases h
    · omega

/-- The stride of sample i of PCMOUT stays below that of the last. -/
theorem pcm_stride {S i cnt : Nat} (h : i < cnt) : 2 * S * i + 2 ≤ 2 * (S * (cnt - 1) + 1) := by
  have : S * i ≤ S * (cnt - 1) := Nat.mul_le_mul_left _ (by omega)
  rw [Nat.mul_assoc]; omega

end Sys2Proof.Machine
end

