-- ==== Sys2Proof/Laws/Decode.lean ====
section
/-! SUPPORT. Laws/Decode.lean: the fields of a packed word, the fields as numbers, and the operand fields that name registers, pairs and special registers. -/

namespace Sys2Proof

/-! ## A field of an append is a field of one of its parts -/

/-- The low part of an append. -/
theorem extract_low {n m : Nat} (x : BitVec n) (y : BitVec m) : (x ++ y).extractLsb' 0 m = y := by
  apply BitVec.eq_of_getLsbD_eq
  intro i hi
  simp [BitVec.getLsbD_append, hi]

/-- A field above the low part of an append is the field of the high part. -/
theorem extract_high {n m : Nat} (x : BitVec n) (y : BitVec m) (start len : Nat) (h : m ≤ start) :
    (x ++ y).extractLsb' start len = x.extractLsb' (start - m) len := by
  apply BitVec.eq_of_getLsbD_eq
  intro i hi
  have h1 : ¬ start + i < m := by omega
  simp [BitVec.getLsbD_append, hi, h1, show start + i - m = start - m + i by omega]

/-- A field of exactly the high part. -/
theorem extract_all {n : Nat} (x : BitVec n) : x.extractLsb' 0 n = x := by
  apply BitVec.eq_of_getLsbD_eq
  intro i hi
  simp [hi]

/-! ## Fields of packed words (30_encoding R141 to R145) -/

section Fields
variable (op : BitVec 6) (a b c : BitVec 4) (imm : BitVec 18) (off : BitVec 26) (p : BitVec 10) (fn : BitVec 4)

@[simp] theorem fieldOp_packJ : fieldOp (packJ op off) = op := by
  rw [fieldOp, packJ, extract_high _ _ _ _ (by decide)]; exact extract_all op
@[simp] theorem fieldOff_packJ : fieldOff (packJ op off) = off := extract_low op off

@[simp] theorem fieldOp_packI : fieldOp (packI op a b imm) = op := by
  rw [fieldOp, packI, extract_high _ _ _ _ (by decide), extract_high _ _ _ _ (by decide), extract_high _ _ _ _ (by decide)]
  exact extract_all op
@[simp] theorem fieldA_packI : fieldA (packI op a b imm) = a := by
  rw [fieldA, packI, extract_high _ _ _ _ (by decide), extract_high _ _ _ _ (by decide)]; exact extract_low op a
@[simp] theorem fieldB_packI : fieldB (packI op a b imm) = b := by
  rw [fieldB, packI, extract_high _ _ _ _ (by decide)]; exact extract_low (op ++ a) b
@[simp] theorem fieldImm_packI : fieldImm (packI op a b imm) = imm := extract_low (op ++ a ++ b) imm

@[simp] theorem fieldOp_packR : fieldOp (packR op a b c p fn) = op := by
  rw [fieldOp, packR, extract_high _ _ _ _ (by decide), extract_high _ _ _ _ (by decide), extract_high _ _ _ _ (by decide),
    extract_high _ _ _ _ (by decide), extract_high _ _ _ _ (by decide)]
  exact extract_all op
@[simp] theorem fieldA_packR : fieldA (packR op a b c p fn) = a := by
  rw [fieldA, packR, extract_high _ _ _ _ (by decide), extract_high _ _ _ _ (by decide), extract_high _ _ _ _ (by decide),
    extract_high _ _ _ _ (by decide)]
  exact extract_low op a
@[simp] theorem fieldB_packR : fieldB (packR op a b c p fn) = b := by
  rw [fieldB, packR, extract_high _ _ _ _ (by decide), extract_high _ _ _ _ (by decide), extract_high _ _ _ _ (by decide)]
  exact extract_low (op ++ a) b
@[simp] theorem fieldC_packR : fieldC (packR op a b c p fn) = c := by
  rw [fieldC, packR, extract_high _ _ _ _ (by decide), extract_high _ _ _ _ (by decide)]; exact extract_low (op ++ a ++ b) c
@[simp] theorem fieldP_packR : fieldP (packR op a b c p fn) = p := by
  rw [fieldP, packR, extract_high _ _ _ _ (by decide)]; exact extract_low (op ++ a ++ b ++ c) p
@[simp] theorem fieldFn_packR : fieldFn (packR op a b c p fn) = fn := extract_low (op ++ a ++ b ++ c ++ p) fn

end Fields

/-- Field C of a format-I word is the top of its immediate. -/
theorem fieldC_packI (op : BitVec 6) (a b : BitVec 4) (imm : BitVec 18) :
    fieldC (packI op a b imm) = imm.extractLsb' 14 4 := by
  apply BitVec.eq_of_getLsbD_eq
  intro i hi
  have h1 : 14 + i < 18 := by omega
  simp only [fieldC, packI, BitVec.getLsbD_append, BitVec.getLsbD_extractLsb', if_pos h1]

/-! ## Immediates and parameters with their must-be-0 bits (30_encoding R146, R147) -/

/-- The part above the low one, taken whole. -/
theorem extract_top {n m : Nat} (x : BitVec n) (y : BitVec m) : (x ++ y).extractLsb' m n = x := by
  rw [extract_high x y m n (Nat.le_refl m), Nat.sub_self, extract_all]

@[simp] theorem imm6_low (x : BitVec 6) : (0#12 ++ x : BitVec 18).extractLsb' 0 6 = x := extract_low 0#12 x
@[simp] theorem imm6_high (x : BitVec 6) : (0#12 ++ x : BitVec 18).extractLsb' 6 12 = 0 := extract_top 0#12 x
@[simp] theorem imm5_low (x : BitVec 5) : (0#13 ++ x : BitVec 18).extractLsb' 0 5 = x := extract_low 0#13 x
@[simp] theorem imm5_high (x : BitVec 5) : (0#13 ++ x : BitVec 18).extractLsb' 5 13 = 0 := extract_top 0#13 x
@[simp] theorem imm16_low (x : BitVec 16) : (0#2 ++ x : BitVec 18).extractLsb' 0 16 = x := extract_low 0#2 x
@[simp] theorem imm16_high (x : BitVec 16) : (0#2 ++ x : BitVec 18).extractLsb' 16 2 = 0 := extract_top 0#2 x
@[simp] theorem pNb_pack (x : BitVec 5) : pNb (0#5 ++ x) = x := extract_low 0#5 x
@[simp] theorem pNb_above (x : BitVec 5) : (0#5 ++ x : BitVec 10).extractLsb' 5 5 = 0 := extract_top 0#5 x
@[simp] theorem pM_pack (x : BitVec 4) : pM (0#6 ++ x) = x := extract_low 0#6 x
@[simp] theorem pM_above (x : BitVec 4) : (0#6 ++ x : BitVec 10).extractLsb' 4 6 = 0 := extract_top 0#6 x
@[simp] theorem pCh_pack (x : BitVec 3) : pCh (0#7 ++ x) = x := extract_low 0#7 x
@[simp] theorem pCh_above (x : BitVec 3) : (0#7 ++ x : BitVec 10).extractLsb' 3 7 = 0 := extract_top 0#7 x
@[simp] theorem pM_pack_sc (sc : Bool) (x : BitVec 4) : pM (0#5 ++ BitVec.ofBool sc ++ x) = x :=
  extract_low (0#5 ++ BitVec.ofBool sc) x
@[simp] theorem pSc_pack (sc : Bool) (x : BitVec 4) : pSc (0#5 ++ BitVec.ofBool sc ++ x) = sc := by
  revert sc x; decide
@[simp] theorem pSc_above (sc : Bool) (x : BitVec 4) : (0#5 ++ BitVec.ofBool sc ++ x : BitVec 10).extractLsb' 5 5 = 0 := by
  revert sc x; decide

/-! ## A word is its fields -/

/-- Format J: a word is its OP and OFF26. -/
theorem packJ_fields (w : Word) : packJ (fieldOp w) (fieldOff w) = w := by
  apply BitVec.eq_of_getLsbD_eq
  intro i hi
  simp only [packJ, fieldOp, fieldOff, BitVec.getLsbD_append, BitVec.getLsbD_extractLsb']
  split
  · simp [*]
  · simp [show i - 26 < 6 by omega, show 26 + (i - 26) = i by omega]

/-- Format I: a word is its OP, A, B and IMM18. -/
theorem packI_fields (w : Word) : packI (fieldOp w) (fieldA w) (fieldB w) (fieldImm w) = w := by
  apply BitVec.eq_of_getLsbD_eq
  intro i hi
  simp only [packI, fieldOp, fieldA, fieldB, fieldImm, BitVec.getLsbD_append, BitVec.getLsbD_extractLsb']
  split
  · simp [*]
  · split
    · simp [*, show 18 + (i - 18) = i by omega]
    · split
      · simp [*, show 22 + (i - 18 - 4) = i by omega]
      · simp [show i - 18 - 4 - 4 < 6 by omega, show 26 + (i - 18 - 4 - 4) = i by omega]

/-- Format R: a word is its OP, A, B, C, P and FN. -/
theorem packR_fields (w : Word) : packR (fieldOp w) (fieldA w) (fieldB w) (fieldC w) (fieldP w) (fieldFn w) = w := by
  apply BitVec.eq_of_getLsbD_eq
  intro i hi
  simp only [packR, fieldOp, fieldA, fieldB, fieldC, fieldP, fieldFn, BitVec.getLsbD_append, BitVec.getLsbD_extractLsb']
  split
  · simp [*]
  · split
    · simp [*, show 4 + (i - 4) = i by omega]
    · split
      · simp [*, show 14 + (i - 4 - 10) = i by omega]
      · split
        · simp [*, show 18 + (i - 4 - 10 - 4) = i by omega]
        · split
          · simp [*, show 22 + (i - 4 - 10 - 4 - 4) = i by omega]
          · simp [show i - 4 - 10 - 4 - 4 - 4 < 6 by omega, show 26 + (i - 4 - 10 - 4 - 4 - 4) = i by omega]

/-! ## Operand fields -/

@[simp] theorem regOf_fieldOfReg (r : Reg) : regOf (fieldOfReg r) = r := rfl
@[simp] theorem fieldOfReg_regOf (f : BitVec 4) : fieldOfReg (regOf f) = f := rfl
@[simp] theorem pairOf_fieldOfPair (p : Pair) : pairOf (fieldOfPair p) = some p := by revert p; decide
@[simp] theorem sregOf_sregNumber (r : SReg) : sregOf (sregNumber r) = some r := by cases r <;> rfl

/-- A field names a pair exactly when it is that pair's even number (10_state R43). -/
theorem pairOf_eq_some {f : BitVec 4} {p : Pair} (h : pairOf f = some p) : fieldOfPair p = f := by
  revert f p; decide

/-- A number names a special register exactly when it is that register's number (10_state R49). -/
theorem sregOf_eq_some {n : BitVec 6} {r : SReg} (h : sregOf n = some r) : sregNumber r = n := by
  revert h; revert n r; decide

/-! ## What an accepted instruction says -/

theorem accept_ok {zero : Bool} {i j : Instr} (h : accept zero i = .ok j) : zero = true ∧ i.wellFormed = true ∧ i = j := by
  unfold accept operandsLegal at h
  split at h
  · split at h
    · cases h; exact ⟨‹_›, ‹_›, rfl⟩
    · cases h
  · cases h

theorem acceptSome_ok {zero : Bool} {o : Option Instr} {j : Instr} (h : acceptSome zero o = .ok j) :
    zero = true ∧ j.wellFormed = true ∧ o = some j := by
  unfold acceptSome at h
  split at h
  · obtain ⟨h1, h2, rfl⟩ := accept_ok h; exact ⟨h1, h2, rfl⟩
  · split at h <;> cases h

/-! ## The fields of a word as numbers -/

theorem opNum_eq (w : Word) : Machine.opNum w = (fieldOp w).toNat := by
  have := w.isLt
  simp only [Machine.opNum, fieldOp, BitVec.extractLsb'_toNat, Nat.shiftRight_eq_div_pow]; omega

theorem aNum_eq (w : Word) : Machine.aNum w = (fieldA w).toNat := by
  simp only [Machine.aNum, fieldA, BitVec.extractLsb'_toNat, Nat.shiftRight_eq_div_pow]

theorem bNum_eq (w : Word) : Machine.bNum w = (fieldB w).toNat := by
  simp only [Machine.bNum, fieldB, BitVec.extractLsb'_toNat, Nat.shiftRight_eq_div_pow]

theorem cNum_eq (w : Word) : Machine.cNum w = (fieldC w).toNat := by
  simp only [Machine.cNum, fieldC, BitVec.extractLsb'_toNat, Nat.shiftRight_eq_div_pow]

theorem pNum_eq (w : Word) : Machine.pNum w = (fieldP w).toNat := by
  simp only [Machine.pNum, fieldP, BitVec.extractLsb'_toNat, Nat.shiftRight_eq_div_pow]

theorem fnNum_eq (w : Word) : Machine.fnNum w = (fieldFn w).toNat := by
  simp only [Machine.fnNum, fieldFn, BitVec.extractLsb'_toNat, Nat.shiftRight_zero]

theorem immNum_eq (w : Word) : Machine.immNum w = (fieldImm w).toNat := by
  simp only [Machine.immNum, fieldImm, BitVec.extractLsb'_toNat, Nat.shiftRight_zero]

/-- The first four bytes decide, and the rest is returned (30_encoding R140). -/
theorem decode_cons (b0 b1 b2 b3 : Byte) (rest : List Byte) :
    decode (b0 :: b1 :: b2 :: b3 :: rest) = (decodeWord (wordOfBytes b0 b1 b2 b3)).map (·, rest) := by
  simp only [decode]
  generalize decodeWord (wordOfBytes b0 b1 b2 b3) = r
  cases r <;> rfl

/-- A word is its four bytes, little-endian (20_memory R106). -/
theorem wordOfBytes_byteOfWord (w : Word) :
    wordOfBytes (byteOfWord w 0) (byteOfWord w 1) (byteOfWord w 2) (byteOfWord w 3) = w := by
  apply BitVec.eq_of_getLsbD_eq
  intro i hi
  simp only [wordOfBytes, byteOfWord, BitVec.getLsbD_append, BitVec.getLsbD_extractLsb']
  split
  · simp [*]
  · split
    · simp [*, show 8 + (i - 8) = i by omega]
    · split
      · simp [*, show 16 + (i - 8 - 8) = i by omega]
      · simp [show i - 8 - 8 - 8 < 8 by omega, show 24 + (i - 8 - 8 - 8) = i by omega]

end Sys2Proof
end

