-- ==== Sys2Proof/Laws/Dispatch.lean ====
section
/-! SUPPORT. Laws/Dispatch.lean: what `exec` calls, one lemma per instruction, so that no proof unfolds the dispatch. -/

namespace Sys2Proof.Machine

variable (s : State)

@[simp] theorem exec_halt : exec .halt s = execHalt s := rfl
@[simp] theorem exec_nop : exec .nop s = execNop s := rfl
@[simp] theorem exec_j (off : BitVec 26) : exec (.j off) s = execJ off s := rfl
@[simp] theorem exec_jal (rd : Reg) (off : BitVec 18) : exec (.jal rd off) s = execJal rd off s := rfl
@[simp] theorem exec_jr (rs : Reg) : exec (.jr rs) s = execJr rs s := rfl
@[simp] theorem exec_beq (ra : Reg) (rb : Reg) (off : BitVec 18) : exec (.beq ra rb off) s = execBeq ra rb off s := rfl
@[simp] theorem exec_bne (ra : Reg) (rb : Reg) (off : BitVec 18) : exec (.bne ra rb off) s = execBne ra rb off s := rfl
@[simp] theorem exec_blt (ra : Reg) (rb : Reg) (off : BitVec 18) : exec (.blt ra rb off) s = execBlt ra rb off s := rfl
@[simp] theorem exec_bge (ra : Reg) (rb : Reg) (off : BitVec 18) : exec (.bge ra rb off) s = execBge ra rb off s := rfl
@[simp] theorem exec_bltu (ra : Reg) (rb : Reg) (off : BitVec 18) : exec (.bltu ra rb off) s = execBltu ra rb off s := rfl
@[simp] theorem exec_bgeu (ra : Reg) (rb : Reg) (off : BitVec 18) : exec (.bgeu ra rb off) s = execBgeu ra rb off s := rfl
@[simp] theorem exec_mfs (rd : Reg) (sr : SReg) : exec (.mfs rd sr) s = execMfs rd sr s := rfl
@[simp] theorem exec_mts (sr : SReg) (rs : Reg) : exec (.mts sr rs) s = execMts sr rs s := rfl
@[simp] theorem exec_add (rd : Reg) (rs : Reg) (rt : Reg) : exec (.add rd rs rt) s = execAdd rd rs rt s := rfl
@[simp] theorem exec_sub (rd : Reg) (rs : Reg) (rt : Reg) : exec (.sub rd rs rt) s = execSub rd rs rt s := rfl
@[simp] theorem exec_and (rd : Reg) (rs : Reg) (rt : Reg) : exec (.and rd rs rt) s = execAnd rd rs rt s := rfl
@[simp] theorem exec_or (rd : Reg) (rs : Reg) (rt : Reg) : exec (.or rd rs rt) s = execOr rd rs rt s := rfl
@[simp] theorem exec_xor (rd : Reg) (rs : Reg) (rt : Reg) : exec (.xor rd rs rt) s = execXor rd rs rt s := rfl
@[simp] theorem exec_sll (rd : Reg) (rs : Reg) (rt : Reg) : exec (.sll rd rs rt) s = execSll rd rs rt s := rfl
@[simp] theorem exec_srl (rd : Reg) (rs : Reg) (rt : Reg) : exec (.srl rd rs rt) s = execSrl rd rs rt s := rfl
@[simp] theorem exec_sra (rd : Reg) (rs : Reg) (rt : Reg) : exec (.sra rd rs rt) s = execSra rd rs rt s := rfl
@[simp] theorem exec_slt (rd : Reg) (rs : Reg) (rt : Reg) : exec (.slt rd rs rt) s = execSlt rd rs rt s := rfl
@[simp] theorem exec_sltu (rd : Reg) (rs : Reg) (rt : Reg) : exec (.sltu rd rs rt) s = execSltu rd rs rt s := rfl
@[simp] theorem exec_addi (rd : Reg) (rs : Reg) (imm : BitVec 18) : exec (.addi rd rs imm) s = execAddi rd rs imm s := rfl
@[simp] theorem exec_andi (rd : Reg) (rs : Reg) (imm : BitVec 18) : exec (.andi rd rs imm) s = execAndi rd rs imm s := rfl
@[simp] theorem exec_ori (rd : Reg) (rs : Reg) (imm : BitVec 18) : exec (.ori rd rs imm) s = execOri rd rs imm s := rfl
@[simp] theorem exec_xori (rd : Reg) (rs : Reg) (imm : BitVec 18) : exec (.xori rd rs imm) s = execXori rd rs imm s := rfl
@[simp] theorem exec_lui (rd : Reg) (imm : BitVec 16) : exec (.lui rd imm) s = execLui rd imm s := rfl
@[simp] theorem exec_slli (rd : Reg) (rs : Reg) (shamt : BitVec 5) : exec (.slli rd rs shamt) s = execSlli rd rs shamt s := rfl
@[simp] theorem exec_srli (rd : Reg) (rs : Reg) (shamt : BitVec 5) : exec (.srli rd rs shamt) s = execSrli rd rs shamt s := rfl
@[simp] theorem exec_srai (rd : Reg) (rs : Reg) (shamt : BitVec 5) : exec (.srai rd rs shamt) s = execSrai rd rs shamt s := rfl
@[simp] theorem exec_lb (rd : Reg) (rbase : Reg) (imm : BitVec 18) : exec (.lb rd rbase imm) s = execLb rd rbase imm s := rfl
@[simp] theorem exec_lbu (rd : Reg) (rbase : Reg) (imm : BitVec 18) : exec (.lbu rd rbase imm) s = execLbu rd rbase imm s := rfl
@[simp] theorem exec_lh (rd : Reg) (rbase : Reg) (imm : BitVec 18) : exec (.lh rd rbase imm) s = execLh rd rbase imm s := rfl
@[simp] theorem exec_lhu (rd : Reg) (rbase : Reg) (imm : BitVec 18) : exec (.lhu rd rbase imm) s = execLhu rd rbase imm s := rfl
@[simp] theorem exec_lw (rd : Reg) (rbase : Reg) (imm : BitVec 18) : exec (.lw rd rbase imm) s = execLw rd rbase imm s := rfl
@[simp] theorem exec_sb (rv : Reg) (rbase : Reg) (imm : BitVec 18) : exec (.sb rv rbase imm) s = execSb rv rbase imm s := rfl
@[simp] theorem exec_sh (rv : Reg) (rbase : Reg) (imm : BitVec 18) : exec (.sh rv rbase imm) s = execSh rv rbase imm s := rfl
@[simp] theorem exec_sw (rv : Reg) (rbase : Reg) (imm : BitVec 18) : exec (.sw rv rbase imm) s = execSw rv rbase imm s := rfl
@[simp] theorem exec_fmul (rd : Reg) (rs : Reg) (rt : Reg) : exec (.fmul rd rs rt) s = execFmul rd rs rt s := rfl
@[simp] theorem exec_fmulr (rd : Reg) (rs : Reg) (rt : Reg) : exec (.fmulr rd rs rt) s = execFmulr rd rs rt s := rfl
@[simp] theorem exec_fdiv (rd : Reg) (rs : Reg) (rt : Reg) : exec (.fdiv rd rs rt) s = execFdiv rd rs rt s := rfl
@[simp] theorem exec_fsqrt (rd : Reg) (rs : Reg) : exec (.fsqrt rd rs) s = execFsqrt rd rs s := rfl
@[simp] theorem exec_fadd (rd : Reg) (rs : Reg) (rt : Reg) : exec (.fadd rd rs rt) s = execFadd rd rs rt s := rfl
@[simp] theorem exec_fsub (rd : Reg) (rs : Reg) (rt : Reg) : exec (.fsub rd rs rt) s = execFsub rd rs rt s := rfl
@[simp] theorem exec_wmul (pd : Pair) (ps : Pair) (rt : Reg) : exec (.wmul pd ps rt) s = execWmul pd ps rt s := rfl
@[simp] theorem exec_wmulw (pd : Pair) (ps : Pair) (pt : Pair) : exec (.wmulw pd ps pt) s = execWmulw pd ps pt s := rfl
@[simp] theorem exec_wdiv (pd : Pair) (ps : Pair) (pt : Pair) : exec (.wdiv pd ps pt) s = execWdiv pd ps pt s := rfl
@[simp] theorem exec_wext (pd : Pair) (rs : Reg) : exec (.wext pd rs) s = execWext pd rs s := rfl
@[simp] theorem exec_wnrw (rd : Reg) (ps : Pair) : exec (.wnrw rd ps) s = execWnrw rd ps s := rfl
@[simp] theorem exec_sincos (rsin : Reg) (rphase : Reg) (rcos : Reg) : exec (.sincos rsin rphase rcos) s = execSincos rsin rphase rcos s := rfl
@[simp] theorem exec_bsinit (rbase : Reg) (rlen : Reg) : exec (.bsinit rbase rlen) s = execBsinit rbase rlen s := rfl
@[simp] theorem exec_readr (rd : Reg) (rn : Reg) : exec (.readr rd rn) s = execReadr rd rn s := rfl
@[simp] theorem exec_skipr (rn : Reg) : exec (.skipr rn) s = execSkipr rn s := rfl
@[simp] theorem exec_align : exec .align s = execAlign s := rfl
@[simp] theorem exec_peekr (rd : Reg) (rn : Reg) : exec (.peekr rd rn) s = execPeekr rd rn s := rfl
@[simp] theorem exec_peek (rd : Reg) (n : BitVec 6) : exec (.peek rd n) s = execPeek rd n s := rfl
@[simp] theorem exec_read (rd : Reg) (n : BitVec 6) : exec (.read rd n) s = execRead rd n s := rfl
@[simp] theorem exec_skip (n : BitVec 6) : exec (.skip n) s = execSkip n s := rfl
@[simp] theorem exec_vlcdec (rd : Reg) (rtab : Reg) (nb : BitVec 5) : exec (.vlcdec rd rtab nb) s = execVlcdec rd rtab nb s := rfl
@[simp] theorem exec_gain (rd : Reg) : exec (.gain rd) s = execGain rd s := rfl
@[simp] theorem exec_rldec (rd : Reg) (rcoef : Reg) (rtab : Reg) (nb : BitVec 5) : exec (.rldec rd rcoef rtab nb) s = execRldec rd rcoef rtab nb s := rfl
@[simp] theorem exec_deq (rout : Reg) (rq : Reg) (re : Reg) : exec (.deq rout rq re) s = execDeq rout rq re s := rfl
@[simp] theorem exec_deqn (rout : Reg) (rnoise : Reg) (re : Reg) : exec (.deqn rout rnoise re) s = execDeqn rout rnoise re s := rfl
@[simp] theorem exec_ngen (rdst : Reg) (rcnt : Reg) : exec (.ngen rdst rcnt) s = execNgen rdst rcnt s := rfl
@[simp] theorem exec_brev (rbuf : Reg) (m : BitVec 4) : exec (.brev rbuf m) s = execBrev rbuf m s := rfl
@[simp] theorem exec_fft (rbuf : Reg) (rtw : Reg) (m : BitVec 4) (sc : Bool) : exec (.fft rbuf rtw m sc) s = execFft rbuf rtw m sc s := rfl
@[simp] theorem exec_imdct (rout : Reg) (rin : Reg) (n : BitVec 4) (sc : Bool) : exec (.imdct rout rin n sc) s = execImdct rout rin n sc s := rfl
@[simp] theorem exec_wola (rfp : Reg) (rin : Reg) : exec (.wola rfp rin) s = execWola rfp rin s := rfl
@[simp] theorem exec_fshift (rbuf : Reg) (rk : Reg) (rl : Reg) : exec (.fshift rbuf rk rl) s = execFshift rbuf rk rl s := rfl
@[simp] theorem exec_pcmout (rdst : Reg) (rsrc : Reg) (rcnt : Reg) (chm1 : BitVec 3) : exec (.pcmout rdst rsrc rcnt chm1) s = execPcmout rdst rsrc rcnt chm1 s := rfl

end Sys2Proof.Machine
end

