-- ==== Sys2Proof/Laws/Host.lean ====
section
/-! SUPPORT. Laws/Host.lean: what each window offset reaches (10_state R69 to R78), and what the bytes of a host access are. -/

namespace Sys2Proof.Machine

/-! ## Window offsets -/

theorem hostBytes_pos (wd : HostWidth) : 0 < hostBytes wd := by cases wd <;> decide

theorem hostLoc_gpr (size : Nat) (r : Reg) : hostLoc size (0x100 + 4 * r.val) .word = .gpr r := by
  have := r.isLt
  unfold hostLoc regLoc
  rw [if_pos (by omega), if_pos ⟨rfl, by omega⟩]
  iterate 7 rw [if_neg (by omega)]
  rw [if_pos (by omega)]
  exact congrArg HostLoc.gpr (Fin.ext (by simp))

theorem hostLoc_sreg (size : Nat) (r : SReg) : hostLoc size (0x200 + 4 * (sregNumber r).toNat) .word = .sreg r := by
  cases r <;> simp [hostLoc, regLoc, sregNumber, sregOf]

/-- An aligned access inside LMEM. -/
theorem hostLoc_lmem {size a : Nat} {wd : HostWidth} (h : a % hostBytes wd = 0) (h' : a + hostBytes wd ≤ size) :
    hostLoc size (0x100000 + a) wd = .lmem a := by
  have := hostBytes_pos wd
  unfold hostLoc
  rw [if_neg (by omega), if_neg (by omega)]
  simp only [Nat.add_sub_cancel_left]
  rw [if_neg (by omega), if_neg (by omega)]

/-- An access that begins in LMEM and is misaligned or runs past its end. -/
theorem hostLoc_lmemBad {size a : Nat} {wd : HostWidth} (ha : a < size) (h : a % hostBytes wd ≠ 0 ∨ size < a + hostBytes wd) :
    hostLoc size (0x100000 + a) wd = .lmemBad a := by
  unfold hostLoc
  rw [if_neg (by omega), if_neg (by omega)]
  simp only [Nat.add_sub_cancel_left]
  rw [if_neg (by omega), if_pos h]

/-- An offset past the end of LMEM. -/
theorem hostLoc_past {size a : Nat} (wd : HostWidth) (h : size ≤ a) : hostLoc size (0x100000 + a) wd = .nothing := by
  unfold hostLoc
  rw [if_neg (by omega), if_neg (by omega)]
  simp only [Nat.add_sub_cancel_left]
  rw [if_pos h]

/-- All an access of the LMEM window can do to the state when it moves no byte (20_memory R113, R115). -/
theorem badWindowAccess_cases (s : State) :
    (s.ctl.busy = false ∧ badWindowAccess s = s) ∨ (s.ctl.busy = true ∧ badWindowAccess s = setHerr s) := by
  unfold badWindowAccess
  cases s.ctl.busy
  · exact .inl ⟨rfl, rfl⟩
  · exact .inr ⟨rfl, rfl⟩

/-! ## The bytes of an access (20_memory R106, R113) -/

/-- What a little-endian read answers of bytes that LMEM holds. -/
theorem readLE_of_holdsBytes {m : Memory} {n a v : Nat} (hv : v < 256 ^ n) (h : HoldsBytes m a n v) : readLE m a n = .ok v := by
  induction n generalizing a v with
  | zero =>
    obtain rfl : v = 0 := by simpa using hv
    rfl
  | succ n ih =>
    obtain ⟨b, hb, hbv⟩ := h 0 (by omega)
    have hr := ih (a := a + 1) (v := v / 256) (by rw [Nat.pow_succ] at hv; omega) (fun k hk => by
      obtain ⟨b, hb, hbv⟩ := h (k + 1) (by omega)
      refine ⟨b, by rwa [show a + 1 + k = a + (k + 1) by omega], ?_⟩
      rw [hbv, Nat.pow_succ', Nat.div_div_eq_div_mul])
    simp only [Nat.add_zero, Nat.pow_zero, Nat.div_one] at hb hbv
    simp only [readLE, readByte, hb, hr]
    rw [hbv, Nat.mod_add_div]

/-- A little-endian write leaves the bytes of its value. -/
theorem holdsBytes_writeLE (m : Memory) (a n v : Nat) : HoldsBytes (writeLE m a n v) a n v := by
  intro k hk
  refine ⟨BitVec.ofNat 8 (v / 256 ^ k), ?_, by simp⟩
  rw [memGet_writeLE, if_pos (by omega), Nat.add_sub_cancel_left]

end Sys2Proof.Machine
end

