-- ==== Sys2Proof/Tests/Slice0.lean ====
section
/-! SUPPORT. Tests/Slice0.lean: the model's own checks: ill-formed instructions refused, one word per instruction decoded, small one-step
tests from the tables of spec/95_test_vectors.md, and for each statement with hypotheses a state that meets them. -/

open Sys2Proof Sys2Proof.Machine

namespace Sys2Proof.Tests

/-! ## WellFormed: one ill-formed term for each check, and the boundary values it accepts (30_encoding R151) -/

theorem test_wf_counts : Instr.wellFormed (.peek 1 33) = false ∧ Instr.wellFormed (.read 1 40) = false ∧
    Instr.wellFormed (.skip 63) = false ∧ Instr.wellFormed (.skip 32) = true := by decide

theorem test_wf_widths : Instr.wellFormed (.vlcdec 1 2 0) = false ∧ Instr.wellFormed (.vlcdec 1 2 17) = false ∧
    Instr.wellFormed (.rldec 1 2 3 0) = false ∧ Instr.wellFormed (.rldec 1 2 3 31) = false ∧
    Instr.wellFormed (.vlcdec 1 2 1) = true ∧ Instr.wellFormed (.rldec 1 2 3 16) = true := by decide

theorem test_wf_mts : Instr.wellFormed (.mts .bsbase 1) = false ∧ Instr.wellFormed (.mts .bslen 1) = false ∧
    Instr.wellFormed (.mts .bspos 1) = true := by decide

theorem test_wf_sincos : Instr.wellFormed (.sincos 1 2 1) = false ∧ Instr.wellFormed (.sincos 1 2 3) = true := by decide

theorem test_wf_transform_sizes : Instr.wellFormed (.brev 1 0) = false ∧ Instr.wellFormed (.fft 1 2 0 true) = false ∧
    Instr.wellFormed (.imdct 1 2 2 false) = false ∧ Instr.wellFormed (.imdct 1 2 3 false) = true := by decide

/-- 30_encoding R151 at the decoder: each condition, in a word. -/
theorem test_illegal_operands :
    decodeWord 0xC4400021#32 = .error .badOperand ∧ decodeWord 0xC8400028#32 = .error .badOperand ∧
    decodeWord 0xE0480000#32 = .error .badOperand ∧ decodeWord 0xE0480110#32 = .error .badOperand ∧
    decodeWord 0x30080000#32 = .error .badOperand ∧ decodeWord 0x30080001#32 = .error .badOperand ∧
    decodeWord 0x2C400017#32 = .error .badOperand ∧ decodeWord 0xA048400B#32 = .error .badOperand ∧
    decodeWord 0xA15A0006#32 = .error .badOperand ∧ decodeWord 0xE0400006#32 = .error .badOperand ∧
    decodeWord 0xE0480028#32 = .error .badOperand := by decide

/-- The ILLEGAL rows of 95_test_vectors section 60. -/
theorem test_illegal_words :
    decodeWord 0x34000000#32 = .error .reservedOp ∧ decodeWord 0x00000001#32 = .error .nonzeroField ∧
    decodeWord 0xA000000C#32 = .error .reservedFn ∧ decodeWord 0xE000000C#32 = .error .reservedFn ∧
    decodeWord 0xC0000005#32 = .error .reservedFn ∧ decodeWord 0x0FC40001#32 = .error .nonzeroField := by decide

/-! ## Decoding: the fields of each word written out as 30_encoding R141 to R147 place them -/

theorem test_decode_halt : decodeWord (0x00#6 ++ 0#26) = .ok (.halt) := by decide

theorem test_decode_nop : decodeWord (0x01#6 ++ 0#26) = .ok (.nop) := by decide

theorem test_decode_j : decodeWord (0x02#6 ++ 0x3FFFFFF#26) = .ok (.j 0x3FFFFFF) := by decide

theorem test_decode_jal : decodeWord (0x03#6 ++ 15#4 ++ 0#4 ++ 8#18) = .ok (.jal 15 8) := by decide

theorem test_decode_jr : decodeWord (0x04#6 ++ 0#4 ++ 3#4 ++ 0#4 ++ 0#10 ++ 0x0#4) = .ok (.jr 3) := by decide

theorem test_decode_beq : decodeWord (0x05#6 ++ 1#4 ++ 2#4 ++ 0x3FFFD#18) = .ok (.beq 1 2 0x3FFFD) := by decide

theorem test_decode_bne : decodeWord (0x06#6 ++ 1#4 ++ 2#4 ++ 0x3FFFD#18) = .ok (.bne 1 2 0x3FFFD) := by decide

theorem test_decode_blt : decodeWord (0x07#6 ++ 1#4 ++ 2#4 ++ 0x3FFFD#18) = .ok (.blt 1 2 0x3FFFD) := by decide

theorem test_decode_bge : decodeWord (0x08#6 ++ 1#4 ++ 2#4 ++ 0x3FFFD#18) = .ok (.bge 1 2 0x3FFFD) := by decide

theorem test_decode_bltu : decodeWord (0x09#6 ++ 1#4 ++ 2#4 ++ 0x3FFFD#18) = .ok (.bltu 1 2 0x3FFFD) := by decide

theorem test_decode_bgeu : decodeWord (0x0A#6 ++ 1#4 ++ 2#4 ++ 0x3FFFD#18) = .ok (.bgeu 1 2 0x3FFFD) := by decide

theorem test_decode_mfs : decodeWord (0x0B#6 ++ 1#4 ++ 0#4 ++ 0#12 ++ 22#6) = .ok (.mfs 1 .cstages) := by decide

theorem test_decode_mts : decodeWord (0x0C#6 ++ 0#4 ++ 5#4 ++ 0#12 ++ 4#6) = .ok (.mts .ncoef 5) := by decide

theorem test_decode_add : decodeWord (0x10#6 ++ 1#4 ++ 2#4 ++ 3#4 ++ 0#10 ++ 0x0#4) = .ok (.add 1 2 3) := by decide

theorem test_decode_sub : decodeWord (0x10#6 ++ 1#4 ++ 2#4 ++ 3#4 ++ 0#10 ++ 0x1#4) = .ok (.sub 1 2 3) := by decide

theorem test_decode_and : decodeWord (0x10#6 ++ 1#4 ++ 2#4 ++ 3#4 ++ 0#10 ++ 0x2#4) = .ok (.and 1 2 3) := by decide

theorem test_decode_or : decodeWord (0x10#6 ++ 1#4 ++ 2#4 ++ 3#4 ++ 0#10 ++ 0x3#4) = .ok (.or 1 2 3) := by decide

theorem test_decode_xor : decodeWord (0x10#6 ++ 1#4 ++ 2#4 ++ 3#4 ++ 0#10 ++ 0x4#4) = .ok (.xor 1 2 3) := by decide

theorem test_decode_sll : decodeWord (0x10#6 ++ 1#4 ++ 2#4 ++ 3#4 ++ 0#10 ++ 0x5#4) = .ok (.sll 1 2 3) := by decide

theorem test_decode_srl : decodeWord (0x10#6 ++ 1#4 ++ 2#4 ++ 3#4 ++ 0#10 ++ 0x6#4) = .ok (.srl 1 2 3) := by decide

theorem test_decode_sra : decodeWord (0x10#6 ++ 1#4 ++ 2#4 ++ 3#4 ++ 0#10 ++ 0x7#4) = .ok (.sra 1 2 3) := by decide

theorem test_decode_slt : decodeWord (0x10#6 ++ 1#4 ++ 2#4 ++ 3#4 ++ 0#10 ++ 0x8#4) = .ok (.slt 1 2 3) := by decide

theorem test_decode_sltu : decodeWord (0x10#6 ++ 1#4 ++ 2#4 ++ 3#4 ++ 0#10 ++ 0x9#4) = .ok (.sltu 1 2 3) := by decide

theorem test_decode_addi : decodeWord (0x11#6 ++ 1#4 ++ 2#4 ++ 0x3FFFE#18) = .ok (.addi 1 2 0x3FFFE) := by decide

theorem test_decode_andi : decodeWord (0x12#6 ++ 1#4 ++ 2#4 ++ 0x3FFFE#18) = .ok (.andi 1 2 0x3FFFE) := by decide

theorem test_decode_ori : decodeWord (0x13#6 ++ 1#4 ++ 2#4 ++ 0x3FFFE#18) = .ok (.ori 1 2 0x3FFFE) := by decide

theorem test_decode_xori : decodeWord (0x14#6 ++ 1#4 ++ 2#4 ++ 0x3FFFE#18) = .ok (.xori 1 2 0x3FFFE) := by decide

theorem test_decode_lui : decodeWord (0x15#6 ++ 1#4 ++ 0#4 ++ 0#2 ++ 0xBEEF#16) = .ok (.lui 1 0xBEEF) := by decide

theorem test_decode_slli : decodeWord (0x16#6 ++ 1#4 ++ 2#4 ++ 0#13 ++ 31#5) = .ok (.slli 1 2 31) := by decide

theorem test_decode_srli : decodeWord (0x17#6 ++ 1#4 ++ 2#4 ++ 0#13 ++ 31#5) = .ok (.srli 1 2 31) := by decide

theorem test_decode_srai : decodeWord (0x18#6 ++ 1#4 ++ 2#4 ++ 0#13 ++ 31#5) = .ok (.srai 1 2 31) := by decide

theorem test_decode_lb : decodeWord (0x20#6 ++ 1#4 ++ 2#4 ++ 0x3FFFC#18) = .ok (.lb 1 2 0x3FFFC) := by decide

theorem test_decode_lbu : decodeWord (0x21#6 ++ 1#4 ++ 2#4 ++ 0x3FFFC#18) = .ok (.lbu 1 2 0x3FFFC) := by decide

theorem test_decode_lh : decodeWord (0x22#6 ++ 1#4 ++ 2#4 ++ 0x3FFFC#18) = .ok (.lh 1 2 0x3FFFC) := by decide

theorem test_decode_lhu : decodeWord (0x23#6 ++ 1#4 ++ 2#4 ++ 0x3FFFC#18) = .ok (.lhu 1 2 0x3FFFC) := by decide

theorem test_decode_lw : decodeWord (0x24#6 ++ 1#4 ++ 2#4 ++ 0x3FFFC#18) = .ok (.lw 1 2 0x3FFFC) := by decide

theorem test_decode_sb : decodeWord (0x25#6 ++ 1#4 ++ 2#4 ++ 0x3FFFC#18) = .ok (.sb 1 2 0x3FFFC) := by decide

theorem test_decode_sh : decodeWord (0x26#6 ++ 1#4 ++ 2#4 ++ 0x3FFFC#18) = .ok (.sh 1 2 0x3FFFC) := by decide

theorem test_decode_sw : decodeWord (0x27#6 ++ 1#4 ++ 2#4 ++ 0x3FFFC#18) = .ok (.sw 1 2 0x3FFFC) := by decide

theorem test_decode_fmul : decodeWord (0x28#6 ++ 1#4 ++ 2#4 ++ 3#4 ++ 0#10 ++ 0x0#4) = .ok (.fmul 1 2 3) := by decide

theorem test_decode_fmulr : decodeWord (0x28#6 ++ 1#4 ++ 2#4 ++ 3#4 ++ 0#10 ++ 0x1#4) = .ok (.fmulr 1 2 3) := by decide

theorem test_decode_fdiv : decodeWord (0x28#6 ++ 1#4 ++ 2#4 ++ 3#4 ++ 0#10 ++ 0x2#4) = .ok (.fdiv 1 2 3) := by decide

theorem test_decode_fsqrt : decodeWord (0x28#6 ++ 1#4 ++ 2#4 ++ 0#4 ++ 0#10 ++ 0x3#4) = .ok (.fsqrt 1 2) := by decide

theorem test_decode_fadd : decodeWord (0x28#6 ++ 1#4 ++ 2#4 ++ 3#4 ++ 0#10 ++ 0x4#4) = .ok (.fadd 1 2 3) := by decide

theorem test_decode_fsub : decodeWord (0x28#6 ++ 1#4 ++ 2#4 ++ 3#4 ++ 0#10 ++ 0x5#4) = .ok (.fsub 1 2 3) := by decide

theorem test_decode_wmul : decodeWord (0x28#6 ++ 4#4 ++ 6#4 ++ 9#4 ++ 0#10 ++ 0x6#4) = .ok (.wmul 2 3 9) := by decide

theorem test_decode_wmulw : decodeWord (0x28#6 ++ 4#4 ++ 6#4 ++ 8#4 ++ 0#10 ++ 0x7#4) = .ok (.wmulw 2 3 4) := by decide

theorem test_decode_wdiv : decodeWord (0x28#6 ++ 4#4 ++ 6#4 ++ 8#4 ++ 0#10 ++ 0x8#4) = .ok (.wdiv 2 3 4) := by decide

theorem test_decode_wext : decodeWord (0x28#6 ++ 4#4 ++ 7#4 ++ 0#4 ++ 0#10 ++ 0x9#4) = .ok (.wext 2 7) := by decide

theorem test_decode_wnrw : decodeWord (0x28#6 ++ 1#4 ++ 6#4 ++ 0#4 ++ 0#10 ++ 0xA#4) = .ok (.wnrw 1 3) := by decide

theorem test_decode_sincos : decodeWord (0x28#6 ++ 1#4 ++ 2#4 ++ 3#4 ++ 0#10 ++ 0xB#4) = .ok (.sincos 1 2 3) := by decide

theorem test_decode_bsinit : decodeWord (0x30#6 ++ 0#4 ++ 14#4 ++ 13#4 ++ 0#10 ++ 0x0#4) = .ok (.bsinit 14 13) := by decide

theorem test_decode_readr : decodeWord (0x30#6 ++ 1#4 ++ 4#4 ++ 0#4 ++ 0#10 ++ 0x1#4) = .ok (.readr 1 4) := by decide

theorem test_decode_skipr : decodeWord (0x30#6 ++ 0#4 ++ 4#4 ++ 0#4 ++ 0#10 ++ 0x2#4) = .ok (.skipr 4) := by decide

theorem test_decode_align : decodeWord (0x30#6 ++ 0#4 ++ 0#4 ++ 0#4 ++ 0#10 ++ 0x3#4) = .ok (.align) := by decide

theorem test_decode_peekr : decodeWord (0x30#6 ++ 1#4 ++ 4#4 ++ 0#4 ++ 0#10 ++ 0x4#4) = .ok (.peekr 1 4) := by decide

theorem test_decode_peek : decodeWord (0x31#6 ++ 1#4 ++ 0#4 ++ 0#12 ++ 32#6) = .ok (.peek 1 32) := by decide

theorem test_decode_read : decodeWord (0x32#6 ++ 1#4 ++ 0#4 ++ 0#12 ++ 3#6) = .ok (.read 1 3) := by decide

theorem test_decode_skip : decodeWord (0x33#6 ++ 0#4 ++ 0#4 ++ 0#12 ++ 9#6) = .ok (.skip 9) := by decide

theorem test_decode_vlcdec : decodeWord (0x38#6 ++ 1#4 ++ 2#4 ++ 0#4 ++ 0#5 ++ 2#5 ++ 0x0#4) = .ok (.vlcdec 1 2 2) := by decide

theorem test_decode_gain : decodeWord (0x38#6 ++ 1#4 ++ 0#4 ++ 0#4 ++ 0#10 ++ 0x1#4) = .ok (.gain 1) := by decide

theorem test_decode_rldec : decodeWord (0x38#6 ++ 1#4 ++ 2#4 ++ 3#4 ++ 0#5 ++ 4#5 ++ 0x2#4) = .ok (.rldec 1 2 3 4) := by decide

theorem test_decode_deq : decodeWord (0x38#6 ++ 1#4 ++ 2#4 ++ 3#4 ++ 0#10 ++ 0x3#4) = .ok (.deq 1 2 3) := by decide

theorem test_decode_deqn : decodeWord (0x38#6 ++ 1#4 ++ 2#4 ++ 3#4 ++ 0#10 ++ 0x4#4) = .ok (.deqn 1 2 3) := by decide

theorem test_decode_ngen : decodeWord (0x38#6 ++ 1#4 ++ 2#4 ++ 0#4 ++ 0#10 ++ 0x5#4) = .ok (.ngen 1 2) := by decide

theorem test_decode_brev : decodeWord (0x38#6 ++ 1#4 ++ 0#4 ++ 0#4 ++ 0#6 ++ 3#4 ++ 0x6#4) = .ok (.brev 1 3) := by decide

theorem test_decode_fft : decodeWord (0x38#6 ++ 1#4 ++ 2#4 ++ 0#4 ++ 0#5 ++ 1#1 ++ 2#4 ++ 0x7#4) = .ok (.fft 1 2 2 true) := by decide

theorem test_decode_imdct : decodeWord (0x38#6 ++ 1#4 ++ 2#4 ++ 0#4 ++ 0#5 ++ 0#1 ++ 3#4 ++ 0x8#4) = .ok (.imdct 1 2 3 false) := by decide

theorem test_decode_wola : decodeWord (0x38#6 ++ 1#4 ++ 2#4 ++ 0#4 ++ 0#10 ++ 0x9#4) = .ok (.wola 1 2) := by decide

theorem test_decode_fshift : decodeWord (0x38#6 ++ 1#4 ++ 2#4 ++ 3#4 ++ 0#10 ++ 0xA#4) = .ok (.fshift 1 2 3) := by decide

theorem test_decode_pcmout : decodeWord (0x38#6 ++ 1#4 ++ 2#4 ++ 3#4 ++ 0#7 ++ 1#3 ++ 0xB#4) = .ok (.pcmout 1 2 3 1) := by decide

/-! ## One-step tests, on small states; the expected values stand in the tables of spec/95_test_vectors.md and in the rules' examples -/

/-- `p` holds of the next state. -/
def goes (o : Host.Outcome State Fault Refusal) (p : State → Bool) : Bool :=
  match o with
  | .next t => p t
  | _ => false

/-- Little-endian words from address `a` on. -/
def words (a : Nat) : List Nat → Memory → Memory
  | [], m => m
  | w :: ws, m => words (a + 4) ws (writeLE m a 4 w)

/-- Bytes from address `a` on. -/
def bytes (a : Nat) : List Nat → Memory → Memory
  | [], m => m
  | b :: bs, m => bytes (a + 1) bs (writeLE m a 1 b)

/-- A state with register values given. -/
def regs : List (Nat × Nat) → State → State
  | [], s => s
  | (r, v) :: rest, s => regs rest (setReg s (Fin.ofNat 16 r) (BitVec.ofNat 32 v))

/-- A state with special-register values given. -/
def srs : List (SReg × Nat) → State → State
  | [], s => s
  | (r, v) :: rest, s => srs rest (writeSr s r (BitVec.ofNat 32 v))

/-- The sequencer runs at 0x100 with this LMEM. -/
def base (m : Memory) : State := { State.reset with pc := 0x100, mem := m, ctl := { State.reset.ctl with busy := true } }

/-- The stream registers set. -/
def stream (a len pos : Nat) (s : State) : State :=
  { s with sr := { s.sr with bsbase := BitVec.ofNat 32 a, bslen := BitVec.ofNat 32 len, bspos := BitVec.ofNat 32 pos } }

/-- The operands of a register-only test: x[2], x[3]. -/
def two (b c : Nat) : State := regs [(2, b), (3, c)] (base [])

/-- The signed word at `a`. -/
def wordAt (t : State) (a : Nat) (v : Int) : Bool :=
  match loadW t.mem a with
  | .ok x => x == v
  | .error _ => false

/-- x[1] and ASTAT. -/
def gives (i : Instr) (s : State) (v flags : Nat) : Bool :=
  goes (exec i s) fun t => (reg t 1).toNat == v && t.sr.astat.toNat == flags && t.pc == 0x104 && !t.ctl.fault

/-- A fault, its FAULTINFO, nothing written to x[1]. -/
def raises (i : Instr) (s : State) (c : Cause) (info : Nat) : Bool :=
  goes (exec i s) fun t => t.ctl.fault && t.ctl.cause == c && t.ctl.faultinfo.toNat == info && t.ctl.faultpc == 0x100 &&
    t.pc == 0x100 && !t.ctl.busy && t.regs == s.regs

/-! ### Fixed point (tables 41.1 to 41.4) -/

theorem test_fmul : gives (.fmul 1 2 3) (two 0xFFFF8000 1) 0xFFFFFFFF 0 && gives (.fmul 1 2 3) (two 0x80000000 0x80000000) 0x7FFFFFFF 1 :=
  by decide

theorem test_fmulr : gives (.fmulr 1 2 3) (two 0xFFFF8000 1) 0 0 && gives (.fmulr 1 2 3) (two 0x8000 1) 1 0 := by decide

theorem test_fdiv : gives (.fdiv 1 2 3) (two 0xFFFF0000 0x30000) 0xFFFFAAAB 0 && gives (.fdiv 1 2 3) (two 0xFFFFFFFB 0) 0x7FFFFFFF 2 :=
  by decide

theorem test_fsqrt : gives (.fsqrt 1 2) (two 0x7FFFFFFF 7) 0xB504F3 0 && gives (.fsqrt 1 2) (two 0x80000000 7) 0x80000000 4 :=
  by decide

theorem test_fadd : gives (.fadd 1 2 3) (two 0x80000000 0xFFFFFFFF) 0x80000000 1 := by decide

theorem test_fsub : gives (.fsub 1 2 3) (two 0x80000000 1) 0x80000000 1 && gives (.fsub 1 2 3) (two 0x7FFFFFFF 1) 0x7FFFFFFE 0 :=
  by decide

/-- x[5]:x[4] and ASTAT. -/
def givesPair (i : Instr) (s : State) (hi lo flags : Nat) : Bool :=
  goes (exec i s) fun t => (reg t 5).toNat == hi && (reg t 4).toNat == lo && t.sr.astat.toNat == flags

theorem test_wmul : givesPair (.wmul 2 3 8) (regs [(7, 0xFFFF0000), (8, 0x18000)] (base [])) 0xFFFE8000 0 0 := by decide

theorem test_wmulw : givesPair (.wmulw 2 3 4) (regs [(6, 0xFFFFFFFF), (7, 0xFFFFFFFF), (8, 1)] (base [])) 0xFFFFFFFF 0xFFFFFFFF 0 :=
  by decide

theorem test_wdiv : givesPair (.wdiv 2 3 4) (regs [(7, 0xFFFF0000), (9, 0x30000)] (base [])) 0xFFFFAAAA 0xAAAAAAAB 0 &&
    givesPair (.wdiv 2 3 4) (regs [(6, 5)] (base [])) 0x7FFFFFFF 0xFFFFFFFF 2 := by decide

theorem test_wext : givesPair (.wext 2 6) (regs [(6, 0xFFFF8000)] (base [])) 0xFFFF8000 0 0 := by decide

theorem test_wnrw : gives (.wnrw 1 3) (regs [(7, 0xFFFF8000), (6, 0x12345678)] (base [])) 0xFFFF8000 0 := by decide

theorem test_sincos : goes (exec (.sincos 1 2 3) (two 0x15555555 0)) (fun t => reg t 1 == 0x1FFFFFAC && reg t 3 == 0x376CF603) :=
  by decide +kernel

theorem test_sincos_no_stage : goes (exec (.sincos 1 2 3) (srs [(.cstages, 0)] (two 0x40000000 0)))
    (fun t => reg t 1 == 0x26DD3B6A && reg t 3 == 0) := by decide

/-! ### Bit reader (tables 42.1, 42.2) -/

/-- The stream A5 3C at 0x400. -/
def bits (pos x4 : Nat) : State := stream 0x400 16 pos (regs [(4, x4)] (base (bytes 0x400 [0xA5, 0x3C] [])))

theorem test_peek : gives (.peek 1 32) (bits 0 0) 0xA53C0000 0 && gives (.peek 1 8) (bits 12 0) 0xC0 0 := by decide

theorem test_peekr : gives (.peekr 1 4) (bits 0 4) 0xA 0 && raises (.peekr 1 4) (bits 0 33) .oprange 33 := by decide

theorem test_read : goes (exec (.read 1 6) (bits 3 0)) (fun t => reg t 1 == 0xA && t.sr.bspos == 9) &&
    raises (.read 1 7) (bits 10 0) .bsovr 10 := by decide

theorem test_readr : goes (exec (.readr 1 4) (bits 0 3)) (fun t => reg t 1 == 5 && t.sr.bspos == 3) &&
    raises (.readr 1 4) (bits 0 0xFFFFFFFF) .oprange 0xFFFFFFFF := by decide

theorem test_skip : goes (exec (.skip 7) (bits 9 0)) (fun t => t.sr.bspos == 16) && raises (.skip 8) (bits 9 0) .bsovr 9 :=
  by decide

theorem test_skipr : goes (exec (.skipr 4) (bits 0 16)) (fun t => t.sr.bspos == 16) && raises (.skipr 4) (bits 0 17) .bsovr 0 :=
  by decide

theorem test_align : goes (exec .align (bits 9 0)) (fun t => t.sr.bspos == 16) && goes (exec .align (bits 8 0)) (fun t => t.sr.bspos == 8) :=
  by decide

theorem test_bsinit : goes (exec (.bsinit 2 3) (two 0x3FFFF 8)) (fun t => t.sr.bsbase == 0x3FFFF && t.sr.bslen == 8) &&
    raises (.bsinit 2 3) (two 0x3FFFF 9) .daddr 0x3FFFF && goes (exec (.bsinit 2 3) (two 0x7FFFFFFF 0)) (fun t => t.sr.bsbase == 0x7FFFFFFF) :=
  by decide

/-! ### Codes (tables 43.1, 43.2, 44.1, 44.2) -/

/-- The table of 43.1 at 0x800 and a stream at 0x400. -/
def codes (bs : List Nat) (len pos : Nat) : State :=
  stream 0x400 len pos (regs [(2, 0x800)] (base (bytes 0x400 bs
    (words 0x800 [0x41000005, 0x41000005, 0x42000007, 0x82000004, 0x41000009, 0x41000009, 0x4200000B, 0] []))))

theorem test_vlcdec : goes (exec (.vlcdec 1 2 2) (codes [0x9B, 0x80] 11 3)) (fun t => reg t 1 == 9 && t.sr.bspos == 6) &&
    raises (.vlcdec 1 2 2) (codes [0xFF] 3 0) .bsovr 0 := by decide

theorem test_vlcdec_miss : goes (exec (.vlcdec 1 2 2) (codes [0xF0] 4 0))
    (fun t => reg t 1 == 0xFFFFFFFF && t.sr.bspos == 0 && t.sr.astat == 8) := by decide

theorem test_gain : goes (exec (.gain 1) (stream 0x400 14 0 (base (bytes 0x400 [0xFE, 0x14] []))))
    (fun t => reg t 1 == 133 && t.sr.escw == 9 && t.sr.bspos == 14) := by decide

/-- The tables of 44.2, NCOEF = n. -/
def runLevel (n : Nat) : State :=
  srs [(.escw, 4), (.runw, 3), (.ncoef, n), (.rltab, 0x900)] (stream 0x400 25 0 (regs [(2, 0xA00), (3, 0x800)]
    (base (bytes 0x400 [0x67, 0x3A, 0xFB, 0] (words 0x900 [0, 0, 1, 0x10001, 2] (words 0x800
      [0x41000002, 0x41000002, 0x41000002, 0x41000002, 0x41000002, 0x41000002, 0x41000002, 0x41000002,
       0x42000003, 0x42000003, 0x42000003, 0x42000003, 0x43000001, 0x43000001, 0x44000000, 0x44000004] []))))))

theorem test_rldec : goes (exec (.rldec 1 2 3 4) (runLevel 8)) (fun t => reg t 1 == 7 && t.sr.bspos == 25 && wordAt t 0xA00 1 &&
    wordAt t 0xA08 (-1) && wordAt t 0xA14 7 && wordAt t 0xA18 (-2) && wordAt t 0xA1C 0) := by decide

theorem test_rldec_overflow : goes (exec (.rldec 1 2 3 4) (runLevel 4)) (fun t => t.ctl.cause == .rlovr && t.ctl.faultinfo == 5 &&
    reg t 1 == 0 && t.sr.bspos == 0 && wordAt t 0xA08 (-1)) := by decide

/-! ### Spectral, transform and output commands (sections 44 to 46) -/

theorem test_deq : goes (exec (.deq 1 2 3) (srs [(.ncoef, 2), (.dqmult, 0x20000)] (regs [(1, 0x600), (2, 0x400), (3, 0x500)]
    (base (words 0x400 [0xFFFFFFFE, 100000] (words 0x500 [0x18000, 0x10000] []))))))
    (fun t => wordAt t 0x600 (-0x60000) && wordAt t 0x604 0x7FFFFFFF && t.sr.astat == 1) := by decide

theorem test_deqn : goes (exec (.deqn 1 2 3) (srs [(.ncoef, 3), (.ntsize, 3), (.nidx, 1), (.dqmult, 0x8000)]
    (regs [(1, 0x600), (2, 0x400), (3, 0x500)] (base (words 0x400 [0x8000, 0xFFFFC000, 0x10000]
      (words 0x500 [0x20000, 0x20000, 0x20000] []))))))
    (fun t => wordAt t 0x600 (-0x4000) && wordAt t 0x604 0x10000 && wordAt t 0x608 0x8000 && t.sr.nidx == 1) := by decide

theorem test_ngen : goes (exec (.ngen 1 2) (regs [(1, 0x400), (2, 4)] (base [])))
    (fun t => wordAt t 0x400 9 && wordAt t 0x404 (-2688) && wordAt t 0x40C 5207 && t.sr.nseed == 0x0A2BFDA1) := by decide

theorem test_brev : goes (exec (.brev 1 2) (regs [(1, 0x400)] (base (words 0x400 [0, 100, 1, 101, 2, 102, 3, 103] []))))
    (fun t => wordAt t 0x408 2 && wordAt t 0x40C 102 && wordAt t 0x410 1 && wordAt t 0x418 3) := by decide

/-- The four-point input of section 45 and its twiddles. -/
def fourPoint : State :=
  regs [(1, 0x400), (2, 0x500)] (base (words 0x500 [0x40000000, 0, 0, 0xC0000000] (words 0x400 [1000, 0, 3000, 0, 2000, 0, 4000, 0] [])))

theorem test_fft : goes (exec (.fft 1 2 2 false) fourPoint)
    (fun t => wordAt t 0x400 10000 && wordAt t 0x408 (-2000) && wordAt t 0x40C 2000 && wordAt t 0x41C (-2000)) := by decide

theorem test_fft_scaled : goes (exec (.fft 1 2 2 true) fourPoint) (fun t => wordAt t 0x400 2500 && wordAt t 0x40C 500) := by decide

theorem test_imdct : goes (exec (.imdct 1 2 3 false) (srs [(.mdtrig, 0x800), (.mdtw, 0x900)] (regs [(1, 0xA00), (2, 0xA40)] (base
    (words 0x800 [0xC04EE4B8, 0xF9BA1651, 0xD76619B6, 0xCE86FF2A] (words 0x900 [0x40000000, 0] (words 0xA40 [0x10000, 0, 0, 0] [])))))))
    (fun t => wordAt t 0xA00 (-36410) && wordAt t 0xA04 (-12784) && wordAt t 0xA0C 36410 && wordAt t 0xA14 64277 && wordAt t 0xA1C 54491) :=
  by decide

theorem test_wola : goes (exec (.wola 1 2) (srs [(.wcfg, 0x10101), (.wdir, 0x104)] (regs [(1, 0x800), (2, 0x900)] (base
    (words 0x108 [0x240] (words 0x240 [0x187DE2A7, 0x3B20D79E] (words 0x800 [0x7FFFFFFF, 0x7FFFFFFF, 0, 0]
      (words 0x900 [0x7FFFFFFF, 0x7FFFFFFF, 0x7FFFFFFF, 0x7FFFFFFF] []))))))))
    (fun t => wordAt t 0x800 0x7FFFFFFF && wordAt t 0x808 0x7641AF3B && wordAt t 0x80C 0x30FBC54D && t.sr.astat == 1) := by decide

theorem test_fshift : goes (exec (.fshift 1 2 3) (regs [(1, 0x400), (2, 4), (3, 6)] (base (words 0x400 [1, 2, 3, 4, 5, 6] []))))
    (fun t => wordAt t 0x400 5 && wordAt t 0x404 6 && wordAt t 0x408 0 && wordAt t 0x414 0) := by decide

theorem test_pcmout : goes (exec (.pcmout 1 2 3 0) (regs [(1, 0x600), (2, 0x400), (3, 3)]
    (base (words 0x400 [0x18000, 0xFFFE7FFF, 0x7FFFFFFF] []))))
    (fun t => memGet 0x600 t.mem == some 2 && memGet 0x602 t.mem == some 0xFE && memGet 0x605 t.mem == some 0x7F && t.sr.astat == 1) :=
  by decide

/-! ### Control, integer, loads and stores (sections 47 to 49) -/

theorem test_halt : goes (exec .halt (base [])) (fun t => t.pc == 0x104 && t.ctl.done && !t.ctl.busy && !t.ctl.fault) := by decide

theorem test_nop : goes (exec .nop (base [])) (fun t => t.pc == 0x104 && t.ctl.busy) := by decide

theorem test_j : goes (exec (.j 0x3FFFFFF) (base [])) (fun t => t.pc == 0xFC) := by decide

theorem test_jal : goes (exec (.jal 15 8) (base [])) (fun t => t.pc == 0x120 && reg t 15 == 0x104) := by decide

theorem test_jr : goes (exec (.jr 3) (two 0 0x202)) (fun t => t.pc == 0x202 && !t.ctl.fault) := by decide

/-- The PC after a branch. -/
def lands (i : Instr) (s : State) (pc : Nat) : Bool := goes (exec i s) fun t => t.pc.toNat == pc

theorem test_equality_branches : lands (.beq 2 3 3) (two 5 5) 0x10C && lands (.beq 2 3 3) (two 5 6) 0x104 &&
    lands (.bne 2 3 0x3FFFF) (two 5 6) 0xFC && lands (.bne 2 3 3) (two 5 5) 0x104 := by decide

theorem test_signed_branches : lands (.blt 2 3 3) (two 0xFFFFFFFF 1) 0x10C && lands (.bge 2 3 3) (two 0xFFFFFFFF 1) 0x104 := by decide

theorem test_unsigned_branches : lands (.bltu 2 3 3) (two 0xFFFFFFFF 1) 0x104 && lands (.bgeu 2 3 3) (two 0xFFFFFFFF 1) 0x10C :=
  by decide

theorem test_mfs : gives (.mfs 1 .gwid) (base []) 0x00952D8D 0 := by decide

theorem test_mts : goes (exec (.mts .bspos 2) (stream 0 16 0 (two 0xFFFFFFFF 0))) (fun t => t.sr.bspos == 16) &&
    goes (exec (.mts .wcfg 2) (two 0xFFFFFFFF 0)) (fun t => readSr t .wcfg == 0x001F1F1F) := by decide

theorem test_add_sub : gives (.add 1 2 3) (two 0xFFFFFFF0 0x24) 0x14 0 && gives (.sub 1 2 3) (two 0xFFFFFFF0 0x24) 0xFFFFFFCC 0 &&
    gives (.addi 1 2 0x3FFFF) (two 0xFFFFFFF0 0) 0xFFFFFFEF 0 := by decide

theorem test_bitwise : gives (.and 1 2 3) (two 0xFFFFFFF0 0x24) 0x20 0 && gives (.or 1 2 3) (two 0xFFFFFFF0 0x24) 0xFFFFFFF4 0 &&
    gives (.xor 1 2 3) (two 0xFFFFFFF0 0x24) 0xFFFFFFD4 0 := by decide

theorem test_bitwise_immediate : gives (.andi 1 2 0x3FFFF) (two 0xFFFFFFF0 0) 0x3FFF0 0 &&
    gives (.ori 1 2 0x20000) (two 0xFFFFFFF0 0) 0xFFFFFFF0 0 && gives (.xori 1 2 0x3FFFF) (two 0xFFFFFFF0 0) 0xFFFC000F 0 := by decide

theorem test_register_shifts : gives (.sll 1 2 3) (two 0xFFFFFFF0 0x24) 0xFFFFFF00 0 && gives (.srl 1 2 3) (two 0xFFFFFFF0 0x24) 0x0FFFFFFF 0 &&
    gives (.sra 1 2 3) (two 0xFFFFFFF0 0x24) 0xFFFFFFFF 0 := by decide

theorem test_immediate_shifts : gives (.slli 1 2 4) (two 0xFFFFFFF0 0) 0xFFFFFF00 0 && gives (.srli 1 2 31) (two 0x80000000 0) 1 0 &&
    gives (.srai 1 2 31) (two 0x80000000 0) 0xFFFFFFFF 0 := by decide

theorem test_compare : gives (.slt 1 2 3) (two 0xFFFFFFF0 0x24) 1 0 && gives (.sltu 1 2 3) (two 0xFFFFFFF0 0x24) 0 0 := by decide

theorem test_lui : gives (.lui 1 0xBEEF) (base []) 0xBEEF0000 0 := by decide

/-- The bytes of section 49 at 0x400, x[2] = 0x404. -/
def loads : State := regs [(1, 0x11223344), (2, 0x404)] (base (bytes 0x400 [0x81, 0x92, 0xA3, 0xB4, 5, 6, 7, 8] []))

theorem test_byte_loads : gives (.lb 1 2 0x3FFFC) loads 0xFFFFFF81 0 && gives (.lbu 1 2 0x3FFFC) loads 0x81 0 := by decide

theorem test_half_loads : gives (.lh 1 2 0x3FFFE) loads 0xFFFFB4A3 0 && gives (.lhu 1 2 0x3FFFE) loads 0xB4A3 0 := by decide

theorem test_lw : gives (.lw 1 2 0x3FFFC) loads 0xB4A39281 0 && raises (.lw 1 2 2) loads .dalign 0x406 &&
    raises (.lw 1 2 4) (regs [(2, 0x3FFFC)] loads) .daddr 0x40000 := by decide

theorem test_stores : goes (exec (.sb 1 2 1) loads) (fun t => memGet 0x405 t.mem == some 0x44 && memGet 0x406 t.mem == some 7) &&
    goes (exec (.sh 1 2 2) loads) (fun t => memGet 0x406 t.mem == some 0x44 && memGet 0x407 t.mem == some 0x33) &&
    goes (exec (.sw 1 2 0) loads) (fun t => wordAt t 0x404 0x11223344) := by decide

/-- A byte that nothing has written stops the model, by name (log entry 2). -/
theorem test_unwritten_byte : exec (.lb 1 2 8) loads = .fault (.unwrittenByte 0x40C) := by rfl

/-! ## Witnesses: for each statement with hypotheses, a state and operands that meet them, at the edges of each clause -/

/-- `v` stands at `a`, checked by evaluation. -/
theorem holds_word {m : Memory} {a : Nat} {v : Int} (h : loadW m a = .ok v) : HoldsWord m a v := holds_of_loadW h

/-- Bit k of the stream, as a check. -/
def bitIs (s : State) (k : Nat) (b : Bool) : Bool :=
  if s.sr.bslen.toNat ≤ k then !b
  else decide (s.sr.bsbase.toNat + k / 8 < lmemSize s) &&
    match memGet (s.sr.bsbase.toNat + k / 8) s.mem with
    | some x => x.getLsbD (7 - k % 8) == b
    | none => false

theorem streamBit_of_bitIs {s : State} {k : Nat} {b : Bool} (h : bitIs s k b = true) : StreamBit s k b := by
  unfold bitIs at h
  unfold StreamBit
  by_cases hk : s.sr.bslen.toNat ≤ k
  · rw [if_pos hk] at h ⊢
    simpa using h
  · rw [if_neg hk] at h ⊢
    rw [Bool.and_eq_true, decide_eq_true_eq] at h
    refine ⟨h.1, ?_⟩
    have h2 := h.2
    split at h2
    · exact ⟨_, by assumption, by simpa using h2⟩
    · cases h2

theorem streamBits_of {s : State} {pos n v : Nat} (h : v < 2 ^ n)
    (hb : ∀ j, j < n → bitIs s (pos + j) (v.testBit (n - 1 - j)) = true) : StreamBits s pos n v :=
  ⟨h, fun j hj => streamBit_of_bitIs (hb j hj)⟩

/-- The word `w` at `pc`, the sequencer running there. -/
def running (pc : Nat) (w : Word) : State :=
  { State.reset with pc := BitVec.ofNat 32 pc, mem := storeW [] pc w.toInt, ctl := { State.reset.ctl with busy := true } }

theorem fetches_running (pc : Nat) (w : Word) (h : pc % 4 = 0) (h' : pc + 4 ≤ 262144) : Fetches (running pc w) w := by
  have hp : (running pc w).pc.toNat = pc := by simp [running]; omega
  refine ⟨rfl, rfl, by rw [hp, h], by rw [hp]; exact h', ?_⟩
  rw [hp]
  exact holds_storeW [] pc (BitVec.le_toInt w) (BitVec.toInt_lt (x := w))

theorem inv_running (pc : Nat) (w : Word) (h' : pc + 4 ≤ 262144) : Inv (running pc w) where
  canonical := wf_storeW pc _ rfl
  inside := fun a ha => by
    have ha : 262144 ≤ a := ha
    have := (touches_storeW (lo := pc) (hi := pc + 4) w.toInt [] (Nat.le_refl _) (Nat.le_refl _)).out a (by omega)
    exact this
  cursor := Nat.le_refl 0
  stream := fun h => absurd h (Nat.lt_irrefl 0)
  running := fun _ => ⟨rfl, rfl, rfl⟩
  oneEnd := fun h => Bool.noConfusion h
  caused := fun h => Bool.noConfusion h

/-! ### Encoding and the step -/

theorem witness_EncodedInstructionsDecode : Instr.wellFormed (.skip 32) = true ∧ Instr.wellFormed (.rldec 15 15 15 16) = true ∧
    Instr.wellFormed (.imdct 0 0 3 true) = true ∧ Instr.wellFormed (.mts .cstages 15) = true := by decide

theorem witness_DecodedWordsAreEncodings : decodeWord 0xE3FC01F8#32 = .ok (.imdct 15 15 15 true) := by decide

/-- The first and last opcode of each reserved range. -/
theorem witness_ReservedWordsFault_op :
    ∀ w ∈ [0x34000000#32, 0x3C000000#32, 0x64000000#32, 0x7C000000#32, 0xA4000000#32, 0xBC000000#32, 0xD0000000#32, 0xDC000000#32,
      0xE4000000#32, 0xFC000000#32],
      Fetches (running 0x100 w) w ∧ ReservedOp w :=
  fun w hw => ⟨fetches_running 0x100 w (by decide) (by decide), by
    simp only [List.mem_cons, List.not_mem_nil, or_false] at hw
    rcases hw with rfl | rfl | rfl | rfl | rfl | rfl | rfl | rfl | rfl | rfl <;> simp +decide⟩

theorem witness_ReservedWordsFault_fn :
    ∀ w ∈ [0x4000000A#32, 0x4000000F#32, 0xA000000C#32, 0xC0000005#32, 0xE000000C#32], Fetches (running 0 w) w ∧ ReservedFn w :=
  fun w hw => ⟨fetches_running 0 w (by decide) (by decide), by
    simp only [List.mem_cons, List.not_mem_nil, or_false] at hw
    rcases hw with rfl | rfl | rfl | rfl | rfl <;> simp +decide⟩

/-- HALT, NOP, JAL B, JR A, C and FN, MFS B and sr, MTS A, ADD P, LUI B and bits 17:16, SLLI and SRAI bits 17:5, FMUL P, FSQRT and WNRW C,
BSINIT A, READR C, SKIPR A, ALIGN B, PEEK and READ B and bits 17:6, SKIP A. -/
theorem witness_ReservedWordsFault_mustBeZero :
    ∀ w ∈ [0x00000001#32, 0x06000000#32, 0x0C040000#32, 0x10400000#32, 0x10004000#32, 0x10000001#32, 0x2C040000#32, 0x2C000040#32,
      0x30400003#32, 0x40000010#32, 0x54040000#32, 0x54010000#32, 0x58000020#32, 0x60020000#32, 0xA0002000#32, 0xA0004003#32, 0xA000400A#32,
      0xC0400000#32, 0xC0004001#32, 0xC0400002#32, 0xC0040003#32, 0xC4040000#32, 0xC8000040#32, 0xCC400000#32],
      Fetches (running 0x100 w) w ∧ NonzeroMustBeZero w :=
  fun w hw => ⟨fetches_running 0x100 w (by decide) (by decide), by
    simp only [List.mem_cons, List.not_mem_nil, or_false] at hw
    rcases hw with rfl | rfl | rfl | rfl | rfl | rfl | rfl | rfl | rfl | rfl | rfl | rfl | rfl | rfl | rfl | rfl | rfl | rfl | rfl | rfl | rfl | rfl | rfl | rfl <;> simp +decide [NonzeroMustBeZero]⟩

/-- One word of each BLK instruction with its lowest must-be-0 bit of P or of a register field set. -/
theorem witness_ReservedWordsFault_mustBeZeroBlk :
    ∀ w ∈ [0xE0000210#32, 0xE0040001#32, 0xE0000212#32, 0xE0000013#32, 0xE0000014#32, 0xE0004005#32, 0xE0000116#32, 0xE0000217#32,
      0xE0004038#32, 0xE0000019#32, 0xE000001A#32, 0xE000008B#32],
      Fetches (running 0x100 w) w ∧ NonzeroMustBeZero w :=
  fun w hw => ⟨fetches_running 0x100 w (by decide) (by decide), by
    simp only [List.mem_cons, List.not_mem_nil, or_false] at hw
    rcases hw with rfl | rfl | rfl | rfl | rfl | rfl | rfl | rfl | rfl | rfl | rfl | rfl <;> simp +decide [NonzeroMustBeZero]⟩

/-- Odd pairs (WMUL A, WMUL B, WMULW C, WDIV C, WEXT A, WNRW B), SINCOS with A = C; VLCDEC nb 0 and RLDEC nb 17, BREV and FFT m 0, IMDCT n 2,
PEEK, READ and SKIP 33, MFS 23, MTS 0, 1 and 23. -/
theorem witness_ReservedWordsFault_operands :
    ∀ w ∈ [0xA15A0006#32, 0xA11E0006#32, 0xA11A4007#32, 0xA11A4008#32, 0xA1580009#32, 0xA05C000A#32, 0xA048400B#32, 0xE0000000#32,
      0xE0000112#32, 0xE0000006#32, 0xE0000007#32, 0xE0000028#32, 0xC4000021#32, 0xC8000021#32, 0xCC000021#32, 0x2C000017#32, 0x30000000#32,
      0x30000001#32, 0x30000017#32],
      Fetches (running 0x3FFFC w) w ∧ BadOperand w :=
  fun w hw => ⟨fetches_running 0x3FFFC w (by decide) (by decide), by
    simp only [List.mem_cons, List.not_mem_nil, or_false] at hw
    rcases hw with rfl | rfl | rfl | rfl | rfl | rfl | rfl | rfl | rfl | rfl | rfl | rfl | rfl | rfl | rfl | rfl | rfl | rfl | rfl <;> simp +decide⟩

/-- The legal neighbours of those words: the last opcodes and functions, the last parameters, the last special register. -/
theorem witness_ReservedWordsFault_legal :
    ∀ w ∈ [0x00000000#32, 0x303C0016#32, 0x60000000#32, 0x9C000000#32, 0xA048800B#32, 0xCC000020#32, 0xE0000100#32, 0xE00001F7#32,
      0xE0000038#32, 0xE000007B#32], ¬IllegalWord w ∧ ∃ i, decodeWord w = .ok i := by
  intro w hw
  simp only [List.mem_cons, List.not_mem_nil, or_false] at hw
  rcases hw with rfl | rfl | rfl | rfl | rfl | rfl | rfl | rfl | rfl | rfl <;> exact ⟨by simp +decide [IllegalWord, NonzeroMustBeZero], _, rfl⟩

theorem witness_StepRunsTheDecodedInstruction :
    Fetches (running 0x3FFFC 0x4048C001#32) 0x4048C001#32 ∧ decodeWord 0x4048C001#32 = .ok (.sub 1 2 3) :=
  ⟨fetches_running 0x3FFFC _ (by decide) (by decide), by decide⟩

theorem witness_IdleStepChangesNothing : State.reset.ctl.busy = false := rfl

theorem witness_FetchChecksThePc :
    (let s := { running 0 0#32 with pc := 0x40002 }; s.ctl.busy = true ∧ s.abortPending = false ∧ s.pc.toNat % 4 ≠ 0) ∧
    (let s := { running 0 0#32 with pc := 0x40000 }
     s.ctl.busy = true ∧ s.abortPending = false ∧ s.pc.toNat % 4 = 0 ∧ lmemSize s < s.pc.toNat + 4) := by decide

theorem witness_AbortEndsTheRun : (3#32).getLsbD 1 = true ∧ (running 0 0#32).ctl.busy = true ∧ State.reset.ctl.busy = false := by decide

/-! ### The machine as a whole -/

theorem witness_StepKeepsTheInvariant : Inv (running 0x100 0x04000000#32) ∧ ∃ t, step (running 0x100 0x04000000#32) = .next t :=
  ⟨inv_running _ _ (by decide), _, rfl⟩

theorem witness_EveryEventKeepsTheInvariant : ∀ e ∈ [Event.sequencerStep, .hostRead 0x100000 .word, .hostWrite 0x13FFFC .word 1#32, .reset],
    Inv (running 0x100 0x04000000#32) ∧ ∃ t, react e (running 0x100 0x04000000#32) = .next t := by
  intro e he
  refine ⟨inv_running _ _ (by decide), ?_⟩
  simp only [List.mem_cons, List.not_mem_nil, or_false] at he
  rcases he with rfl | rfl | rfl | rfl <;> exact ⟨_, rfl⟩

theorem witness_FaultsArePrecise :
    (∃ t, exec (.lw 1 2 2) loads = .next t ∧ loads.ctl.fault = false ∧ t.ctl.fault = true) ∧
    (∃ t, exec (.rldec 1 2 3 4) (srs [(.ncoef, 0)] (runLevel 8)) = .next t ∧ t.ctl.fault = true) ∧
    Instr.wellFormed (.lw 1 2 2) = true ∧ Instr.wellFormed (.rldec 1 2 3 4) = true :=
  ⟨⟨_, rfl, rfl, rfl⟩, ⟨_, rfl, rfl⟩, rfl, rfl⟩

theorem witness_OnlyBsinitSetsTheStream :
    (∃ t, exec (.skip 7) (bits 9 0) = .next t) ∧ (∀ a b, Instr.skip 7 ≠ .bsinit a b) ∧ ∀ r, Instr.skip 7 ≠ .mts .bspos r :=
  ⟨⟨_, rfl⟩, fun _ _ h => Instr.noConfusion h, fun _ h => Instr.noConfusion h⟩

theorem witness_FlagsAreSticky :
    (∃ t, exec (.fadd 1 2 3) (srs [(.astat, 15)] (two 0x7FFFFFFF 1)) = .next t) ∧ (∀ r, Instr.fadd 1 2 3 ≠ .mts .astat r) ∧
    (srs [(.astat, 15)] (two 0x7FFFFFFF 1)).sr.astat.getLsbD 3 = true :=
  ⟨⟨_, rfl⟩, fun _ h => Instr.noConfusion h, by decide⟩

theorem witness_PcAfterAnInstruction :
    (∃ t, exec (.lw 1 2 2) loads = .next t ∧ loads.ctl.fault = false ∧ t.ctl.fault = true) ∧
    (∃ t, exec (.j 0x3FFFFFF) loads = .next t ∧ t.ctl.fault = false) ∧ (∃ t, exec (.jal 1 0x20000) loads = .next t ∧ t.ctl.fault = false) ∧
    (∃ t, exec (.jr 2) loads = .next t ∧ t.ctl.fault = false) ∧ (∃ t, exec (.bgeu 2 2 0x1FFFF) loads = .next t ∧ t.ctl.fault = false) ∧
    (∃ t, exec (.bltu 2 2 0x1FFFF) loads = .next t ∧ t.ctl.fault = false) ∧ (∃ t, exec .halt loads = .next t ∧ t.ctl.fault = false) ∧
    (∃ t, exec .nop { loads with pc := 0xFFFFFFFC } = .next t ∧ t.ctl.fault = false) :=
  ⟨⟨_, rfl, rfl, rfl⟩, ⟨_, rfl, rfl⟩, ⟨_, rfl, rfl⟩, ⟨_, rfl, rfl⟩, ⟨_, rfl, rfl⟩, ⟨_, rfl, rfl⟩, ⟨_, rfl, rfl⟩, ⟨_, rfl, rfl⟩⟩

theorem witness_RunsEndInOneWay : ∀ w ∈ [0x00000000#32, 0x34000000#32],
    Inv (running 0x100 w) ∧ (running 0x100 w).ctl.busy = true ∧ ∃ t, step (running 0x100 w) = .next t ∧ t.ctl.busy = false := by
  intro w hw
  refine ⟨inv_running _ _ (by decide), rfl, ?_⟩
  simp only [List.mem_cons, List.not_mem_nil, or_false] at hw
  rcases hw with rfl | rfl <;> exact ⟨_, rfl, rfl⟩

theorem witness_StepsLeaveTheHostRegisters :
    (∃ t, step (running 0 0x00000000#32) = .next t ∧ t.ctl.done ≠ (running 0 0x00000000#32).ctl.done) ∧
    (∃ t, step (running 0 0x04000000#32) = .next t ∧ t.ctl.busy = true) :=
  ⟨⟨_, rfl, Bool.noConfusion⟩, ⟨_, rfl, rfl⟩⟩

/-! ### Instructions on registers -/

/-- Both sides of every comparison of a branch. -/
theorem witness_BranchesCompareRegisters :
    (let s := two 0x80000000 0x7FFFFFFF
     (reg s 2).toNat ≠ (reg s 3).toNat ∧ (reg s 2).toInt < (reg s 3).toInt ∧ ¬(reg s 3).toInt ≤ (reg s 2).toInt ∧
       ¬(reg s 2).toNat < (reg s 3).toNat ∧ (reg s 3).toNat ≤ (reg s 2).toNat) ∧
    (let s := two 5 5
     (reg s 2).toNat = (reg s 3).toNat ∧ ¬(reg s 2).toInt < (reg s 3).toInt ∧ (reg s 3).toInt ≤ (reg s 2).toInt) ∧
    (let s := two 5 6
     (reg s 2).toNat < (reg s 3).toNat ∧ ¬(reg s 3).toNat ≤ (reg s 2).toNat) := by decide

theorem witness_SpecialRegisterMoves : SReg.wcfg ≠ .bsbase ∧ SReg.wcfg ≠ .bslen ∧ SReg.wcfg ≠ .bspos ∧ SReg.bspos ≠ .bsbase ∧
    SReg.bspos ≠ .bslen := by decide

theorem witness_FixedDivide : (reg (two 5 0) 3).toInt = 0 ∧ (reg (two 5 0xFFFFFFFF) 3).toInt ≠ 0 := by decide

theorem witness_FixedSquareRoot : (reg (two 0xFFFFFFFF 0) 2).toInt < 0 ∧ 0 ≤ (reg (two 0 0) 2).toInt ∧ 0 ≤ (reg (two 0x7FFFFFFF 0) 2).toInt := by
  decide

theorem witness_WideMultiplyDivide : pairValue (two 1 0) 1 ≠ 0 ∧ pairValue (two 0 0x80000000) 1 ≠ 0 ∧ pairValue (two 1 0) 2 = 0 := by decide

/-- Distinct destinations, and a phase in each quadrant. -/
theorem witness_SincosRotates : (1 : Reg) ≠ 3 ∧ (reg (two 0x3FFFFFFF 0) 2).toNat / 2 ^ 30 = 0 ∧ (reg (two 0x40000000 0) 2).toNat / 2 ^ 30 = 1 ∧
    (reg (two 0x80000000 0) 2).toNat / 2 ^ 30 = 2 ∧ (reg (two 0xFFFFFFFF 0) 2).toNat / 2 ^ 30 = 3 := by decide

/-! ### Loads and stores -/

/-- The last four bytes of LMEM written, x[2] = the address of byte k of them. -/
def lastWord (a : Nat) : State := regs [(1, 0x81828384), (2, a)] (base (words 0x3FFFC [0xF1F2F3F4] []))

theorem witness_LoadsReadLmem :
    (let s := lastWord 0x3FFFF
     (effAddr s 2 0).toNat + 1 ≤ lmemSize s ∧ memGet (effAddr s 2 0).toNat s.mem = some 0xF1) ∧
    (let s := lastWord 0x3FFFE
     (effAddr s 2 0).toNat % 2 = 0 ∧ (effAddr s 2 0).toNat + 2 ≤ lmemSize s ∧ HoldsHalf s.mem (effAddr s 2 0).toNat (-3598)) ∧
    (let s := lastWord 0x3FFFC
     (effAddr s 2 0).toNat % 4 = 0 ∧ (effAddr s 2 0).toNat + 4 ≤ lmemSize s ∧
       HoldsWord s.mem (effAddr s 2 0).toNat (-235736076)) :=
  ⟨⟨by decide, rfl⟩, ⟨by decide, by decide, _, _, rfl, rfl, by decide⟩, ⟨by decide, by decide, holds_word rfl⟩⟩

theorem witness_StoresWriteLmem :
    (effAddr (lastWord 0x3FFFF) 2 0).toNat + 1 ≤ lmemSize (lastWord 0) ∧
    ((effAddr (lastWord 0x40000) 2 0x3FFFE).toNat % 2 = 0 ∧ (effAddr (lastWord 0x40000) 2 0x3FFFE).toNat + 2 ≤ lmemSize (lastWord 0)) ∧
    ((effAddr (lastWord 0x3FFFC) 2 0).toNat % 4 = 0 ∧ (effAddr (lastWord 0x3FFFC) 2 0).toNat + 4 ≤ lmemSize (lastWord 0)) := by decide

theorem witness_LoadsAndStoresCheckAddresses :
    (∀ n ∈ [2, 4], (effAddr (lastWord 0x40001) 2 0).toNat % n ≠ 0) ∧
    (∀ n ∈ [1, 2, 4], (effAddr (lastWord 0x40000) 2 0).toNat % n = 0 ∧ lmemSize (lastWord 0) < (effAddr (lastWord 0x40000) 2 0).toNat + n) := by
  decide

theorem witness_MemoryReadAfterWrite : ∃ m', memWrite 262144 [(0x3FFFC, 7)] 0x3FFFC 4 0x81828384 = .ok m' ∧
    Memory.wf [(0x3FFFC, 7)] = true := ⟨_, rfl, rfl⟩

/-! ### Bit reader and codes -/

theorem witness_BsinitSetsTheStream :
    (reg (two 0x7FFFFFFF 0) 3).toNat = 0 ∧
    (reg (two 0x3FFFF 8) 2).toNat + ((reg (two 0x3FFFF 8) 3).toNat + 7) / 8 ≤ lmemSize (two 0 0) ∧
    (0 < (reg (two 0x3FFFF 9) 3).toNat ∧ lmemSize (two 0 0) < (reg (two 0x3FFFF 9) 2).toNat + ((reg (two 0x3FFFF 9) 3).toNat + 7) / 8) := by
  decide

/-- A stream of 32 bits that ends with LMEM, x[4] = 32. -/
def wide : State := stream 0x3FFFC 32 0 (regs [(4, 32)] (base (bytes 0x3FFFC [0xA5, 0x3C, 0x00, 0xFF] [])))

theorem witness_ReadTakesBits :
    (32#6).toNat ≤ 32 ∧ (reg wide 4).toNat ≤ 32 ∧ wide.sr.bspos.toNat + 32 ≤ wide.sr.bslen.toNat ∧
    StreamBits wide wide.sr.bspos.toNat 32 0xA53C00FF ∧ (0#6).toNat ≤ 32 ∧ StreamBits wide wide.sr.bspos.toNat 0 0 :=
  ⟨by decide, by decide, by decide, streamBits_of (by decide) (by decide), by decide, streamBits_of (by decide) (by decide)⟩

/-- The last 32 - 16 bits of the peek lie past BSLEN and read 0. -/
theorem witness_PeekShowsBits :
    (32#6).toNat ≤ 32 ∧ (reg (bits 0 32) 4).toNat ≤ 32 ∧ StreamBits (bits 0 32) (bits 0 32).sr.bspos.toNat 32 0xA53C0000 :=
  ⟨by decide, by decide, streamBits_of (by decide) (by decide)⟩

theorem witness_SkipAndAlignMoveTheCursor :
    (9 + (7#6).toNat ≤ (bits 9 0).sr.bslen.toNat ∧ (bits 9 0).sr.bslen.toNat < 9 + (8#6).toNat) ∧
    (0 + (reg (bits 0 16) 4).toNat ≤ (bits 0 16).sr.bslen.toNat ∧ (bits 0 17).sr.bslen.toNat < 0 + (reg (bits 0 17) 4).toNat) ∧
    (8 * ((9 + 7) / 8) ≤ (bits 9 0).sr.bslen.toNat ∧ (stream 0x400 12 9 (bits 0 0)).sr.bslen.toNat < 8 * ((9 + 7) / 8)) := by decide

theorem witness_ReadersCheckTheirCounts :
    (bits 16 0).sr.bslen.toNat < (bits 16 0).sr.bspos.toNat + (1#6).toNat ∧
    ((reg (bits 15 32) 4).toNat ≤ 32 ∧ (bits 15 32).sr.bslen.toNat < (bits 15 32).sr.bspos.toNat + (reg (bits 15 32) 4).toNat) ∧
    32 < (reg (bits 0 33) 4).toNat := by decide

/-- The third code of table 43.1, through its sub-table, and the unused code. -/
theorem witness_VlcdecDecodes :
    (let s := codes [0x9B, 0x80] 11 3
     (reg s 2).toNat % 4 = 0 ∧ VlcReads s 0x800 3 1 0 0 2 (.leaf 9 3)) ∧
    (let s := codes [0xF0] 4 0
     (reg s 2).toNat % 4 = 0 ∧ VlcReads s 0x800 0 1 0 0 2 (.miss 0x81C)) := by
  refine ⟨⟨by decide, ?_⟩, by decide, ?_⟩
  · refine .sub (idx := 3) (e := 0x82000004#32) (streamBits_of (by decide) (by decide)) ⟨by decide, holds_word rfl⟩ (by decide)
      (by decide) (by decide) (by decide) ?_
    exact .leaf (idx := 1) (e := 0x41000009#32) (streamBits_of (by decide) (by decide)) ⟨by decide, holds_word rfl⟩ (by decide)
      (by decide) (by decide) (by decide)
  · refine .sub (idx := 3) (e := 0x82000004#32) (streamBits_of (by decide) (by decide)) ⟨by decide, holds_word rfl⟩ (by decide)
      (by decide) (by decide) (by decide) ?_
    exact .miss (idx := 3) (e := 0x00000000#32) (streamBits_of (by decide) (by decide)) ⟨by decide, holds_word rfl⟩ (by decide)

/-- A table whose entry 1 is `e`, at x[2]; the stream is 1 of one bit. -/
def oneEntry (T e : Nat) : State := stream 0x400 1 0 (regs [(2, T)] (base (bytes 0x400 [0x80] (words (T + 4) [e] []))))

/-- At the primary level: a misaligned table; an entry just past LMEM; the last entry of LMEM malformed in four ways; a leaf past BSLEN. -/
theorem witness_VlcdecFaults :
    (reg (oneEntry 0x802 0) 2).toNat % 4 ≠ 0 ∧
    ((reg (oneEntry 0x3FFFC 0) 2).toNat % 4 = 0 ∧ VlcReaches (oneEntry 0x3FFFC 0) 0x3FFFC 0 1 1 0 0 1 ∧
      StreamBits (oneEntry 0x3FFFC 0) (0 + 0) 1 1 ∧ lmemSize (oneEntry 0x3FFFC 0) < 0x3FFFC + 4 * (0 + 1) + 4) ∧
    (∀ e ∈ [0x40000000, 0x42000005, 0x80000000, 0x91000004],
      (reg (oneEntry 0x3FFF8 e) 2).toNat % 4 = 0 ∧ StreamBits (oneEntry 0x3FFF8 e) (0 + 0) 1 1 ∧
        VlcEntry (oneEntry 0x3FFF8 e) 0x3FFF8 0 1 (BitVec.ofNat 32 e) ∧
        (let k := e / 2 ^ 30; let f := e / 2 ^ 24 % 64; (k = 1 ∧ (f = 0 ∨ 1 < f)) ∨ (k = 2 ∧ (f = 0 ∨ 16 < f)))) ∧
    (let s := oneEntry 0x800 0x42000005
     StreamBits s (0 + 0) 2 2 ∧ s.sr.bslen.toNat < 0 + (0 + (0x42000005#32).toNat / 2 ^ 24 % 64)) := by
  refine ⟨by decide, ⟨by decide, .primary, streamBits_of (by decide) (by decide), by decide⟩, ?_, streamBits_of (by decide) (by decide),
    by decide⟩
  intro e he
  simp only [List.mem_cons, List.not_mem_nil, or_false] at he
  rcases he with rfl | rfl | rfl | rfl <;>
    exact ⟨by decide, streamBits_of (by decide) (by decide), ⟨by decide, holds_word rfl⟩, by decide⟩

/-- A table of three one-bit levels at the end of LMEM, at x[2]: entry 1 leads to the level at entry 2, whose entry 3 leads to the level at
entry `off`, whose second entry is `e` when off = 4; the stream is 1 1 1. -/
def threeLevels (off e : Nat) : State :=
  stream 0x400 3 0 (regs [(2, 0x3FFE8)] (base (bytes 0x400 [0xE0] (words 0x3FFEC [0x81000002] (words 0x3FFF4 [0x81000000 + off] (words 0x3FFFC [e] []))))))

/-- At the third level: an entry just past LMEM; a sub-table entry, however well-formed; a leaf with a bad length; a leaf past BSLEN. -/
theorem witness_VlcdecFaults_third :
    (VlcReaches (threeLevels 5 0) 0x3FFE8 0 1 3 2 5 1 ∧ StreamBits (threeLevels 5 0) (0 + 2) 1 1 ∧
      lmemSize (threeLevels 5 0) < 0x3FFE8 + 4 * (5 + 1) + 4) ∧
    (∀ e ∈ [0x81000000, 0x40000000, 0x42000000], VlcReaches (threeLevels 4 e) 0x3FFE8 0 1 3 2 4 1 ∧
      StreamBits (threeLevels 4 e) (0 + 2) 1 1 ∧ VlcEntry (threeLevels 4 e) 0x3FFE8 4 1 (BitVec.ofNat 32 e)) ∧
    (let s := stream 0x400 2 0 (threeLevels 4 0x41000007)
     StreamBits s (0 + 2) 1 0 ∧ s.sr.bslen.toNat < 0 + (2 + (0x41000007#32).toNat / 2 ^ 24 % 64)) := by
  refine ⟨⟨.sub (idx := 1) (e := 0x81000005#32)
      (.sub (idx := 1) (e := 0x81000002#32) .primary (streamBits_of (by decide) (by decide)) ⟨by decide, holds_word rfl⟩ (by decide) (by decide)
        (by decide) (by decide))
      (streamBits_of (by decide) (by decide)) ⟨by decide, holds_word rfl⟩ (by decide) (by decide) (by decide) (by decide),
    streamBits_of (by decide) (by decide), by decide⟩, ?_, streamBits_of (by decide) (by decide), by decide⟩
  intro e he
  simp only [List.mem_cons, List.not_mem_nil, or_false] at he
  rcases he with rfl | rfl | rfl <;>
    exact ⟨.sub (idx := 1) (e := 0x81000004#32)
        (.sub (idx := 1) (e := 0x81000002#32) .primary (streamBits_of (by decide) (by decide)) ⟨by decide, holds_word rfl⟩ (by decide)
          (by decide) (by decide) (by decide))
        (streamBits_of (by decide) (by decide)) ⟨by decide, holds_word rfl⟩ (by decide) (by decide) (by decide) (by decide),
      streamBits_of (by decide) (by decide), by decide, holds_word rfl⟩

/-- One group of 127, then 5 (table 44.1), and two streams that end inside a group. -/
theorem witness_GainDecodes :
    (let s := stream 0x400 14 0 (base (bytes 0x400 [0xFE, 0x14] []))
     (∀ j, j < 1 → StreamBits s (s.sr.bspos.toNat + 7 * j) 7 127) ∧ 5 < 127 ∧ StreamBits s (s.sr.bspos.toNat + 7 * 1) 7 5 ∧
       s.sr.bspos.toNat + 7 * 1 + 7 ≤ s.sr.bslen.toNat) ∧
    (let s := stream 0x400 13 0 (base (bytes 0x400 [0xFE, 0x14] []))
     (∀ j, j < 1 → StreamBits s (s.sr.bspos.toNat + 7 * j) 7 127) ∧ s.sr.bspos.toNat + 7 * 1 ≤ s.sr.bslen.toNat ∧
       s.sr.bslen.toNat < s.sr.bspos.toNat + 7 * 1 + 7) := by
  have key : ∀ s : State, (∀ i, i < 7 → bitIs s (s.sr.bspos.toNat + 7 * 0 + i) (Nat.testBit 127 (7 - 1 - i)) = true) →
      ∀ j, j < 1 → StreamBits s (s.sr.bspos.toNat + 7 * j) 7 127 := by
    intro s h j hj
    obtain rfl : j = 0 := by omega
    exact streamBits_of (by decide) h
  exact ⟨⟨key _ (by decide), by decide, streamBits_of (by decide) (by decide), by decide⟩, key _ (by decide), by decide, by decide⟩

/-- A run-level block of codes 1 (run 0, level 5, then its sign) and 0 (end of block), nb = 1, two coefficients at the end of LMEM. -/
def block (entry : Nat) (n : Nat) : State :=
  srs [(.ncoef, n), (.rltab, 0x900)] (stream 0x400 3 0 (regs [(2, 0x3FFF8), (3, 0x800)]
    (base (bytes 0x400 [0xC0] (words 0x800 [0x41000001, entry] (words 0x908 [5] []))))))

/-- Its first code, in whatever LMEM the loop has left. -/
theorem block_code {m : Memory} (hb : memGet 0x400 m = some 0xC0) (he : loadW m 0x804 = .ok 0x41000002) (hl : loadW m 0x908 = .ok 5) :
    RlReads (withMem (block 0x41000002 2) m) 0x800 1 0 0 5 2 := by
  have size : lmemSize (withMem (block 0x41000002 2) m) = 262144 := rfl
  have len : (withMem (block 0x41000002 2) m).sr.bslen.toNat = 3 := rfl
  have adr : (withMem (block 0x41000002 2) m).sr.bsbase.toNat = 0x400 := rfl
  have tab : (withMem (block 0x41000002 2) m).sr.rltab.toNat = 0x900 := rfl
  have bit : ∀ k, k < 2 → StreamBit (withMem (block 0x41000002 2) m) k true := by
    intro k hk
    unfold StreamBit
    rw [if_neg (by omega), adr, size]
    obtain rfl | rfl : k = 0 ∨ k = 1 := by omega
    all_goals exact ⟨by decide, 0xC0, hb, by decide⟩
  refine .table (total := 1) (sym := 2) (sign := 1) (e := 5#32) ?_ (by decide) (by rw [tab, size]; decide) (by rw [tab]; exact holds_word hl) ?_
    (by rw [len]; decide)
  · refine .leaf (idx := 1) (e := 0x41000002#32) ⟨by decide, ?_⟩ ⟨by rw [size]; decide, holds_word he⟩ (by decide) (by decide) (by decide)
      (by rw [len]; decide)
    intro j hj
    obtain rfl : j = 0 := by omega
    exact bit 0 (by decide)
  · refine ⟨by decide, ?_⟩
    intro j hj
    obtain rfl : j = 0 := by omega
    exact bit 1 (by decide)

theorem witness_RldecDecodes :
    (let s := block 0x41000002 2
     1 ≤ s.sr.ncoef.toNat ∧ s.sr.ncoef.toNat ≤ 65536 ∧ (reg s 2).toNat % 4 = 0 ∧ (reg s 2).toNat + 4 * s.sr.ncoef.toNat ≤ lmemSize s ∧
     (reg s 3).toNat % 4 = 0 ∧ s.sr.rltab.toNat % 4 = 0 ∧
     ∃ m', RlRun s 0x3FFF8 0x800 1 2 (zeroFill 0x3FFF8 2 s.mem) 0 0 m' 3 1) := by
  refine ⟨by decide, by decide, by decide, by decide, by decide, by decide, _,
    .more (block_code (by decide) (by decide +kernel) (by decide +kernel)) (by decide +kernel) (.endOfBlock (pos := 2) (total := 1) ?_)⟩
  exact .leaf (idx := 0) (e := 0x41000001#32) (streamBits_of (by decide) (by decide +kernel)) ⟨by decide, holds_word (by decide +kernel)⟩ (by decide +kernel)
    (by decide) (by decide +kernel) (by decide +kernel)

/-- The run-level table at 0xFFFFFFF8 has its entry for symbol 2 at address 0 (00_scope R20). -/
theorem test_rldec_run_level_wraps : let s := srs [(.rltab, 0xFFFFFFF8)] (base (words 0 [0x30005] []))
    rldecRunLevel s s.mem 2 7 = .ok (3, 5, 7) := by decide

/-- A miss entry met by the first code, a run-level entry one word past LMEM, and a run of 65535 against two coefficients. -/
theorem witness_RldecFaultsKeepWrites :
    (let s := block 0 2
     RlPrefix s 0x3FFF8 0x800 1 2 (zeroFill 0x3FFF8 2 s.mem) 0 0 (zeroFill 0x3FFF8 2 s.mem) 0 0 ∧
     VlcReads (withMem s (zeroFill 0x3FFF8 2 s.mem)) 0x800 0 1 0 0 1 (.miss 0x804)) ∧
    (let s := srs [(.rltab, 0x3FFF8)] (block 0x41000002 2)
     VlcReads (withMem s (zeroFill 0x3FFF8 2 s.mem)) 0x800 0 1 0 0 1 (.leaf 2 1) ∧ lmemSize s < (s.sr.rltab.toNat + 4 * 2) % 2 ^ 32 + 4) ∧
    (let s := srs [(.ncoef, 1)] (block 0x41000002 2)
     RlPrefix s 0x3FFF8 0x800 1 1 (zeroFill 0x3FFF8 1 s.mem) 0 0 (zeroFill 0x3FFF8 1 s.mem) 0 0) ∧
    (let s := { block 0x41000002 2 with mem := words 0x908 [0xFFFF0005] (block 0x41000002 2).mem }
     RlReads (withMem s (zeroFill 0x3FFF8 2 s.mem)) 0x800 1 0 65535 5 2 ∧ 2 ≤ 0 + 65535) := by
  refine ⟨⟨.here (by decide), ?_⟩, ⟨?_, by decide⟩, .here (by decide +kernel), ?_, by decide⟩
  · exact .miss (idx := 1) (e := 0#32) (streamBits_of (by decide) (by decide +kernel)) ⟨by decide, holds_word (by decide +kernel)⟩ (by decide +kernel)
  · exact .leaf (idx := 1) (e := 0x41000002#32) (streamBits_of (by decide) (by decide +kernel)) ⟨by decide, holds_word (by decide +kernel)⟩
      (by decide +kernel) (by decide) (by decide +kernel) (by decide +kernel)
  · exact .table (total := 1) (sym := 2) (sign := 1) (e := 0xFFFF0005#32)
      (.leaf (idx := 1) (e := 0x41000002#32) (streamBits_of (by decide) (by decide +kernel)) ⟨by decide, holds_word (by decide +kernel)⟩ (by decide +kernel)
        (by decide) (by decide +kernel) (by decide +kernel)) (by decide +kernel) (by decide +kernel) (holds_word (by decide +kernel)) (streamBits_of (by decide +kernel) (by decide +kernel))
      (by decide)

/-! ### Arrays -/

/-- NCOEF = 1 with out = q at 0x3FFFC, the last word, and scale at 0x500. -/
def deqState : State := srs [(.ncoef, 1)] (regs [(1, 0x3FFFC), (2, 0x3FFFC), (3, 0x500)] (base (words 0x500 [0x18000] (words 0x3FFFC [7] []))))

theorem witness_DeqScales :
    (let s := deqState
     1 ≤ s.sr.ncoef.toNat ∧ s.sr.ncoef.toNat ≤ 65536 ∧ (reg s 1).toNat % 4 = 0 ∧ (reg s 2).toNat % 4 = 0 ∧ (reg s 3).toNat % 4 = 0 ∧
     (reg s 1).toNat + 4 * s.sr.ncoef.toNat ≤ lmemSize s ∧ (reg s 2).toNat + 4 * s.sr.ncoef.toNat ≤ lmemSize s ∧
     (reg s 3).toNat + 4 * s.sr.ncoef.toNat ≤ lmemSize s ∧ (reg s 2).toNat = (reg s 1).toNat ∧
     (reg s 3).toNat + 4 * s.sr.ncoef.toNat ≤ (reg s 1).toNat ∧
     ∀ i, i < s.sr.ncoef.toNat → HoldsWord s.mem ((reg s 2).toNat + 4 * i) 7 ∧ HoldsWord s.mem ((reg s 3).toNat + 4 * i) 0x18000) := by
  refine ⟨by decide, by decide, by decide, by decide, by decide, by decide, by decide, by decide, by decide, by decide, ?_⟩
  intro i hi
  have hi : i < 1 := hi
  obtain rfl : i = 0 := by omega
  exact ⟨holds_word rfl, holds_word rfl⟩

/-- NCOEF = 1, a noise table of one word. -/
def deqnState : State := srs [(.ncoef, 1), (.ntsize, 1)] (regs [(1, 0x3FFFC), (2, 0x400), (3, 0x3FFFC)]
  (base (words 0x400 [0x8000] (words 0x3FFFC [0x20000] []))))

theorem witness_DeqnScalesNoise :
    (let s := deqnState
     1 ≤ s.sr.ncoef.toNat ∧ s.sr.ncoef.toNat ≤ 65536 ∧ s.sr.nidx.toNat < s.sr.ntsize.toNat ∧ (reg s 1).toNat % 4 = 0 ∧
     (reg s 2).toNat % 4 = 0 ∧ (reg s 3).toNat % 4 = 0 ∧ (reg s 1).toNat + 4 * s.sr.ncoef.toNat ≤ lmemSize s ∧
     (reg s 2).toNat + 4 * s.sr.ntsize.toNat ≤ lmemSize s ∧ (reg s 3).toNat + 4 * s.sr.ncoef.toNat ≤ lmemSize s ∧
     (reg s 2).toNat + 4 * s.sr.ntsize.toNat ≤ (reg s 1).toNat ∧ (reg s 3).toNat = (reg s 1).toNat ∧
     (∀ i, i < s.sr.ntsize.toNat → HoldsWord s.mem ((reg s 2).toNat + 4 * i) 0x8000) ∧
     ∀ i, i < s.sr.ncoef.toNat → HoldsWord s.mem ((reg s 3).toNat + 4 * i) 0x20000) := by
  refine ⟨by decide, by decide, by decide, by decide, by decide, by decide, by decide, by decide, by decide, by decide, by decide, ?_, ?_⟩
  all_goals
    intro i hi
    have hi : i < 1 := hi
    obtain rfl : i = 0 := by omega
    exact holds_word rfl

/-- A count of 0 at any address, and a region that ends with LMEM. -/
theorem witness_NgenGenerates : (reg (regs [(1, 3)] (base [])) 2).toNat = 0 ∧
    (let s := regs [(1, 0x3FFF0), (2, 4)] (base [])
     (reg s 1).toNat % 4 = 0 ∧ (reg s 1).toNat + 4 * (reg s 2).toNat ≤ lmemSize s) := by decide

/-- Two complex elements at the end of LMEM. -/
def twoPoint : State :=
  regs [(1, 0x3FFF0), (2, 0x500)] (base (words 0x500 [0x40000000, 0] (words 0x3FFF0 [0x10000, 0x20000, 0x30000, 0xFFFC0000] [])))

theorem twoPoint_elements : ∀ k, k < 2 →
    HoldsC twoPoint.mem 0x3FFF0 k (if k = 0 then (0x10000, 0x20000) else (0x30000, -0x40000)) := by
  intro k hk
  obtain rfl | rfl : k = 0 ∨ k = 1 := by omega
  all_goals exact ⟨holds_word rfl, holds_word rfl⟩

theorem witness_BrevPermutes :
    (reg twoPoint 1).toNat % 4 = 0 ∧ (reg twoPoint 1).toNat + 8 * 2 ^ (1#4).toNat ≤ lmemSize twoPoint ∧
    (∀ k, k < 2 ^ (1#4).toNat → HoldsC twoPoint.mem (reg twoPoint 1).toNat k (if k = 0 then (0x10000, 0x20000) else (0x30000, -0x40000))) ∧
    Reversed (1#4).toNat 1 1 := by
  refine ⟨by decide, by decide, twoPoint_elements, by decide, by decide, ?_⟩
  intro i hi
  have hi : i < 1 := hi
  obtain rfl : i = 0 := by omega
  decide

theorem witness_FftRunsItsStages :
    1 ≤ (1#4).toNat ∧ (reg twoPoint 1).toNat % 4 = 0 ∧ (reg twoPoint 1).toNat + 8 * 2 ^ (1#4).toNat ≤ lmemSize twoPoint ∧
    (reg twoPoint 2).toNat % 4 = 0 ∧ (reg twoPoint 2).toNat + 4 * 2 ^ (1#4).toNat ≤ lmemSize twoPoint ∧
    (reg twoPoint 2).toNat + 4 * 2 ^ (1#4).toNat ≤ (reg twoPoint 1).toNat ∧
    (∀ k, k < 2 ^ (1#4).toNat → HoldsC twoPoint.mem (reg twoPoint 1).toNat k (if k = 0 then (0x10000, 0x20000) else (0x30000, -0x40000))) ∧
    (∀ k, k < 2 ^ (1#4).toNat / 2 → HoldsC twoPoint.mem (reg twoPoint 2).toNat k (0x40000000, 0)) := by
  refine ⟨by decide, by decide, by decide, by decide, by decide, by decide, twoPoint_elements, ?_⟩
  intro k hk
  have hk : k < 1 := hk
  obtain rfl : k = 0 := by omega
  exact ⟨holds_word rfl, holds_word rfl⟩

/-- The smallest IMDCT, n = 3: four coefficients, tables, and an output that ends with LMEM. -/
def imdctState : State := srs [(.mdtrig, 0x800), (.mdtw, 0x900)] (regs [(1, 0x3FFE0), (2, 0xA40)] (base
  (words 0x800 [0xC04EE4B8, 0xF9BA1651, 0xC04EE4B8, 0xF9BA1651] (words 0x900 [0x40000000, 0] (words 0xA40 [0x10000, 0x10000, 0x10000, 0x10000] [])))))

theorem witness_ImdctTransforms :
    (let s := imdctState
     let n4 := 2 ^ ((3#4).toNat - 2)
     3 ≤ (3#4).toNat ∧ (reg s 1).toNat % 4 = 0 ∧ (reg s 1).toNat + 16 * n4 ≤ lmemSize s ∧ (reg s 2).toNat % 4 = 0 ∧
     (reg s 2).toNat + 8 * n4 ≤ lmemSize s ∧ s.sr.mdtrig.toNat % 4 = 0 ∧ s.sr.mdtrig.toNat + 8 * n4 ≤ lmemSize s ∧
     s.sr.mdtw.toNat % 4 = 0 ∧ s.sr.mdtw.toNat + 4 * n4 ≤ lmemSize s ∧ (reg s 2).toNat + 8 * n4 ≤ (reg s 1).toNat ∧
     s.sr.mdtrig.toNat + 8 * n4 ≤ (reg s 1).toNat ∧ s.sr.mdtw.toNat + 4 * n4 ≤ (reg s 1).toNat ∧
     (∀ k, k < 2 * n4 → HoldsWord s.mem ((reg s 2).toNat + 4 * k) 0x10000) ∧
     (∀ k, k < n4 → HoldsC s.mem s.sr.mdtrig.toNat k (-1068571464, -105245103)) ∧
     ∀ k, k < n4 / 2 → HoldsC s.mem s.sr.mdtw.toNat k (0x40000000, 0)) := by
  refine ⟨by decide, by decide, by decide, by decide, by decide, by decide, by decide, by decide, by decide, by decide, by decide,
    by decide, ?_, ?_, ?_⟩
  · intro k hk
    have hk : k < 4 := hk
    obtain rfl | rfl | rfl | rfl : k = 0 ∨ k = 1 ∨ k = 2 ∨ k = 3 := by omega
    all_goals exact holds_word rfl
  · intro k hk
    have hk : k < 2 := hk
    obtain rfl | rfl : k = 0 ∨ k = 1 := by omega
    all_goals exact ⟨holds_word rfl, holds_word rfl⟩
  · intro k hk
    have hk : k < 1 := hk
    obtain rfl : k = 0 := by omega
    exact ⟨holds_word rfl, holds_word rfl⟩

/-- The smallest WOLA, exponents 1, 1 and 1, with one window for both sides and the frame buffer at the end of LMEM. -/
def wolaState : State := srs [(.wcfg, 0x10101), (.wdir, 0x104)] (regs [(1, 0x3FFF0), (2, 0x900)] (base (words 0x108 [0x240]
  (words 0x240 [0x187DE2A7, 0x187DE2A7] (words 0x900 [5, 5, 5, 5] (words 0x3FFF0 [9, 9, 0, 0] []))))))

theorem witness_WolaOverlapsAndAdds :
    (let s := wolaState
     let B := 2 ^ s.sr.wcb.toNat
     1 ≤ s.sr.wpb.toNat ∧ s.sr.wpb.toNat ≤ 14 ∧ 1 ≤ s.sr.wcb.toNat ∧ s.sr.wcb.toNat ≤ 14 ∧ 1 ≤ s.sr.wnb.toNat ∧ s.sr.wnb.toNat ≤ 14 ∧
     (reg s 1).toNat % 4 = 0 ∧ (reg s 1).toNat + 8 * B ≤ lmemSize s ∧ (reg s 2).toNat % 4 = 0 ∧ (reg s 2).toNat + 8 * B ≤ lmemSize s ∧
     s.sr.wdir.toNat % 4 = 0 ∧ (s.sr.wdir.toNat + 4 * min s.sr.wcb.toNat s.sr.wpb.toNat) % 2 ^ 32 + 4 ≤ lmemSize s ∧
     (s.sr.wdir.toNat + 4 * min s.sr.wcb.toNat s.sr.wnb.toNat) % 2 ^ 32 + 4 ≤ lmemSize s ∧
     HoldsWord s.mem ((s.sr.wdir.toNat + 4 * min s.sr.wcb.toNat s.sr.wpb.toNat) % 2 ^ 32) (0x240#32).toInt ∧
     HoldsWord s.mem ((s.sr.wdir.toNat + 4 * min s.sr.wcb.toNat s.sr.wnb.toNat) % 2 ^ 32) (0x240#32).toInt ∧
     (0x240#32).toNat % 4 = 0 ∧ (0x240#32).toNat + 4 * 2 ^ min s.sr.wcb.toNat s.sr.wpb.toNat ≤ lmemSize s ∧
     (0x240#32).toNat + 4 * 2 ^ min s.sr.wcb.toNat s.sr.wnb.toNat ≤ lmemSize s ∧ (reg s 2).toNat + 8 * B ≤ (reg s 1).toNat ∧
     (0x240#32).toNat + 4 * 2 ^ min s.sr.wcb.toNat s.sr.wpb.toNat ≤ (reg s 1).toNat ∧
     (0x240#32).toNat + 4 * 2 ^ min s.sr.wcb.toNat s.sr.wnb.toNat ≤ (reg s 1).toNat ∧
     (∀ i, i < B → HoldsWord s.mem ((reg s 1).toNat + 4 * i) 9) ∧ (∀ i, i < 2 * B → HoldsWord s.mem ((reg s 2).toNat + 4 * i) 5) ∧
     ∀ i, i < 2 ^ min s.sr.wcb.toNat s.sr.wpb.toNat → HoldsWord s.mem ((0x240#32).toNat + 4 * i) 0x187DE2A7) := by
  refine ⟨by decide, by decide, by decide, by decide, by decide, by decide, by decide, by decide, by decide, by decide, by decide, by decide,
    by decide, holds_word rfl, holds_word rfl, by decide, by decide, by decide, by decide, by decide, by decide, ?_, ?_, ?_⟩
  · intro i hi
    have hi : i < 2 := hi
    obtain rfl | rfl : i = 0 ∨ i = 1 := by omega
    all_goals exact holds_word rfl
  · intro i hi
    have hi : i < 4 := hi
    obtain rfl | rfl | rfl | rfl : i = 0 ∨ i = 1 ∨ i = 2 ∨ i = 3 := by omega
    all_goals exact holds_word rfl
  · intro i hi
    have hi : i < 2 := hi
    obtain rfl | rfl : i = 0 ∨ i = 1 := by omega
    all_goals exact holds_word rfl

/-- A length of 0 at any address, and two words at the end of LMEM. -/
theorem witness_FshiftMovesDown : (reg (regs [(1, 3)] (base [])) 3).toNat = 0 ∧
    (let s := regs [(1, 0x3FFF8), (2, 1), (3, 2)] (base (words 0x3FFF8 [6, 6] []))
     (reg s 1).toNat % 4 = 0 ∧ (reg s 1).toNat + 4 * (reg s 3).toNat ≤ lmemSize s ∧
       ∀ i, i < (reg s 3).toNat → HoldsWord s.mem ((reg s 1).toNat + 4 * i) 6) := by
  refine ⟨by decide, by decide, by decide, ?_⟩
  intro i hi
  have hi : i < 2 := hi
  obtain rfl | rfl : i = 0 ∨ i = 1 := by omega
  all_goals exact holds_word rfl

/-- A count of 0 at any address, and one sample whose halfword is the last of LMEM. -/
theorem witness_PcmoutConverts : (reg (regs [(1, 3)] (base [])) 3).toNat = 0 ∧
    (let s := regs [(1, 0x3FFFE), (2, 0x400), (3, 1)] (base (words 0x400 [0x18000] []))
     (reg s 1).toNat % 2 = 0 ∧ (reg s 1).toNat + 2 * (((7#3).toNat + 1) * ((reg s 3).toNat - 1) + 1) ≤ lmemSize s ∧ (reg s 2).toNat % 4 = 0 ∧
       (reg s 2).toNat + 4 * (reg s 3).toNat ≤ lmemSize s ∧ (reg s 2).toNat + 4 * (reg s 3).toNat ≤ (reg s 1).toNat ∧
       ∀ i, i < (reg s 3).toNat → HoldsWord s.mem ((reg s 2).toNat + 4 * i) 0x18000) := by
  refine ⟨by decide, by decide, by decide, by decide, by decide, by decide, ?_⟩
  intro i hi
  have hi : i < 1 := hi
  obtain rfl : i = 0 := by omega
  exact holds_word rfl

/-- NCOEF 0 and 65537; NTSIZE 0; NIDX = NTSIZE; WCFG exponents 0 and 15. -/
theorem witness_ArrayCommandsCheckFirst_config :
    ((srs [(.ncoef, 0)] (base [])).sr.ncoef.toNat = 0 ∧ 65536 < (srs [(.ncoef, 65537)] (base [])).sr.ncoef.toNat) ∧
    (let s := srs [(.ncoef, 65536), (.ntsize, 0)] (base []); 1 ≤ s.sr.ncoef.toNat ∧ s.sr.ncoef.toNat ≤ 65536 ∧ s.sr.ntsize.toNat = 0) ∧
    (let s := srs [(.ncoef, 1), (.nidx, 8192)] (base [])
     1 ≤ s.sr.ncoef.toNat ∧ s.sr.ncoef.toNat ≤ 65536 ∧ 0 < s.sr.ntsize.toNat ∧ s.sr.ntsize.toNat ≤ s.sr.nidx.toNat) ∧
    ¬1 ≤ (base []).sr.wpb.toNat ∧ ¬(srs [(.wcfg, 0x0F0101)] (base [])).sr.wnb.toNat ≤ 14 := by decide

/-- The first, second, third and fourth region misaligned, and one word past LMEM; regions that end with LMEM pass. -/
theorem witness_ArrayCommandsCheckFirst_regions :
    let ok : Word × Nat × Nat := (0x3FFF8, 8, 4)
    firstBadRegion 262144 [(0x3FFF9, 8, 4), ok] = some (.dalign, 0x3FFF9) ∧ firstBadRegion 262144 [(0x3FFFC, 8, 4), ok] = some (.daddr, 0x3FFFC) ∧
    firstBadRegion 262144 [ok, (0x3FFFA, 8, 4)] = some (.dalign, 0x3FFFA) ∧ firstBadRegion 262144 [ok, (0x40000, 4, 4)] = some (.daddr, 0x40000) ∧
    firstBadRegion 262144 [ok, ok, (0x3FFFC, 8, 4)] = some (.daddr, 0x3FFFC) ∧ firstBadRegion 262144 [ok, ok, ok, (1, 8, 4)] = some (.dalign, 1) ∧
    firstBadRegion 262144 [(0x3FFFF, 2, 2), ok] = some (.dalign, 0x3FFFF) ∧ firstBadRegion 262144 [(0x3FFFE, 6, 2), ok] = some (.daddr, 0x3FFFE) ∧
    firstBadRegion 262144 [(3, 0, 4), ok, ok, ok] = none := by decide

/-- RLDEC's two tables, and WOLA's directory, its two entries, and its two windows: each the first check that fails; and directories at the
top of the address space, the right entry or both wrapped. -/
theorem witness_ArrayCommandsCheckFirst_tables :
    (let s := srs [(.ncoef, 2)] (regs [(2, 0x3FFF8), (3, 0x801)] (base []))
     firstBadRegion (lmemSize s) [(reg s 2, 4 * s.sr.ncoef.toNat, 4)] = none ∧ (reg s 3).toNat % 4 ≠ 0) ∧
    (let s := srs [(.ncoef, 2), (.rltab, 0x902)] (regs [(2, 0x3FFF8), (3, 0x800)] (base []))
     firstBadRegion (lmemSize s) [(reg s 2, 4 * s.sr.ncoef.toNat, 4)] = none ∧ (reg s 3).toNat % 4 = 0 ∧ s.sr.rltab.toNat % 4 ≠ 0) ∧
    (let s := regs [(1, 0x3FFE0), (2, 0x3FFC0)] (srs [(.wcfg, 0x020201), (.wdir, 0x3FFFE)] (base []))
     firstBadRegion (lmemSize s) [(reg s 1, 8 * 2 ^ s.sr.wcb.toNat, 4), (reg s 2, 8 * 2 ^ s.sr.wcb.toNat, 4)] = none ∧
       s.sr.wdir.toNat % 4 ≠ 0) ∧
    (let s := srs [(.wcfg, 0x020201), (.wdir, 0x3FFFC)] (base [])
     s.sr.wdir.toNat % 4 = 0 ∧ lmemSize s < (s.sr.wdir.toNat + 4 * min s.sr.wcb.toNat s.sr.wpb.toNat) % 2 ^ 32 + 4) ∧
    (let s := srs [(.wcfg, 0x020201), (.wdir, 0x3FFF8)] (base [])
     (s.sr.wdir.toNat + 4 * min s.sr.wcb.toNat s.sr.wpb.toNat) % 2 ^ 32 + 4 ≤ lmemSize s ∧
       lmemSize s < (s.sr.wdir.toNat + 4 * min s.sr.wcb.toNat s.sr.wnb.toNat) % 2 ^ 32 + 4) ∧
    (let s := srs [(.wcfg, 0x020201), (.wdir, 0x3FFF4)] (base (words 0x3FFF8 [0x3FFF9, 0x3FFF4] []))
     (s.sr.wdir.toNat + 4 * min s.sr.wcb.toNat s.sr.wnb.toNat) % 2 ^ 32 + 4 ≤ lmemSize s ∧
       HoldsWord s.mem ((s.sr.wdir.toNat + 4 * min s.sr.wcb.toNat s.sr.wpb.toNat) % 2 ^ 32) (0x3FFF9#32).toInt ∧
       HoldsWord s.mem ((s.sr.wdir.toNat + 4 * min s.sr.wcb.toNat s.sr.wnb.toNat) % 2 ^ 32) (0x3FFF4#32).toInt) ∧
    (let s := srs [(.wcfg, 0x020201), (.wdir, 0xFFFFFFF8)] (base [])
     lmemSize s < (s.sr.wdir.toNat + 4 * min s.sr.wcb.toNat s.sr.wpb.toNat) % 2 ^ 32 + 4 ∧ (s.sr.wdir.toNat + 4 * min s.sr.wcb.toNat s.sr.wnb.toNat) % 2 ^ 32 = 0) ∧
    (let s := srs [(.wcfg, 0x020201), (.wdir, 0xFFFFFFFC)] (base (words 0 [0x3FFF9, 0x3FFF4] []))
     (s.sr.wdir.toNat + 4 * min s.sr.wcb.toNat s.sr.wnb.toNat) % 2 ^ 32 + 4 ≤ lmemSize s ∧
       HoldsWord s.mem ((s.sr.wdir.toNat + 4 * min s.sr.wcb.toNat s.sr.wpb.toNat) % 2 ^ 32) (0x3FFF9#32).toInt ∧
       HoldsWord s.mem ((s.sr.wdir.toNat + 4 * min s.sr.wcb.toNat s.sr.wnb.toNat) % 2 ^ 32) (0x3FFF4#32).toInt) :=
  ⟨by decide, by decide, by decide, by decide, by decide, ⟨by decide, holds_word rfl, holds_word rfl⟩, by decide, by decide,
    holds_word rfl, holds_word rfl⟩

/-- The directory at 0xFFFFFFFC has its entries 1 and 2 at addresses 0 and 4 (00_scope R20). -/
theorem test_wola_directory_wraps :
    wolaChecks (srs [(.wcfg, 0x020201), (.wdir, 0xFFFFFFFC)] (base (words 0 [0x240, 0x260] []))) 0x3FFE0 0x3FFC0 = .ok (0x240, 0x260) := by
  decide

/-! ### The host -/

theorem witness_StartBeginsARun : ((5#32).getLsbD 0 = true ∧ (5#32).getLsbD 1 = false) ∧ ((4#32).getLsbD 0 = false ∧ (4#32).getLsbD 1 = false) ∧
    State.reset.ctl.busy = false ∧ (running 0 0#32).ctl.busy = true := by decide

/-- PC, R0, R15, SR0, SR22, and the first and last places of LMEM, while BUSY = 1. -/
theorem witness_BusyBlockIsProtected :
    (running 0 0#32).ctl.busy = true ∧
    (∀ off ∈ [0x00C, 0x100, 0x13C, 0x200, 0x258],
      off = 0x00C ∨ (off % 4 = 0 ∧ 0x100 ≤ off ∧ off < 0x140) ∨ (off % 4 = 0 ∧ 0x200 ≤ off ∧ off ≤ 0x258)) ∧
    (∀ off ∈ [0x100000, 0x100001, 0x13FFFF], 0x100000 ≤ off ∧ off < 0x100000 + lmemSize (running 0 0#32)) := by decide

/-- Accesses that end with LMEM, held bytes, and accesses that are misaligned or run one byte past LMEM, while BUSY = 0. -/
theorem witness_IdleBlockIsOpenToTheHost : State.reset.ctl.busy = false ∧ SReg.bspos ∈ [SReg.bsbase, .bslen, .bspos] ∧
    SReg.wcfg ∉ [SReg.bsbase, .bslen, .bspos] ∧
    (∀ p ∈ [(0, HostWidth.word), (0x3FFFC, .word), (0x3FFFE, .half), (0x3FFFF, .byte)],
      p.1 % hostBytes p.2 = 0 ∧ p.1 + hostBytes p.2 ≤ lmemSize State.reset) ∧
    HoldsBytes { State.reset with mem := words 0x3FFFC [0x81828384] [] }.mem 0x3FFFC 4 0x81828384 ∧
    (∀ p ∈ [(0x3FFFE, HostWidth.word), (0x3FFFF, .half), (1, .half), (0x40000, .byte)],
      p.1 % hostBytes p.2 ≠ 0 ∨ lmemSize State.reset < p.1 + hostBytes p.2) := by
  refine ⟨by decide, by decide, by decide, by decide, ?_, by decide⟩
  intro k hk
  obtain rfl | rfl | rfl | rfl : k = 0 ∨ k = 1 ∨ k = 2 ∨ k = 3 := by omega
  all_goals exact ⟨_, rfl, by decide⟩

/-- The gaps of the register window, a register read as a byte and a misaligned one, the gap between the windows, and the first offset past
LMEM. -/
theorem witness_StatusAndInterrupt : State.reset.ctl.cause = .none ∧
    (∀ p ∈ [(0x01C, HostWidth.word), (0x0FC, .word), (0x140, .word), (0x1FC, .word), (0x25C, .word), (0xFFC, .word), (0x008, .byte), (0x002, .word)],
      p.1 < 0x1000 ∧ (p.2 ≠ .word ∨ p.1 % 4 ≠ 0 ∨ (0x01C ≤ p.1 ∧ p.1 < 0x100) ∨ (0x140 ≤ p.1 ∧ p.1 < 0x200) ∨ 0x25C ≤ p.1)) ∧
    (∀ off ∈ [0x1000, 0xFFFFF], 0x1000 ≤ off ∧ off < 0x100000) ∧ 0x100000 + lmemSize State.reset ≤ 0x140000 := by decide

/-- R115: a misaligned access of LMEM while busy sets HERR; while idle it does not. -/
theorem test_host_misaligned_herr : (hostWrite 0x100001 .word 1 (running 0 0#32)).ctl.herr = true ∧
    (hostWrite 0x100001 .word 1 State.reset).ctl.herr = false := by decide

/-- R106, R113: the host's word 0x11223344 leaves 0x44 at the lowest byte, and its halfword at +2 reads 0x1122. -/
theorem test_host_little_endian : memGet 0x20 (hostWrite 0x100020 .word 0x11223344#32 State.reset).mem = some 0x44#8 ∧
    ∃ t, hostRead 0x100022 .half (hostWrite 0x100020 .word 0x11223344#32 State.reset) = .next (0x1122#32, t) := ⟨by decide, _, rfl⟩

end Sys2Proof.Tests
end

section
/-! PROOFS. What one instruction leaves of the state: one inversion lemma for the whole instruction set (`exec_straight`), with HALT, the
jumps, BSINIT and MTS, each of which does what no other instruction does, beside it. -/

namespace Sys2Proof.Machine

/-! ## What a completed instruction keeps -/

/-- What every instruction but HALT, BSINIT and MTS keeps when it completes: STATUS and the other control registers, the stream, the flags
already set, and all that lies outside LMEM; the cursor only moves forward, inside the stream. -/
structure Carried (i : Instr) (s t : State) : Prop where
  ctl : t.ctl = s.ctl
  abortPending : t.abortPending = s.abortPending
  lmemLog : t.lmemLog = s.lmemLog
  bsbase : t.sr.bsbase = s.sr.bsbase
  bslen : t.sr.bslen = s.sr.bslen
  forward : s.sr.bspos.toNat ≤ t.sr.bspos.toNat
  cursor : s.sr.bspos.toNat ≤ s.sr.bslen.toNat → t.sr.bspos.toNat ≤ s.sr.bslen.toNat
  flags : ∃ f, t.sr.astat = s.sr.astat ||| f
  mem : i.wellFormed = true → Touches 0 (lmemSize s) s.mem t.mem

namespace Carried

variable {i : Instr} {s t : State}

theorem refl (i : Instr) (s : State) : Carried i s s where
  ctl := rfl
  abortPending := rfl
  lmemLog := rfl
  bsbase := rfl
  bslen := rfl
  forward := Nat.le_refl _
  cursor := id
  flags := ⟨0, by simp⟩
  mem := fun _ => .refl _ _ _

theorem setReg (h : Carried i s t) (r : Reg) (v : Word) : Carried i s (setReg t r v) := { h with }

theorem setPair (h : Carried i s t) (p : Pair) (v : Int) : Carried i s (setPair t p v) := { h with }

theorem advance (h : Carried i s t) : Carried i s (advance t) := { h with }

theorem jumpTo (h : Carried i s t) (p : Word) : Carried i s (jumpTo t p) := { h with }

theorem orFlags (h : Carried i s t) (f : BitVec 4) : Carried i s (orFlags t f) :=
  { h with flags := h.flags.imp' (· ||| f) fun g hg => by rw [orFlags_sr, hg, BitVec.or_assoc] }

/-- The cursor moved forward inside the stream. -/
theorem setPos (h : Carried i s t) {n : Nat} (hpos : s.sr.bspos.toNat ≤ n) (hlen : n ≤ s.sr.bslen.toNat) :
    Carried i s (setPos t n) := by
  have hn : (BitVec.ofNat 32 n).toNat = n := by
    rw [BitVec.toNat_ofNat]; exact Nat.mod_eq_of_lt (by have := s.sr.bslen.isLt; omega)
  exact { h with forward := by rwa [setPos_sr, hn], cursor := fun _ => by rwa [setPos_sr, hn] }

/-- LMEM written inside its bounds. -/
theorem withMem (h : Carried i s t) {m : Memory} (hm : i.wellFormed = true → Touches 0 (lmemSize s) s.mem m) :
    Carried i s (withMem t m) :=
  { h with mem := hm }

/-- An array command commits LMEM and ASTAT (10_state R46, R52). -/
theorem commitWork (h : Carried i s t) {w : Work} (hm : i.wellFormed = true → Touches 0 (lmemSize s) s.mem w.mem) :
    Carried i s (commitWork t w) := ((h.withMem hm).orFlags _).advance

end Carried

/-! ## How an instruction ends -/

/-- The instruction at PC faulted: its fault entry, at its own address, with LMEM as it has left it (60_exceptions R501, R503, R505). -/
def FaultsAt (s t : State) : Prop :=
  ∃ c n m, c ∈ instrCauses ∧ Touches 0 (lmemSize s) s.mem m ∧ t = takeFault c s.pc n (withMem s m)

/-- The instruction completes and goes on to the next word, or it faults. -/
def Straight (i : Instr) (s t : State) : Prop := (Carried i s t ∧ t.pc = s.pc + 4) ∨ FaultsAt s t

/-- All that the pseudocode of a straight-line instruction comes to: a completed state, or a stop with a cause. -/
inductive RunEnds (i : Instr) (s : State) : Run State → Prop
  | done {u : State} (h : Carried i s u) (hpc : u.pc = s.pc + 4) : RunEnds i s (.ok u)
  | stop {e : Stop} (h : e.named) : RunEnds i s (.error e)

theorem RunEnds.raise {i : Instr} {s : State} {c : Cause} (n : Nat) (h : c ∈ instrCauses) : RunEnds i s (raise c n) := .stop h

/-- A run that stops where a named run stops. -/
theorem RunEnds.forward {i : Instr} {s : State} {α : Type} {r : Run α} {e : Stop} (h : Named r) (he : r = .error e) :
    RunEnds i s (.error e) := .stop (h e he)

/-- What `conclude` makes of such a run, with the LMEM writes made so far. -/
theorem RunEnds.conclude_withMem {i : Instr} {s t : State} {r : Run State} {m : Memory} (h : RunEnds i s r)
    (hm : Touches 0 (lmemSize s) s.mem m) (hc : conclude (withMem s m) r = .next t) : Straight i s t := by
  cases h with
  | done h hpc => cases hc; exact .inl ⟨h, hpc⟩
  | @stop e h =>
    cases e with
    | raise c n => cases hc; exact .inr ⟨c, n, m, h, hm, rfl⟩
    | stuck f => cases hc

theorem RunEnds.conclude {i : Instr} {s t : State} {r : Run State} (h : RunEnds i s r) (hc : conclude s r = .next t) :
    Straight i s t := h.conclude_withMem (.refl _ _ _) hc

/-! ## Registers and flags (41_fixedpoint, 48_integer) -/

section Registers

variable {i : Instr} {s t : State}

theorem intResult_straight {rd : Reg} {v : Word} (h : intResult rd v s = .next t) : Straight i s t := by
  cases h; exact .inl ⟨((Carried.refl i s).setReg rd v).advance, rfl⟩

theorem fxPut_straight {rd : Reg} {v : Word} {f : BitVec 4} (h : fxPut rd v f s = .next t) : Straight i s t := by
  cases h; exact .inl ⟨(((Carried.refl i s).setReg rd v).orFlags f).advance, rfl⟩

theorem fxResult_straight {rd : Reg} {v : Int} (h : fxResult rd v s = .next t) : Straight i s t := fxPut_straight h

theorem wideResult_straight {pd : Pair} {v : Int} (h : wideResult pd v s = .next t) : Straight i s t := by
  cases h; exact .inl ⟨(((Carried.refl i s).setPair pd _).orFlags _).advance, rfl⟩

theorem fdiv_straight {rd rs rt : Reg} (h : execFdiv rd rs rt s = .next t) : Straight i s t := by
  unfold execFdiv at h
  split at h
  · exact fxPut_straight h
  · exact fxResult_straight h

theorem fsqrt_straight {rd rs : Reg} (h : execFsqrt rd rs s = .next t) : Straight i s t := by
  unfold execFsqrt at h
  split at h
  · exact fxPut_straight h
  · exact fxPut_straight h

theorem wdiv_straight {pd ps pt : Pair} (h : execWdiv pd ps pt s = .next t) : Straight i s t := by
  unfold execWdiv at h
  split at h
  · cases h; exact .inl ⟨(((Carried.refl i s).setPair pd _).orFlags flagDz).advance, rfl⟩
  · exact wideResult_straight h

theorem wext_straight {pd : Pair} {rs : Reg} (h : execWext pd rs s = .next t) : Straight i s t := by
  cases h; exact .inl ⟨((Carried.refl i s).setPair pd _).advance, rfl⟩

theorem sincos_straight {rsin rphase rcos : Reg} (h : execSincos rsin rphase rcos s = .next t) : Straight i s t := by
  cases h; exact .inl ⟨((((Carried.refl i s).setReg rsin _).setReg rcos _).orFlags _).advance, rfl⟩

end Registers

/-! ## Loads and stores (49_loadstore) -/

section LoadStore

variable {i : Instr} {s t : State} {n : Nat} {rb : Reg} {imm : BitVec 18}

theorem load_straight {ext : Nat → Word} {rd : Reg} (h : load n ext rd rb imm s = .next t) : Straight i s t := by
  refine RunEnds.conclude ?_ h
  split
  · rename_i e he; exact .forward (named_memRead _ _ _ _) he
  · exact .done ((Carried.refl i s).setReg rd _).advance rfl

theorem store_straight {rv : Reg} (h : store n rv rb imm s = .next t) : Straight i s t := by
  refine RunEnds.conclude ?_ h
  rcases memWrite_cases (lmemSize s) s.mem (effAddr s rb imm).toNat n (reg s rv).toNat with ⟨-, hle, e⟩ | ⟨-, e⟩ | ⟨-, -, e⟩
  · rw [e]; exact .done ((Carried.refl i s).withMem fun _ => touches_writeLE n _ s.mem (Nat.zero_le _) hle).advance rfl
  · rw [e]; exact .raise _ (by decide)
  · rw [e]; exact .raise _ (by decide)

end LoadStore

/-! ## The bit reader (42_bitreader) and the lookups (43_vlc) -/

section Stream

variable {i : Instr} {s t : State}

theorem peekInto_ends (rd : Reg) (n : Nat) : RunEnds i s (peekInto rd n s) := by
  unfold peekInto
  split
  · rename_i e he; exact .forward (named_peekBits _ _ _ _) he
  · exact .done ((Carried.refl i s).setReg rd _).advance rfl

theorem readInto_ends (rd : Reg) (n : Nat) : RunEnds i s (readInto rd n s) := by
  unfold readInto
  split
  · rename_i e he; exact .forward (named_takeBits _ _ _ _) he
  · rename_i r hr
    obtain ⟨hpos, hlen, -⟩ := takeBits_pos hr
    exact .done (((Carried.refl i s).setReg rd _).setPos (by omega) (by omega)).advance rfl

theorem skipBits_ends (n : Nat) : RunEnds i s (skipBits n s) := by
  unfold skipBits
  split
  · exact .raise _ (by decide)
  · exact .done ((Carried.refl i s).setPos (by omega) (by omega)).advance rfl

theorem peekr_straight {rd rn : Reg} (h : execPeekr rd rn s = .next t) : Straight i s t := by
  refine RunEnds.conclude ?_ h
  split
  · exact .raise _ (by decide)
  · exact peekInto_ends rd _

theorem readr_straight {rd rn : Reg} (h : execReadr rd rn s = .next t) : Straight i s t := by
  refine RunEnds.conclude ?_ h
  split
  · exact .raise _ (by decide)
  · exact readInto_ends rd _

theorem align_straight (h : execAlign s = .next t) : Straight i s t := by
  refine RunEnds.conclude ?_ h
  split
  · exact .raise _ (by decide)
  · exact .done ((Carried.refl i s).setPos (by omega) (by omega)).advance rfl

theorem vlcdec_straight {rd rtab : Reg} {nb : BitVec 5} (h : execVlcdec rd rtab nb s = .next t) : Straight i s t := by
  refine RunEnds.conclude ?_ h
  split
  · exact .raise _ (by decide)
  · split
    · rename_i e he; exact .forward (named_vlcLookup _ _ _ _ _) he
    · rename_i sym total hl
      have := vlcLookup_leaf hl
      exact .done (((Carried.refl i s).setReg rd _).setPos (by omega) (by omega)).advance rfl
    · exact .done (((Carried.refl i s).setReg rd _).orFlags _).advance rfl

end Stream

/-! ## Spectral commands (44_spectral) -/

section Spectral

variable {i : Instr} {s t : State}

theorem gain_straight {rd : Reg} (h : execGain rd s = .next t) : Straight i s t := by
  refine RunEnds.conclude ?_ h
  split
  · rename_i e he; exact .forward (named_gainLoop _ _ _ _ _) he
  · rename_i g pos clamped hg
    obtain ⟨hpos, hlen⟩ := gainLoop_pos hg
    exact .done { (((Carried.refl i s).setReg rd (u32 g)).setPos hpos hlen).orFlags (satFlag clamped) with } rfl

/-- RLDEC's loop with a turn to make ends inside the stream even where it does not begin there: its first code is checked against BSLEN. -/
theorem rldecLoop_ends (s : State) (cb T nb N fuel : Nat) (m : Memory) (pos p : Nat) :
    Named (rldecLoop s cb T nb N (fuel + 1) m pos p).2 ∧
      ∀ q pos', (rldecLoop s cb T nb N (fuel + 1) m pos p).2 = .ok (q, pos') → pos ≤ pos' ∧ pos' ≤ s.sr.bslen.toNat := by
  unfold rldecLoop
  split
  · rename_i e he; exact ⟨(named_rldecCode _ _ _ _ _).forward he, fun q pos' h => by cases h⟩
  · rename_i pos1 hc
    have hc := rldecCode_pos hc
    exact ⟨named_ok _, fun q pos' h => by cases h; simp only at hc; omega⟩
  · rename_i run v pos1 hc
    have hc := rldecCode_pos hc
    simp only at hc
    split
    · exact ⟨named_raise _ (by decide), fun q pos' h => by cases h⟩
    · simp only
      split
      · exact ⟨named_ok _, fun q pos' h => by cases h; omega⟩
      · obtain ⟨hn, hp⟩ := rldecLoop_spec s cb T nb N fuel (storeW m (cb + 4 * (p + run)) v) pos1 (p + run + 1) hc.2
        exact ⟨hn, fun q pos' h => by have := hp q pos' h; omega⟩

theorem rldec_straight {rd rcoef rtab : Reg} {nb : BitVec 5} (h : execRldec rd rcoef rtab nb s = .next t) : Straight i s t := by
  unfold execRldec at h
  simp only at h
  split at h
  · rename_i e he; exact RunEnds.conclude (.forward (named_rldecChecks _ _ _) he) h
  · rename_i hk
    obtain ⟨h1, -, hfit⟩ := rldecChecks_ok hk
    have hz := touches_zeroFill s.sr.ncoef.toNat s.mem (Nat.zero_le _) hfit
    have hm := hz.trans (rldecLoop_touches s (reg s rcoef).toNat (reg s rtab).toNat nb.toNat s.sr.ncoef.toNat s.sr.ncoef.toNat _
      s.sr.bspos.toNat 0 (Nat.zero_le _) hfit)
    obtain ⟨hn, hp⟩ := rldecLoop_ends s (reg s rcoef).toNat (reg s rtab).toNat nb.toNat s.sr.ncoef.toNat (s.sr.ncoef.toNat - 1)
      (zeroFill (reg s rcoef).toNat s.sr.ncoef.toNat s.mem) s.sr.bspos.toNat 0
    rw [Nat.sub_add_cancel h1] at hn hp
    refine RunEnds.conclude_withMem ?_ hm h
    split
    · rename_i e he; exact .forward hn he
    · rename_i p pos he
      obtain ⟨hpos, hlen⟩ := hp p pos he
      exact .done ((((Carried.refl i s).withMem fun _ => hm).setReg rd _).setPos hpos hlen).advance rfl

theorem deq_straight {rout rq re : Reg} (h : execDeq rout rq re s = .next t) : Straight i s t := by
  refine RunEnds.conclude ?_ h
  split
  · rename_i e he; exact .forward (named_deqChecks _ _ _ _) he
  · rename_i hk
    obtain ⟨-, hfit⟩ := deqChecks_ok hk
    split
    · rename_i e he; exact .forward (forFrom_named (fun j a => named_deqElem _ _ _ _ j a) _ _ _) he
    · rename_i w hw
      have hm := forFrom_touches (lo := 0) (hi := lmemSize s) _
        (fun j a b _ _ hj => deqElem_touches hj (Nat.zero_le _) (by omega)) hw
      exact .done ((Carried.refl i s).commitWork fun _ => hm) rfl

theorem deqn_straight {rout rnoise re : Reg} (h : execDeqn rout rnoise re s = .next t) : Straight i s t := by
  refine RunEnds.conclude ?_ h
  split
  · rename_i e he; exact .forward (named_deqnChecks _ _ _ _) he
  · rename_i hk
    obtain ⟨-, hfit⟩ := deqnChecks_ok hk
    split
    · rename_i e he; exact .forward (forFrom_named (fun j a => named_deqnElem _ _ _ _ j a) _ _ _) he
    · rename_i w hw
      have hm := forFrom_touches (lo := 0) (hi := lmemSize s) _
        (fun j a b _ _ hj => deqnElem_touches hj (Nat.zero_le _) (by omega)) hw
      exact .done { (Carried.refl i s).commitWork fun _ => hm with } rfl

/-- NGEN's loop stays in the region its check covers, an empty one included. -/
theorem ngenLoop_inside {d cnt : Nat} {u : Unit} (x : Word) (h : region (lmemSize s) d (4 * cnt) 4 = .ok u) :
    Touches 0 (lmemSize s) s.mem (ngenLoop s d cnt s.mem x).1 := by
  rcases Nat.eq_zero_or_pos cnt with rfl | hc
  · exact .refl _ _ _
  · exact ngenLoop_touches s cnt s.mem x (Nat.zero_le _) (region_bound h (by omega)).2

theorem ngen_straight {rdst rcnt : Reg} (h : execNgen rdst rcnt s = .next t) : Straight i s t := by
  refine RunEnds.conclude ?_ h
  split
  · rename_i e he; exact .forward (named_region _ _ _ _) he
  · rename_i hk
    exact .done { (Carried.refl i s).withMem fun _ => ngenLoop_inside s.sr.nseed hk with } rfl

end Spectral

/-! ## Transforms and windows (45_transform, 46_window) -/

section Arrays

variable {i : Instr} {s t : State}

theorem brev_straight {rbuf : Reg} {m : BitVec 4} (h : execBrev rbuf m s = .next t) : Straight i s t := by
  refine RunEnds.conclude ?_ h
  split
  · rename_i e he; exact .forward (named_region _ _ _ _) he
  · rename_i hk
    have hfit := (region_bound hk (by have := Nat.two_pow_pos m.toNat; omega)).2
    split
    · rename_i e he; exact .forward (forFrom_named (fun j a => named_brevElem _ _ j a) _ _ _) he
    · rename_i mem hw
      have hm := forFrom_touches_mem (lo := 0) (hi := lmemSize s) _ (fun j a b _ _ hj => brevElem_touches hj (Nat.zero_le _) hfit) hw
      exact .done ((Carried.refl i s).withMem fun _ => hm).advance rfl

theorem fft_straight {rbuf rtw : Reg} {m : BitVec 4} {sc : Bool} (h : execFft rbuf rtw m sc s = .next t) : Straight i s t := by
  refine RunEnds.conclude ?_ h
  split
  · rename_i e he; exact .forward (named_region _ _ _ _) he
  · rename_i hk
    have hfit := (region_bound hk (by have := Nat.two_pow_pos m.toNat; omega)).2
    split
    · rename_i e he; exact .forward (named_region _ _ _ _) he
    · split
      · rename_i e he; exact .forward (named_fftCore _ _ _ _ _) he
      · rename_i w hw
        exact .done ((Carried.refl i s).commitWork fun _ => fftCore_touches hw (Nat.zero_le _) hfit) rfl

/-- IMDCT needs n >= 3 (30_encoding R151) for its four quarters: below that its pseudocode would leave its output array. -/
theorem imdct_straight {rout rin : Reg} {n : BitVec 4} {sc : Bool} (h : execImdct rout rin n sc s = .next t) :
    Straight (.imdct rout rin n sc) s t := by
  refine RunEnds.conclude ?_ h
  split
  · rename_i e he; exact .forward (named_imdctChecks _ _ _ _) he
  · rename_i hk
    have hfit := imdctChecks_ok hk
    split
    · rename_i e he; exact .forward (named_imdctCore _ _ _ _ _ _ _) he
    · rename_i w hw
      refine .done ((Carried.refl _ s).commitWork fun hwf => imdctCore_touches hw ?_ (Nat.zero_le _) hfit) rfl
      simpa [Instr.wellFormed] using hwf

theorem wola_straight {rfp rin : Reg} (h : execWola rfp rin s = .next t) : Straight i s t := by
  refine RunEnds.conclude ?_ h
  split
  · rename_i e he; exact .forward (named_wolaChecks _ _ _) he
  · rename_i wl wr hk
    have hfit := wolaChecks_ok hk
    split
    · rename_i e he; exact .forward (named_wolaLeft _ _ _ _ _ _) he
    · rename_i w1 h1
      split
      · rename_i e he; exact .forward (named_wolaRight _ _ _ _ _ _) he
      · rename_i w2 h2
        have t1 := wolaLeft_touches (lo := 0) (hi := lmemSize s) h1 (Nat.zero_le _) (by omega)
        have t2 := wolaRight_touches (lo := 0) (hi := lmemSize s) h2 (Nat.zero_le _) (by omega)
        exact .done ((Carried.refl i s).commitWork fun _ => t1.trans t2) rfl

theorem fshift_straight {rbuf rk rl : Reg} (h : execFshift rbuf rk rl s = .next t) : Straight i s t := by
  refine RunEnds.conclude ?_ h
  split
  · rename_i e he; exact .forward (named_region _ _ _ _) he
  · rename_i hk
    split
    · rename_i e he; exact .forward (forFrom_named (fun j a => named_fshiftElem _ _ _ j a) _ _ _) he
    · rename_i mem hw
      have hm := forFrom_touches_mem (lo := 0) (hi := lmemSize s) _ (fun j a b _ hlt hj =>
        fshiftElem_touches hj (Nat.zero_le _) (by have := (region_bound hk (by omega)).2; omega)) hw
      exact .done ((Carried.refl i s).withMem fun _ => hm).advance rfl

theorem pcmout_straight {rdst rsrc rcnt : Reg} {chm1 : BitVec 3} (h : execPcmout rdst rsrc rcnt chm1 s = .next t) :
    Straight i s t := by
  refine RunEnds.conclude ?_ h
  split
  · rename_i e he; exact .forward (named_pcmChecks _ _ _ _ _) he
  · rename_i hk
    split
    · rename_i e he; exact .forward (forFrom_named (fun j a => named_pcmElem _ _ _ j a) _ _ _) he
    · rename_i w hw
      have hm := forFrom_touches (lo := 0) (hi := lmemSize s) _ (fun j a b _ hlt hj => by
        have hfit := pcmChecks_ok hk (by omega)
        have hj' := pcm_stride (S := chm1.toNat + 1) (Nat.zero_add _ ▸ hlt)
        exact pcmElem_touches hj (Nat.zero_le _) (by omega)) hw
      exact .done ((Carried.refl i s).commitWork fun _ => hm) rfl

end Arrays

/-! ## The instruction set -/

end Sys2Proof.Machine

namespace Sys2Proof

/-- The instructions that only go on to the next word, or fault: all but HALT, the jumps and branches, and the two that may set BSPOS
back, MTS and BSINIT. -/
def Instr.straight : Instr → Bool
  | .halt | .j _ | .jal _ _ | .jr _ => false
  | .beq _ _ _ | .bne _ _ _ | .blt _ _ _ | .bge _ _ _ | .bltu _ _ _ | .bgeu _ _ _ => false
  | .mts _ _ | .bsinit _ _ => false
  | _ => true

end Sys2Proof

namespace Sys2Proof.Machine

variable {i : Instr} {s t : State}

/-- All that a straight-line instruction does: each arm of `exec` cites the rule of what it calls. -/
theorem exec_straight (hi : i.straight = true) (h : exec i s = .next t) : Straight i s t := by
  cases i with
  | halt | j off | jal rd off | jr rs | beq ra rb off | bne ra rb off | blt ra rb off | bge ra rb off | bltu ra rb off
  | bgeu ra rb off | mts sr rs | bsinit rbase rlen => cases hi
  | nop => cases h; exact .inl ⟨(Carried.refl _ s).advance, rfl⟩
  | mfs rd sr => exact intResult_straight h
  | add rd rs rt | sub rd rs rt | and rd rs rt | or rd rs rt | xor rd rs rt | sll rd rs rt | srl rd rs rt | sra rd rs rt
  | slt rd rs rt | sltu rd rs rt | addi rd rs imm | andi rd rs imm | ori rd rs imm | xori rd rs imm | lui rd imm
  | slli rd rs sh | srli rd rs sh | srai rd rs sh => exact intResult_straight h
  | lb rd rb imm | lbu rd rb imm | lh rd rb imm | lhu rd rb imm | lw rd rb imm => exact load_straight h
  | sb rv rb imm | sh rv rb imm | sw rv rb imm => exact store_straight h
  | fmul rd rs rt | fmulr rd rs rt | fadd rd rs rt | fsub rd rs rt => exact fxResult_straight h
  | fdiv rd rs rt => exact fdiv_straight h
  | fsqrt rd rs => exact fsqrt_straight h
  | wmul pd ps rt | wmulw pd ps pt => exact wideResult_straight h
  | wdiv pd ps pt => exact wdiv_straight h
  | wext pd rs => exact wext_straight h
  | wnrw rd ps => exact intResult_straight h
  | sincos rsin rphase rcos => exact sincos_straight h
  | readr rd rn => exact readr_straight h
  | skipr rn => exact (skipBits_ends _).conclude h
  | align => exact align_straight h
  | peekr rd rn => exact peekr_straight h
  | peek rd n => exact (peekInto_ends rd _).conclude h
  | read rd n => exact (readInto_ends rd _).conclude h
  | skip n => exact (skipBits_ends _).conclude h
  | vlcdec rd rtab nb => exact vlcdec_straight h
  | gain rd => exact gain_straight h
  | rldec rd rcoef rtab nb => exact rldec_straight h
  | deq rout rq re => exact deq_straight h
  | deqn rout rnoise re => exact deqn_straight h
  | ngen rdst rcnt => exact ngen_straight h
  | brev rbuf m => exact brev_straight h
  | fft rbuf rtw m sc => exact fft_straight h
  | imdct rout rin n sc => exact imdct_straight h
  | wola rfp rin => exact wola_straight h
  | fshift rbuf rk rl => exact fshift_straight h
  | pcmout rdst rsrc rcnt chm1 => exact pcmout_straight h

end Sys2Proof.Machine
end

section
/-! PROOFS. What one step of the sequencer does (`step_cases`), and what it keeps: the machine's invariant, the host's registers. -/

namespace Sys2Proof

/-! ## What the decoder accepts (30_encoding R151, R154) -/

/-- What every answer of the decoder satisfies: the operand conditions hold, and only the word 0 is HALT. -/
def Decoded (w : Word) (i : Instr) : Prop := i.wellFormed = true ∧ (i = .halt → w = 0#32)

/-- An accepted instruction other than HALT. -/
theorem decoded_of_accept {w : Word} {zero : Bool} {i j : Instr} (h : accept zero i = .ok j) (hi : i ≠ .halt) : Decoded w j := by
  obtain ⟨-, hwf, rfl⟩ := accept_ok h
  exact ⟨hwf, fun e => absurd e hi⟩

/-- An accepted instruction of those that need an even pair field or an assigned special register: none is HALT. -/
theorem decoded_of_acceptSome {w : Word} {zero : Bool} {o : Option Instr} {j : Instr} (h : acceptSome zero o = .ok j)
    (ho : o ≠ some .halt) : Decoded w j := by
  obtain ⟨-, hwf, rfl⟩ := acceptSome_ok h
  exact ⟨hwf, fun e => absurd (congrArg some e) ho⟩

theorem decodeInt_decoded {w : Word} {i : Instr} (h : decodeInt w = .ok i) : Decoded w i := by
  unfold decodeInt at h
  simp only at h
  split at h
  case h_11 => cases h
  all_goals exact decoded_of_accept h (by simp)

theorem decodeFxp_decoded {w : Word} {i : Instr} (h : decodeFxp w = .ok i) : Decoded w i := by
  unfold decodeFxp at h
  simp only at h
  split at h
  -- the five with register pairs
  case h_7 | h_8 | h_9 | h_10 | h_11 => exact decoded_of_acceptSome h (by simp [Option.bind_eq_some_iff])
  case h_13 => cases h
  all_goals exact decoded_of_accept h (by simp)

theorem decodeBs_decoded {w : Word} {i : Instr} (h : decodeBs w = .ok i) : Decoded w i := by
  unfold decodeBs at h
  simp only at h
  split at h
  case h_6 => cases h
  all_goals exact decoded_of_accept h (by simp)

theorem decodeBlk_decoded {w : Word} {i : Instr} (h : decodeBlk w = .ok i) : Decoded w i := by
  unfold decodeBlk at h
  simp only at h
  split at h
  case h_13 => cases h
  all_goals exact decoded_of_accept h (by simp)

/-- HALT is OP 0 with every other bit 0. -/
theorem eq_zero_of_halt {w : Word} (hop : (fieldOp w).toNat = 0) (hoff : (fieldOff w == 0) = true) : w = 0#32 := by
  have hop : fieldOp w = 0 := BitVec.eq_of_toNat_eq hop
  rw [← packJ_fields w, hop, eq_of_beq hoff]
  rfl

theorem decodeWord_decoded {w : Word} {i : Instr} (h : decodeWord w = .ok i) : Decoded w i := by
  unfold decodeWord at h
  simp only at h
  split at h
  -- HALT; MFS and MTS; the four groups; a reserved OP; every other OP is one instruction
  case h_1 hop =>
    obtain ⟨hoff, hwf, rfl⟩ := accept_ok h
    exact ⟨hwf, fun _ => eq_zero_of_halt hop hoff⟩
  case h_12 | h_13 => exact decoded_of_acceptSome h (by simp)
  case h_14 => exact decodeInt_decoded h
  case h_31 => exact decodeFxp_decoded h
  case h_32 => exact decodeBs_decoded h
  case h_36 => exact decodeBlk_decoded h
  case h_37 => cases h
  all_goals exact decoded_of_accept h (by simp)

end Sys2Proof

namespace Sys2Proof.Machine

variable {i : Instr} {s t : State}

/-! ## The fetch (47_control R413) -/

/-- FAULTINFO of an address of 32 bits is the address. -/
theorem faultInfoWord_word (w : Word) : faultInfoWord w.toNat = w :=
  BitVec.eq_of_toNat_eq (faultInfoWord_toNat w.isLt)

/-- One fetched byte: it holds a value, or the model stops. -/
theorem readByte_cases (m : Memory) (a : Nat) :
    readByte m a = .error (.stuck (.unwrittenByte a)) ∨ ∃ b, memGet a m = some b ∧ readByte m a = .ok b := by
  unfold readByte
  cases memGet a m with
  | none => exact .inl rfl
  | some b => exact .inr ⟨b, rfl, rfl⟩

/-- All that the fetch can do: IALIGN, IADDR, the model's stop, or the four bytes of the word at PC. -/
theorem fetchBytes_cases (s : State) :
    (s.pc.toNat % 4 ≠ 0 ∧ fetchBytes s = raise .ialign s.pc.toNat) ∨
      (s.pc.toNat % 4 = 0 ∧ lmemSize s < s.pc.toNat + 4 ∧ fetchBytes s = raise .iaddr s.pc.toNat) ∨
      (∃ f, fetchBytes s = .error (.stuck f)) ∨
      (s.pc.toNat % 4 = 0 ∧ s.pc.toNat + 4 ≤ lmemSize s ∧ ∃ b0 b1 b2 b3, fetchBytes s = .ok [b0, b1, b2, b3] ∧
        HoldsWord s.mem s.pc.toNat (wordOfBytes b0 b1 b2 b3).toInt) := by
  unfold fetchBytes
  by_cases hal : s.pc.toNat % 4 = 0
  case neg => exact .inl ⟨hal, if_pos hal⟩
  rw [if_neg (not_not.mpr hal)]
  by_cases hin : lmemSize s < s.pc.toNat + 4
  case pos => exact .inr (.inl ⟨hal, hin, if_pos hin⟩)
  rw [if_neg hin]
  refine .inr (.inr ?_)
  rcases readByte_cases s.mem s.pc.toNat with e0 | ⟨b0, g0, e0⟩
  · exact .inl ⟨.unwrittenByte s.pc.toNat, by simp only [e0]⟩
  rcases readByte_cases s.mem (s.pc.toNat + 1) with e1 | ⟨b1, g1, e1⟩
  · exact .inl ⟨.unwrittenByte (s.pc.toNat + 1), by simp only [e0, e1]⟩
  rcases readByte_cases s.mem (s.pc.toNat + 2) with e2 | ⟨b2, g2, e2⟩
  · exact .inl ⟨.unwrittenByte (s.pc.toNat + 2), by simp only [e0, e1, e2]⟩
  rcases readByte_cases s.mem (s.pc.toNat + 3) with e3 | ⟨b3, g3, e3⟩
  · exact .inl ⟨.unwrittenByte (s.pc.toNat + 3), by simp only [e0, e1, e2, e3]⟩
  exact .inr ⟨hal, by omega, b0, b1, b2, b3, by simp only [e0, e1, e2, e3], b0, b1, b2, b3, g0, g1, g2, g3, rfl⟩

/-! ## The step (47_control R413, 60_exceptions R504) -/

theorem step_of_idle (hb : s.ctl.busy = false) : step s = .next s := by simp [step, boundary, hb]

theorem step_of_abort (hb : s.ctl.busy = true) (ha : s.abortPending = true) :
    step s = .next (takeFault .abort s.pc 0 { s with abortPending := false }) := by
  simp [step, boundary, hb, ha]

theorem step_of_fetch_raise {c : Cause} {n : Nat} (hb : s.ctl.busy = true) (ha : s.abortPending = false)
    (hf : fetchBytes s = raise c n) : step s = .next (takeFault c s.pc n s) := by
  simp [step, boundary, hb, ha, hf, raise]

theorem step_of_fetch_stuck {f : Fault} (hb : s.ctl.busy = true) (ha : s.abortPending = false)
    (hf : fetchBytes s = .error (.stuck f)) : step s = .fault f := by
  simp [step, boundary, hb, ha, hf]

theorem step_of_fetch {b0 b1 b2 b3 : Byte} (hb : s.ctl.busy = true) (ha : s.abortPending = false)
    (hf : fetchBytes s = .ok [b0, b1, b2, b3]) :
    (∃ i, decodeWord (wordOfBytes b0 b1 b2 b3) = .ok i ∧ step s = exec i s) ∨
      ∃ n, step s = .next (takeFault .illegal s.pc n s) := by
  cases hd : decodeWord (wordOfBytes b0 b1 b2 b3) with
  | ok i => exact .inl ⟨i, rfl, by simp [step, boundary, hb, ha, hf, decode_cons, hd, Except.map]⟩
  | error e => exact .inr ⟨_, by simp [step, boundary, hb, ha, hf, decode_cons, hd, Except.map]; rfl⟩

/-- All that a step can answer with a next state: nothing while idle, the entry of ABORT, of a fetch fault or of ILLEGAL, or what the
decoded instruction does. -/
theorem step_cases (h : step s = .next t) :
    (s.ctl.busy = false ∧ t = s) ∨
      (s.ctl.busy = true ∧ ∃ c n ab, c ≠ .none ∧ t = takeFault c s.pc n { s with abortPending := ab }) ∨
      ∃ i w, Fetches s w ∧ Decoded w i ∧ exec i s = .next t := by
  cases hb : s.ctl.busy with
  | false => rw [step_of_idle hb] at h; cases h; exact .inl ⟨rfl, rfl⟩
  | true =>
    cases ha : s.abortPending with
    | true => rw [step_of_abort hb ha] at h; cases h; exact .inr (.inl ⟨rfl, _, _, false, by decide, rfl⟩)
    | false =>
      rcases fetchBytes_cases s with ⟨-, hf⟩ | ⟨-, -, hf⟩ | ⟨f, hf⟩ | ⟨hal, hin, b0, b1, b2, b3, hf, hw⟩
      · rw [step_of_fetch_raise hb ha hf] at h; cases h; exact .inr (.inl ⟨rfl, _, _, s.abortPending, by decide, rfl⟩)
      · rw [step_of_fetch_raise hb ha hf] at h; cases h; exact .inr (.inl ⟨rfl, _, _, s.abortPending, by decide, rfl⟩)
      · rw [step_of_fetch_stuck hb ha hf] at h; cases h
      · rcases step_of_fetch hb ha hf with ⟨i, hd, e⟩ | ⟨n, e⟩
        · exact .inr (.inr ⟨i, _, ⟨hb, ha, hal, hin, hw⟩, decodeWord_decoded hd, e ▸ h⟩)
        · rw [e] at h; cases h; exact .inr (.inl ⟨rfl, _, _, s.abortPending, by decide, rfl⟩)

/-! ## Every instruction -/

/-- BSINIT (42_bitreader R254): DADDR for a stream that does not lie in LMEM, else the stream set and the cursor at its start. -/
theorem execBsinit_cases {rbase rlen : Reg} (h : execBsinit rbase rlen s = .next t) :
    t = takeFault .daddr s.pc (reg s rbase).toNat s ∨
      ((0 < (reg s rlen).toNat → (reg s rbase).toNat + ((reg s rlen).toNat + 7) / 8 ≤ lmemSize s) ∧
        t = advance { s with sr := { s.sr with bsbase := reg s rbase, bslen := reg s rlen, bspos := 0 } }) := by
  unfold execBsinit at h
  simp only at h
  split at h
  · cases h; exact .inl rfl
  · cases h; exact .inr ⟨fun _ => by omega, rfl⟩

theorem branch_carried {taken : Bool} {off : BitVec 18} (h : branch taken off s = .next t) : Carried i s t := by
  cases taken with
  | true => cases h; exact (Carried.refl i s).jumpTo _
  | false => cases h; exact (Carried.refl i s).advance

/-- All that an instruction can answer with a next state (10_state R46, R51, R52; 60_exceptions R501, R506). -/
theorem exec_cases (h : exec i s = .next t) :
    Carried i s t ∨ FaultsAt s t ∨ (i = .halt ∧ t = endRun (advance s)) ∨
      (∃ r rs, i = .mts r rs ∧ t = advance (writeSr s r (reg s rs))) ∨
      ∃ rbase rlen, i = .bsinit rbase rlen ∧
        (0 < (reg s rlen).toNat → (reg s rbase).toNat + ((reg s rlen).toNat + 7) / 8 ≤ lmemSize s) ∧
        t = advance { s with sr := { s.sr with bsbase := reg s rbase, bslen := reg s rlen, bspos := 0 } } := by
  cases hi : i.straight with
  | true =>
    rcases exec_straight hi h with ⟨hc, -⟩ | hf
    · exact .inl hc
    · exact .inr (.inl hf)
  | false =>
    cases i with
    | halt => cases h; exact .inr (.inr (.inl ⟨rfl, rfl⟩))
    | j off => cases h; exact .inl ((Carried.refl _ s).jumpTo _)
    | jal rd off => cases h; exact .inl (((Carried.refl _ s).setReg rd _).jumpTo _)
    | jr rs => cases h; exact .inl ((Carried.refl _ s).jumpTo _)
    | beq ra rb off | bne ra rb off | blt ra rb off | bge ra rb off | bltu ra rb off | bgeu ra rb off => exact .inl (branch_carried h)
    | mts r rs => cases h; exact .inr (.inr (.inr (.inl ⟨r, rs, rfl, rfl⟩)))
    | bsinit rbase rlen =>
      rcases execBsinit_cases h with rfl | ⟨hfit, rfl⟩
      · exact .inr (.inl ⟨_, _, s.mem, by decide, .refl _ _ _, rfl⟩)
      · exact .inr (.inr (.inr (.inr ⟨rbase, rlen, rfl, hfit, rfl⟩)))
    | _ => cases hi

/-! ## The invariant -/

/-- LMEM written inside its bounds. -/
theorem Inv.withMem (hi : Inv s) {m : Memory} (hm : Touches 0 (lmemSize s) s.mem m) : Inv (withMem s m) :=
  { hi with
    canonical := hm.wf hi.canonical
    inside := fun a ha => (hm.out a (.inr ha)).trans (hi.inside a ha) }

/-- The end of a run by a fault with a cause: DONE was 0 while the run lasted. -/
theorem Inv.takeFault (hi : Inv s) (hb : s.ctl.busy = true) {c : Cause} (hc : c ≠ .none) (pc : Word) (n : Nat) :
    Inv (takeFault c pc n s) :=
  { hi with
    running := nofun
    oneEnd := fun hd => by rw [takeFault_ctl, (hi.running hb).1] at hd; cases hd
    caused := fun _ => hc }

/-- The end of a run by HALT: FAULT and CAUSE were 0 while the run lasted. -/
theorem Inv.endRun (hi : Inv s) (hb : s.ctl.busy = true) : Inv (endRun (advance s)) :=
  { hi with
    running := nofun
    oneEnd := fun _ => (hi.running hb).2
    caused := fun hf => by rw [endRun_ctl, advance_ctl, (hi.running hb).2.1] at hf; cases hf }

/-- A legalised write of a special register keeps the cursor in its stream (10_state R51). -/
theorem Inv.writeSr (hi : Inv s) (r : SReg) (v : Word) : Inv (writeSr s r v) := by
  cases r with
  | bspos =>
    refine { hi with cursor := ?_ }
    simp only [Machine.writeSr]
    split
    · assumption
    · exact Nat.le_refl _
  | _ => exact { hi with }

theorem Inv.carried (hi : Inv s) (hc : Carried i s t) (hwf : i.wellFormed = true) : Inv t := by
  have hsize : lmemSize t = lmemSize s := by rw [lmemSize, hc.lmemLog, lmemSize]
  have hm := hc.mem hwf
  constructor
  case canonical => exact hm.wf hi.canonical
  case inside => rw [hsize]; exact fun a ha => (hm.out a (.inr ha)).trans (hi.inside a ha)
  case cursor => rw [hc.bslen]; exact hc.cursor hi.cursor
  case stream => rw [hc.bslen, hc.bsbase, hsize]; exact hi.stream
  case running => rw [hc.ctl]; exact hi.running
  case oneEnd => rw [hc.ctl]; exact hi.oneEnd
  case caused => rw [hc.ctl]; exact hi.caused

/-- No cause that an instruction raises is code 0. -/
theorem ne_none_of_instrCauses {c : Cause} (h : c ∈ instrCauses) : c ≠ .none := by
  rintro rfl; revert h; decide

theorem Inv.exec (hi : Inv s) (hb : s.ctl.busy = true) (hwf : i.wellFormed = true) (h : exec i s = .next t) : Inv t := by
  rcases exec_cases h with hc | ⟨c, n, m, hc, hm, rfl⟩ | ⟨-, rfl⟩ | ⟨r, rs, -, rfl⟩ | ⟨rbase, rlen, -, hfit, rfl⟩
  · exact hi.carried hc hwf
  · exact (hi.withMem hm).takeFault hb (ne_none_of_instrCauses hc) s.pc n
  · exact hi.endRun hb
  · exact { hi.writeSr r (reg s rs) with }
  · exact { hi with cursor := Nat.zero_le _, stream := hfit }

/-- Settles O10, along what a step can answer (`step_cases`) and what its instruction does (`exec_cases`). -/
theorem stepKeepsTheInvariant : Obligations.StepKeepsTheInvariant := by
  intro s t hi h
  rcases step_cases h with ⟨-, rfl⟩ | ⟨hb, c, n, ab, hc, rfl⟩ | ⟨i, w, hf, hd, he⟩
  · exact hi
  · have hi' : Inv { s with abortPending := ab } := { hi with }
    exact hi'.takeFault hb hc s.pc n
  · exact hi.exec hf.1 hd.1 he

end Sys2Proof.Machine
end

section
/-! PROOFS. The statements about one instruction and one step of the sequencer: the fetch, ABORT, PC, the stream, the flags, and the
registers that belong to the host. -/

namespace Sys2Proof.Machine

variable {i : Instr} {s t : State}

/-! ## What a fault of an instruction leaves (60_exceptions R501, R503) -/

theorem FaultsAt.sr (h : FaultsAt s t) : t.sr = s.sr := by
  obtain ⟨c, n, m, -, -, rfl⟩ := h; rfl

theorem FaultsAt.pc (h : FaultsAt s t) : t.pc = s.pc := by
  obtain ⟨c, n, m, -, -, rfl⟩ := h; rfl

theorem FaultsAt.fault (h : FaultsAt s t) : t.ctl.fault = true := by
  obtain ⟨c, n, m, -, -, rfl⟩ := h; rfl

/-! ## The fetch and ABORT (10_state R47, 60_exceptions R504, R509) -/

/-- Settles O7: IALIGN and then IADDR are the first two answers of the fetch (`fetchBytes_cases`). -/
theorem fetchChecksThePc : Obligations.FetchChecksThePc := by
  intro s hb ha
  have entered (c : Cause) : FaultEntered s (takeFault c s.pc s.pc.toNat s) c s.pc s.pc := by
    have h := takeFault_entered s c s.pc s.pc.toNat
    rwa [faultInfoWord_word] at h
  refine ⟨fun hal => ⟨_, step_of_fetch_raise hb ha ?_, entered .ialign⟩,
    fun hal hin => ⟨_, step_of_fetch_raise hb ha ?_, entered .iaddr⟩⟩
  · exact if_pos hal
  · rw [fetchBytes, if_neg (not_not.mpr hal), if_pos hin]

/-- A host write of 1 to CTRL.ABORT stores IRQEN, and sets the latch while busy (10_state R72). -/
theorem hostWrite_abort {v : Word} (h : v.getLsbD 1 = true) (s : State) :
    hostWrite 0x004 .word v s =
      if s.ctl.busy then { s with abortPending := true, ctl := { s.ctl with irqen := v.getLsbD 2 } }
      else { s with ctl := { s.ctl with irqen := v.getLsbD 2 } } := by
  change writeCtrl s v = _
  rw [writeCtrl, if_pos h]

/-- Settles O8: the write sets the latch, and the step looks at the latch before it fetches (`step_of_abort`). -/
theorem abortEndsTheRun : Obligations.AbortEndsTheRun := by
  intro s v h
  refine ⟨fun hb => (hostWrite_abort h s).trans (if_neg (by simp [hb])), fun hb => ?_⟩
  rw [(hostWrite_abort h s).trans (if_pos hb)]
  exact ⟨rfl, _, step_of_abort hb rfl, rfl⟩

/-! ## The stream and the flags (10_state R51, R52) -/

theorem writeSr_bsbase (s : State) (r : SReg) (v : Word) : (writeSr s r v).sr.bsbase = s.sr.bsbase := by cases r <;> rfl

theorem writeSr_bslen (s : State) (r : SReg) (v : Word) : (writeSr s r v).sr.bslen = s.sr.bslen := by cases r <;> rfl

theorem writeSr_bspos (s : State) {r : SReg} (v : Word) (h : r ≠ .bspos) : (writeSr s r v).sr.bspos = s.sr.bspos := by
  cases r <;> first | rfl | exact absurd rfl h

theorem writeSr_astat (s : State) {r : SReg} (v : Word) (h : r ≠ .astat) : (writeSr s r v).sr.astat = s.sr.astat := by
  cases r <;> first | rfl | exact absurd rfl h

/-- Settles O13, from what an instruction can do to the state (`exec_cases`). -/
theorem onlyBsinitSetsTheStream : Obligations.OnlyBsinitSetsTheStream := by
  intro i s t h hi
  rcases exec_cases h with hc | hf | ⟨-, rfl⟩ | ⟨r, rs, rfl, rfl⟩ | ⟨rbase, rlen, rfl, -⟩
  · exact ⟨hc.bsbase, hc.bslen, fun _ => hc.forward⟩
  · rw [hf.sr]; exact ⟨rfl, rfl, fun _ => Nat.le_refl _⟩
  · exact ⟨rfl, rfl, fun _ => Nat.le_refl _⟩
  · refine ⟨writeSr_bsbase s r _, writeSr_bslen s r _, fun hm => ?_⟩
    have hr : r ≠ .bspos := fun e => hm rs (by rw [e])
    rw [advance_sr, writeSr_bspos s _ hr]
  · exact absurd rfl (hi rbase rlen)

/-- Settles O14: an instruction ORs flags into ASTAT or leaves it, MTS to ASTAT alone replaces it (`exec_cases`). -/
theorem flagsAreSticky : Obligations.FlagsAreSticky := by
  intro i s t h hi k hk
  rcases exec_cases h with hc | hf | ⟨-, rfl⟩ | ⟨r, rs, rfl, rfl⟩ | ⟨rbase, rlen, -, -, rfl⟩
  · obtain ⟨f, hf⟩ := hc.flags
    rw [hf, BitVec.getLsbD_or, hk, Bool.true_or]
  · rw [hf.sr]; exact hk
  · exact hk
  · have hr : r ≠ .astat := fun e => hi rs (by rw [e])
    rw [advance_sr, writeSr_astat s _ hr]; exact hk
  · exact hk

/-! ## PC (10_state R46) -/

/-- A word offset added to PC, as numbers modulo 2^32. -/
theorem toNat_add_offset {w : Nat} (pc : Word) (off : BitVec w) :
    ((pc + 4 * off.signExtend 32).toNat : Int) = (pc.toNat + 4 * off.toInt) % 2 ^ 32 := by
  have h : pc + 4 * off.signExtend 32 = BitVec.ofInt 32 (pc.toNat + 4 * off.toInt) := by
    rw [BitVec.ofInt_add, BitVec.ofInt_mul, BitVec.ofInt_natCast, BitVec.ofNat_toNat, BitVec.setWidth_eq]
    rfl
  rw [h, BitVec.toNat_ofInt, Int.toNat_of_nonneg (Int.emod_nonneg _ (by decide))]
  rfl

theorem nextPc_of_pc (h : t.pc = s.pc + 4) : NextPc s t := by
  rw [NextPc, h, BitVec.toNat_add]; rfl

/-- A branch goes to its target when its condition holds, and to the next word when not. -/
theorem branch_pc {c : Prop} [Decidable c] {off : BitVec 18} (h : branch (decide c) off s = .next t) :
    (c → (t.pc.toNat : Int) = (s.pc.toNat + 4 * off.toInt) % 2 ^ 32) ∧ (¬c → NextPc s t) := by
  by_cases hc : c
  · rw [decide_eq_true hc] at h; cases h
    exact ⟨fun _ => toNat_add_offset s.pc off, fun hn => absurd hc hn⟩
  · rw [decide_eq_false hc] at h; cases h
    exact ⟨fun h => absurd h hc, fun _ => nextPc_of_pc rfl⟩

/-- A faulting instruction leaves PC (60_exceptions R501). -/
theorem pc_of_exec_fault (h : exec i s = .next t) (h0 : s.ctl.fault = false) (h1 : t.ctl.fault = true) : t.pc = s.pc := by
  have same : t.ctl.fault = s.ctl.fault → t.pc = s.pc := fun e => by rw [h1, h0] at e; cases e
  rcases exec_cases h with hc | hf | ⟨-, rfl⟩ | ⟨r, rs, -, rfl⟩ | ⟨rbase, rlen, -, -, rfl⟩
  · exact same (by rw [hc.ctl])
  · exact hf.pc
  · exact same rfl
  · exact same (by rw [advance_ctl, writeSr_ctl])
  · exact same rfl

/-- A straight-line instruction that does not fault goes on to the next word. -/
theorem nextPc_of_straight (hi : i.straight = true) (h : exec i s = .next t) (h1 : t.ctl.fault = false) : NextPc s t := by
  rcases exec_straight hi h with ⟨-, hpc⟩ | hf
  · exact nextPc_of_pc hpc
  · rw [hf.fault] at h1; cases h1

/-- Settles O15: the instructions that jump one by one, all others by `nextPc_of_straight`. -/
theorem pcAfterAnInstruction : Obligations.PcAfterAnInstruction := by
  intro i s t h h0
  refine ⟨pc_of_exec_fault h h0, fun h1 => ?_⟩
  cases i with
  | halt => cases h; exact ⟨nextPc_of_pc rfl, rfl⟩
  | j off => cases h; exact toNat_add_offset s.pc off
  | jal rd off => cases h; exact toNat_add_offset s.pc off
  | jr rs => cases h; rfl
  | beq ra rb off => exact branch_pc h
  | bne ra rb off => exact branch_pc (by simpa [execBne, bne, beq_eq_decide] using h)
  | blt ra rb off | bge ra rb off | bltu ra rb off | bgeu ra rb off => exact branch_pc h
  | mts r rs => cases h; exact nextPc_of_pc (by rw [advance_pc, writeSr_pc])
  | bsinit rbase rlen =>
    rcases execBsinit_cases h with rfl | ⟨-, rfl⟩
    · cases h1
    · exact nextPc_of_pc rfl
  | _ => exact nextPc_of_straight rfl h h1

/-! ## The registers of the host (60_exceptions R503, R513) -/

/-- What a step may do to the control registers (10_state R73, R75): nothing, a fault entry at PC, or the end of the run by HALT. -/
inductive ControlStep (s t : State) : Prop
  | kept (hctl : t.ctl = s.ctl)
  | faulted {c : Cause} {n : Nat} (hpc : t.pc = s.pc)
      (hctl : t.ctl = { s.ctl with busy := false, fault := true, cause := c, faultpc := s.pc, faultinfo := faultInfoWord n })
  | halted (hw : Fetches s 0#32) (hctl : t.ctl = { s.ctl with busy := false, done := true })

theorem step_control (h : step s = .next t) : t.lmemLog = s.lmemLog ∧ ControlStep s t := by
  rcases step_cases h with ⟨-, rfl⟩ | ⟨-, c, n, ab, -, rfl⟩ | ⟨i, w, hf, ⟨-, hw⟩, he⟩
  · exact ⟨rfl, .kept rfl⟩
  · exact ⟨rfl, .faulted rfl rfl⟩
  · rcases exec_cases he with hc | ⟨c, n, m, -, -, rfl⟩ | ⟨rfl, rfl⟩ | ⟨r, rs, -, rfl⟩ | ⟨rbase, rlen, -, -, rfl⟩
    · exact ⟨hc.lmemLog, .kept hc.ctl⟩
    · exact ⟨rfl, .faulted rfl rfl⟩
    · exact ⟨rfl, .halted (hw rfl ▸ hf) rfl⟩
    · exact ⟨writeSr_lmemLog s r _, .kept (writeSr_ctl s r _)⟩
    · exact ⟨rfl, .kept rfl⟩

/-- Settles O17, from the three things a step may do to the control registers (`step_control`). -/
theorem stepsLeaveTheHostRegisters : Obligations.StepsLeaveTheHostRegisters := by
  intro s t h
  obtain ⟨hlog, hstep⟩ := step_control h
  cases hstep with
  | kept hctl => rw [hctl]; exact ⟨rfl, rfl, hlog, id, .inl ⟨rfl, rfl, rfl, rfl⟩, fun hd => absurd rfl hd⟩
  | faulted hpc hctl => rw [hctl]; exact ⟨rfl, rfl, hlog, nofun, .inr ⟨rfl, rfl, rfl, hpc, rfl⟩, fun hd => absurd rfl hd⟩
  | halted hw hctl => rw [hctl]; exact ⟨rfl, rfl, hlog, nofun, .inl ⟨rfl, rfl, rfl, rfl⟩, fun _ => ⟨hw, rfl, rfl⟩⟩

end Sys2Proof.Machine
end

section
/-! PROOFS. The host's accesses: what each does to the state, that each keeps the invariant, and what it may read and write. -/

namespace Sys2Proof.Machine

variable {s t : State} {off : Nat} {wd : HostWidth} {v : Word}

/-! ## What a window offset reaches (10_state R69, R70, R78) -/

/-- The register window holds no LMEM. -/
theorem regLoc_ne_lmem (off a : Nat) : regLoc off ≠ .lmem a := by
  unfold regLoc
  repeat' split
  all_goals nofun

/-- An access that reaches LMEM lies in it. -/
theorem hostLoc_lmem_fits {size a : Nat} (h : hostLoc size off wd = .lmem a) : a + hostBytes wd ≤ size := by
  unfold hostLoc at h
  simp only at h
  split_ifs at h
  · exact absurd h (regLoc_ne_lmem off a)
  · simp only [HostLoc.lmem.injEq] at h
    omega

/-- The registers and the window that BUSY protects (10_state R74, R77; 20_memory R115). -/
def HostLoc.guarded : HostLoc → Bool
  | .pc | .gpr _ | .sreg _ | .lmem _ | .lmemBad _ => true
  | .id | .ctrl | .status | .faultpc | .faultinfo | .lmemsize | .nothing => false

/-- Each of the numbers 0 to 22 is a special register's (10_state R49). -/
theorem exists_sregNumber {k : Nat} (hk : k < 23) : ∃ r, (sregNumber r).toNat = k := by
  have h : ∀ j : Fin 23, (sregOf (BitVec.ofNat 6 j.val)).isSome = true := by decide
  obtain ⟨r, hr⟩ := Option.isSome_iff_exists.mp (h ⟨k, hk⟩)
  refine ⟨r, ?_⟩
  rw [sregOf_eq_some hr, BitVec.toNat_ofNat]
  exact Nat.mod_eq_of_lt (by omega)

/-- An access that begins in LMEM reaches LMEM, aligned or not (log entry 7). -/
theorem hostLoc_window_guarded {size a : Nat} (ha : a < size) : (hostLoc size (0x100000 + a) wd).guarded = true := by
  by_cases h : a % hostBytes wd = 0 ∧ a + hostBytes wd ≤ size
  · rw [hostLoc_lmem h.1 h.2]; rfl
  · rw [hostLoc_lmemBad ha (by omega)]; rfl

/-- Word accesses of PC, the general registers and the special registers. -/
theorem hostLoc_register_guarded {size : Nat}
    (h : off = 0x00C ∨ (off % 4 = 0 ∧ 0x100 ≤ off ∧ off < 0x140) ∨ (off % 4 = 0 ∧ 0x200 ≤ off ∧ off ≤ 0x258)) :
    (hostLoc size off .word).guarded = true := by
  rcases h with rfl | ⟨hal, hlo, hhi⟩ | ⟨hal, hlo, hhi⟩
  · rfl
  · obtain ⟨r, rfl⟩ : ∃ r : Reg, off = 0x100 + 4 * r.val := ⟨⟨(off - 0x100) / 4, by omega⟩, by simp only; omega⟩
    rw [hostLoc_gpr]; rfl
  · obtain ⟨r, hr⟩ := exists_sregNumber (k := (off - 0x200) / 4) (by omega)
    obtain rfl : off = 0x200 + 4 * (sregNumber r).toNat := by omega
    rw [hostLoc_sreg]; rfl

/-- The gaps of the register window, and accesses of it that are not aligned words. -/
theorem hostLoc_register_nothing {size : Nat} (h : off < 0x1000)
    (h' : wd ≠ .word ∨ off % 4 ≠ 0 ∨ (0x01C ≤ off ∧ off < 0x100) ∨ (0x140 ≤ off ∧ off < 0x200) ∨ 0x25C ≤ off) :
    hostLoc size off wd = .nothing := by
  unfold hostLoc
  rw [if_pos h]
  split_ifs with hal
  · obtain ⟨hwd, hal⟩ := hal
    have hgap : (0x01C ≤ off ∧ off < 0x100) ∨ (0x140 ≤ off ∧ off < 0x200) ∨ 0x25C ≤ off := by
      rcases h' with h' | h' | h'
      · exact absurd hwd h'
      · exact absurd hal h'
      · exact h'
    unfold regLoc
    iterate 9 rw [if_neg (by omega)]
  · rfl

/-- All offsets that reach nothing (10_state R69; log entry 9). -/
theorem hostLoc_nothing {size : Nat}
    (h : (off < 0x1000 ∧ (wd ≠ .word ∨ off % 4 ≠ 0 ∨ (0x01C ≤ off ∧ off < 0x100) ∨ (0x140 ≤ off ∧ off < 0x200) ∨ 0x25C ≤ off)) ∨
      (0x1000 ≤ off ∧ off < 0x100000) ∨ 0x100000 + size ≤ off) :
    hostLoc size off wd = .nothing := by
  rcases h with ⟨h, h'⟩ | ⟨hlo, hhi⟩ | hpast
  · exact hostLoc_register_nothing h h'
  · rw [hostLoc, if_neg (by omega), if_pos hhi]
  · obtain ⟨a, rfl⟩ : ∃ a, off = 0x100000 + a := ⟨off - 0x100000, by omega⟩
    exact hostLoc_past wd (by omega)

/-! ## The guarded registers and LMEM while busy (20_memory R115, 60_exceptions R519) -/

theorem hostRead_busy (hb : s.ctl.busy = true) (h : (hostLoc (lmemSize s) off wd).guarded = true) :
    hostRead off wd s = .next (0, setHerr s) := by
  unfold hostRead
  split <;> rename_i hl <;> rw [hl] at h
  -- PC, a general register, a special register, LMEM; then an access that only begins in LMEM
  case h_4 | h_8 | h_9 | h_10 => exact if_pos hb
  case h_11 => rw [badWindowAccess, if_pos hb]
  all_goals cases h

theorem hostWrite_busy (hb : s.ctl.busy = true) (h : (hostLoc (lmemSize s) off wd).guarded = true) :
    hostWrite off wd v s = setHerr s := by
  unfold hostWrite
  split <;> rename_i hl <;> rw [hl] at h
  case h_4 | h_8 | h_9 | h_10 | h_11 => exact if_pos hb
  all_goals cases h

/-- Settles O58: each of its offsets reaches a guarded location, and BUSY guards those in one way. -/
theorem busyBlockIsProtected : Obligations.BusyBlockIsProtected := by
  intro s off wd v hb h
  have hg : (hostLoc (lmemSize s) off wd).guarded = true := by
    rcases h with ⟨rfl, h⟩ | ⟨hlo, hhi⟩
    · exact hostLoc_register_guarded h
    · obtain ⟨a, rfl⟩ : ∃ a, off = 0x100000 + a := ⟨off - 0x100000, by omega⟩
      exact hostLoc_window_guarded (by omega)
  exact ⟨hostRead_busy hb hg, hostWrite_busy hb hg⟩

/-! ## The invariant under the host's accesses -/

/-- A host read changes HERR at most. -/
theorem hostRead_state {r : Word × State} (h : hostRead off wd s = .next r) : r.2 = s ∨ r.2 = setHerr s := by
  unfold hostRead at h
  split at h
  -- PC, a general register, a special register; LMEM; an access that only begins in LMEM; all else
  case h_4 | h_8 | h_9 =>
    split at h
    · cases h; exact .inr rfl
    · cases h; exact .inl rfl
  case h_10 =>
    split at h
    · cases h; exact .inr rfl
    · split at h <;> cases h <;> exact .inl rfl
  case h_11 =>
    cases h
    rcases badWindowAccess_cases s with ⟨-, e⟩ | ⟨-, e⟩
    · exact .inl e
    · exact .inr e
  all_goals cases h; exact .inl rfl

theorem Inv.setHerr (hi : Inv s) : Inv (setHerr s) := { hi with }

theorem Inv.badWindowAccess (hi : Inv s) : Inv (badWindowAccess s) := by
  rcases badWindowAccess_cases s with ⟨-, e⟩ | ⟨-, e⟩
  · rw [e]; exact hi
  · rw [e]; exact hi.setHerr

/-- The start action clears DONE, FAULT and CAUSE (60_exceptions R508). -/
theorem Inv.startRun (hi : Inv s) : Inv (startRun s) :=
  { hi with
    running := fun _ => ⟨rfl, rfl, rfl⟩
    oneEnd := nofun
    caused := nofun }

theorem Inv.writeCtrl (hi : Inv s) (v : Word) : Inv (writeCtrl s v) := by
  have hq : Inv { s with ctl := { s.ctl with irqen := v.getLsbD 2 } } := { hi with }
  unfold Machine.writeCtrl
  simp only
  split_ifs
  · exact { hq with }
  · exact hq
  · exact hq
  · exact hq.startRun
  · exact hq

/-- Clearing DONE, FAULT and HERR takes no cause away and adds none. -/
theorem Inv.writeStatus (hi : Inv s) (v : Word) : Inv (writeStatus s v) :=
  { hi with
    running := fun hb => by
      obtain ⟨hd, hf, hc⟩ := hi.running hb
      exact ⟨by simp [Machine.writeStatus, hd], by simp [Machine.writeStatus, hf], hc⟩
    oneEnd := fun hd => by
      obtain ⟨hf, hc⟩ := hi.oneEnd (Bool.and_elim_left hd)
      exact ⟨by simp [Machine.writeStatus, hf], hc⟩
    caused := fun hf => hi.caused (Bool.and_elim_left hf) }

theorem Inv.hostWriteSr (hi : Inv s) (r : SReg) (v : Word) : Inv (hostWriteSr s r v) := by
  unfold Machine.hostWriteSr
  split
  · exact hi
  · exact hi.writeSr _ v

theorem Inv.hostWrite (hi : Inv s) : Inv (hostWrite off wd v s) := by
  unfold Machine.hostWrite
  split
  -- CTRL, STATUS, PC and a general register, a special register, LMEM; the other locations ignore a write
  case h_2 => exact hi.writeCtrl v
  case h_3 => exact hi.writeStatus v
  case h_4 | h_8 =>
    split
    · exact hi.setHerr
    · exact { hi with }
  case h_9 =>
    split
    · exact hi.setHerr
    · exact hi.hostWriteSr _ v
  case h_10 a hl =>
    split
    · exact hi.setHerr
    · exact hi.withMem (touches_writeLE _ _ s.mem (Nat.zero_le _) (hostLoc_lmem_fits hl))
  case h_11 => exact hi.badWindowAccess
  all_goals exact hi

/-- Reset satisfies the invariant, for every LMEM_SIZE (70_reset R562 to R565). -/
theorem inv_resetOf (n : Fin 9) : Inv (State.resetOf n) where
  canonical := wf_reset n
  inside := fun _ _ => rfl
  cursor := Nat.le_refl _
  stream := nofun
  running := nofun
  oneEnd := nofun
  caused := nofun

/-- Settles O11: a step by O10, the host's accesses by what each does to the state, a reset by its values. -/
theorem everyEventKeepsTheInvariant : Obligations.EveryEventKeepsTheInvariant := by
  intro e s t hi h
  cases e with
  | sequencerStep => exact stepKeepsTheInvariant s t hi h
  | hostRead off wd =>
    simp only [react] at h
    split at h
    · rename_i r hr
      cases h
      rcases hostRead_state hr with e | e <;> rw [e]
      · exact hi
      · exact hi.setHerr
    · cases h
    · cases h
  | hostWrite off wd v => cases h; exact hi.hostWrite
  | reset => cases h; exact inv_resetOf s.lmemLog

end Sys2Proof.Machine
end

section
/-! PROOFS. The host's view of an idle block: registers and LMEM; and of STATUS, CTRL and the read-only registers at any time. -/

namespace Sys2Proof.Machine

variable {s t : State} {off : Nat} {wd : HostWidth} {v : Word}

/-! ## Special registers (10_state R49, R50) -/

/-- The low bits of a word, zero-extended, are the word with the others masked out. -/
theorem zeroExtend_low (v : Word) {n : Nat} (hn : n ≤ 32) :
    (v.extractLsb' 0 n).zeroExtend 32 = v &&& BitVec.ofNat 32 (2 ^ n - 1) := by
  have h : 2 ^ n ≤ 2 ^ 32 := Nat.pow_le_pow_right (by decide) hn
  have hpos := Nat.two_pow_pos n
  apply BitVec.eq_of_toNat_eq
  simp only [BitVec.truncate_eq_setWidth, BitVec.toNat_setWidth, BitVec.extractLsb'_toNat, BitVec.toNat_and, BitVec.toNat_ofNat,
    Nat.shiftRight_zero]
  rw [Nat.mod_eq_of_lt (b := 2 ^ 32) (a := 2 ^ n - 1) (by omega), Nat.and_two_pow_sub_one_eq_mod,
    Nat.mod_eq_of_lt (lt_of_lt_of_le (Nat.mod_lt _ hpos) h)]

/-- The three exponents of WCFG, read back (10_state R62). -/
theorem wcfg_fields (v : Word) :
    (0#11 ++ v.extractLsb' 16 5 ++ 0#3 ++ v.extractLsb' 8 5 ++ 0#3 ++ v.extractLsb' 0 5 : Word) = v &&& 0x001F1F1F#32 := by
  apply BitVec.eq_of_getLsbD_eq
  intro k hk
  simp only [BitVec.getLsbD_append, BitVec.getLsbD_and, BitVec.getLsbD_extractLsb']
  interval_cases k <;> simp

/-- A legalised write is read back in the bits its register uses (10_state R50). -/
theorem readSr_writeSr_self {r : SReg} (h : r ∉ [SReg.bsbase, .bslen, .bspos]) (s : State) (v : Word) :
    readSr (writeSr s r v) r = v &&& usedBits r := by
  cases r with
  | bsbase | bslen | bspos => simp at h
  | astat | escw | runw | nshift | cstages | gwid => exact zeroExtend_low v (by decide)
  | wcfg => exact wcfg_fields v
  | _ => exact (BitVec.and_allOnes (x := v)).symm

/-- A legalised write changes no other register. -/
theorem readSr_writeSr_of_ne {q r : SReg} (h : q ≠ r) (s : State) (v : Word) : readSr (writeSr s r v) q = readSr s q := by
  cases r <;> cases q <;> first | rfl | exact absurd rfl h

/-- The host's write of a special register is MTS's, but for the three of the stream (10_state R66). -/
theorem hostWriteSr_of_notMem {r : SReg} (h : r ∉ [SReg.bsbase, .bslen, .bspos]) (s : State) (v : Word) :
    hostWriteSr s r v = writeSr s r v := by
  unfold hostWriteSr
  split
  · simp at h
  · rfl

theorem hostWriteSr_of_mem {r : SReg} (h : r ∈ [SReg.bsbase, .bslen, .bspos]) (s : State) (v : Word) : hostWriteSr s r v = s := by
  simp only [List.mem_cons, List.not_mem_nil, or_false] at h
  rcases h with rfl | rfl | rfl <;> rfl

/-! ## An idle block (10_state R66, R74, R77; 20_memory R113) -/

section Idle

variable (hb : s.ctl.busy = false)

include hb

/-- BUSY guards nothing while it is 0. -/
theorem ite_busy {α : Type} (a b : α) : (if s.ctl.busy then a else b) = b := if_neg (by simp [hb])

theorem host_pc_idle (v : Word) :
    hostRead 0x00C .word s = .next (s.pc, s) ∧ hostWrite 0x00C .word v s = { s with pc := v } :=
  ⟨ite_busy hb _ _, ite_busy hb _ _⟩

theorem hostRead_gpr_idle (r : Reg) : hostRead (0x100 + 4 * r.val) .word s = .next (reg s r, s) := by
  rw [hostRead, hostLoc_gpr]; exact ite_busy hb _ _

theorem hostWrite_gpr_idle (r : Reg) (v : Word) : hostWrite (0x100 + 4 * r.val) .word v s = setReg s r v := by
  rw [hostWrite, hostLoc_gpr]; exact ite_busy hb _ _

theorem hostRead_sreg_idle (r : SReg) : hostRead (0x200 + 4 * (sregNumber r).toNat) .word s = .next (readSr s r, s) := by
  rw [hostRead, hostLoc_sreg]; exact ite_busy hb _ _

theorem hostWrite_sreg_idle (r : SReg) (v : Word) :
    hostWrite (0x200 + 4 * (sregNumber r).toNat) .word v s = hostWriteSr s r v := by
  rw [hostWrite, hostLoc_sreg]; exact ite_busy hb _ _

theorem hostRead_lmem_idle {a x : Nat} (hal : a % hostBytes wd = 0) (hin : a + hostBytes wd ≤ lmemSize s)
    (hx : x < 256 ^ hostBytes wd) (h : HoldsBytes s.mem a (hostBytes wd) x) :
    hostRead (0x100000 + a) wd s = .next (BitVec.ofNat 32 x, s) := by
  rw [hostRead, hostLoc_lmem hal hin]
  simp only [ite_busy hb, readLE_of_holdsBytes hx h]

theorem hostWrite_lmem_idle {a : Nat} (hal : a % hostBytes wd = 0) (hin : a + hostBytes wd ≤ lmemSize s) (v : Word) :
    hostWrite (0x100000 + a) wd v s = withMem s (writeLE s.mem a (hostBytes wd) v.toNat) := by
  rw [hostWrite, hostLoc_lmem hal hin]; exact ite_busy hb _ _

/-- An access of the window that is misaligned or runs past LMEM moves no byte, wherever it begins. -/
theorem host_badWindow_idle {a : Nat} (h : a % hostBytes wd ≠ 0 ∨ lmemSize s < a + hostBytes wd) (v : Word) :
    hostRead (0x100000 + a) wd s = .next (0, s) ∧ hostWrite (0x100000 + a) wd v s = s := by
  rw [hostRead, hostWrite]
  by_cases ha : a < lmemSize s
  · have e : badWindowAccess s = s := ite_busy hb _ _
    rw [hostLoc_lmemBad ha h]
    simp only [e, and_self]
  · rw [hostLoc_past wd (by omega)]
    exact ⟨rfl, rfl⟩

end Idle

/-- A write of a general register changes it alone. -/
theorem setReg_only (s : State) (r : Reg) (v : Word) : OnlyRegs s (setReg s r v) [r] :=
  ⟨fun _ hq => reg_setReg_of_ne s v (by simpa using hq), fun _ _ => rfl, ⟨rfl, rfl, rfl⟩, fun _ => rfl⟩

/-- A legalised write of a special register changes it alone. -/
theorem writeSr_only (s : State) (r : SReg) (v : Word) : OnlyRegsAndSrs s (writeSr s r v) [] [r] := by
  refine ⟨fun q _ => ?_, fun q hq => readSr_writeSr_of_ne (by simpa using hq) s v,
    ⟨writeSr_ctl s r v, writeSr_abortPending s r v, writeSr_lmemLog s r v⟩, fun a => by rw [writeSr_mem]⟩
  rw [reg, writeSr_regs, reg]

/-- A write of n bytes of LMEM changes those alone. -/
theorem writeLE_only (s : State) (a n x : Nat) : OnlyArray s (withMem s (writeLE s.mem a n x)) [] a n :=
  ⟨fun _ _ => rfl, fun _ _ => rfl, ⟨rfl, rfl, rfl⟩, (touches_writeLE n x s.mem (Nat.le_refl a) (Nat.le_refl _)).out⟩

/-- Settles O59, location by location. -/
theorem idleBlockIsOpenToTheHost : Obligations.IdleBlockIsOpenToTheHost := by
  intro s v hb
  refine ⟨host_pc_idle hb v, fun r => ⟨hostRead_gpr_idle hb r, ?_⟩, fun r => ⟨hostRead_sreg_idle hb r, ?_⟩,
    fun a wd hal hin => ⟨fun x hx h => hostRead_lmem_idle hb hal hin hx h, ?_⟩, fun a wd h => host_badWindow_idle hb h v⟩
  · rw [hostWrite_gpr_idle hb]
    exact ⟨reg_setReg_self s r v, setReg_only s r v, rfl⟩
  · rw [hostWrite_sreg_idle hb]
    refine ⟨fun hr => hostWriteSr_of_mem hr s v, fun hr => ?_⟩
    rw [hostWriteSr_of_notMem hr]
    exact ⟨readSr_writeSr_self hr s v, writeSr_only s r v, writeSr_pc s r v⟩
  · rw [hostWrite_lmem_idle hb hal hin]
    exact ⟨holdsBytes_writeLE s.mem a _ v.toNat, writeLE_only s a _ _, rfl⟩

/-! ## STATUS, CTRL and the read-only registers (10_state R71 to R76, 60_exceptions R502, R507) -/

/-- A concatenation as a number. -/
theorem toNat_append_add {m n : Nat} (x : BitVec m) (y : BitVec n) : (x ++ y).toNat = x.toNat * 2 ^ n + y.toNat := by
  rw [BitVec.toNat_append, Nat.shiftLeft_eq, Nat.mul_comm, Nat.two_pow_add_eq_or_of_lt y.isLt]

theorem toNat_statusWord (s : State) : (statusWord s).toNat = s.ctl.busy.toNat + 2 * s.ctl.done.toNat + 4 * s.ctl.fault.toNat +
    8 * s.ctl.herr.toNat + 256 * (causeCode s.ctl.cause).toNat := by
  simp only [statusWord, toNat_append_add, BitVec.toNat_ofBool, BitVec.toNat_ofNat]
  omega

theorem toNat_ctrlWord (s : State) : (ctrlWord s).toNat = 4 * s.ctl.irqen.toNat := by
  simp only [ctrlWord, toNat_append_add, BitVec.toNat_ofBool, BitVec.toNat_ofNat]
  omega

/-- The codes of R502. -/
theorem toNat_causeCode : ∀ p ∈ [(Cause.none, 0), (.illegal, 1), (.ialign, 2), (.iaddr, 3), (.dalign, 4), (.daddr, 5), (.bsovr, 6),
    (.vlcmiss, 7), (.vlctbl, 8), (.rlovr, 9), (.cfg, 10), (.abort, 11), (.oprange, 12)], (causeCode p.1).toNat = p.2 := by decide

/-- Settles O60: the fixed offsets by what each reads, the unassigned ones by `hostLoc_nothing`. -/
theorem statusAndInterrupt : Obligations.StatusAndInterrupt := by
  intro s v
  refine ⟨rfl, rfl, fun p hp hc => ⟨statusWord s, rfl, ?_⟩, ⟨ctrlWord s, rfl, toNat_ctrlWord s⟩, rfl, rfl, rfl, rfl, ?_,
    fun off wd h => ?_⟩
  · rw [toNat_statusWord, hc, toNat_causeCode p hp]
  · intro off hoff
    simp only [List.mem_cons, List.not_mem_nil, or_false] at hoff
    rcases hoff with rfl | rfl | rfl | rfl <;> rfl
  · rw [hostRead, hostWrite, hostLoc_nothing h]
    exact ⟨rfl, rfl⟩

end Sys2Proof.Machine
end

section
/-! PROOFS. Checked accesses of LMEM: MemRead after MemWrite, and what each load and store does, its two faults included. -/

namespace Sys2Proof.Machine

variable {s : State} {m : Memory} {size a n : Nat}

/-! ## MemRead and MemWrite (20_memory R104 to R106) -/

/-- A MemRead that is aligned and in bounds reads little-endian, with no more checks. -/
theorem memRead_inside (m : Memory) (hal : a % n = 0) (hin : a + n ≤ size) : memRead size m a n = readLE m a n := by
  rw [memRead, checkAccess_ok hal hin]

theorem readLE_byte {b : Byte} (h : memGet a m = some b) : readLE m a 1 = .ok b.toNat := by simp [readLE, readByte, h]

theorem readLE_of_holdsHalf {v : Int} (h : HoldsHalf m a v) : ∃ w : BitVec 16, readLE m a 2 = .ok w.toNat ∧ w.toInt = v := by
  obtain ⟨b0, b1, h0, h1, hv⟩ := h
  refine ⟨b1 ++ b0, ?_, hv⟩
  simp only [readLE, readByte, h0, h1, toNat_append_add]
  congr 1; omega

/-- Settles O29: a completed MemWrite is `writeLE` inside LMEM; the laws of `writeLE` say the rest. -/
theorem memoryReadAfterWrite : Obligations.MemoryReadAfterWrite := by
  intro size a n v m m' h
  rcases memWrite_cases size m a n v with ⟨hal, hin, e⟩ | ⟨-, e⟩ | ⟨-, -, e⟩ <;> rw [e] at h <;> cases h
  have touched := touches_writeLE n v m (Nat.le_refl a) (Nat.le_refl (a + n))
  refine ⟨by rw [memRead_inside _ hal hin, readLE_writeLE], fun k hk => ?_, touched.out, touched.wf⟩
  obtain ⟨b, hb, hv⟩ := holdsBytes_writeLE m a n v k hk
  rw [memRead_inside _ (Nat.mod_one _) (by omega), readLE_byte hb, hv]

/-! ## The entry of a fault (60_exceptions R501, R503) -/

/-- The outcome `o` of the instruction at PC is the entry of the fault `k` with FAULTINFO `info`, which changes nothing else. -/
def FaultEntry (s : State) (k : Cause) (info : Word) (o : Host.Outcome State Fault Refusal) : Prop :=
  ∃ t, o = .next t ∧ FaultEntered s t k s.pc info

theorem faultEntry_of_raise {r : Run State} {k : Cause} {info : Word} (h : r = raise k info.toNat) :
    FaultEntry s k info (conclude s r) := by
  have entered := takeFault_entered s k s.pc info.toNat
  rw [faultInfoWord_word] at entered
  exact ⟨_, by rw [h, conclude_raise], entered⟩

/-! ## Loads and stores (49_loadstore) -/

/-- The effective address, as a number modulo 2^32 (R468). -/
theorem toNat_effAddr (s : State) (rb : Reg) (imm : BitVec 18) :
    ((effAddr s rb imm).toNat : Int) = ((reg s rb).toNat + imm.toInt) % 2 ^ 32 := by
  have h : effAddr s rb imm = BitVec.ofInt 32 ((reg s rb).toNat + imm.toInt) := by
    rw [BitVec.ofInt_add, BitVec.ofInt_natCast, BitVec.ofNat_toNat, BitVec.setWidth_eq]
    rfl
  rw [h, BitVec.toNat_ofInt, Int.toNat_of_nonneg (Int.emod_nonneg _ (by decide))]
  rfl

theorem toInt_signExtend_ofNat (w : BitVec n) (hn : n ≤ 32) : ((BitVec.ofNat n w.toNat).signExtend 32).toInt = w.toInt := by
  rw [BitVec.ofNat_toNat, BitVec.setWidth_eq, BitVec.toInt_signExtend_of_le hn]

theorem toNat_ofNat_of_le (w : BitVec n) (hn : n ≤ 32) : (BitVec.ofNat 32 w.toNat).toNat = w.toNat := by
  rw [BitVec.toNat_ofNat, Nat.mod_eq_of_lt (Nat.lt_of_lt_of_le w.isLt (Nat.pow_le_pow_right (by decide) hn))]

section LoadStore

variable {rd rv rb : Reg} {imm : BitVec 18}

/-- A load whose MemRead answers. -/
theorem load_completes {v : Nat} (ext : Nat → Word) (h : memRead (lmemSize s) s.mem (effAddr s rb imm).toNat n = .ok v) :
    ∃ t, load n ext rd rb imm s = .next t ∧ reg t rd = ext v ∧ OnlyRegs s t [rd] ∧ NextPc s t :=
  ⟨advance (setReg s rd (ext v)), by rw [load, h]; rfl, reg_setReg_self s rd _, setReg_only s rd _, nextPc_of_pc rfl⟩

/-- A store aligned and in bounds. -/
theorem store_completes (hal : (effAddr s rb imm).toNat % n = 0) (hin : (effAddr s rb imm).toNat + n ≤ lmemSize s) :
    ∃ t, store n rv rb imm s = .next t ∧ HoldsBytes t.mem (effAddr s rb imm).toNat n (reg s rv).toNat ∧
      OnlyArray s t [] (effAddr s rb imm).toNat n ∧ NextPc s t :=
  ⟨advance (withMem s (writeLE s.mem (effAddr s rb imm).toNat n (reg s rv).toNat)), by
    rw [store, memWrite, checkAccess_ok hal hin]; rfl, holdsBytes_writeLE _ _ _ _, writeLE_only s _ _ _, nextPc_of_pc rfl⟩

/-- A load or store of `n` bytes at `ea` faults as its address tells, alignment first (20_memory R104, R105). -/
def ChecksAddress (s : State) (ea : Word) (n : Nat) (o : Host.Outcome State Fault Refusal) : Prop :=
  (ea.toNat % n ≠ 0 → FaultEntry s .dalign ea o) ∧ (ea.toNat % n = 0 → lmemSize s < ea.toNat + n → FaultEntry s .daddr ea o)

/-- Any pseudocode that stops where its access check stops. -/
theorem checksAddress_of_checkAccess {r : Run State} {ea : Word}
    (h : ∀ e, checkAccess (lmemSize s) ea.toNat n = .error e → r = .error e) : ChecksAddress s ea n (conclude s r) := by
  rcases checkAccess_cases (lmemSize s) ea.toNat n with ⟨hal, hin, -⟩ | ⟨hal, e⟩ | ⟨hal, hout, e⟩
  · exact ⟨fun hn => absurd hal hn, fun _ hn => by omega⟩
  · exact ⟨fun _ => faultEntry_of_raise (h _ e), fun hn => absurd hn hal⟩
  · exact ⟨fun hn => absurd hal hn, fun _ _ => faultEntry_of_raise (h _ e)⟩

theorem load_checksAddress (n : Nat) (ext : Nat → Word) : ChecksAddress s (effAddr s rb imm) n (load n ext rd rb imm s) :=
  checksAddress_of_checkAccess fun e h => by rw [memRead, h]

theorem store_checksAddress (n : Nat) : ChecksAddress s (effAddr s rb imm) n (store n rv rb imm s) :=
  checksAddress_of_checkAccess fun e h => by rw [memWrite, h]

end LoadStore

/-- Settles O26: each load by `load_completes`, then the extension of the value read. -/
theorem loadsReadLmem : Obligations.LoadsReadLmem := by
  intro rd rb imm s ea
  refine ⟨toNat_effAddr s rb imm, fun b hin hb => ?_, fun v hal hin hv => ?_, fun v hal hin hv => ?_⟩
  · have hread : memRead (lmemSize s) s.mem ea 1 = .ok b.toNat := by rw [memRead_inside _ (Nat.mod_one _) hin, readLE_byte hb]
    exact ⟨(load_completes _ hread).imp fun t ⟨e, hr, ht⟩ => ⟨e, by rw [hr, toInt_signExtend_ofNat b (by decide)], ht⟩,
      (load_completes _ hread).imp fun t ⟨e, hr, ht⟩ => ⟨e, by rw [hr, toNat_ofNat_of_le b (by decide)], ht⟩⟩
  · obtain ⟨w, hw, rfl⟩ := readLE_of_holdsHalf hv
    rw [← memRead_inside _ hal hin] at hw
    refine ⟨(load_completes _ hw).imp fun t ⟨e, hr, ht⟩ => ⟨e, by rw [hr, toInt_signExtend_ofNat w (by decide)], ht⟩,
      (load_completes _ hw).imp fun t ⟨e, hr, ht⟩ => ⟨e, ?_, ht⟩⟩
    rw [hr, toNat_ofNat_of_le w (by decide), BitVec.toInt_eq_toNat_cond]
    have := w.isLt
    split <;> omega
  · obtain ⟨w, rfl⟩ : ∃ w : Word, w.toInt = v := by
      obtain ⟨b0, b1, b2, b3, -, -, -, -, e⟩ := hv
      exact ⟨_, e⟩
    have hread := memRead_of_holds hal hin hv
    exact (load_completes _ hread).imp fun t ⟨e, hr, ht⟩ => ⟨e, by rw [hr, BitVec.ofNat_toNat, BitVec.setWidth_eq], ht⟩

/-- Settles O27: each store by `store_completes`. -/
theorem storesWriteLmem : Obligations.StoresWriteLmem := by
  intro rv rb imm s ea stores
  exact ⟨toNat_effAddr s rb imm, fun hin => store_completes (Nat.mod_one _) hin, store_completes, store_completes⟩

/-- Settles O28: five loads and three stores, each of which begins with its access check. -/
theorem loadsAndStoresCheckAddresses : Obligations.LoadsAndStoresCheckAddresses := by
  intro r rb imm s ea p hp
  simp only [List.mem_cons, List.not_mem_nil, or_false] at hp
  rcases hp with rfl | rfl | rfl | rfl | rfl | rfl | rfl | rfl
  iterate 5 exact load_checksAddress _ _
  iterate 3 exact store_checksAddress _

end Sys2Proof.Machine
end

section
/-! PROOFS. What each array command checks before it writes (20_memory R107): its configuration, then its arrays and tables in order. -/

namespace Sys2Proof.Machine

variable {s : State} {k : Cause} {info : Word}

/-! ## Regions checked in order (20_memory R107, 60_exceptions R504) -/

/-- The pseudocode `r` stops with the first bad one of `regions`, if one is bad, whatever else it does. -/
def ChecksRegions {α : Type} (size : Nat) (regions : List (Word × Nat × Nat)) (r : Run α) : Prop :=
  ∀ k info, firstBadRegion size regions = some (k, info) → r = raise k info.toNat

namespace ChecksRegions

variable {α : Type} {size n al : Nat} {b : Word} {rest : List (Word × Nat × Nat)} {r : Run α}

theorem nil : ChecksRegions size [] r := nofun

/-- Pseudocode that stops where the check of the head stops, and past it checks the rest. -/
theorem cons (hstop : ∀ e, region size b.toNat n al = .error e → r = .error e)
    (hpass : region size b.toNat n al = .ok () → ChecksRegions size rest r) : ChecksRegions size ((b, n, al) :: rest) r := by
  intro k info hbad
  rcases region_of_firstBad hbad with e | ⟨e, hrest⟩
  · exact hstop _ e
  · exact hpass e k info hrest

/-- The check of one region is pseudocode that checks it. -/
theorem single : ChecksRegions size [(b, n, al)] (region size b.toNat n al) := .cons (fun _ e => e) fun _ => .nil

end ChecksRegions

/-! ## Spectral commands (44_spectral R300, R303, R305 to R307) -/

theorem checkNcoef_pass (hN : 1 ≤ s.sr.ncoef.toNat ∧ s.sr.ncoef.toNat ≤ 65536) : checkNcoef s = .ok () := if_neg (by omega)

theorem checkNcoef_fail (hN : ¬(1 ≤ s.sr.ncoef.toNat ∧ s.sr.ncoef.toNat ≤ 65536)) : checkNcoef s = raise .cfg 4 := if_pos (by omega)

section Spectral

variable {a b c : Reg} {nb : BitVec 5} {o q e : Word}

theorem rldec_faults (h : rldecChecks s (reg s b).toNat (reg s c).toNat = raise k info.toNat) :
    FaultEntry s k info (exec (.rldec a b c nb) s) := by
  rw [exec_rldec, execRldec, h]; exact faultEntry_of_raise rfl

theorem deq_faults (h : deqChecks s (reg s a).toNat (reg s b).toNat (reg s c).toNat = raise k info.toNat) :
    FaultEntry s k info (exec (.deq a b c) s) := faultEntry_of_raise (by rw [h]; rfl)

theorem deqn_faults (h : deqnChecks s (reg s a).toNat (reg s b).toNat (reg s c).toNat = raise k info.toNat) :
    FaultEntry s k info (exec (.deqn a b c) s) := faultEntry_of_raise (by rw [h]; rfl)

theorem spectral_badNcoef (hN : checkNcoef s = raise .cfg 4) :
    FaultEntry s .cfg 4 (exec (.rldec a b c nb) s) ∧ FaultEntry s .cfg 4 (exec (.deq a b c) s) ∧
      FaultEntry s .cfg 4 (exec (.deqn a b c) s) :=
  ⟨rldec_faults (by rw [rldecChecks, hN]; rfl), deq_faults (by rw [deqChecks, hN]; rfl), deqn_faults (by rw [deqnChecks, hN]; rfl)⟩

theorem rldecChecks_regions (hN : checkNcoef s = .ok ()) (T : Nat) :
    ChecksRegions (lmemSize s) [(o, 4 * s.sr.ncoef.toNat, 4)] (rldecChecks s o.toNat T) := by
  rw [rldecChecks, hN]
  exact .cons (fun _ h => by rw [h]) fun _ => .nil

/-- RLDEC's two tables, when its NCOEF and its array pass. -/
theorem rldecChecks_tables (hN : checkNcoef s = .ok ()) (hpass : firstBadRegion (lmemSize s) [(o, 4 * s.sr.ncoef.toNat, 4)] = none)
    (T : Word) :
    (T.toNat % 4 ≠ 0 → rldecChecks s o.toNat T.toNat = raise .dalign T.toNat) ∧
      (T.toNat % 4 = 0 → s.sr.rltab.toNat % 4 ≠ 0 → rldecChecks s o.toNat T.toNat = raise .dalign s.sr.rltab.toNat) := by
  obtain ⟨hregion, -⟩ := region_of_noneBad hpass
  simp only [rldecChecks, hN, hregion]
  exact ⟨fun hT => if_pos hT, fun hT hR => by rw [if_neg (not_not.mpr hT), if_pos hR]⟩

theorem deqChecks_regions (hN : checkNcoef s = .ok ()) :
    ChecksRegions (lmemSize s) [(o, 4 * s.sr.ncoef.toNat, 4), (q, 4 * s.sr.ncoef.toNat, 4), (e, 4 * s.sr.ncoef.toNat, 4)]
      (deqChecks s o.toNat q.toNat e.toNat) := by
  rw [deqChecks, hN]
  refine .cons (fun _ h => by rw [h]) fun ho => ?_
  rw [ho]
  refine .cons (fun _ h => by rw [h]) fun hq => ?_
  rw [hq]
  exact .single

/-- DEQN's noise table size and index, when its NCOEF passes. -/
theorem deqnChecks_config (hN : checkNcoef s = .ok ()) (o q e : Nat) :
    (s.sr.ntsize.toNat = 0 → deqnChecks s o q e = raise .cfg 16) ∧
      (0 < s.sr.ntsize.toNat → s.sr.ntsize.toNat ≤ s.sr.nidx.toNat → deqnChecks s o q e = raise .cfg 15) := by
  simp only [deqnChecks, hN]
  exact ⟨fun hM => if_pos hM, fun hM hI => by rw [if_neg (by omega), if_pos hI]⟩

theorem deqnChecks_regions (hN : checkNcoef s = .ok ()) (hI : s.sr.nidx.toNat < s.sr.ntsize.toNat) :
    ChecksRegions (lmemSize s) [(o, 4 * s.sr.ncoef.toNat, 4), (q, 4 * s.sr.ntsize.toNat, 4), (e, 4 * s.sr.ncoef.toNat, 4)]
      (deqnChecks s o.toNat q.toNat e.toNat) := by
  simp only [deqnChecks, hN]
  rw [if_neg (by omega), if_neg (by omega)]
  refine .cons (fun _ h => by rw [h]) fun ho => ?_
  rw [ho]
  refine .cons (fun _ h => by rw [h]) fun hq => ?_
  rw [hq]
  exact .single

theorem ngen_faults (h : region (lmemSize s) (reg s a).toNat (4 * (reg s b).toNat) 4 = raise k info.toNat) :
    FaultEntry s k info (exec (.ngen a b) s) := faultEntry_of_raise (by rw [h]; rfl)

end Spectral

/-! ## Transform commands (45_transform R333, R335, R336) -/

section Transform

variable {a b : Reg} {m n : BitVec 4} {sc : Bool}

theorem brev_faults (h : region (lmemSize s) (reg s a).toNat (8 * 2 ^ m.toNat) 4 = raise k info.toNat) :
    FaultEntry s k info (exec (.brev a m) s) := faultEntry_of_raise (by rw [h]; rfl)

theorem fft_faults
    (hbad : firstBadRegion (lmemSize s) [(reg s a, 8 * 2 ^ m.toNat, 4), (reg s b, 4 * 2 ^ m.toNat, 4)] = some (k, info)) :
    FaultEntry s k info (exec (.fft a b m sc) s) := by
  refine faultEntry_of_raise (ChecksRegions.cons (fun _ h => by rw [h]) (fun hz => ?_) k info hbad)
  rw [hz]
  exact .cons (fun _ h => by rw [h]) fun _ => .nil

theorem imdct_faults (h : imdctChecks s (reg s a).toNat (reg s b).toNat n.toNat = raise k info.toNat) :
    FaultEntry s k info (exec (.imdct a b n sc) s) := faultEntry_of_raise (by rw [h]; rfl)

/-- IMDCT's four regions in terms of its N = 2^n outputs, n >= 3. -/
theorem imdctChecks_regions {out inp : Word} {n : Nat} (hn : 3 ≤ n) :
    ChecksRegions (lmemSize s)
      [(out, 4 * 2 ^ n, 4), (inp, 2 * 2 ^ n, 4), (s.sr.mdtrig, 2 * 2 ^ n, 4), (s.sr.mdtw, 2 ^ n, 4)]
      (imdctChecks s out.toNat inp.toNat n) := by
  have half : 4 * 2 ^ (n - 1) = 2 * 2 ^ n := by rw [← mul_pow_sub_one (by omega : n ≠ 0) 2]; omega
  have quarter : 4 * 2 ^ (n - 2) = 2 ^ n := by rw [← Nat.pow_sub_mul_pow 2 (by omega : 2 ≤ n)]; omega
  rw [imdctChecks, half, quarter, show 8 * 2 ^ (n - 2) = 2 * 2 ^ n by omega]
  refine .cons (fun _ h => by rw [h]) fun ho => ?_
  rw [ho]
  refine .cons (fun _ h => by rw [h]) fun hi => ?_
  rw [hi]
  refine .cons (fun _ h => by rw [h]) fun hr => ?_
  rw [hr]
  exact .single

end Transform

/-! ## Window and output commands (46_window R362, R364, R365) -/

/-- The three exponents of WCFG are legal (10_state R62). -/
def WcfgOk (s : State) : Prop :=
  1 ≤ s.sr.wpb.toNat ∧ s.sr.wpb.toNat ≤ 14 ∧ 1 ≤ s.sr.wcb.toNat ∧ s.sr.wcb.toNat ≤ 14 ∧
    1 ≤ s.sr.wnb.toNat ∧ s.sr.wnb.toNat ≤ 14

theorem wcfgOk_iff : (expOk s.sr.wpb.toNat && expOk s.sr.wcb.toNat && expOk s.sr.wnb.toNat) = true ↔ WcfgOk s := by
  simp only [expOk, WcfgOk, Bool.and_eq_true, decide_eq_true_eq, and_assoc]

section Window

variable {a b c : Reg} {ch : BitVec 3} {fp inp : Word}

theorem wola_faults (h : wolaChecks s (reg s a).toNat (reg s b).toNat = raise k info.toNat) :
    FaultEntry s k info (exec (.wola a b) s) := faultEntry_of_raise (by rw [h]; rfl)

theorem wolaChecks_badExp (hw : ¬WcfgOk s) (fp inp : Nat) : wolaChecks s fp inp = raise .cfg 19 := by
  rw [← wcfgOk_iff, Bool.not_eq_true] at hw
  rw [wolaChecks, hw]; rfl

theorem wolaChecks_regions (hw : WcfgOk s) :
    ChecksRegions (lmemSize s) [(fp, 8 * 2 ^ s.sr.wcb.toNat, 4), (inp, 8 * 2 ^ s.sr.wcb.toNat, 4)]
      (wolaChecks s fp.toNat inp.toNat) := by
  simp only [wolaChecks, wcfgOk_iff.mpr hw]
  refine .cons (fun _ h => by rw [h]; rfl) fun hf => ?_
  rw [hf]
  exact .cons (fun _ h => by rw [h]; rfl) fun _ => .nil

/-- The address of a table entry fits FAULTINFO. -/
theorem toNat_entryAddr (base : Word) (k : Nat) : (BitVec.ofNat 32 (entryAddr base k)).toNat = entryAddr base k := by
  rw [BitVec.toNat_ofNat, Nat.mod_eq_of_lt (entryAddr_spec base k).1]

/-- A directory entry that LMEM holds is read: an aligned directory has aligned entries. -/
theorem dirEntry_of_holds {k : Nat} {w : Word} (hD : s.sr.wdir.toNat % 4 = 0) (hin : entryAddr s.sr.wdir k + 4 ≤ lmemSize s)
    (hw : HoldsWord s.mem (entryAddr s.sr.wdir k) w.toInt) : dirEntry s k = .ok w.toNat :=
  memRead_of_holds ((entryAddr_spec s.sr.wdir k).2.1 hD) hin hw

/-- The directory and the two windows of WOLA, when its WCFG and its arrays pass: the directory's alignment, the bounds of its two
entries, then the windows they name (R362). -/
theorem wolaChecks_tables (hw : WcfgOk s)
    (hpass : firstBadRegion (lmemSize s) [(fp, 8 * 2 ^ s.sr.wcb.toNat, 4), (inp, 8 * 2 ^ s.sr.wcb.toNat, 4)] = none) {kL kR : Nat}
    (hL : min s.sr.wcb.toNat s.sr.wpb.toNat = kL) (hR : min s.sr.wcb.toNat s.sr.wnb.toNat = kR) :
    (s.sr.wdir.toNat % 4 ≠ 0 → wolaChecks s fp.toNat inp.toNat = raise .dalign s.sr.wdir.toNat) ∧
    (s.sr.wdir.toNat % 4 = 0 → lmemSize s < entryAddr s.sr.wdir kL + 4 →
      wolaChecks s fp.toNat inp.toNat = raise .daddr (entryAddr s.sr.wdir kL)) ∧
    (s.sr.wdir.toNat % 4 = 0 → entryAddr s.sr.wdir kL + 4 ≤ lmemSize s → lmemSize s < entryAddr s.sr.wdir kR + 4 →
      wolaChecks s fp.toNat inp.toNat = raise .daddr (entryAddr s.sr.wdir kR)) ∧
    (s.sr.wdir.toNat % 4 = 0 → entryAddr s.sr.wdir kL + 4 ≤ lmemSize s → entryAddr s.sr.wdir kR + 4 ≤ lmemSize s →
      ∀ WL WR : Word, HoldsWord s.mem (entryAddr s.sr.wdir kL) WL.toInt → HoldsWord s.mem (entryAddr s.sr.wdir kR) WR.toInt →
      ChecksRegions (lmemSize s) [(WL, 4 * 2 ^ kL, 4), (WR, 4 * 2 ^ kR, 4)] (wolaChecks s fp.toNat inp.toNat)) := by
  obtain ⟨hfp, hrest⟩ := region_of_noneBad hpass
  obtain ⟨hin, -⟩ := region_of_noneBad hrest
  simp only [wolaChecks, wcfgOk_iff.mpr hw, Bool.not_true, Bool.false_eq_true, if_false, hfp, hin, hL, hR]
  refine ⟨fun hD => if_pos hD, fun hD h1 => ?_, fun hD h1 h2 => ?_, fun hD h1 h2 WL WR hWL hWR => ?_⟩
  · rw [if_neg (not_not.mpr hD), if_pos h1]
  · rw [if_neg (not_not.mpr hD), if_neg (by omega), if_pos h2]
  · rw [if_neg (not_not.mpr hD), if_neg (by omega), if_neg (by omega), dirEntry_of_holds hD h1 hWL, dirEntry_of_holds hD h2 hWR]
    refine .cons (fun _ h => by simp only [h]) fun hl => ?_
    simp only [hl]
    exact .cons (fun _ h => by rw [h]) fun _ => .nil

theorem fshift_faults (h : region (lmemSize s) (reg s a).toNat (4 * (reg s c).toNat) 4 = raise k info.toNat) :
    FaultEntry s k info (exec (.fshift a b c) s) := faultEntry_of_raise (by rw [h]; rfl)

theorem pcmout_faults (h : pcmChecks s (reg s a).toNat (reg s b).toNat (reg s c).toNat (ch.toNat + 1) = raise k info.toNat) :
    FaultEntry s k info (exec (.pcmout a b c ch) s) := faultEntry_of_raise (by rw [h]; rfl)

/-- PCMOUT's strided destination is checked as one region of halfwords, and nothing is checked when no sample is asked for. -/
theorem pcmChecks_regions {dst src : Word} (cnt S : Nat) :
    ChecksRegions (lmemSize s) [(dst, if cnt = 0 then 0 else 2 * (S * (cnt - 1) + 1), 2), (src, 4 * cnt, 4)]
      (pcmChecks s dst.toNat src.toNat cnt S) := by
  by_cases hc : cnt = 0
  · subst hc; exact nofun
  · have hn : 2 * (S * (cnt - 1) + 1) ≠ 0 := by omega
    rw [if_neg hc, pcmChecks, if_neg hc]
    refine .cons (fun e h => ?_) fun hd => ?_
    · rcases region_cases (lmemSize s) dst.toNat (2 * (S * (cnt - 1) + 1)) 2 with ⟨-, he⟩ | ⟨-, h1, he⟩ | ⟨-, h1, h2, he⟩ <;>
        rw [he] at h
      · cases h
      · rw [if_pos h1]; exact h
      · rw [if_neg (not_not.mpr h1), if_pos h2]; exact h
    · obtain ⟨h1, h2⟩ := region_bound hd (by omega)
      rw [if_neg (not_not.mpr h1), if_neg (by omega)]
      exact .single

end Window

/-! ## All of them -/

/-- Settles O55, command by command: what its checks raise, and that it faults with what they raise. -/
theorem arrayCommandsCheckFirst : Obligations.ArrayCommandsCheckFirst := by
  intro a b c nb m n sc ch WL WR s x y z N M F B kL kR D eL eR faults checks pass ncoefOk wcfgOk
  refine ⟨fun hN => spectral_badNcoef (checkNcoef_fail hN),
    fun hN hM => deqn_faults ((deqnChecks_config (checkNcoef_pass hN) _ _ _).1 hM),
    fun hN hM hI => deqn_faults ((deqnChecks_config (checkNcoef_pass hN) _ _ _).2 hM hI),
    fun hN => ⟨fun k info hbad => rldec_faults (rldecChecks_regions (checkNcoef_pass hN) _ k info hbad), fun hpass => ?_⟩,
    fun hN k info hbad => deq_faults (deqChecks_regions (checkNcoef_pass hN) k info hbad),
    fun hN hI k info hbad => deqn_faults (deqnChecks_regions (checkNcoef_pass hN) hI k info hbad),
    fun k info hbad => ngen_faults (ChecksRegions.single k info hbad),
    fun k info hbad => brev_faults (ChecksRegions.single k info hbad),
    fun k info hbad => fft_faults hbad,
    fun hn k info hbad => imdct_faults (imdctChecks_regions hn k info hbad),
    fun hw => wola_faults (wolaChecks_badExp hw _ _),
    fun hw k info hbad => wola_faults (wolaChecks_regions hw k info hbad),
    fun hw hpass => ?_,
    fun k info hbad => fshift_faults (ChecksRegions.single k info hbad),
    fun k info hbad => pcmout_faults (pcmChecks_regions _ _ k info hbad)⟩
  · obtain ⟨hT, hR⟩ := rldecChecks_tables (checkNcoef_pass hN) hpass z
    exact ⟨fun h => rldec_faults (hT h), fun h h' => rldec_faults (hR h h')⟩
  · obtain ⟨hdir, hleft, hright, hwin⟩ := wolaChecks_tables hw hpass rfl rfl
    exact ⟨fun hD => wola_faults (hdir hD),
      fun hD h1 => wola_faults ((hleft hD h1).trans (congrArg _ (toNat_entryAddr _ _).symm)),
      fun hD h1 h2 => wola_faults ((hright hD h1 h2).trans (congrArg _ (toNat_entryAddr _ _).symm)),
      fun hD h1 h2 hWL hWR k info hbad => wola_faults (hwin hD h1 h2 WL WR hWL hWR k info hbad)⟩

end Sys2Proof.Machine
end

section
/-! PROOFS. The decoder and the encoder are inverse to each other (30_encoding R141 to R149, R152, R154). -/

namespace Sys2Proof

variable {w : Word} {i : Instr}

/-! ## The command word of a well-formed instruction decodes to it (R141 to R149) -/

theorem accept_of_wellFormed (h : i.wellFormed = true) : accept true i = .ok i := by simp [accept, operandsLegal, h]

theorem acceptSome_of_wellFormed (h : i.wellFormed = true) : acceptSome true (some i) = .ok i := accept_of_wellFormed h

theorem decodeWord_int (h : fieldOp w = 0x10) : decodeWord w = decodeInt w := by simp [decodeWord, h]

theorem decodeWord_fxp (h : fieldOp w = 0x28) : decodeWord w = decodeFxp w := by simp [decodeWord, h]

theorem decodeWord_bs (h : fieldOp w = 0x30) : decodeWord w = decodeBs w := by simp [decodeWord, h]

theorem decodeWord_blk (h : fieldOp w = 0x38) : decodeWord w = decodeBlk w := by simp [decodeWord, h]

/-- Settles O1, group by group: the fields of a packed word are what was packed, so OP and FN select the instruction's own row, the
must-be-0 fields are 0, and every operand field names its operand. -/
theorem encodedInstructionsDecode : Obligations.EncodedInstructionsDecode := by
  intro i hwf
  cases i with
  | halt | nop | j | jal | jr | beq | bne | blt | bge | bltu | bgeu | addi | andi | ori | xori | lui | slli | srli | srai
  | lb | lbu | lh | lhu | lw | sb | sh | sw | peek | read | skip =>
    simp [encode, decodeWord, accept_of_wellFormed hwf]
  | mfs | mts => simp [encode, decodeWord, acceptSome_of_wellFormed hwf]
  | add | sub | and | or | xor | sll | srl | sra | slt | sltu =>
    simp [encode, decodeWord_int, decodeInt, accept_of_wellFormed hwf]
  | fmul | fmulr | fdiv | fsqrt | fadd | fsub | sincos =>
    simp [encode, decodeWord_fxp, decodeFxp, accept_of_wellFormed hwf]
  | wmul | wmulw | wdiv | wext | wnrw => simp [encode, decodeWord_fxp, decodeFxp, acceptSome_of_wellFormed hwf]
  | bsinit | readr | skipr | align | peekr => simp [encode, decodeWord_bs, decodeBs, accept_of_wellFormed hwf]
  | vlcdec | gain | rldec | deq | deqn | ngen | brev | fft | imdct | wola | fshift | pcmout =>
    simp [encode, decodeWord_blk, decodeBlk, accept_of_wellFormed hwf]

/-! ## A field with must-be-0 bits is its parameter, extended by zeros (R146, R147) -/

theorem eq_ofNat_of_toNat {n k : Nat} {x : BitVec n} (h : x.toNat = k) : x = BitVec.ofNat n k := by
  rw [← h, BitVec.ofNat_toNat, BitVec.setWidth_eq]

/-- A vector is its upper and its lower part. -/
theorem append_parts {n m : Nat} (x : BitVec (n + m)) : x.extractLsb' m n ++ x.extractLsb' 0 m = x := by
  apply BitVec.eq_of_getLsbD_eq
  intro i hi
  simp only [BitVec.getLsbD_append, BitVec.getLsbD_extractLsb']
  split
  · simp [*]
  · simp [show i - m < n by omega, show m + (i - m) = i by omega]

theorem zero_append_low {n m : Nat} {x : BitVec (n + m)} (h : x.extractLsb' m n = 0#n) : 0#n ++ x.extractLsb' 0 m = x := by
  rw [← h, append_parts]

section Parts

variable {imm : BitVec 18} {p : BitVec 10}

theorem imm6_of_high (h : imm.extractLsb' 6 12 = 0#12) : (0#12 ++ imm.extractLsb' 0 6 : BitVec 18) = imm :=
  zero_append_low (n := 12) (m := 6) h

theorem imm5_of_high (h : imm.extractLsb' 5 13 = 0#13) : (0#13 ++ imm.extractLsb' 0 5 : BitVec 18) = imm :=
  zero_append_low (n := 13) (m := 5) h

theorem imm16_of_high (h : imm.extractLsb' 16 2 = 0#2) : (0#2 ++ imm.extractLsb' 0 16 : BitVec 18) = imm :=
  zero_append_low (n := 2) (m := 16) h

theorem pNb_of_above (h : p.extractLsb' 5 5 = 0#5) : (0#5 ++ pNb p : BitVec 10) = p := zero_append_low (n := 5) (m := 5) h

theorem pM_of_above (h : p.extractLsb' 4 6 = 0#6) : (0#6 ++ pM p : BitVec 10) = p := zero_append_low (n := 6) (m := 4) h

theorem pCh_of_above (h : p.extractLsb' 3 7 = 0#7) : (0#7 ++ pCh p : BitVec 10) = p := zero_append_low (n := 7) (m := 3) h

/-- FFT and IMDCT: sc and m share the five bits below the must-be-0 ones. -/
theorem pSc_pM_of_above (h : p.extractLsb' 5 5 = 0#5) : (0#5 ++ BitVec.ofBool (pSc p) ++ pM p : BitVec 10) = p := by
  rw [← h]
  apply BitVec.eq_of_getLsbD_eq
  intro i hi
  simp only [pSc, pM, BitVec.getLsbD_append, BitVec.getLsbD_extractLsb', BitVec.getLsbD_ofBool]
  split
  · simp [*]
  · split
    · simp [show i = 4 by omega]
    · simp [show i - 4 - 1 < 5 by omega, show 5 + (i - 4 - 1) = i by omega]

end Parts

/-! ## A word that decodes is the command word of its instruction (R152, R154)

A word is its fields (`packR_fields`, `packI_fields`, `packJ_fields`). The row that decoded it fixes OP and FN, the checks that passed fix
the must-be-0 fields, and the operands give back the rest. -/

theorem encode_of_decodeInt (hop : fieldOp w = 0x10) (h : decodeInt w = .ok i) : encode i = w := by
  have hw := packR_fields w
  unfold decodeInt at h
  simp only at h
  split at h
  case h_11 => cases h
  all_goals
    rename_i hfn
    obtain ⟨hz, -, rfl⟩ := accept_ok h
    simpa [encode, hop, eq_of_beq hz, eq_ofNat_of_toNat hfn] using hw

theorem encode_of_decodeFxp (hop : fieldOp w = 0x28) (h : decodeFxp w = .ok i) : encode i = w := by
  have hw := packR_fields w
  unfold decodeFxp at h
  simp only at h
  split at h
  case h_7 hfn =>
    obtain ⟨hz, -, hi⟩ := acceptSome_ok h
    simp only [Option.bind_eq_some_iff, Option.map_eq_some_iff] at hi
    obtain ⟨pd, hd, ps, hs, rfl⟩ := hi
    simpa [encode, hop, eq_of_beq hz, eq_ofNat_of_toNat hfn, pairOf_eq_some hd, pairOf_eq_some hs] using hw
  case h_8 hfn | h_9 hfn =>
    obtain ⟨hz, -, hi⟩ := acceptSome_ok h
    simp only [Option.bind_eq_some_iff, Option.map_eq_some_iff] at hi
    obtain ⟨pd, hd, ps, hs, pt, ht, rfl⟩ := hi
    simpa [encode, hop, eq_of_beq hz, eq_ofNat_of_toNat hfn, pairOf_eq_some hd, pairOf_eq_some hs, pairOf_eq_some ht] using hw
  case h_10 hfn | h_11 hfn =>
    obtain ⟨hz, -, hi⟩ := acceptSome_ok h
    simp only [Bool.and_eq_true, beq_iff_eq] at hz
    simp only [Option.map_eq_some_iff] at hi
    obtain ⟨p, hp, rfl⟩ := hi
    simpa [encode, hop, hz, eq_ofNat_of_toNat hfn, pairOf_eq_some hp] using hw
  case h_13 => cases h
  all_goals
    rename_i hfn
    obtain ⟨hz, -, rfl⟩ := accept_ok h
    simp only [Bool.and_eq_true, beq_iff_eq] at hz
    simpa [encode, hop, hz, eq_ofNat_of_toNat hfn] using hw

theorem encode_of_decodeBs (hop : fieldOp w = 0x30) (h : decodeBs w = .ok i) : encode i = w := by
  have hw := packR_fields w
  unfold decodeBs at h
  simp only at h
  split at h
  case h_6 => cases h
  all_goals
    rename_i hfn
    obtain ⟨hz, -, rfl⟩ := accept_ok h
    simp only [Bool.and_eq_true, beq_iff_eq] at hz
    simpa [encode, hop, hz, eq_ofNat_of_toNat hfn] using hw

theorem encode_of_decodeBlk (hop : fieldOp w = 0x38) (h : decodeBlk w = .ok i) : encode i = w := by
  have hw := packR_fields w
  unfold decodeBlk at h
  simp only at h
  split at h
  case h_13 => cases h
  all_goals
    rename_i hfn
    obtain ⟨hz, -, rfl⟩ := accept_ok h
    simp only [Bool.and_eq_true, beq_iff_eq] at hz
    simpa [encode, hop, hz, eq_ofNat_of_toNat hfn, pNb_of_above, pM_of_above, pCh_of_above, pSc_pM_of_above] using hw

theorem encode_of_decodeWord (h : decodeWord w = .ok i) : encode i = w := by
  have hJ := packJ_fields w
  have hI := packI_fields w
  have hR := packR_fields w
  unfold decodeWord at h
  simp only at h
  split at h
  -- HALT, NOP and J have format J, JR has format R, every other row outside the groups format I
  case h_1 hop | h_2 hop =>
    obtain ⟨hz, -, rfl⟩ := accept_ok h
    simpa [encode, eq_ofNat_of_toNat hop, eq_of_beq hz] using hJ
  case h_3 hop =>
    obtain ⟨-, -, rfl⟩ := accept_ok h
    simpa [encode, eq_ofNat_of_toNat hop] using hJ
  case h_5 hop =>
    obtain ⟨hz, -, rfl⟩ := accept_ok h
    simp only [Bool.and_eq_true, beq_iff_eq] at hz
    simpa [encode, eq_ofNat_of_toNat hop, hz] using hR
  case h_12 hop | h_13 hop =>
    obtain ⟨hz, -, hi⟩ := acceptSome_ok h
    simp only [Bool.and_eq_true, beq_iff_eq] at hz
    simp only [Option.map_eq_some_iff] at hi
    obtain ⟨r, hr, rfl⟩ := hi
    simpa [encode, eq_ofNat_of_toNat hop, hz, sregOf_eq_some hr, imm6_of_high] using hI
  case h_14 hop => exact encode_of_decodeInt (eq_ofNat_of_toNat hop) h
  case h_31 hop => exact encode_of_decodeFxp (eq_ofNat_of_toNat hop) h
  case h_32 hop => exact encode_of_decodeBs (eq_ofNat_of_toNat hop) h
  case h_36 hop => exact encode_of_decodeBlk (eq_ofNat_of_toNat hop) h
  case h_37 => cases h
  all_goals
    rename_i hop
    obtain ⟨hz, -, rfl⟩ := accept_ok h
    simp only [Bool.and_eq_true, beq_iff_eq] at hz
    simpa [encode, eq_ofNat_of_toNat hop, hz, imm5_of_high, imm6_of_high, imm16_of_high] using hI

/-- Settles O2: the fields determine the word, and the decoder accepts only well-formed instructions (`decodeWord_decoded`). -/
theorem decodedWordsAreEncodings : Obligations.DecodedWordsAreEncodings :=
  fun _ _ h => ⟨encode_of_decodeWord h, (decodeWord_decoded h).1⟩

end Sys2Proof
end

section
/-! PROOFS. A word is illegal (30_encoding R150 to R152) exactly when it decodes to nothing, and fetching it raises ILLEGAL. -/

namespace Sys2Proof

open Machine

variable {w : Word}

/-! ## The fields of a word against 0, as numbers (R141) -/

theorem toNat_extract_top {k m n : Nat} (x : BitVec k) (h : k = n + m) : (x.extractLsb' m n).toNat = x.toNat / 2 ^ m := by
  subst h
  rw [BitVec.extractLsb'_toNat, Nat.shiftRight_eq_div_pow, Nat.mod_eq_of_lt]
  rw [Nat.div_lt_iff_lt_mul (Nat.two_pow_pos m), ← Nat.pow_add]
  exact x.isLt

section Fields

variable (w)

@[simp] theorem fieldA_eq_zero : fieldA w = 0#4 ↔ aNum w = 0 := by rw [aNum_eq, ← BitVec.toNat_inj]; rfl
@[simp] theorem fieldB_eq_zero : fieldB w = 0#4 ↔ bNum w = 0 := by rw [bNum_eq, ← BitVec.toNat_inj]; rfl
@[simp] theorem fieldC_eq_zero : fieldC w = 0#4 ↔ cNum w = 0 := by rw [cNum_eq, ← BitVec.toNat_inj]; rfl
@[simp] theorem fieldP_eq_zero : fieldP w = 0#10 ↔ pNum w = 0 := by rw [pNum_eq, ← BitVec.toNat_inj]; rfl
@[simp] theorem fieldFn_eq_zero : fieldFn w = 0#4 ↔ fnNum w = 0 := by rw [fnNum_eq, ← BitVec.toNat_inj]; rfl

@[simp] theorem fieldOff_eq_zero : fieldOff w = 0#26 ↔ w.toNat % 2 ^ 26 = 0 := by
  rw [fieldOff, ← BitVec.toNat_inj, BitVec.extractLsb'_toNat, Nat.shiftRight_zero]; rfl

theorem fieldImm_high {m n : Nat} (h : 18 = n + m) : (fieldImm w).extractLsb' m n = 0#n ↔ immNum w / 2 ^ m = 0 := by
  rw [immNum_eq, ← toNat_extract_top _ h, ← BitVec.toNat_inj]; rfl

theorem fieldP_high {m n : Nat} (h : 10 = n + m) : (fieldP w).extractLsb' m n = 0#n ↔ pNum w / 2 ^ m = 0 := by
  rw [pNum_eq, ← toNat_extract_top _ h, ← BitVec.toNat_inj]; rfl

@[simp] theorem regOf_fieldA_eq_fieldC : regOf (fieldA w) = regOf (fieldC w) ↔ aNum w = cNum w := by
  rw [aNum_eq, cNum_eq]; exact Fin.ext_iff

/-- JR's fields C, P and FN are the 18 bits of an immediate. -/
theorem low18_eq_zero_iff : w.toNat % 262144 = 0 ↔ cNum w = 0 ∧ pNum w = 0 ∧ fnNum w = 0 := by
  unfold cNum pNum fnNum
  omega

end Fields

/-! ## Which operand fields name an operand (R151) -/

theorem exists_pairOf {f : BitVec 4} : (∃ p, pairOf f = some p) ↔ f.toNat % 2 = 0 := by
  unfold pairOf
  split <;> simp [*]

theorem exists_sregOf {n : BitVec 6} : (∃ r, sregOf n = some r) ↔ n.toNat ≤ 22 := by
  constructor
  · rintro ⟨r, h⟩
    rw [← sregOf_eq_some h]
    cases r <;> decide
  · intro h
    obtain ⟨r, hr⟩ := exists_sregNumber (Nat.lt_succ_of_le h)
    exact ⟨r, by rw [← BitVec.eq_of_toNat_eq hr, sregOf_sregNumber]⟩

theorem mtsOk_iff (r : SReg) : mtsOk r = true ↔ 1 < (sregNumber r).toNat := by cases r <;> decide

theorem exists_sregOf_mtsOk {n : BitVec 6} : (∃ r, sregOf n = some r ∧ mtsOk r = true) ↔ 1 < n.toNat ∧ n.toNat ≤ 22 := by
  have hok (r : SReg) : sregOf n = some r ∧ mtsOk r = true ↔ 1 < n.toNat ∧ sregOf n = some r := by
    rw [mtsOk_iff, and_comm]
    exact and_congr_left fun h => by rw [sregOf_eq_some h]
  simp only [hok, exists_and_left, exists_sregOf]

/-! ## What the decoder refuses (R152, R154) -/

theorem accept_refuses {zero : Bool} {i : Instr} : (∀ j, accept zero i ≠ .ok j) ↔ zero = false ∨ i.wellFormed = false := by
  cases zero <;> cases h : i.wellFormed <;> simp [accept, operandsLegal, h]

theorem acceptSome_refuses {zero : Bool} {o : Option Instr} :
    (∀ j, acceptSome zero o ≠ .ok j) ↔ zero = false ∨ ¬∃ i, o = some i ∧ i.wellFormed = true := by
  cases o with
  | none => cases zero <;> simp [acceptSome]
  | some i => simp [acceptSome, accept_refuses]

/-! ## Illegal words, group by group

In a row of the tables both sides are the same list: the must-be-0 fields that are not 0, and the operand conditions that fail. So a
failed conjunction of checks is always written as a disjunction (`Bool.and_eq_false_iff`, `not_and_or`). -/

theorem illegalWord_int (hop : opNum w = 0x10) : IllegalWord w ↔ ∀ i, decodeInt w ≠ .ok i := by
  simp only [IllegalWord, ReservedOp, ReservedFn, NonzeroMustBeZero, BadOperand, hop]
  unfold decodeInt
  simp only [← fnNum_eq]
  split
  case h_11 =>
    have hfn : 10 ≤ fnNum w := by simp only [imp_false] at *; omega
    simp [hfn]
  all_goals
    rename_i hfn
    simp [hfn, accept_refuses, Instr.wellFormed]

theorem illegalWord_fxp (hop : opNum w = 0x28) : IllegalWord w ↔ ∀ i, decodeFxp w ≠ .ok i := by
  simp only [IllegalWord, ReservedOp, ReservedFn, NonzeroMustBeZero, BadOperand, hop]
  unfold decodeFxp
  simp only [← fnNum_eq]
  split
  -- the five with register pairs
  case h_7 hfn | h_8 hfn | h_9 hfn | h_10 hfn | h_11 hfn =>
    simp [hfn, acceptSome_refuses, Instr.wellFormed, -Bool.and_eq_false_imp, Bool.and_eq_false_iff, -not_and, not_and_or,
      Option.bind_eq_some_iff, exists_pairOf, ← aNum_eq, ← bNum_eq, ← cNum_eq]
  case h_13 =>
    have hfn : 12 ≤ fnNum w := by simp only [imp_false] at *; omega
    simp [hfn]
  all_goals
    rename_i hfn
    simp [hfn, accept_refuses, Instr.wellFormed, -Bool.and_eq_false_imp, Bool.and_eq_false_iff]

theorem illegalWord_bs (hop : opNum w = 0x30) : IllegalWord w ↔ ∀ i, decodeBs w ≠ .ok i := by
  simp only [IllegalWord, ReservedOp, ReservedFn, NonzeroMustBeZero, BadOperand, hop]
  unfold decodeBs
  simp only [← fnNum_eq]
  split
  case h_6 =>
    have hfn : 5 ≤ fnNum w := by simp only [imp_false] at *; omega
    simp [hfn]
  all_goals
    rename_i hfn
    simp [hfn, accept_refuses, Instr.wellFormed, -Bool.and_eq_false_imp, Bool.and_eq_false_iff, or_assoc]

theorem illegalWord_blk (hop : opNum w = 0x38) : IllegalWord w ↔ ∀ i, decodeBlk w ≠ .ok i := by
  simp only [IllegalWord, ReservedOp, ReservedFn, NonzeroMustBeZero, BadOperand, hop]
  unfold decodeBlk
  simp only [← fnNum_eq]
  split
  case h_13 =>
    have hfn : 12 ≤ fnNum w := by simp only [imp_false] at *; omega
    simp [hfn]
  all_goals
    rename_i hfn
    simp [hfn, accept_refuses, Instr.wellFormed, widthOk, -Bool.and_eq_false_imp, Bool.and_eq_false_iff, or_assoc, fieldP_high,
      pNb, pM, ← pNum_eq]

theorem illegalWord_iff (w : Word) : IllegalWord w ↔ ∀ i, decodeWord w ≠ .ok i := by
  unfold decodeWord
  simp only [← opNum_eq]
  split
  case h_14 hop => exact illegalWord_int hop
  case h_31 hop => exact illegalWord_fxp hop
  case h_32 hop => exact illegalWord_bs hop
  case h_36 hop => exact illegalWord_blk hop
  case h_37 =>
    have hop : ReservedOp w := by simp only [ReservedOp, imp_false] at *; omega
    simp [IllegalWord, hop]
  -- MFS and MTS
  case h_12 hop | h_13 hop =>
    simp [IllegalWord, ReservedOp, ReservedFn, NonzeroMustBeZero, BadOperand, hop, acceptSome_refuses, Instr.wellFormed,
      -Bool.and_eq_false_imp, Bool.and_eq_false_iff, or_assoc, -not_and, not_and_or, fieldImm_high, exists_sregOf,
      exists_sregOf_mtsOk, ← immNum_eq]
  all_goals
    rename_i hop
    simp [IllegalWord, ReservedOp, ReservedFn, NonzeroMustBeZero, BadOperand, hop, accept_refuses, Instr.wellFormed, countOk,
      -Bool.and_eq_false_imp, Bool.and_eq_false_iff, or_assoc, fieldImm_high, ← immNum_eq, low18_eq_zero_iff, -not_and, not_and_or]

end Sys2Proof

namespace Sys2Proof.Machine

variable {s : State} {w : Word}

/-! ## Fetching an illegal word (R152, 60_exceptions R502) -/

/-- The fetch reads the word at PC. -/
theorem fetchBytes_of_fetches (h : Fetches s w) :
    ∃ b0 b1 b2 b3, fetchBytes s = .ok [b0, b1, b2, b3] ∧ wordOfBytes b0 b1 b2 b3 = w := by
  obtain ⟨-, -, hal, hin, b0, b1, b2, b3, g0, g1, g2, g3, hw⟩ := h
  refine ⟨b0, b1, b2, b3, ?_, BitVec.eq_of_toInt_eq hw⟩
  rw [fetchBytes, if_neg (not_not.mpr hal), if_neg (by omega)]
  simp only [readByte, g0, g1, g2, g3]

theorem step_of_undecodable (h : Fetches s w) (hd : ∀ i, decodeWord w ≠ .ok i) :
    step s = .next (takeFault .illegal s.pc w.toNat s) := by
  obtain ⟨b0, b1, b2, b3, hf, rfl⟩ := fetchBytes_of_fetches h
  obtain ⟨hb, ha, -⟩ := h
  cases he : decodeWord (wordOfBytes b0 b1 b2 b3) with
  | ok i => exact absurd he (hd i)
  | error e => simp [step, boundary, hb, ha, hf, decode_cons, he, Except.map, fetchedWord]

/-- Settles O4: the illegal words are those the decoder refuses (`illegalWord_iff`), and the step takes ILLEGAL on each of them. -/
theorem reservedWordsFault : Obligations.ReservedWordsFault := by
  refine ⟨illegalWord_iff, fun s w hf hw => ⟨_, step_of_undecodable hf ((illegalWord_iff w).mp hw), ?_⟩⟩
  have h := takeFault_entered s .illegal s.pc w.toNat
  rwa [faultInfoWord_word] at h

end Sys2Proof.Machine
end

section
/-! PROOFS. Fixed point (41_fixedpoint): saturation and register pairs as numbers, the ends the fixed-point instructions share, the integer
square root, the CORDIC rotation, and the statements about each instruction. -/

namespace Sys2Proof.Machine

/-! ## Saturation as the nearest number in range (00_scope R23) -/

theorem satLimit_eq (n : Nat) : satLimit n = 2 ^ (n - 1) := by simp [satLimit]

theorem asr_eq (v : Int) (k : Nat) : asr v k = v / 2 ^ k := by simp [asr]

theorem sat_eq_clampTo (n : Nat) (v : Int) : sat n v = clampTo n v := by
  have hpos : (0 : Int) < 2 ^ (n - 1) := by positivity
  simp only [sat, clampTo, satLimit_eq]
  split
  · omega
  · split <;> omega

theorem clamps_iff (n : Nat) (v : Int) : clamps n v = true ↔ OutOf n v := by
  simp [clamps, OutOf, satLimit_eq]

theorem clampTo_range (n : Nat) (v : Int) : -2 ^ (n - 1) ≤ clampTo n v ∧ clampTo n v < 2 ^ (n - 1) := by
  have hpos : (0 : Int) < 2 ^ (n - 1) := by positivity
  simp only [clampTo]
  omega

/-- A saturated result, read back as a signed number. -/
theorem toInt_u32_sat (v : Int) : (u32 (sat 32 v)).toInt = clampTo 32 v := by
  obtain ⟨hlo, hhi⟩ := sat32_range v
  exact (s32_u32 hlo hhi).trans (sat_eq_clampTo 32 v)

/-! ## What a write of general registers, with flags, leaves unchanged -/

section Frame

variable {s u : State} {but : List Reg}

theorem OnlyRegs.refl (s : State) (but : List Reg) : OnlyRegs s s but :=
  ⟨fun _ _ => rfl, fun _ _ => rfl, ⟨rfl, rfl, rfl⟩, fun _ => rfl⟩

/-- One more write, of a register that may change. -/
theorem OnlyRegs.setReg (h : OnlyRegs s u but) {r : Reg} (hr : r ∈ but) (v : Word) : OnlyRegs s (setReg u r v) but := by
  obtain ⟨hregs, hrest⟩ := h
  refine ⟨fun q hq => ?_, hrest⟩
  rw [reg_setReg_of_ne u v (ne_of_mem_of_not_mem hr hq).symm, hregs q hq]

/-- Adding flags to a write of general registers, and going on. -/
theorem OnlyRegs.flagged (h : OnlyRegs s u but) (f : BitVec 4) : OnlyRegsAndFlags s (advance (orFlags u f)) but := by
  obtain ⟨hregs, hsrs, hctl, hmem⟩ := h
  refine ⟨hregs, fun q hq => ?_, hctl, hmem⟩
  rw [advance_readSr, orFlags_readSr u f (by simpa using hq)]
  exact hsrs q (by simp)

/-- SAT is added exactly when a saturation clamped. -/
theorem satAdded_of_iff {t : State} {b : Bool} {clamped : Prop} (hb : b = true ↔ clamped) (h : FlagsAdded s t (satFlag b)) :
    SatAdded s t clamped := by
  refine ⟨fun hc => ?_, fun hc => ?_⟩
  · rwa [hb.mpr hc] at h
  · rwa [Bool.eq_false_iff.mpr (mt hb.mp hc)] at h

end Frame

/-! ## Register pairs as numbers (10_state R43) -/

section Pairs

variable (s : State) (p : Pair)

theorem pair_eq_pairValue : pair s p = pairValue s p := by
  simp only [pair, pairValue, BitVec.toInt_append]
  norm_num
  ring

/-- The high word of a pair is the floor of its value over 2^32. -/
theorem pairValue_div : pairValue s p / 2 ^ 32 = (reg s (pairHi p)).toInt := by
  have := (reg s (pairLo p)).isLt
  simp only [pairValue]
  omega

/-- A pair written with a signed 64-bit number holds it. -/
theorem pairValue_setPair {v : Int} (hlo : -2 ^ 63 ≤ v) (hhi : v < 2 ^ 63) : pairValue (setPair s p v) p = v := by
  have hhigh : (u32 (asr v 32)).toInt = v / 2 ^ 32 := by
    rw [asr_eq]
    exact s32_u32 (by omega) (by omega)
  have hlow : ((u32 v).toNat : Int) = v % 2 ^ 32 := by
    rw [u32, BitVec.toNat_ofInt]
    omega
  rw [pairValue, setPair_hi, setPair_lo, hhigh, hlow]
  omega

theorem pairValue_setPair_sat (v : Int) : pairValue (setPair s p (sat 64 v)) p = clampTo 64 v := by
  obtain ⟨hlo, hhi⟩ := clampTo_range 64 v
  rw [sat_eq_clampTo]
  exact pairValue_setPair s p hlo hhi

/-- A write of a pair changes its two registers alone. -/
theorem setPair_only (v : Int) : OnlyRegs s (setPair s p v) [pairLo p, pairHi p] :=
  ((OnlyRegs.refl s _).setReg (by simp) _).setReg (by simp) _

end Pairs

/-! ## How a fixed-point instruction ends (R200) -/

theorem fxPut_completes (rd : Reg) (v : Word) (f : BitVec 4) (s : State) :
    ∃ t, fxPut rd v f s = .next t ∧ OnlyRegsAndFlags s t [rd] ∧ NextPc s t ∧ reg t rd = v ∧ FlagsAdded s t f :=
  ⟨_, rfl, (setReg_only s rd v).flagged f, nextPc_of_pc rfl, reg_setReg_self s rd v, rfl⟩

theorem fxResult_completes (rd : Reg) (v : Int) (s : State) :
    ∃ t, fxResult rd v s = .next t ∧ (reg t rd).toInt = clampTo 32 v ∧ SatAdded s t (OutOf 32 v) ∧
      OnlyRegsAndFlags s t [rd] ∧ NextPc s t := by
  obtain ⟨t, he, hframe, hpc, hreg, hflags⟩ := fxPut_completes rd (u32 (sat 32 v)) (satFlag (clamps 32 v)) s
  exact ⟨t, he, by rw [hreg, toInt_u32_sat], satAdded_of_iff (clamps_iff 32 v) hflags, hframe, hpc⟩

theorem wideResult_completes (pd : Pair) (v : Int) (s : State) :
    ∃ t, wideResult pd v s = .next t ∧ pairValue t pd = clampTo 64 v ∧ SatAdded s t (OutOf 64 v) ∧
      OnlyRegsAndFlags s t [pairLo pd, pairHi pd] ∧ NextPc s t :=
  ⟨_, rfl, pairValue_setPair_sat s pd v, satAdded_of_iff (clamps_iff 64 v) rfl, (setPair_only s pd _).flagged _, nextPc_of_pc rfl⟩

/-! ## Q16.16 arithmetic (R201 to R203, R206, R207) -/

/-- Settles O30: each instruction saturates its exact result (`fxResult_completes`). -/
theorem fixedMultiplyAddSubtract : Obligations.FixedMultiplyAddSubtract := by
  intro rd rs rt s a b gives
  have hmul : execFmul rd rs rt s = fxResult rd (a * b / 65536) s := by rw [execFmul, asr_eq]; rfl
  have hmulr : execFmulr rd rs rt s = fxResult rd ((a * b + 32768) / 65536) s := by rw [execFmulr, asr_eq]; rfl
  simp only [gives, exec_fmul, exec_fmulr, hmul, hmulr]
  exact ⟨fxResult_completes rd _ s, fxResult_completes rd _ s, fxResult_completes rd (a + b) s, fxResult_completes rd (a - b) s⟩

/-- Settles O31, by whether the divisor is zero. -/
theorem fixedDivide : Obligations.FixedDivide := by
  intro rd rs rt s a b
  by_cases hb : b = 0
  · have hdiv : execFdiv rd rs rt s = fxPut rd 0x7FFFFFFF#32 flagDz s := if_pos hb
    obtain ⟨t, he, hframe, hpc, hreg, hflags⟩ := fxPut_completes rd 0x7FFFFFFF#32 flagDz s
    exact ⟨t, hdiv.trans he, hframe, hpc, fun _ => ⟨hreg, hflags⟩, fun h => absurd hb h⟩
  · have hdiv : execFdiv rd rs rt s = fxResult rd ((a * 65536).tdiv b) s := if_neg hb
    obtain ⟨t, he, hreg, hsat, hframe, hpc⟩ := fxResult_completes rd ((a * 65536).tdiv b) s
    exact ⟨t, hdiv.trans he, hframe, hpc, fun h => absurd h hb, fun _ => ⟨hreg, hsat⟩⟩

/-! ## The integer square root (R204, R205) -/

/-- The loop of isqrt_dd with `k` digits to go: when `rem` is what remains above the square of the digits `r` found, and the root has no
digit above them, it ends with the root. -/
theorem isqrtLoop_eq_sqrt (k r rem : Nat) (h : r * r + rem < (r + 2 ^ k) * (r + 2 ^ k)) :
    isqrtLoop k rem (2 ^ k * r) = Nat.sqrt (r * r + rem) := by
  induction k generalizing r rem with
  | zero =>
    rw [isqrtLoop, Nat.sqrt_add_eq r (by lia)]
    simp
  | succ k ih =>
    have hfour : (4 : Nat) ^ k = 2 ^ k * 2 ^ k := by rw [← Nat.mul_pow]
    have hhalf : 2 ^ (k + 1) * r / 2 = 2 ^ k * r := by
      rw [Nat.pow_succ, Nat.mul_right_comm, Nat.mul_div_cancel _ (by decide)]
    have hsquare : (r + 2 ^ k) * (r + 2 ^ k) = r * r + (2 ^ (k + 1) * r + 4 ^ k) := by rw [hfour]; ring
    simp only [isqrtLoop, hhalf]
    split
    next hle =>
      have hsum : (r + 2 ^ k) * (r + 2 ^ k) + (rem - (2 ^ (k + 1) * r + 4 ^ k)) = r * r + rem := by omega
      have hroot : 2 ^ k * r + 4 ^ k = 2 ^ k * (r + 2 ^ k) := by rw [hfour, Nat.mul_add]
      rw [hroot, ih _ _ (by rw [hsum]; convert h using 2 <;> ring), hsum]
    next hlt => exact ih r rem (by omega)

theorem isqrtDd_eq_sqrt {v : Nat} (h : v < 2 ^ 48) : isqrtDd v = Nat.sqrt v := by
  have := isqrtLoop_eq_sqrt 24 0 v (by omega)
  simpa [isqrtDd] using this

/-- The square root of a non-negative operand in Q16.16 is at most 0x00B504F3. -/
theorem sqrt_operand_le {a : Nat} (h : a < 2 ^ 31) : Nat.sqrt (a * 65536) ≤ 0x00B504F3 :=
  Nat.le_of_lt_add_one (Nat.sqrt_lt'.mpr (by norm_num; omega))

theorem toNat_sqrt_operand {a : Nat} (h : a < 2 ^ 31) :
    (BitVec.ofNat 32 (isqrtDd (a * 65536))).toNat = Nat.sqrt (a * 65536) := by
  have := sqrt_operand_le h
  rw [isqrtDd_eq_sqrt (by omega), BitVec.toNat_ofNat, Nat.mod_eq_of_lt (by omega)]

/-- Settles O32, by the sign of the operand: the loop computes the floor of the root (`isqrtLoop_eq_sqrt`). -/
theorem fixedSquareRoot : Obligations.FixedSquareRoot := by
  intro rd rs s a
  by_cases ha : a < 0
  · have hsqrt : execFsqrt rd rs s = fxPut rd 0x80000000#32 flagNv s := if_pos ha
    obtain ⟨t, he, hframe, hpc, hreg, hflags⟩ := fxPut_completes rd 0x80000000#32 flagNv s
    exact ⟨t, hsqrt.trans he, hframe, hpc, fun _ => ⟨hreg, hflags⟩, fun h => absurd ha (not_lt.mpr h)⟩
  · have hsqrt : execFsqrt rd rs s = fxPut rd (BitVec.ofNat 32 (isqrtDd (a.toNat * 65536))) 0 s := if_neg ha
    obtain ⟨n, hn⟩ := Int.eq_ofNat_of_zero_le (not_lt.mp ha)
    have hlt : n < 2 ^ 31 := by have : a < 2 ^ 31 := BitVec.toInt_lt; omega
    obtain ⟨t, he, hframe, hpc, hreg, hflags⟩ := fxPut_completes rd (BitVec.ofNat 32 (isqrtDd (a.toNat * 65536))) 0 s
    refine ⟨t, hsqrt.trans he, hframe, hpc, fun h => absurd h ha, fun _ => ?_⟩
    rw [hreg, hn, Int.toNat_natCast, toNat_sqrt_operand hlt]
    exact ⟨mod_cast Nat.sqrt_le _, mod_cast Nat.lt_succ_sqrt _, sqrt_operand_le hlt, hflags⟩

/-! ## Q16.48 arithmetic on pairs (R208 to R212) -/

/-- Settles O33: the products and the quotient saturate into their pair (`wideResult_completes`); a zero divisor writes the largest
number. -/
theorem wideMultiplyDivide : Obligations.WideMultiplyDivide := by
  intro pd ps pt rt s a b gives
  have hmul : execWmul pd ps rt s = wideResult pd (a * (reg s rt).toInt / 2 ^ 16) s := by
    rw [execWmul, asr_eq, pair_eq_pairValue]; rfl
  have hmulw : execWmulw pd ps pt s = wideResult pd (a * b / 2 ^ 48) s := by
    rw [execWmulw, asr_eq, pair_eq_pairValue, pair_eq_pairValue]
  have hdiv : execWdiv pd ps pt s = if b = 0 then .next (advance (orFlags (setPair s pd 0x7FFFFFFFFFFFFFFF) flagDz))
      else wideResult pd ((a * 2 ^ 48).tdiv b) s := by
    rw [execWdiv, pair_eq_pairValue, pair_eq_pairValue]; rfl
  simp only [gives, exec_wmul, exec_wmulw, exec_wdiv, hmul, hmulw, hdiv]
  refine ⟨wideResult_completes pd _ s, wideResult_completes pd _ s, fun hb => ?_, fun hb => ?_⟩
  · rw [if_neg hb]
    exact wideResult_completes pd _ s
  · rw [if_pos hb]
    exact ⟨_, rfl, pairValue_setPair s pd (by decide) (by decide), rfl, (setPair_only s pd _).flagged flagDz, nextPc_of_pc rfl⟩

/-- Settles O34: WEXT's value always fits its pair, and the high word of a pair is its floor (`pairValue_div`). -/
theorem wideMoves : Obligations.WideMoves := by
  intro pd ps rd rs s
  have hnrw : u32 (asr (pair s ps) 32) = reg s (pairHi ps) := by
    rw [asr_eq, pair_eq_pairValue, pairValue_div, u32, BitVec.ofInt_toInt]
  have hlo : -2 ^ 31 ≤ sreg s rs := BitVec.le_toInt _
  have hhi : sreg s rs < 2 ^ 31 := BitVec.toInt_lt
  rw [exec_wext, execWext, exec_wnrw, execWnrw, hnrw]
  refine ⟨⟨_, rfl, ?_, setPair_only s pd _, nextPc_of_pc rfl⟩, ⟨_, rfl, ?_, ?_, setReg_only s rd _, nextPc_of_pc rfl⟩⟩
  · exact pairValue_setPair s pd (by omega) (by omega)
  · rw [advance_reg, reg_setReg_self, pairValue_div]
  · exact reg_setReg_self s rd _

/-! ## CORDIC (R213, R214) -/

section Cordic

/-- The stages of a rotation, the last one split off. -/
theorem cordicLoop_succ (start n : Nat) (t : Int × Int × Int) :
    cordicLoop start (n + 1) t = cordicStage (start + n) (cordicLoop start n t) := by
  induction n generalizing start t with
  | zero => rfl
  | succ n ih =>
    rw [cordicLoop, ih, cordicLoop, Nat.add_right_comm, Nat.add_assoc]

/-- (xc, yc, z) after i stages of the rotation of (cgain, 0) by the angle z. -/
def cordicAfter (cgain z : Int) (i : Nat) : Int × Int × Int := cordicLoop 0 i (cgain, 0, z)

variable {cgain z : Int} {i : Nat}

theorem cordicAfter_succ : cordicAfter cgain z (i + 1) = cordicStage i (cordicAfter cgain z i) := by
  rw [cordicAfter, cordicLoop_succ, Nat.zero_add, cordicAfter]

/-- A stage whose residual angle is not negative. -/
theorem cordicAfter_succ_of_nonneg (h : 0 ≤ (cordicAfter cgain z i).2.2) :
    cordicAfter cgain z (i + 1) =
      ((cordicAfter cgain z i).1 - (cordicAfter cgain z i).2.1 / 2 ^ i,
        (cordicAfter cgain z i).2.1 + (cordicAfter cgain z i).1 / 2 ^ i, (cordicAfter cgain z i).2.2 - atan i) := by
  rw [cordicAfter_succ, cordicStage, if_pos h, asr_eq, asr_eq]

/-- A stage whose residual angle is negative. -/
theorem cordicAfter_succ_of_neg (h : (cordicAfter cgain z i).2.2 < 0) :
    cordicAfter cgain z (i + 1) =
      ((cordicAfter cgain z i).1 + (cordicAfter cgain z i).2.1 / 2 ^ i,
        (cordicAfter cgain z i).2.1 - (cordicAfter cgain z i).1 / 2 ^ i, (cordicAfter cgain z i).2.2 + atan i) := by
  rw [cordicAfter_succ, cordicStage, if_neg (not_le.mpr h), asr_eq, asr_eq]

/-- The rotation ends after `n` stages, in the quadrant of the phase's top two bits. -/
theorem cordic_eq (cgain : Int) (n u : Nat) :
    cordic cgain n u =
      quadrantFold (u / 2 ^ 30) (cordicAfter cgain (u % 2 ^ 30 : Nat) n).1 (cordicAfter cgain (u % 2 ^ 30 : Nat) n).2.1 := rfl

/-- What SINCOS leaves when its exact sine and cosine are `sn` and `c`. -/
def sincosWritten (rsin rcos : Reg) (c sn : Int) (s : State) : State :=
  advance (orFlags (setReg (setReg s rsin (u32 (sat 32 sn))) rcos (u32 (sat 32 c))) (satFlag (clamps 32 sn || clamps 32 c)))

theorem execSincos_eq (rsin rphase rcos : Reg) (s : State) :
    execSincos rsin rphase rcos s = .next (sincosWritten rsin rcos
      (cordic s.sr.cgain.toInt s.sr.cstages.toNat (reg s rphase).toNat).1
      (cordic s.sr.cgain.toInt s.sr.cstages.toNat (reg s rphase).toNat).2 s) := rfl

variable {rsin rcos : Reg} (c sn : Int) (s : State)

theorem sincosWritten_cos : (reg (sincosWritten rsin rcos c sn s) rcos).toInt = clampTo 32 c := by
  rw [sincosWritten, advance_reg, orFlags_reg, reg_setReg_self, toInt_u32_sat]

theorem sincosWritten_sin (h : rsin ≠ rcos) : (reg (sincosWritten rsin rcos c sn s) rsin).toInt = clampTo 32 sn := by
  rw [sincosWritten, advance_reg, orFlags_reg, reg_setReg_of_ne _ _ h, reg_setReg_self, toInt_u32_sat]

theorem sincosWritten_only : OnlyRegsAndFlags s (sincosWritten rsin rcos c sn s) [rsin, rcos] :=
  (((OnlyRegs.refl s _).setReg (by simp) _).setReg (by simp) _).flagged _

theorem sincosWritten_sat : SatAdded s (sincosWritten rsin rcos c sn s) (OutOf 32 sn ∨ OutOf 32 c) :=
  satAdded_of_iff (by rw [Bool.or_eq_true, clamps_iff, clamps_iff]) rfl

end Cordic

/-- Settles O35: X, Y and Z are the three parts of `cordicAfter`, which each stage carries on, and the fold selects the quadrant. -/
theorem sincosRotates : Obligations.SincosRotates := by
  intro rsin rphase rcos s hne n u angle
  let after := cordicAfter s.sr.cgain.toInt (u % 2 ^ 30 : Nat)
  let cs := cordic s.sr.cgain.toInt n u
  have fold {q : Nat} (hq : u / 2 ^ 30 = q) : cs = quadrantFold q (after n).1 (after n).2.1 := by rw [← hq]; exact cordic_eq _ n u
  refine ⟨sincosWritten rsin rcos cs.1 cs.2 s, fun i => (after i).1, fun i => (after i).2.1, fun i => (after i).2.2, cs.1, cs.2,
    rfl, rfl, rfl, fun i _ => ⟨fun hz => ?_, fun hz => ?_⟩, fun hq => ?_, fun hq => ?_, fun hq => ?_, fun hq => ?_,
    execSincos_eq rsin rphase rcos s, sincosWritten_sin _ _ s hne, sincosWritten_cos _ _ s, sincosWritten_sat _ _ s,
    sincosWritten_only _ _ s, nextPc_of_pc rfl⟩
  · have h := cordicAfter_succ_of_nonneg hz
    exact ⟨congrArg (·.1) h, congrArg (·.2.1) h, congrArg (·.2.2) h⟩
  · have h := cordicAfter_succ_of_neg hz
    exact ⟨congrArg (·.1) h, congrArg (·.2.1) h, congrArg (·.2.2) h⟩
  all_goals
    rw [fold hq]
    exact ⟨rfl, rfl⟩

end Sys2Proof.Machine
end

section
/-! PROOFS. The bit reader (42_bitreader): the stream that BSINIT sets, the bits that PEEK and READ return, the cursor moves of SKIP and
ALIGN, and the faults of each. -/

namespace Sys2Proof.Machine

variable {s u : State} {but : List Reg} {rd rn : Reg} {n v : Nat}

/-! ## The cursor and the stream as parts of the state (10_state R51) -/

/-- A cursor position within a stream fits BSPOS. -/
theorem toNat_bspos_setPos (h : n ≤ s.sr.bslen.toNat) : (setPos u n).sr.bspos.toNat = n :=
  (BitVec.toNat_ofNat n 32).trans (Nat.mod_eq_of_lt (Nat.lt_of_le_of_lt h s.sr.bslen.isLt))

/-- Moving the cursor changes BSPOS alone. -/
theorem OnlyRegs.setPos (h : OnlyRegs s u but) (n : Nat) : OnlyRegsAndSrs s (setPos u n) but [.bspos] := by
  obtain ⟨hregs, hsrs, hctl, hmem⟩ := h
  refine ⟨hregs, fun q hq => ?_, hctl, hmem⟩
  rw [setPos_readSr u n (by simpa using hq)]
  exact hsrs q (by simp)

/-- The stream of `len` bits at `base`, the cursor at its start (R254). -/
def setStream (s : State) (base len : Word) : State := { s with sr := { s.sr with bsbase := base, bslen := len, bspos := 0 } }

theorem setStream_readSr (base len : Word) {q : SReg} (h : q ∉ [SReg.bsbase, .bslen, .bspos]) :
    readSr (setStream s base len) q = readSr s q := by
  cases q with
  | bsbase | bslen | bspos => simp at h
  | _ => rfl

/-- Setting the stream changes its three registers alone. -/
theorem setStream_only (s : State) (base len : Word) : OnlyRegsAndSrs s (setStream s base len) [] [.bsbase, .bslen, .bspos] :=
  ⟨fun _ _ => rfl, fun _ hq => setStream_readSr base len hq, ⟨rfl, rfl, rfl⟩, fun _ => rfl⟩

/-! ## BSINIT (R254) -/

theorem execBsinit_eq (rbase rlen : Reg) (s : State) :
    execBsinit rbase rlen s = conclude s
      (if 0 < (reg s rlen).toNat ∧ lmemSize s < (reg s rbase).toNat + ((reg s rlen).toNat + 7) / 8
        then raise .daddr (reg s rbase).toNat else .ok (advance (setStream s (reg s rbase) (reg s rlen)))) := rfl

/-- Settles O36, by whether a stream that is not empty runs past LMEM. -/
theorem bsinitSetsTheStream : Obligations.BsinitSetsTheStream := by
  intro rbase rlen s base len
  rw [exec_bsinit, execBsinit_eq]
  refine ⟨fun hfits => ?_, fun hlen hout => faultEntry_of_raise (if_pos ⟨hlen, hout⟩)⟩
  rw [if_neg fun ⟨hlen, hout⟩ => hfits.elim hlen.ne' (Nat.not_le.mpr hout)]
  exact ⟨_, rfl, rfl, rfl, rfl, setStream_only s base len, nextPc_of_pc rfl⟩

/-! ## PEEK and READ, their count in the instruction or in a register (R255 to R258) -/

/-- A number of at most 32 bits fits a register. -/
theorem toNat_ofNat_of_streamBits {pos : Nat} (h : StreamBits s pos n v) (hn : n ≤ 32) : (BitVec.ofNat 32 v).toNat = v :=
  (BitVec.toNat_ofNat v 32).trans (Nat.mod_eq_of_lt (Nat.lt_of_lt_of_le h.1 (Nat.pow_le_pow_right (by decide) hn)))

theorem execPeekr_of_le (hn : (reg s rn).toNat ≤ 32) : execPeekr rd rn s = conclude s (peekInto rd (reg s rn).toNat s) := by
  rw [execPeekr, if_neg (by omega)]

theorem execReadr_of_le (hn : (reg s rn).toNat ≤ 32) : execReadr rd rn s = conclude s (readInto rd (reg s rn).toNat s) := by
  rw [execReadr, if_neg (by omega)]

theorem peekInto_completes (hn : n ≤ 32) (hbits : StreamBits s s.sr.bspos.toNat n v) :
    ∃ t, conclude s (peekInto rd n s) = .next t ∧ (reg t rd).toNat = v ∧ OnlyRegs s t [rd] ∧ NextPc s t := by
  rw [peekInto, peekBits_of_streamBits hbits]
  refine ⟨_, rfl, ?_, setReg_only s rd _, nextPc_of_pc rfl⟩
  rw [advance_reg, reg_setReg_self, toNat_ofNat_of_streamBits hbits hn]

theorem readInto_completes (hn : n ≤ 32) (hle : s.sr.bspos.toNat + n ≤ s.sr.bslen.toNat)
    (hbits : StreamBits s s.sr.bspos.toNat n v) :
    ∃ t, conclude s (readInto rd n s) = .next t ∧ (reg t rd).toNat = v ∧ t.sr.bspos.toNat = s.sr.bspos.toNat + n ∧
      OnlyRegsAndSrs s t [rd] [.bspos] ∧ NextPc s t := by
  rw [readInto, takeBits_of_streamBits hbits hle]
  refine ⟨_, rfl, ?_, toNat_bspos_setPos hle, (setReg_only s rd _).setPos _, nextPc_of_pc rfl⟩
  rw [advance_reg, setPos_reg, reg_setReg_self, toNat_ofNat_of_streamBits hbits hn]

/-- A read that would pass BSLEN raises BSOVR at the cursor (R253). -/
theorem readInto_overrun (h : s.sr.bslen.toNat < s.sr.bspos.toNat + n) :
    readInto rd n s = raise .bsovr s.sr.bspos.toNat := by
  rw [readInto, takeBits, if_pos h]
  rfl

/-- Settles O37: a register count of at most 32 reads as the same count in the instruction (`readInto_completes`). -/
theorem readTakesBits : Obligations.ReadTakesBits := by
  intro rd rn n v s reads
  refine ⟨readInto_completes, fun hn => ?_⟩
  rw [exec_readr, execReadr_of_le hn]
  exact readInto_completes hn

/-- Settles O38, as O37 with the cursor left (`peekInto_completes`). -/
theorem peekShowsBits : Obligations.PeekShowsBits := by
  intro rd rn n v s peeks
  refine ⟨peekInto_completes, fun hn => ?_⟩
  rw [exec_peekr, execPeekr_of_le hn]
  exact peekInto_completes hn

/-- Settles O40: a register count is checked before the bits are taken, and the bits before rd is written. -/
theorem readersCheckTheirCounts : Obligations.ReadersCheckTheirCounts := by
  intro rd rn n s
  refine ⟨fun hout => faultEntry_of_raise (readInto_overrun hout), fun hn hout => ?_,
    fun hn => ⟨faultEntry_of_raise (if_pos hn), faultEntry_of_raise (if_pos hn)⟩⟩
  rw [exec_readr, execReadr_of_le hn]
  exact faultEntry_of_raise (readInto_overrun hout)

/-! ## SKIP and ALIGN (R259 to R261) -/

/-- The outcome `o` of the instruction at PC is the cursor moved to `target` alone, or BSOVR at the cursor where `target` passes BSLEN. -/
def MovesCursor (s : State) (target : Nat) (o : Host.Outcome State Fault Refusal) : Prop :=
  (target ≤ s.sr.bslen.toNat →
    ∃ t, o = .next t ∧ t.sr.bspos.toNat = target ∧ OnlyRegsAndSrs s t [] [.bspos] ∧ NextPc s t) ∧
  (s.sr.bslen.toNat < target → FaultEntry s .bsovr s.sr.bspos o)

/-- A move that is checked against BSLEN before it is committed. -/
theorem movesCursor_of_checked (s : State) (target : Nat) :
    MovesCursor s target (conclude s
      (if s.sr.bslen.toNat < target then raise .bsovr s.sr.bspos.toNat else .ok (advance (setPos s target)))) := by
  refine ⟨fun hle => ?_, fun hout => faultEntry_of_raise (if_pos hout)⟩
  rw [if_neg (by omega)]
  exact ⟨_, rfl, toNat_bspos_setPos hle, (OnlyRegs.refl s []).setPos target, nextPc_of_pc rfl⟩

/-- Settles O39: the three instructions make one checked move, each to its own target. -/
theorem skipAndAlignMoveTheCursor : Obligations.SkipAndAlignMoveTheCursor := by
  intro rn n s pos moves
  exact ⟨movesCursor_of_checked s (pos + n.toNat), movesCursor_of_checked s (pos + (reg s rn).toNat),
    movesCursor_of_checked s (8 * ((pos + 7) / 8))⟩

end Sys2Proof.Machine
end

section
/-! PROOFS. Variable-length codes (43_vlc): what one level of a lookup does with the entry it reads, that a lookup returns what its table
says, and how VLCDEC ends. -/

namespace Sys2Proof.Machine

variable {s : State} {T pos left level consumed off w idx nb : Nat} {e : Word}

/-! ## One level of a lookup (R282) -/

/-- LMEM_SIZE is at most 2^20 (00_scope R12), so an address inside LMEM fits FAULTINFO. -/
theorem lmemSize_le (s : State) : lmemSize s ≤ 2 ^ 20 :=
  Nat.pow_le_pow_right (by decide) (by have := s.lmemLog.isLt; omega)

/-- An entry inside LMEM has a 32-bit address. -/
theorem VlcEntry.address_lt (he : VlcEntry s T off idx e) : T + 4 * (off + idx) < 2 ^ 32 := by
  obtain ⟨hin, -⟩ := he
  have := lmemSize_le s
  omega

/-- An entry outside LMEM. -/
theorem vlcLevels_outside (hb : StreamBits s (pos + consumed) w idx) (hout : lmemSize s < T + 4 * (off + idx) + 4) :
    vlcLevels s s.mem T pos (left + 1) consumed off w = raise .daddr (T + 4 * (off + idx)) := by
  simp only [vlcLevels, peekBits_of_streamBits hb, if_pos hout]

/-- A level that finds its entry inside LMEM goes by the kind of the entry: a leaf, a sub-table, or a miss (R281). -/
theorem vlcLevels_of_entry (hT : T % 4 = 0) (hb : StreamBits s (pos + consumed) w idx) (he : VlcEntry s T off idx e) :
    vlcLevels s s.mem T pos (left + 1) consumed off w =
      if e.toNat / 2 ^ 30 = 1 then
        if e.toNat / 2 ^ 24 % 64 = 0 ∨ w < e.toNat / 2 ^ 24 % 64 then raise .vlctbl (T + 4 * (off + idx))
        else if s.sr.bslen.toNat < pos + (consumed + e.toNat / 2 ^ 24 % 64) then raise .bsovr pos
        else .ok (.leaf (e.toNat % 65536) (consumed + e.toNat / 2 ^ 24 % 64))
      else if e.toNat / 2 ^ 30 = 2 then
        if left = 0 then raise .vlctbl (T + 4 * (off + idx))
        else if e.toNat / 2 ^ 24 % 64 = 0 ∨ 16 < e.toNat / 2 ^ 24 % 64 then raise .vlctbl (T + 4 * (off + idx))
        else vlcLevels s s.mem T pos left (consumed + w) (e.toNat % 2 ^ 24) (e.toNat / 2 ^ 24 % 64)
      else .ok (.miss (T + 4 * (off + idx))) := by
  obtain ⟨hin, hword⟩ := he
  rw [vlcLevels, peekBits_of_streamBits hb]
  simp only [if_neg (Nat.not_lt.mpr hin), memRead_of_holds (show (T + 4 * (off + idx)) % 4 = 0 by omega) hin hword]

/-- A malformed entry: a leaf whose length is 0 or above the index width, a sub-table entry at the last level or of a bad width. -/
theorem vlcLevels_malformed (hT : T % 4 = 0) (hb : StreamBits s (pos + consumed) w idx) (he : VlcEntry s T off idx e)
    (hbad : (e.toNat / 2 ^ 30 = 1 ∧ (e.toNat / 2 ^ 24 % 64 = 0 ∨ w < e.toNat / 2 ^ 24 % 64)) ∨
      (e.toNat / 2 ^ 30 = 2 ∧ (left = 0 ∨ e.toNat / 2 ^ 24 % 64 = 0 ∨ 16 < e.toNat / 2 ^ 24 % 64))) :
    vlcLevels s s.mem T pos (left + 1) consumed off w = raise .vlctbl (T + 4 * (off + idx)) := by
  rw [vlcLevels_of_entry hT hb he]
  rcases hbad with ⟨hk, hlen⟩ | ⟨hk, hlast | hwidth⟩
  · rw [if_pos hk, if_pos hlen]
  · rw [if_neg (by omega), if_pos hk, if_pos hlast]
  · rw [if_neg (by omega), if_pos hk, if_pos hwidth, ite_self]

/-- A leaf whose code runs past BSLEN. -/
theorem vlcLevels_overrun (hT : T % 4 = 0) (hb : StreamBits s (pos + consumed) w idx) (he : VlcEntry s T off idx e)
    (hk : e.toNat / 2 ^ 30 = 1) (h1 : 1 ≤ e.toNat / 2 ^ 24 % 64) (hw : e.toNat / 2 ^ 24 % 64 ≤ w)
    (hout : s.sr.bslen.toNat < pos + (consumed + e.toNat / 2 ^ 24 % 64)) :
    vlcLevels s s.mem T pos (left + 1) consumed off w = raise .bsovr pos := by
  rw [vlcLevels_of_entry hT hb he, if_pos hk, if_neg (by omega), if_pos hout]

/-! ## A lookup returns what its table says (R282) -/

/-- By induction on the levels that the lookup goes through; `left` is the number of levels below this one. -/
theorem vlcLevels_of_reads {r : VlcResult} (hT : T % 4 = 0) (h : VlcReads s T pos level consumed off w r)
    (hleft : level + left = 3) : vlcLevels s s.mem T pos (left + 1) consumed off w = .ok r := by
  induction h generalizing left with
  | leaf hb he hk h1 hw hl => rw [vlcLevels_of_entry hT hb he, if_pos hk, if_neg (by omega), if_neg (by omega)]
  | miss hb he hk => rw [vlcLevels_of_entry hT hb he, if_neg (by omega), if_neg (by omega)]
  | sub hb he hk hlev h1 h16 hr ih =>
    obtain ⟨below, rfl⟩ : ∃ below, left = below + 1 := ⟨left - 1, by omega⟩
    rw [vlcLevels_of_entry hT hb he, if_neg (by omega), if_pos hk, if_neg (by omega), if_neg (by omega)]
    exact ih (by omega)

theorem vlcLookup_of_reads {r : VlcResult} (hT : T % 4 = 0) (h : VlcReads s T pos 1 0 0 nb r) :
    vlcLookup s s.mem T nb pos = .ok r :=
  vlcLevels_of_reads (left := 2) hT h rfl

/-! ## VLCDEC by what its lookup ends in (R283) -/

section Vlcdec

variable {rd rtab : Reg} {nb : BitVec 5}

theorem execVlcdec_leaf {sym total : Nat} (hT : (reg s rtab).toNat % 4 = 0)
    (h : vlcLookup s s.mem (reg s rtab).toNat nb.toNat s.sr.bspos.toNat = .ok (.leaf sym total)) :
    execVlcdec rd rtab nb s =
      .next (advance (setPos (setReg s rd (BitVec.ofNat 32 sym)) (s.sr.bspos.toNat + total))) := by
  rw [execVlcdec, if_neg (not_not.mpr hT), h]
  rfl

theorem execVlcdec_miss {ea : Nat} (hT : (reg s rtab).toNat % 4 = 0)
    (h : vlcLookup s s.mem (reg s rtab).toNat nb.toNat s.sr.bspos.toNat = .ok (.miss ea)) :
    execVlcdec rd rtab nb s = .next (advance (orFlags (setReg s rd 0xFFFFFFFF#32) flagVlcm)) := by
  rw [execVlcdec, if_neg (not_not.mpr hT), h]
  rfl

/-- VLCDEC takes the fault of any level that its lookup comes to. -/
theorem execVlcdec_faults {c : Cause} {n : Nat} (hT : (reg s rtab).toNat % 4 = 0)
    (hr : VlcReaches s (reg s rtab).toNat s.sr.bspos.toNat nb.toNat level consumed off w)
    (h : vlcLevels s s.mem (reg s rtab).toNat s.sr.bspos.toNat (3 - level + 1) consumed off w = raise c n) :
    FaultEntry s c (faultInfoWord n) (execVlcdec rd rtab nb s) := by
  obtain ⟨-, hle, hlookup⟩ := vlcLookup_of_reaches hT hr
  rw [show 4 - level = 3 - level + 1 by omega, h] at hlookup
  refine ⟨_, ?_, takeFault_entered s c s.pc n⟩
  rw [execVlcdec, if_neg (not_not.mpr hT), hlookup]
  rfl

end Vlcdec

/-- Settles O41: the lookup returns what the table says (`vlcLookup_of_reads`), and a symbol and a code's end each fit their register. -/
theorem vlcdecDecodes : Obligations.VlcdecDecodes := by
  intro rd rtab nb s T pos hT
  refine ⟨fun sym total hreads => ?_, fun ea hreads => ?_⟩
  · have hlookup := vlcLookup_of_reads hT hreads
    obtain ⟨hsym, -, hend⟩ := vlcLookup_leaf hlookup
    refine ⟨_, execVlcdec_leaf hT hlookup, ?_, toNat_bspos_setPos hend, (setReg_only s rd _).setPos _, nextPc_of_pc rfl⟩
    rw [advance_reg, setPos_reg, reg_setReg_self, BitVec.toNat_ofNat, Nat.mod_eq_of_lt (by omega)]
  · exact ⟨_, execVlcdec_miss hT (vlcLookup_of_reads hT hreads), reg_setReg_self s rd _, rfl, (setReg_only s rd _).flagged flagVlcm,
      nextPc_of_pc rfl⟩

/-- Settles O42: each fault is what the level it names raises, and VLCDEC takes it there (`execVlcdec_faults`). -/
theorem vlcdecFaults : Obligations.VlcdecFaults := by
  intro rd rtab nb level consumed off w idx e s T pos ea k f faults
  refine ⟨fun hT => faultEntry_of_raise (if_pos hT), fun hT hr hb =>
    ⟨fun hout => ?_, fun he => ⟨fun hbad => ?_, fun hk h1 hw hout => ?_⟩⟩⟩
  · exact ⟨faultInfoWord ea, execVlcdec_faults hT hr (vlcLevels_outside hb hout), fun hlt => if_pos hlt⟩
  · have hinfo : faultInfoWord ea = BitVec.ofNat 32 ea := if_pos he.address_lt
    rw [← hinfo]
    exact execVlcdec_faults hT hr (vlcLevels_malformed hT hb he (by omega))
  · have hfault := execVlcdec_faults (rd := rd) hT hr (vlcLevels_overrun hT hb he hk h1 hw hout)
    rwa [faultInfoWord_word] at hfault

end Sys2Proof.Machine
end

section
/-! PROOFS. GAIN (44_spectral R301, R302): the gain as a saturated sum of groups, the width of its bucket, and the statement about the
command. -/

namespace Sys2Proof.Machine

variable {s : State} {rd : Reg}

/-! ## The fault of an information value that fits FAULTINFO -/

theorem faultEntry_of_raise_lt {r : Run State} {c : Cause} {n : Nat} (hn : n < 2 ^ 32) (h : r = raise c n) :
    FaultEntry s c (BitVec.ofNat 32 n) (conclude s r) :=
  faultEntry_of_raise (by rw [h, BitVec.toNat_ofNat, Nat.mod_eq_of_lt hn])

/-! ## The gain as a sum (R301) -/

/-- A sum of groups, saturated to 32 bits. -/
def gainOf (total : Nat) : Nat := min total (2 ^ 32 - 1)

/-- One more group: the saturated sum of a saturated sum is the saturated sum of all. -/
theorem usat32_gainOf_add (total r : Nat) : usat32 ((gainOf total : Int) + r) = gainOf (total + r) := by
  simp only [usat32, gainOf]
  split_ifs <;> omega

theorem uclamps32_iff (v : Int) : uclamps32 v = true ↔ v < 0 ∨ 4294967296 ≤ v := by simp [uclamps32]

/-- One of the additions clamps exactly when the whole sum leaves 32 bits. -/
theorem clamped_gainOf_add (total r : Nat) :
    (decide (2 ^ 32 ≤ total) || uclamps32 ((gainOf total : Int) + r)) = decide (2 ^ 32 ≤ total + r) := by
  rw [Bool.eq_iff_iff, Bool.or_eq_true, uclamps32_iff, decide_eq_true_iff, decide_eq_true_iff, gainOf]
  omega

/-- The loop of GAIN with the groups so far summing to `total`. -/
def gainFrom (s : State) (fuel pos total : Nat) : Run (Int × Nat × Bool) :=
  gainLoop s fuel pos (gainOf total) (decide (2 ^ 32 ≤ total))

/-- A group of 127 goes on to the next group. -/
theorem gainFrom_group {fuel pos total : Nat} (hbits : StreamBits s pos 7 127) (hle : pos + 7 ≤ s.sr.bslen.toNat) :
    gainFrom s (fuel + 1) pos total = gainFrom s fuel (pos + 7) (total + 127) := by
  simp only [gainFrom, gainLoop, takeBits_of_streamBits hbits hle, usat32_gainOf_add, clamped_gainOf_add, ne_eq, not_true, if_false]

/-- A smaller group ends the gain. -/
theorem gainFrom_last {fuel pos total r : Nat} (hr : r < 127) (hbits : StreamBits s pos 7 r) (hle : pos + 7 ≤ s.sr.bslen.toNat) :
    gainFrom s (fuel + 1) pos total = .ok (gainOf (total + r), pos + 7, decide (2 ^ 32 ≤ total + r)) := by
  simp only [gainFrom, gainLoop, takeBits_of_streamBits hbits hle, usat32_gainOf_add, clamped_gainOf_add, ne_eq, hr.ne,
    not_false_eq_true, if_true]

/-- A group that runs past BSLEN, whether or not the loop has a turn left for it. -/
theorem gainFrom_overrun {fuel pos total : Nat} (hout : s.sr.bslen.toNat < pos + 7) :
    gainFrom s fuel pos total = raise .bsovr pos := by
  cases fuel with
  | zero => rfl
  | succ n => simp only [gainFrom, gainLoop, takeBits, if_pos hout, raise]

/-- `k` groups of 127, each of which takes one turn. -/
theorem gainFrom_groups {pos : Nat} (k : Nat) {fuel total : Nat} (hbits : ∀ j, j < k → StreamBits s (pos + 7 * j) 7 127)
    (hle : pos + 7 * k ≤ s.sr.bslen.toNat) :
    gainFrom s (fuel + k) pos total = gainFrom s fuel (pos + 7 * k) (total + 127 * k) := by
  induction k generalizing fuel with
  | zero => rfl
  | succ k ih =>
    rw [show fuel + (k + 1) = fuel + 1 + k by omega, ih (fun j hj => hbits j (by omega)) (by omega),
      gainFrom_group (hbits k (by omega)) (by omega)]
    rfl

/-! ## The state GAIN leaves -/

/-- The gain `g` in rd, the width of its bucket in ESCW, the cursor at `pos`, SAT added where the sum clamped. -/
def gainWritten (rd : Reg) (g pos : Nat) (clamped : Bool) (s : State) : State :=
  let t := setPos (setReg s rd (u32 g)) pos
  advance (orFlags { t with sr := { t.sr with escw := BitVec.ofNat 5 (bucketWidth s g) } } (satFlag clamped))

theorem execGain_of_gain {g pos : Nat} {clamped : Bool}
    (h : gainFrom s (s.sr.bslen.toNat / 7 + 1) s.sr.bspos.toNat 1 = .ok (g, pos, clamped)) :
    execGain rd s = .next (gainWritten rd g pos clamped s) := by
  have h' : gainLoop s (s.sr.bslen.toNat / 7 + 1) s.sr.bspos.toNat 1 false = .ok (g, pos, clamped) := h
  rw [execGain, h']
  rfl

theorem execGain_of_raise {c : Cause} {n : Nat} (hn : n < 2 ^ 32)
    (h : gainFrom s (s.sr.bslen.toNat / 7 + 1) s.sr.bspos.toNat 1 = raise c n) :
    FaultEntry s c (BitVec.ofNat 32 n) (execGain rd s) := by
  have h' : gainLoop s (s.sr.bslen.toNat / 7 + 1) s.sr.bspos.toNat 1 false = raise c n := h
  exact faultEntry_of_raise_lt hn (by rw [h']; rfl)

/-- A saturated gain fits its register. -/
theorem toNat_reg_gainWritten (total pos : Nat) (clamped : Bool) :
    (reg (gainWritten rd (gainOf total) pos clamped s) rd).toNat = gainOf total := by
  have hlt : gainOf total < 2 ^ 32 := by rw [gainOf]; omega
  calc (reg (gainWritten rd (gainOf total) pos clamped s) rd).toNat
      = (u32 (gainOf total : Int)).toNat := congrArg BitVec.toNat (reg_setReg_self s rd _)
    _ = gainOf total := by rw [u32, BitVec.ofInt_natCast, BitVec.toNat_ofNat, Nat.mod_eq_of_lt hlt]

/-- The width of a bucket has five bits, as ESCW does. -/
theorem bucketWidth_lt (s : State) (g : Nat) : bucketWidth s g < 2 ^ 5 := by
  have hmod (lo : Nat) : subfield s.sr.gwid.toNat lo 5 < 2 ^ 5 := Nat.mod_lt _ (by decide)
  unfold bucketWidth
  simp only
  split_ifs <;> exact hmod _

/-- The bucket of a gain (R302), with GTHR and GWID as numbers. -/
theorem bucketWidth_eq (s : State) (g : Nat) :
    bucketWidth s g =
      (if g < s.sr.gthr.toNat % 2 ^ 8 then s.sr.gwid.toNat % 2 ^ 5
        else if g < s.sr.gthr.toNat / 2 ^ 8 % 2 ^ 8 then s.sr.gwid.toNat / 2 ^ 5 % 2 ^ 5
        else if g < s.sr.gthr.toNat / 2 ^ 16 % 2 ^ 8 then s.sr.gwid.toNat / 2 ^ 10 % 2 ^ 5
        else if g < s.sr.gthr.toNat / 2 ^ 24 then s.sr.gwid.toNat / 2 ^ 15 % 2 ^ 5 else s.sr.gwid.toNat / 2 ^ 20) := by
  have hT : s.sr.gthr.toNat / 2 ^ 24 % 2 ^ 8 = s.sr.gthr.toNat / 2 ^ 24 := by have := s.sr.gthr.isLt; omega
  have hW : s.sr.gwid.toNat / 2 ^ 20 % 2 ^ 5 = s.sr.gwid.toNat / 2 ^ 20 := by have := s.sr.gwid.isLt; omega
  simp only [bucketWidth, subfield, hT, hW, pow_zero, Nat.div_one]

theorem gainWritten_readSr (g pos : Nat) (clamped : Bool) {q : SReg} (h : q ∉ [SReg.escw, .bspos, .astat]) :
    readSr (gainWritten rd g pos clamped s) q = readSr s q := by
  cases q with
  | escw | bspos | astat => simp at h
  | _ => rfl

theorem gainWritten_only (g pos : Nat) (clamped : Bool) :
    OnlyRegsAndSrs s (gainWritten rd g pos clamped s) [rd] [.escw, .bspos, .astat] :=
  ⟨(setReg_only s rd _).1, fun _ hq => gainWritten_readSr g pos clamped hq, ⟨rfl, rfl, rfl⟩, fun _ => rfl⟩

/-- Settles O43: `k` groups of 127 (`gainFrom_groups`), then the group that ends the gain or the one that runs past BSLEN. -/
theorem gainDecodes : Obligations.GainDecodes := by
  intro rd k r s pos total g T W hbits
  have hlen := s.sr.bslen.isLt
  have groups {fuel : Nat} (hfuel : s.sr.bslen.toNat / 7 + 1 = fuel + k) (hle : pos + 7 * k ≤ s.sr.bslen.toNat) :
      gainFrom s (s.sr.bslen.toNat / 7 + 1) pos 1 = gainFrom s fuel (pos + 7 * k) (1 + 127 * k) := by
    rw [hfuel]; exact gainFrom_groups k hbits hle
  refine ⟨fun hr hlast hle => ?_, fun hle hout => ?_⟩
  · have hgain := (groups (fuel := s.sr.bslen.toNat / 7 - k + 1) (by omega) (by omega)).trans (gainFrom_last hr hlast hle)
    refine ⟨_, execGain_of_gain hgain, toNat_reg_gainWritten _ _ _, ?_, ?_, satAdded_of_iff decide_eq_true_iff rfl,
      gainWritten_only _ _ _, nextPc_of_pc rfl⟩
    · exact toNat_bspos_setPos (u := s) hle
    · calc (BitVec.ofNat 5 (bucketWidth s g)).toNat = bucketWidth s g := by
            rw [BitVec.toNat_ofNat, Nat.mod_eq_of_lt (bucketWidth_lt s g)]
        _ = _ := bucketWidth_eq s g
  · exact execGain_of_raise (by omega)
      ((groups (fuel := s.sr.bslen.toNat / 7 + 1 - k) (by omega) hle).trans (gainFrom_overrun hout))

end Sys2Proof.Machine
end

section
/-! PROOFS. RLDEC (44_spectral R303, R304): what one code does, the loop along its codes, the zero-fill, and the statements
about the command. -/

namespace Sys2Proof.Machine

variable {s : State} {m m' : Memory} {T pos nb cb N : Nat}

/-! ## The stream read from the LMEM that the loop carries (R263) -/

theorem bit_withMem (s : State) (m m' : Memory) (k : Nat) : bit (withMem s m) m' k = bit s m' k := rfl

theorem peekLoop_withMem (s : State) (m m' : Memory) (n pos v : Nat) : peekLoop (withMem s m) m' pos n v = peekLoop s m' pos n v := by
  induction n generalizing pos v with
  | zero => rfl
  | succ n ih => simp only [peekLoop, bit_withMem, ih]

theorem peekBits_withMem (s : State) (m m' : Memory) (pos n : Nat) : peekBits (withMem s m) m' pos n = peekBits s m' pos n :=
  peekLoop_withMem s m m' n pos 0

theorem takeBits_withMem (s : State) (m m' : Memory) (pos n : Nat) : takeBits (withMem s m) m' pos n = takeBits s m' pos n := by
  simp only [takeBits, peekBits_withMem]
  rfl

theorem vlcLevels_withMem (s : State) (m m' : Memory) (T pos left consumed off w : Nat) :
    vlcLevels (withMem s m) m' T pos left consumed off w = vlcLevels s m' T pos left consumed off w := by
  induction left generalizing consumed off w with
  | zero => rfl
  | succ n ih =>
    simp only [vlcLevels, peekBits_withMem, ih]
    rfl

theorem vlcLookup_withMem (s : State) (m m' : Memory) (T nb pos : Nat) :
    vlcLookup (withMem s m) m' T nb pos = vlcLookup s m' T nb pos := vlcLevels_withMem s m m' T pos 3 0 0 nb

theorem rldecRunLevel_withMem (s : State) (m m' : Memory) (sym pos : Nat) :
    rldecRunLevel (withMem s m) m' sym pos = rldecRunLevel s m' sym pos := by
  simp only [rldecRunLevel, takeBits_withMem]
  rfl

/-- A code of RLDEC reads the LMEM it is given, not that of its state. -/
theorem rldecCode_withMem (s : State) (m m' : Memory) (T nb pos : Nat) :
    rldecCode (withMem s m) m' T nb pos = rldecCode s m' T nb pos := by
  simp only [rldecCode, vlcLookup_withMem, rldecRunLevel_withMem, takeBits_withMem]

/-! ## One code (R303, R304) -/

theorem rldecCode_end {total : Nat} (h : vlcLookup s m T nb pos = .ok (.leaf 1 total)) :
    rldecCode s m T nb pos = .ok (.endOfBlock (pos + total)) := by
  rw [rldecCode, h]
  rfl

theorem rldecCode_miss {ea : Nat} (h : vlcLookup s m T nb pos = .ok (.miss ea)) : rldecCode s m T nb pos = raise .vlcmiss ea := by
  rw [rldecCode, h]

/-- A symbol other than 1, with its run, its level and its sign bit. -/
theorem rldecCode_coef {sym total run level pos1 sign pos2 : Nat} (hv : vlcLookup s m T nb pos = .ok (.leaf sym total)) (hsym : sym ≠ 1)
    (hrl : rldecRunLevel s m sym (pos + total) = .ok (run, level, pos1)) (hs : takeBits s m pos1 1 = .ok (sign, pos2)) :
    rldecCode s m T nb pos = .ok (.coef run (if sign = 1 then (level : Int) else -(level : Int)) pos2) := by
  simp only [rldecCode, hv, if_neg hsym, hrl, hs]

/-- The escape fields of symbol 0. -/
theorem rldecRunLevel_escape {level run : Nat} (hl : StreamBits s pos s.sr.escw.toNat level)
    (hr : StreamBits s (pos + s.sr.escw.toNat) s.sr.runw.toNat run)
    (hle : pos + s.sr.escw.toNat + s.sr.runw.toNat ≤ s.sr.bslen.toNat) :
    rldecRunLevel s s.mem 0 pos = .ok (run, level, pos + s.sr.escw.toNat + s.sr.runw.toNat) := by
  simp only [rldecRunLevel, if_true, takeBits_of_streamBits hl (by omega), takeBits_of_streamBits hr hle]

/-- A symbol's entry in the run-level table. -/
theorem rldecRunLevel_table {sym : Nat} {e : Word} (hsym : sym ≠ 0) (hR : s.sr.rltab.toNat % 4 = 0)
    (ha : entryAddr s.sr.rltab sym + 4 ≤ lmemSize s) (he : HoldsWord s.mem (entryAddr s.sr.rltab sym) e.toInt) :
    rldecRunLevel s s.mem sym pos = .ok (e.toNat / 65536, e.toNat % 65536, pos) := by
  obtain ⟨-, hal, -⟩ := entryAddr_spec s.sr.rltab sym
  simp only [rldecRunLevel, if_neg hsym, if_neg (Nat.not_lt.mpr ha), memRead_of_holds (hal hR) ha he]

/-- A code whose symbol's entry in the run-level table runs past LMEM. -/
theorem rldecCode_table_outside {sym total : Nat} (hv : vlcLookup s m T nb pos = .ok (.leaf sym total)) (hsym : 2 ≤ sym)
    (hout : lmemSize s < entryAddr s.sr.rltab sym + 4) : rldecCode s m T nb pos = raise .daddr (entryAddr s.sr.rltab sym) := by
  rw [rldecCode, hv]
  simp only [if_neg (show sym ≠ 1 by omega), rldecRunLevel, if_neg (show sym ≠ 0 by omega), if_pos hout, raise]

/-- A coefficient code is read as the stream and the tables in LMEM say. -/
theorem rldecCode_of_reads {run pos1 : Nat} {v : Int} (hT : T % 4 = 0) (hR : s.sr.rltab.toNat % 4 = 0)
    (h : RlReads s T nb pos run v pos1) : rldecCode s s.mem T nb pos = .ok (.coef run v pos1) := by
  cases h with
  | escape hv hl hr hs hb =>
    exact rldecCode_coef (vlcLookup_of_reads hT hv) (by decide) (rldecRunLevel_escape hl hr (by omega)) (takeBits_of_streamBits hs hb)
  | table hv hsym ha he hs hb =>
    exact rldecCode_coef (vlcLookup_of_reads hT hv) (by omega) (rldecRunLevel_table (by omega) hR ha he) (takeBits_of_streamBits hs hb)

/-- A run has at most 31 bits, those of RUNW or the high half of an entry. -/
theorem RlReads.run_lt {run pos1 : Nat} {v : Int} (h : RlReads s T nb pos run v pos1) : run < 2 ^ 31 := by
  cases h with
  | escape hv hl hr hs hb =>
    exact Nat.lt_of_lt_of_le hr.1 (Nat.pow_le_pow_right (by decide) (by have := s.sr.runw.isLt; omega))
  | @table total sym sign e hv hsym ha he hs hb => have := e.isLt; omega

/-- A miss is met at an entry inside LMEM. -/
theorem VlcReads.miss_lt {level consumed off w ea : Nat} (h : VlcReads s T pos level consumed off w (.miss ea)) : ea < 2 ^ 32 := by
  generalize hr : VlcResult.miss ea = r at h
  induction h with
  | leaf => cases hr
  | miss hb he hk => cases hr; exact he.address_lt
  | sub hb he hk hlev h1 h16 hsub ih => exact ih hr

/-! ## The loop along its codes -/

section Loop

variable {fuel p : Nat}

/-- A turn whose code stops. -/
theorem rldecLoop_of_raise {c : Cause} {n : Nat} (h : rldecCode s m T nb pos = raise c n) :
    rldecLoop s cb T nb N (fuel + 1) m pos p = (m, raise c n) := by
  simp only [rldecLoop, h, raise]

/-- A turn that meets the end of the block. -/
theorem rldecLoop_of_end {pos1 : Nat} (h : rldecCode s m T nb pos = .ok (.endOfBlock pos1)) :
    rldecLoop s cb T nb N (fuel + 1) m pos p = (m, .ok (p, pos1)) := by
  simp only [rldecLoop, h]

/-- A turn that reads a coefficient: past the buffer it stops, at its last place the loop ends, else the loop goes on. -/
theorem rldecLoop_of_coef {run pos1 : Nat} {v : Int} (h : rldecCode s m T nb pos = .ok (.coef run v pos1)) :
    rldecLoop s cb T nb N (fuel + 1) m pos p =
      if N ≤ p + run then (m, raise .rlovr (p + run))
      else if p + run + 1 = N then (storeW m (cb + 4 * (p + run)) v, .ok (p + run + 1, pos1))
      else rldecLoop s cb T nb N fuel (storeW m (cb + 4 * (p + run)) v) pos1 (p + run + 1) := by
  simp only [rldecLoop, h]

theorem lookup_of_reads_withMem {r : VlcResult} (hT : T % 4 = 0) (h : VlcReads (withMem s m) T pos 1 0 0 nb r) :
    vlcLookup s m T nb pos = .ok r :=
  (vlcLookup_withMem s m m T nb pos).symm.trans (vlcLookup_of_reads hT h)

theorem code_of_reads_withMem {run pos1 : Nat} {v : Int} (hT : T % 4 = 0) (hR : s.sr.rltab.toNat % 4 = 0)
    (h : RlReads (withMem s m) T nb pos run v pos1) : rldecCode s m T nb pos = .ok (.coef run v pos1) :=
  (rldecCode_withMem s m m T nb pos).symm.trans (rldecCode_of_reads hT hR h)

/-- The loop comes past the codes of an `RlPrefix`, with a turn left there: each code raises the write index, and `fuel` covers the
places left. -/
theorem rldecLoop_of_prefix {pos' p' : Nat} (hT : T % 4 = 0) (hR : s.sr.rltab.toNat % 4 = 0)
    (h : RlPrefix s cb T nb N m pos p m' pos' p') (hfuel : N ≤ p + fuel) :
    p' < N ∧ ∃ left, rldecLoop s cb T nb N fuel m pos p = rldecLoop s cb T nb N (left + 1) m' pos' p' := by
  induction h generalizing fuel with
  | here hp => exact ⟨hp, fuel - 1, by rw [Nat.sub_add_cancel (by omega)]⟩
  | @more m m' pos p run pos1 pos' p' v hc hp hr ih =>
    obtain ⟨rest, rfl⟩ : ∃ rest, fuel = rest + 1 := ⟨fuel - 1, by omega⟩
    rw [rldecLoop_of_coef (code_of_reads_withMem hT hR hc), if_neg (by omega), if_neg (by omega)]
    exact ih (by omega)

/-- The loop runs its codes to the end of the block or of the buffer. -/
theorem rldecLoop_of_run {pos' p' : Nat} (hT : T % 4 = 0) (hR : s.sr.rltab.toNat % 4 = 0)
    (h : RlRun s cb T nb N m pos p m' pos' p') (hp : p < N) (hfuel : N ≤ p + fuel) :
    rldecLoop s cb T nb N fuel m pos p = (m', .ok (p', pos')) := by
  induction h generalizing fuel with
  | endOfBlock hv =>
    obtain ⟨rest, rfl⟩ : ∃ rest, fuel = rest + 1 := ⟨fuel - 1, by omega⟩
    exact rldecLoop_of_end (rldecCode_end (lookup_of_reads_withMem hT hv))
  | full hc hfull =>
    obtain ⟨rest, rfl⟩ : ∃ rest, fuel = rest + 1 := ⟨fuel - 1, by omega⟩
    rw [rldecLoop_of_coef (code_of_reads_withMem hT hR hc), if_neg (by omega), if_pos hfull]
  | more hc hmore hr ih =>
    obtain ⟨rest, rfl⟩ : ∃ rest, fuel = rest + 1 := ⟨fuel - 1, by omega⟩
    rw [rldecLoop_of_coef (code_of_reads_withMem hT hR hc), if_neg (by omega), if_neg (by omega)]
    exact ih hmore (by omega)

/-- A run of codes writes below its last write index, which stays in the buffer. -/
theorem RlRun.touches {pos' p' : Nat} (h : RlRun s cb T nb N m pos p m' pos' p') (hp : p ≤ N) :
    p ≤ p' ∧ p' ≤ N ∧ Touches cb (cb + 4 * p') m m' := by
  induction h with
  | endOfBlock hv => exact ⟨Nat.le_refl _, hp, .refl _ _ _⟩
  | full hc hfull => exact ⟨by omega, by omega, touches_storeW _ _ (by omega) (by omega)⟩
  | more hc hmore hr ih =>
    obtain ⟨hle, hN, ht⟩ := ih (by omega)
    exact ⟨by omega, hN, (touches_storeW _ _ (by omega) (by omega)).trans ht⟩

end Loop

/-! ## The zero-fill -/

theorem zeroFill_holds (n : Nat) (a : Nat) (m : Memory) : ∀ i, i < n → HoldsWord (zeroFill a n m) (a + 4 * i) 0 := by
  induction n generalizing a m with
  | zero => exact nofun
  | succ n ih =>
    intro i hi
    cases i with
    | zero =>
      exact holdsWord_of_touches (holds_storeW m a (by decide) (by decide)) (touches_zeroFill n _ (Nat.le_refl _) (Nat.le_refl _))
        (.inl (Nat.le_refl _))
    | succ i =>
      have h := ih (a + 4) (storeW m a 0) i (by omega)
      rwa [show a + 4 + 4 * i = a + 4 * (i + 1) by omega] at h

/-! ## RLDEC by what its loop ends in -/

section Rldec

variable {rd rcoef rtab : Reg} {nb : BitVec 5}

/-- RLDEC's checks pass. -/
structure RldecReady (s : State) (cb T : Nat) : Prop where
  ncoef : 1 ≤ s.sr.ncoef.toNat ∧ s.sr.ncoef.toNat ≤ 65536
  array : cb % 4 = 0 ∧ cb + 4 * s.sr.ncoef.toNat ≤ lmemSize s
  table : T % 4 = 0
  rltab : s.sr.rltab.toNat % 4 = 0

theorem RldecReady.checks (h : RldecReady s cb T) : rldecChecks s cb T = .ok () := by
  simp only [rldecChecks, checkNcoef_pass h.ncoef, region_ok h.array.1 h.array.2]
  rw [if_neg (not_not.mpr h.table), if_neg (not_not.mpr h.rltab)]

/-- RLDEC's loop from its start: the buffer zero, the first code at the cursor. -/
def rldecRun (s : State) (cb T nb : Nat) : Memory × Run (Nat × Nat) :=
  rldecLoop s cb T nb s.sr.ncoef.toNat s.sr.ncoef.toNat (zeroFill cb s.sr.ncoef.toNat s.mem) s.sr.bspos.toNat 0

theorem execRldec_completes {p pos : Nat} (h : RldecReady s (reg s rcoef).toNat (reg s rtab).toNat)
    (hrun : rldecRun s (reg s rcoef).toNat (reg s rtab).toNat nb.toNat = (m, .ok (p, pos))) :
    execRldec rd rcoef rtab nb s = .next (advance (setPos (setReg (withMem s m) rd (BitVec.ofNat 32 p)) pos)) := by
  rw [rldecRun] at hrun
  simp only [execRldec, h.checks, hrun]
  rfl

/-- A fault of RLDEC's loop is taken with LMEM as the loop has left it (60_exceptions R505). -/
theorem execRldec_faults {c : Cause} {n : Nat} (h : RldecReady s (reg s rcoef).toNat (reg s rtab).toNat)
    (hrun : rldecRun s (reg s rcoef).toNat (reg s rtab).toNat nb.toNat = (m, raise c n)) (hn : n < 2 ^ 32) :
    ∃ t, execRldec rd rcoef rtab nb s = .next t ∧ FaultEntered (withMem s m) t c s.pc (BitVec.ofNat 32 n) := by
  rw [rldecRun] at hrun
  simp only [execRldec, h.checks, hrun]
  exact faultEntry_of_raise_lt (s := withMem s m) hn rfl

/-- The cursor of a run that ends is inside the stream. -/
theorem rldecRun_pos {cb T nb p pos : Nat} (h1 : 1 ≤ s.sr.ncoef.toNat) (h : rldecRun s cb T nb = (m, .ok (p, pos))) :
    pos ≤ s.sr.bslen.toNat := by
  have hends := (rldecLoop_ends s cb T nb s.sr.ncoef.toNat (s.sr.ncoef.toNat - 1) (zeroFill cb s.sr.ncoef.toNat s.mem)
    s.sr.bspos.toNat 0).2 p pos
  rw [Nat.sub_add_cancel h1, ← rldecRun, h] at hends
  exact (hends rfl).2

/-- Settles O44: the loop runs the codes (`rldecLoop_of_run`), and beyond its write index the buffer is as the zero-fill left it. -/
theorem rldecDecodes : Obligations.RldecDecodes := by
  intro rd rcoef rtab nb m' pos' p' s cb T N h1 hmax hal hin hT hR hcodes
  have hrun : rldecRun s cb T nb.toNat = (m', .ok (p', pos')) := rldecLoop_of_run hT hR hcodes h1 (by omega)
  obtain ⟨-, hp, htouch⟩ := hcodes.touches (Nat.zero_le _)
  have hmem : Touches cb (cb + 4 * N) s.mem m' :=
    (touches_zeroFill N s.mem (Nat.le_refl _) (Nat.le_refl _)).trans (htouch.mono (Nat.le_refl _) (by omega))
  obtain ⟨hregs, -⟩ := setReg_only (withMem s m') rd (BitVec.ofNat 32 p')
  refine ⟨_, execRldec_completes ⟨⟨h1, hmax⟩, ⟨hal, hin⟩, hT, hR⟩ hrun, ?_,
    toNat_bspos_setPos (s := s) (rldecRun_pos h1 hrun), rfl, hp,
    fun i hpi hi => holdsWord_of_touches (zeroFill_holds N cb s.mem i hi) htouch (.inr (by omega)),
    hregs, fun q hq => setPos_readSr _ _ (by simpa using hq), ⟨rfl, rfl, rfl⟩, hmem.out, nextPc_of_pc rfl⟩
  rw [advance_reg, setPos_reg, reg_setReg_self, BitVec.toNat_ofNat, Nat.mod_eq_of_lt (by omega)]

/-- Settles O45: the loop comes past the codes already read (`rldecLoop_of_prefix`), and that code's turn stops. -/
theorem rldecFaultsKeepWrites : Obligations.RldecFaultsKeepWrites := by
  intro rd rcoef rtab nb m' pos' p' s cb T N h1 hmax hal hin hT hR hprefix
  obtain ⟨hp, left, hloop⟩ := rldecLoop_of_prefix (fuel := N) hT hR hprefix (by omega)
  have ready : RldecReady s cb T := ⟨⟨h1, hmax⟩, ⟨hal, hin⟩, hT, hR⟩
  refine ⟨fun ea hmiss => ?_, fun sym total hleaf hsym hout => ?_, fun run v pos1 hreads hover => ?_⟩
  · have hcode := rldecCode_miss (lookup_of_reads_withMem hT hmiss)
    exact execRldec_faults ready (hloop.trans (rldecLoop_of_raise hcode)) hmiss.miss_lt
  · have hcode := rldecCode_table_outside (lookup_of_reads_withMem hT hleaf) hsym hout
    exact execRldec_faults ready (hloop.trans (rldecLoop_of_raise hcode)) (entryAddr_spec _ _).1
  · have hturn := (rldecLoop_of_coef (fuel := left) (cb := cb) (N := N) (p := p') (code_of_reads_withMem hT hR hreads)).trans
      (if_pos hover)
    exact execRldec_faults ready (hloop.trans hturn) (by have := hreads.run_lt; omega)

end Rldec

end Sys2Proof.Machine
end

section
/-! PROOFS. DEQ and DEQN (44_spectral R305, R307): one invariant of their common loop, each command's reads, and the statements about the
two commands. -/

namespace Sys2Proof.Machine

variable {s : State} {o N : Nat} {p : Nat → Int}

/-! ## The loop the two commands share -/

/-- The exact result of an element before its last saturation, from the exact value `v` before its first (R305, R307). -/
def scaled (s : State) (v : Int) : Int := clampTo 32 v * s.sr.dqmult.toInt / 2 ^ 16

/-- The work after the first `i` elements of the output at `o`: element j is the scaled `p j`, only these elements are written, and a
saturation has clamped exactly when one of theirs does. -/
structure Scaled (s : State) (o : Nat) (p : Nat → Int) (i : Nat) (w : Work) : Prop where
  results : ∀ j, j < i → HoldsWord w.mem (o + 4 * j) (clampTo 32 (scaled s (p j)))
  clamped : w.clamped = true ↔ ∃ j, j < i ∧ (OutOf 32 (p j) ∨ OutOf 32 (scaled s (p j)))
  touches : Touches o (o + 4 * i) s.mem w.mem

theorem Scaled.start : Scaled s o p 0 (startWork s) where
  results := nofun
  clamped := by simp [startWork]
  touches := .refl _ _ _

theorem storeScaled_mem (s : State) (a : Nat) (v : Int) (w : Work) :
    (storeScaled s a v w).mem = storeW w.mem a (clampTo 32 (scaled s v)) := by
  simp only [storeScaled, asr_eq, sat_eq_clampTo]
  rfl

theorem storeScaled_clamped (s : State) (a : Nat) (v : Int) (w : Work) :
    (storeScaled s a v w).clamped = true ↔ w.clamped = true ∨ OutOf 32 v ∨ OutOf 32 (scaled s v) := by
  simp only [storeScaled, asr_eq, sat_eq_clampTo, Bool.or_eq_true, clamps_iff, or_assoc]
  rfl

theorem Scaled.step {i : Nat} {w : Work} (h : Scaled s o p i w) : Scaled s o p (i + 1) (storeScaled s (o + 4 * i) (p i) w) where
  results j hj := by
    rw [storeScaled_mem]
    rcases Nat.lt_succ_iff_lt_or_eq.mp hj with hj | rfl
    · exact holdsWord_of_touches (h.results j hj) (touches_storeW _ _ (Nat.le_refl _) (Nat.le_refl _)) (.inl (by omega))
    · obtain ⟨hlo, hhi⟩ := clampTo_range 32 (scaled s (p j))
      exact holds_storeW _ _ hlo hhi
  clamped := by
    rw [storeScaled_clamped, h.clamped]
    simp only [Nat.lt_succ_iff_lt_or_eq, or_and_right, exists_or, exists_eq_left]
  touches := (h.touches.mono (Nat.le_refl _) (by omega)).trans (storeScaled_touches s _ w (by omega) (by omega))

/-- A word that lies beyond the elements written so far, or in no element, is as it was at the start. -/
theorem Scaled.source {i a : Nat} {w : Work} {v : Int} (h : Scaled s o p i w) (hv : HoldsWord s.mem a v)
    (hdisj : a + 4 ≤ o ∨ o + 4 * i ≤ a) : HoldsWord w.mem a v :=
  holdsWord_of_touches hv h.touches hdisj

/-- Element i of an array that is the output itself or disjoint from it. -/
theorem Scaled.source_elem {b i : Nat} {w : Work} {v : Int} (h : Scaled s o p i w) (hi : i < N)
    (hb : b = o ∨ b + 4 * N ≤ o ∨ o + 4 * N ≤ b) (hv : HoldsWord s.mem (b + 4 * i) v) : HoldsWord w.mem (b + 4 * i) v :=
  h.source hv (by omega)

/-- A loop whose every turn stores the scaled element of its index. -/
theorem forFrom_scaled {f : Nat → Work → Run Work}
    (turn : ∀ i w, i < N → Scaled s o p i w → f i w = .ok (storeScaled s (o + 4 * i) (p i) w)) :
    ∃ w, forFrom f 0 N (startWork s) = .ok w ∧ Scaled s o p N w := by
  obtain ⟨w, hw, hP⟩ := forFrom_ok (f := f) (Scaled s o p) N (start := 0)
    (fun i a _ hi h => ⟨_, turn i a (by omega) h, h.step⟩) .start
  exact ⟨w, hw, by rwa [Nat.zero_add] at hP⟩

/-- What the two commands leave of the state when they commit a finished work. -/
theorem Scaled.commit {w : Work} (h : Scaled s o p N w) :
    SatAdded s (commitWork s w) (∃ i, i < N ∧ (OutOf 32 (p i) ∨ OutOf 32 (scaled s (p i)))) ∧
      OnlyArray s (commitWork s w) [.astat] o (4 * N) := by
  refine ⟨satAdded_of_iff h.clamped rfl, fun _ _ => rfl, fun q hq => ?_, ⟨rfl, rfl, rfl⟩, h.touches.out⟩
  cases q with
  | astat => simp at hq
  | _ => rfl

/-! ## DEQ (R305) -/

theorem deqChecks_pass {q e : Nat} (hN : checkNcoef s = .ok ()) (ho : region (lmemSize s) o (4 * s.sr.ncoef.toNat) 4 = .ok ())
    (hq : region (lmemSize s) q (4 * s.sr.ncoef.toNat) 4 = .ok ()) (he : region (lmemSize s) e (4 * s.sr.ncoef.toNat) 4 = .ok ()) :
    deqChecks s o q e = .ok () := by
  simp only [deqChecks, hN, ho, hq, he]

theorem deqElem_of_holds {q e i : Nat} {w : Work} {x y : Int} (hx : HoldsWord w.mem (q + 4 * i) x)
    (hy : HoldsWord w.mem (e + 4 * i) y) : deqElem s o q e i w = .ok (storeScaled s (o + 4 * i) (x * y) w) := by
  rw [deqElem, loadW_of_holds hx, loadW_of_holds hy]

theorem execDeq_completes {rout rq re : Reg} {w : Work}
    (hc : deqChecks s (reg s rout).toNat (reg s rq).toNat (reg s re).toNat = .ok ())
    (hw : forFrom (deqElem s (reg s rout).toNat (reg s rq).toNat (reg s re).toNat) 0 s.sr.ncoef.toNat (startWork s) = .ok w) :
    execDeq rout rq re s = .next (commitWork s w) := by
  rw [execDeq, hc]
  simp only [hw, conclude_ok]

/-- Settles O46: the loop keeps `Scaled`, under which the sources of the next element are still as at the start. -/
theorem deqScales : Obligations.DeqScales := by
  intro rout rq re x y s o q e N r h1 hmax ho hq he hoin hqin hein hqo heo hsrc
  obtain ⟨w, hw, hdone⟩ := forFrom_scaled (s := s) (o := o) (N := N) (p := fun i => x i * y i) (f := deqElem s o q e)
    fun i w hi h => deqElem_of_holds (h.source_elem hi hqo (hsrc i hi).1) (h.source_elem hi heo (hsrc i hi).2)
  have hpass : deqChecks s o q e = .ok () :=
    deqChecks_pass (checkNcoef_pass ⟨h1, hmax⟩) (region_ok ho hoin) (region_ok hq hqin) (region_ok he hein)
  obtain ⟨hsat, hframe⟩ := hdone.commit
  exact ⟨_, execDeq_completes hpass hw, hdone.results, hsat, hframe, nextPc_of_pc rfl⟩

/-! ## DEQN (R307) -/

theorem deqnChecks_pass {nz e : Nat} (hN : checkNcoef s = .ok ()) (hI : s.sr.nidx.toNat < s.sr.ntsize.toNat)
    (ho : region (lmemSize s) o (4 * s.sr.ncoef.toNat) 4 = .ok ())
    (hnz : region (lmemSize s) nz (4 * s.sr.ntsize.toNat) 4 = .ok ())
    (he : region (lmemSize s) e (4 * s.sr.ncoef.toNat) 4 = .ok ()) : deqnChecks s o nz e = .ok () := by
  simp only [deqnChecks, hN, ho, hnz, he]
  rw [if_neg (by omega), if_neg (by omega)]

theorem deqnElem_of_holds {nz e i : Nat} {w : Work} {z y : Int}
    (hz : HoldsWord w.mem (nz + 4 * ((s.sr.nidx.toNat + i) % s.sr.ntsize.toNat)) z) (hy : HoldsWord w.mem (e + 4 * i) y) :
    deqnElem s o nz e i w = .ok (storeScaled s (o + 4 * i) (z * y / 2 ^ 16) w) := by
  rw [deqnElem, loadW_of_holds hz, loadW_of_holds hy, ← asr_eq]

/-- The state with NIDX advanced past this command's elements. -/
def advanceNidx (s t : State) : State := { t with sr := { t.sr with nidx := nextNidx s } }

/-- NIDX moves on modulo NTSIZE, which fits it. -/
theorem toNat_nextNidx (h : 0 < s.sr.ntsize.toNat) :
    (nextNidx s).toNat = (s.sr.nidx.toNat + s.sr.ncoef.toNat) % s.sr.ntsize.toNat := by
  have := Nat.mod_lt (s.sr.nidx.toNat + s.sr.ncoef.toNat) h
  rw [nextNidx, BitVec.toNat_ofNat, Nat.mod_eq_of_lt (by have := s.sr.ntsize.isLt; omega)]

theorem advanceNidx_only {t : State} {lo n : Nat} (h : OnlyArray s t [.astat] lo n) :
    OnlyArray s (advanceNidx s t) [.astat, .nidx] lo n := by
  obtain ⟨hregs, hsrs, hctl, hmem⟩ := h
  refine ⟨hregs, fun q hq => ?_, hctl, hmem⟩
  have hread : readSr (advanceNidx s t) q = readSr t q := by
    cases q with
    | nidx => simp at hq
    | _ => rfl
  rw [hread, hsrs q (by simp_all)]

theorem execDeqn_completes {rout rnoise re : Reg} {w : Work}
    (hc : deqnChecks s (reg s rout).toNat (reg s rnoise).toNat (reg s re).toNat = .ok ())
    (hw : forFrom (deqnElem s (reg s rout).toNat (reg s rnoise).toNat (reg s re).toNat) 0 s.sr.ncoef.toNat (startWork s) = .ok w) :
    execDeqn rout rnoise re s = .next (advanceNidx s (commitWork s w)) := by
  rw [execDeqn, hc]
  simp only [hw, conclude_ok]
  rfl

/-- Settles O47, as O46 with the noise entries, which lie apart from the output (`Scaled.source`), as levels. -/
theorem deqnScalesNoise : Obligations.DeqnScalesNoise := by
  intro rout rnoise re z y s o nz e N M p r h1 hmax hI ho hnz he hoin hnzin hein hdisj heo hz hy
  have hmod (i : Nat) : (s.sr.nidx.toNat + i) % s.sr.ntsize.toNat < s.sr.ntsize.toNat := Nat.mod_lt _ (by omega)
  obtain ⟨w, hw, hdone⟩ := forFrom_scaled (s := s) (o := o) (N := N) (p := p) (f := deqnElem s o nz e)
    fun i w hi h => deqnElem_of_holds (h.source (hz _ (hmod i)) (by have := hmod i; omega)) (h.source_elem hi heo (hy i hi))
  have hpass : deqnChecks s o nz e = .ok () :=
    deqnChecks_pass (checkNcoef_pass ⟨h1, hmax⟩) hI (region_ok ho hoin) (region_ok hnz hnzin) (region_ok he hein)
  obtain ⟨hsat, hframe⟩ := hdone.commit
  exact ⟨_, execDeqn_completes hpass hw, hdone.results, toNat_nextNidx (by omega), hsat, advanceNidx_only hframe, nextPc_of_pc rfl⟩

end Sys2Proof.Machine
end

section
/-! PROOFS. NGEN (44_spectral R306): the noise sequence, what the loop stores of it, and the statement about the command. -/

namespace Sys2Proof.Machine

/-! ## The noise sequence (R306) -/

/-- The word of the generator after `i` turns from `x`. -/
def noiseSeq (s : State) (x : Word) (i : Nat) : Word := (nextNoise s)^[i] x

theorem noiseSeq_succ (s : State) (x : Word) (i : Nat) : noiseSeq s x (i + 1) = nextNoise s (noiseSeq s x i) :=
  Function.iterate_succ_apply' _ _ _

theorem noiseSeq_next (s : State) (x : Word) (i : Nat) : noiseSeq s (nextNoise s x) i = noiseSeq s x (i + 1) := rfl

/-- A turn of the generator, as a number modulo 2^32. -/
theorem toNat_nextNoise (s : State) (x : Word) :
    (nextNoise s x).toNat = (x.toNat * s.sr.nmul.toNat + s.sr.ninc.toNat) % 2 ^ 32 := by
  rw [nextNoise, BitVec.toNat_add, BitVec.toNat_mul, Nat.mod_add_mod]

/-- A shifted word is a word. -/
theorem asr_s32_range (w : Word) (k : Nat) : -2147483648 ≤ asr (s32 w) k ∧ asr (s32 w) k < 2147483648 := by
  have hlo := BitVec.le_toInt w
  have hhi := BitVec.toInt_lt (x := w)
  have hpos : (0 : Int) < 2 ^ k := by positivity
  have hone : (1 : Int) ≤ 2 ^ k := hpos
  rw [asr_eq, s32]
  simp only [Nat.reduceSub] at hlo hhi
  refine ⟨(Int.le_ediv_iff_mul_le hpos).mpr (by nlinarith), (Int.ediv_lt_iff_lt_mul hpos).mpr (by nlinarith)⟩

/-- NGEN's loop leaves the sequence's last word, and stores each word shifted; the later stores lie above the earlier ones. -/
theorem ngenLoop_generates (s : State) (count : Nat) {a : Nat} (m : Memory) (x : Word) :
    (ngenLoop s a count m x).2 = noiseSeq s x count ∧
      ∀ i, i < count → HoldsWord (ngenLoop s a count m x).1 (a + 4 * i) (asr (s32 (noiseSeq s x (i + 1))) s.sr.nshift.toNat) := by
  induction count generalizing a m x with
  | zero => exact ⟨rfl, nofun⟩
  | succ n ih =>
    obtain ⟨hlast, hwords⟩ := ih (a := a + 4) (storeW m a (asr (s32 (nextNoise s x)) s.sr.nshift.toNat)) (nextNoise s x)
    refine ⟨hlast, fun i hi => ?_⟩
    cases i with
    | zero =>
      obtain ⟨hlo, hhi⟩ := asr_s32_range (nextNoise s x) s.sr.nshift.toNat
      exact holdsWord_of_touches (holds_storeW m a hlo hhi) (ngenLoop_touches s n _ _ (Nat.le_refl _) (Nat.le_refl _))
        (.inl (Nat.le_refl _))
    | succ i =>
      have h := hwords i (by omega)
      rwa [show a + 4 + 4 * i = a + 4 * (i + 1) by omega] at h

/-- The state NGEN leaves: LMEM `m` and the generator at `x`. -/
def ngenWritten (m : Memory) (x : Word) (s : State) : State := advance { s with mem := m, sr := { s.sr with nseed := x } }

theorem ngenWritten_only {m : Memory} {x : Word} {lo n : Nat} (h : Touches lo (lo + n) s.mem m) :
    OnlyArray s (ngenWritten m x s) [.nseed] lo n := by
  refine ⟨fun _ _ => rfl, fun q hq => ?_, ⟨rfl, rfl, rfl⟩, h.out⟩
  cases q with
  | nseed => simp at hq
  | _ => rfl

/-- An empty destination passes at any address. -/
theorem region_words_ok {size a n : Nat} (h : n = 0 ∨ a % 4 = 0 ∧ a + 4 * n ≤ size) : region size a (4 * n) 4 = .ok () := by
  rcases h with rfl | ⟨hal, hin⟩
  · rfl
  · exact region_ok hal hin

/-- Settles O48, with the sequence of `noiseSeq` (`ngenLoop_generates`). -/
theorem ngenGenerates : Obligations.NgenGenerates := by
  intro rdst rcnt s d cnt hregion
  obtain ⟨hlast, hwords⟩ := ngenLoop_generates s cnt (a := d) s.mem s.sr.nseed
  have hexec : exec (.ngen rdst rcnt) s =
      .next (ngenWritten (ngenLoop s d cnt s.mem s.sr.nseed).1 (ngenLoop s d cnt s.mem s.sr.nseed).2 s) := by
    rw [exec_ngen, execNgen, region_words_ok hregion]
    rfl
  refine ⟨_, noiseSeq s s.sr.nseed, hexec, rfl, fun i hi => ⟨?_, ?_⟩, hlast,
    ngenWritten_only (ngenLoop_touches s cnt _ _ (Nat.le_refl _) (Nat.le_refl _)), nextPc_of_pc rfl⟩
  · rw [noiseSeq_succ, toNat_nextNoise]
  · have h := hwords i hi
    rwa [asr_eq] at h

end Sys2Proof.Machine
end

section
/-! PROOFS. Complex arrays in LMEM (45_transform R330 to R332), what the turns of the transform commands do to them, and BREV. -/

namespace Sys2Proof.Machine

variable {m m' : Memory} {z M k i j lo hi : Nat} {u v : Int × Int} {x y : Nat → Int × Int}

/-! ## One complex element (R330) -/

/-- Both parts are signed 32-bit numbers. -/
def FitsC (v : Int × Int) : Prop := (-2147483648 ≤ v.1 ∧ v.1 < 2147483648) ∧ (-2147483648 ≤ v.2 ∧ v.2 < 2147483648)

theorem fitsC_clampC (v : Int × Int) : FitsC (clampC v) := ⟨clampTo_range 32 v.1, clampTo_range 32 v.2⟩

theorem HoldsC.fits (h : HoldsC m z k v) : FitsC v := ⟨holdsWord_range h.1, holdsWord_range h.2⟩

theorem loadC_of_holds (h : HoldsC m z k v) : loadC m z k = .ok v := by
  rw [loadC, loadW_of_holds h.1, loadW_of_holds h.2]

/-- Writing elsewhere leaves an element as it is. -/
theorem holdsC_of_touches (h : HoldsC m z k v) (t : Touches lo hi m m') (d : z + 8 * k + 8 ≤ lo ∨ hi ≤ z + 8 * k) :
    HoldsC m' z k v :=
  ⟨holdsWord_of_touches h.1 t (by omega), holdsWord_of_touches h.2 t (by omega)⟩

/-- An element written is the element held. -/
theorem holdsC_storeC_self (m : Memory) (z k : Nat) (hv : FitsC v) : HoldsC (storeC m z k v) z k v := by
  obtain ⟨⟨hre, hre'⟩, him, him'⟩ := hv
  refine ⟨?_, holds_storeW _ _ him him'⟩
  exact holdsWord_of_touches (holds_storeW _ _ hre hre') (touches_storeW _ _ (Nat.le_refl _) (Nat.le_refl _)) (.inl (Nat.le_refl _))

theorem holdsC_storeC_of_ne (h : HoldsC m z k v) (hne : k ≠ j) (u : Int × Int) : HoldsC (storeC m z j u) z k v :=
  holdsC_of_touches h (touches_storeC u m (Nat.le_refl _) (Nat.le_refl _)) (by omega)

/-! ## A complex array -/

/-- LMEM holds the elements of `x` as the M elements of the array at z. -/
def HoldsArray (z M : Nat) (x : Nat → Int × Int) (m : Memory) : Prop := ∀ k, k < M → HoldsC m z k (x k)

namespace HoldsArray

theorem congr (h : HoldsArray z M x m) (e : ∀ k, k < M → y k = x k) : HoldsArray z M y m :=
  fun k hk => e k hk ▸ h k hk

/-- Writing elsewhere leaves an array as it is. -/
theorem of_touches (h : HoldsArray z M x m) (t : Touches lo hi m m') (d : z + 8 * M ≤ lo ∨ hi ≤ z) : HoldsArray z M x m' :=
  fun k hk => holdsC_of_touches (h k hk) t (by omega)

/-- Two elements are written; the others stay. -/
theorem store_pair (h : HoldsArray z M x m) (hij : i ≠ j) (hi : FitsC (y i)) (hj : FitsC (y j))
    (hrest : ∀ k, k < M → k ≠ i → k ≠ j → y k = x k) : HoldsArray z M y (storeC (storeC m z i (y i)) z j (y j)) := by
  intro k hk
  by_cases hkj : k = j
  · subst hkj
    exact holdsC_storeC_self _ _ _ hj
  · refine holdsC_storeC_of_ne ?_ hkj _
    by_cases hki : k = i
    · subst hki
      exact holdsC_storeC_self _ _ _ hi
    · rw [hrest k hk hki hkj]
      exact holdsC_storeC_of_ne (h k hk) hki _

end HoldsArray

/-! ## Bit reversal (R332) -/

theorem testBit_bitRev {n : Nat} (k : Nat) (hi : i < n) : (bitRev n k).testBit i = k.testBit (n - 1 - i) := by
  induction n generalizing k with
  | zero => omega
  | succ n ih =>
    rw [bitRev, Nat.mul_comm, Nat.testBit_two_pow_mul_add _ (bitRev_lt n _)]
    split
    · next h => rw [ih _ h, Nat.testBit_div_two]; congr 1; omega
    · obtain rfl : i = n := by omega
      simp [Nat.testBit_zero]

/-- Two numbers below 2^n with the same n low bits are equal. -/
theorem eq_of_low_testBit {n : Nat} (hk : k < 2 ^ n) (hj : j < 2 ^ n) (h : ∀ i, i < n → k.testBit i = j.testBit i) : k = j := by
  refine Nat.eq_of_testBit_eq fun i => ?_
  by_cases hi : i < n
  · exact h i hi
  · have hle : 2 ^ n ≤ 2 ^ i := Nat.pow_le_pow_right (by omega) (by omega)
    rw [Nat.testBit_lt_two_pow (by omega), Nat.testBit_lt_two_pow (by omega)]

theorem bitRev_bitRev {n : Nat} (hk : k < 2 ^ n) : bitRev n (bitRev n k) = k := by
  refine eq_of_low_testBit (bitRev_lt _ _) hk fun i hi => ?_
  rw [testBit_bitRev _ hi, testBit_bitRev _ (by omega)]
  congr 1
  omega

theorem Reversed.eq_bitRev {n : Nat} (h : Reversed n k j) : j = bitRev n k := by
  obtain ⟨-, hj, hbits⟩ := h
  exact eq_of_low_testBit hj (bitRev_lt _ _) fun i hi => by rw [hbits i hi, testBit_bitRev _ hi]

/-! ## BREV (R333) -/

theorem brevElem_swap {n : Nat} (h : k < bitRev n k) (ha : HoldsC m z k u) (hb : HoldsC m z (bitRev n k) v) :
    brevElem z n k m = .ok (storeC (storeC m z k v) z (bitRev n k) u) := by
  simp only [brevElem, if_pos h, loadC_of_holds ha, loadC_of_holds hb]

theorem brevElem_skip {n : Nat} (h : bitRev n k ≤ k) : brevElem z n k m = .ok m := if_neg (by omega)

/-- Element i once BREV has made its first `k` turns: moved when one of those turns had its index or its reversed index. -/
def brevUpTo (n : Nat) (x : Nat → Int × Int) (k i : Nat) : Int × Int :=
  if i < k ∨ bitRev n i < k then x (bitRev n i) else x i

/-- A turn decides the elements k and rev(k) and no others. -/
theorem brevUpTo_succ {n : Nat} (hi : i < 2 ^ n) (hik : i ≠ k) (hir : i ≠ bitRev n k) :
    brevUpTo n x (k + 1) i = brevUpTo n x k i := by
  have hrev : bitRev n i ≠ k := fun h => hir (h ▸ (bitRev_bitRev hi).symm)
  simp only [brevUpTo, show (i < k + 1 ∨ bitRev n i < k + 1) ↔ (i < k ∨ bitRev n i < k) by omega]

theorem brevElem_turn {n : Nat} (hk : k < 2 ^ n) (h : HoldsArray z (2 ^ n) (brevUpTo n x k) m) :
    ∃ m', brevElem z n k m = .ok m' ∧ HoldsArray z (2 ^ n) (brevUpTo n x (k + 1)) m' := by
  have hrev := bitRev_bitRev hk
  by_cases hlt : k < bitRev n k
  · have hx : brevUpTo n x k k = x k := if_neg (by omega)
    have hx' : brevUpTo n x k (bitRev n k) = x (bitRev n k) := if_neg (by omega)
    have hy : brevUpTo n x (k + 1) k = x (bitRev n k) := if_pos (by omega)
    have hy' : brevUpTo n x (k + 1) (bitRev n k) = x k := by rw [brevUpTo, if_pos (by omega), hrev]
    have ha : HoldsC m z k (x k) := hx ▸ h k hk
    have hb : HoldsC m z (bitRev n k) (x (bitRev n k)) := hx' ▸ h _ (bitRev_lt _ _)
    refine ⟨_, brevElem_swap hlt ha hb, ?_⟩
    have hpair := h.store_pair (y := brevUpTo n x (k + 1)) (i := k) (j := bitRev n k) (by omega) (hy ▸ hb.fits) (hy' ▸ ha.fits)
      fun i hi hik hir => brevUpTo_succ hi hik hir
    rwa [hy, hy'] at hpair
  · refine ⟨m, brevElem_skip (by omega), h.congr fun i hi => ?_⟩
    by_cases hik : i = k ∨ i = bitRev n k
    · by_cases heq : bitRev n k = k
      · obtain rfl : i = k := by omega
        simp only [brevUpTo, heq, ite_self]
      · have hdone : i < k ∨ bitRev n i < k := by
          rcases hik with rfl | rfl <;> omega
        rw [brevUpTo, brevUpTo, if_pos hdone, if_pos (by omega)]
    · exact brevUpTo_succ hi (by omega) (by omega)

/-- The frame of an array command that writes LMEM and no special register. -/
theorem advance_withMem_only {s : State} {n : Nat} (h : Touches lo (lo + n) s.mem m) :
    OnlyArray s (advance { s with mem := m }) [] lo n :=
  ⟨fun _ _ => rfl, fun _ _ => rfl, ⟨rfl, rfl, rfl⟩, h.out⟩

theorem execBrev_completes {s : State} {rbuf : Reg} {n : BitVec 4}
    (hreg : region (lmemSize s) (reg s rbuf).toNat (8 * 2 ^ n.toNat) 4 = .ok ())
    (hm : forFrom (brevElem (reg s rbuf).toNat n.toNat) 0 (2 ^ n.toNat) s.mem = .ok m) :
    execBrev rbuf n s = .next (advance { s with mem := m }) := by
  simp only [execBrev, hreg, hm, conclude_ok]

/-- Settles O49: after k turns the array is `brevUpTo` k, and after all of them every element is at its reversed index. -/
theorem brevPermutes : Obligations.BrevPermutes := by
  intro rbuf n x s z M hz hin hx
  obtain ⟨m', hrun, hdone⟩ := forFrom_ok (f := brevElem z n.toNat) (fun k m => HoldsArray z M (brevUpTo n.toNat x k) m) M (start := 0)
    (fun k a _ hk h => brevElem_turn (by omega) h) (fun k hk => hx k hk)
  have htouch : Touches z (z + 8 * M) s.mem m' :=
    forFrom_touches_mem M (fun _ _ _ _ _ h => brevElem_touches h (Nat.le_refl _) (Nat.le_refl _)) hrun
  refine ⟨_, execBrev_completes (region_ok hz hin) hrun, fun k j hrev => ?_, advance_withMem_only htouch, nextPc_of_pc rfl⟩
  have hk : k < M := hrev.1
  have hmoved : brevUpTo n.toNat x (0 + M) k = x j := by
    rw [brevUpTo, if_pos (by omega), hrev.eq_bitRev]
  exact hmoved ▸ hdone k hk

end Sys2Proof.Machine
end

section
/-! PROOFS. The butterfly network (45_transform R331, R334): one butterfly, one stage, all stages; and FFT. -/

namespace Sys2Proof.Machine

variable {s : State} {lo hi z T M m sc st n i k : Nat} {x tw : Nat → Int × Int} {Holds Holds' : Memory → Prop}
  {bad more : Prop} {w : Work}

/-! ## Complex products as exact numbers (R331) -/

theorem cmul_eq (a b : Int × Int) : cmul a b = clampC (exactMul a b) := by
  simp only [cmul, cmulReExact, cmulImExact, asr_eq, sat_eq_clampTo, clampC, exactMul]

theorem satC_eq (v : Int × Int) : satC v = clampC v := by simp only [satC, sat_eq_clampTo, clampC]

theorem clampsC_iff (v : Int × Int) : clampsC v = true ↔ OutC v := by
  simp only [clampsC, Bool.or_eq_true, clamps_iff, OutC]

theorem cmulClamps_iff (a b : Int × Int) : cmulClamps a b = true ↔ OutC (exactMul a b) := by
  simp only [cmulClamps, cmulReExact, cmulImExact, asr_eq, Bool.or_eq_true, clamps_iff, OutC, exactMul]

/-! ## The work of an array command -/

/-- The work `w` of an array command at `s` that writes inside [lo, hi): what its LMEM holds, and that a saturation has clamped exactly
when `bad`. -/
structure WorkHas (s : State) (lo hi : Nat) (Holds : Memory → Prop) (bad : Prop) (w : Work) : Prop where
  holds : Holds w.mem
  clamped : w.clamped = true ↔ bad
  touches : Touches lo hi s.mem w.mem

/-- The turn `r` of an array command completes from the work `w`, leaves LMEM `m`, and clamps exactly when `bad`. -/
def Turns (r : Run Work) (w : Work) (m : Memory) (bad : Prop) : Prop :=
  ∃ w', r = .ok w' ∧ w'.mem = m ∧ (w'.clamped = true ↔ w.clamped = true ∨ bad)

theorem turns_ok {mem : Memory} {clamped : Bool} (h : clamped = true ↔ w.clamped = true ∨ bad) :
    Turns (.ok ⟨mem, clamped⟩) w mem bad := ⟨_, rfl, rfl, h⟩

namespace WorkHas

theorem start (h : Holds s.mem) : WorkHas s lo hi Holds False (startWork s) :=
  ⟨h, by simp [startWork], .refl _ _ _⟩

theorem imp (h : WorkHas s lo hi Holds bad w) (hm : Holds w.mem → Holds' w.mem) (hb : bad ↔ more) : WorkHas s lo hi Holds' more w :=
  ⟨hm h.holds, h.clamped.trans hb, h.touches⟩

/-- One more turn, which writes inside [lo, hi). -/
theorem turn {r : Run Work} {mem : Memory} {new : Prop} (h : WorkHas s lo hi Holds bad w) (hr : Turns r w mem new)
    (ht : Touches lo hi w.mem mem) (hm : Holds' mem) (hb : bad ∨ new ↔ more) :
    ∃ w', r = .ok w' ∧ WorkHas s lo hi Holds' more w' := by
  obtain ⟨w', hrun, rfl, hc⟩ := hr
  exact ⟨w', hrun, hm, by rw [hc, h.clamped, hb], h.touches.trans ht⟩

/-- What the command leaves of the state when it commits its finished work. -/
theorem commit (h : WorkHas s lo (lo + n) Holds bad w) :
    SatAdded s (commitWork s w) bad ∧ OnlyArray s (commitWork s w) [.astat] lo n := by
  refine ⟨satAdded_of_iff h.clamped rfl, fun _ _ => rfl, fun q hq => ?_, ⟨rfl, rfl, rfl⟩, h.touches.out⟩
  cases q with
  | astat => simp at hq
  | _ => rfl

end WorkHas

/-- A loop from 0 whose every turn completes and keeps `P`. -/
theorem forFrom_zero_ok {σ : Type} {f : Nat → σ → Run σ} (P : Nat → σ → Prop) (count : Nat) {a : σ}
    (turn : ∀ i b, i < count → P i b → ∃ c, f i b = .ok c ∧ P (i + 1) c) (h0 : P 0 a) :
    ∃ b, forFrom f 0 count a = .ok b ∧ P count b := by
  obtain ⟨b, hb, hP⟩ := forFrom_ok P count (start := 0) (fun i c _ hi => turn i c (by omega)) h0
  exact ⟨b, hb, by rwa [Nat.zero_add] at hP⟩

/-! ## One butterfly -/

theorem butterfly_of_holds {t h : Nat} {a b c : Int × Int} (hc : HoldsC w.mem T t c) (ha : HoldsC w.mem z i a)
    (hb : HoldsC w.mem z (i + h) b) :
    Turns (butterfly z T sc t i h w) w (storeC (storeC w.mem z i (clampC (upper sc a b c))) z (i + h) (clampC (lower sc a b c)))
      (OutC (exactMul b c) ∨ OutC (upper sc a b c) ∨ OutC (lower sc a b c)) := by
  simp only [butterfly, loadC_of_holds hc, loadC_of_holds ha, loadC_of_holds hb, cmul_eq, asr_eq, satC_eq, upper, lower]
  refine turns_ok ?_
  simp only [Bool.or_eq_true, cmulClamps_iff, clampsC_iff, or_assoc]

/-! ## The butterflies of a stage, in the order of its loops -/

/-- The number, within stage st + 1, of the butterfly that element k takes part in. -/
def pairNo (st k : Nat) : Nat := k / 2 ^ (st + 1) * 2 ^ st + k % 2 ^ st

/-- Element k is the upper one of its butterfly. -/
def IsUpper (st k : Nat) : Prop := k % 2 ^ (st + 1) < 2 ^ st

/-- The twiddle index of the butterfly whose upper element is k. -/
def twiddleNo (m st k : Nat) : Nat := k % 2 ^ (st + 1) * (2 ^ m / 2 ^ (st + 1))

theorem two_pow_stage (st : Nat) : 2 ^ (st + 1) = 2 * 2 ^ st := by rw [Nat.pow_succ, Nat.mul_comm]

/-- Turn j of block `blk` is butterfly blk * 2^st + j, on the upper element blk * 2^(st + 1) + j. -/
theorem block_upper {blk j : Nat} (hj : j < 2 ^ st) :
    (blk * 2 ^ (st + 1) + j) % 2 ^ (st + 1) = j ∧ pairNo st (blk * 2 ^ (st + 1) + j) = blk * 2 ^ st + j := by
  have hL := two_pow_stage st
  obtain ⟨hdiv, hmod⟩ : (blk * 2 ^ (st + 1) + j) / 2 ^ (st + 1) = blk ∧ (blk * 2 ^ (st + 1) + j) % 2 ^ (st + 1) = j :=
    (Nat.div_mod_unique (Nat.two_pow_pos _)).mpr ⟨by rw [Nat.mul_comm, Nat.add_comm], by omega⟩
  refine ⟨hmod, ?_⟩
  rw [pairNo, hdiv, ← Nat.mod_mod_of_dvd _ (Nat.pow_dvd_pow 2 (Nat.le_succ st)), hmod, Nat.mod_eq_of_lt hj]

/-- Half a block above an upper element is an element of the same block, not an upper one. -/
theorem block_lower (hi : IsUpper st i) :
    (i + 2 ^ st) / 2 ^ (st + 1) = i / 2 ^ (st + 1) ∧ (i + 2 ^ st) % 2 ^ (st + 1) = i % 2 ^ (st + 1) + 2 ^ st := by
  have hL := two_pow_stage st
  have heq := Nat.mod_add_div i (2 ^ (st + 1))
  unfold IsUpper at hi
  exact (Nat.div_mod_unique (Nat.two_pow_pos _)).mpr ⟨by omega, by omega⟩

/-- A butterfly's two elements are its upper one and the one half a block above. -/
theorem pairNo_eq_iff (hi : IsUpper st i) : pairNo st k = pairNo st i ↔ k = i ∨ k = i + 2 ^ st := by
  have hL := two_pow_stage st
  have hpos := Nat.two_pow_pos st
  have hparts (k : Nat) : pairNo st k / 2 ^ st = k / 2 ^ (st + 1) ∧ pairNo st k % 2 ^ st = k % 2 ^ st := by
    have hlt := Nat.mod_lt k hpos
    rw [pairNo, Nat.mul_comm, Nat.mul_add_div hpos, Nat.mul_add_mod, Nat.div_eq_of_lt hlt, Nat.mod_eq_of_lt hlt]
    exact ⟨rfl, rfl⟩
  have hlow (k : Nat) : k % 2 ^ st = k % 2 ^ (st + 1) % 2 ^ st := (Nat.mod_mod_of_dvd _ (Nat.pow_dvd_pow 2 (Nat.le_succ st))).symm
  have hi_low : i % 2 ^ st = i % 2 ^ (st + 1) := by rw [hlow, Nat.mod_eq_of_lt hi]
  have hi_eq := Nat.div_add_mod i (2 ^ (st + 1))
  have hk_eq := Nat.div_add_mod k (2 ^ (st + 1))
  have hk_lt := Nat.mod_lt k (Nat.two_pow_pos (st + 1))
  constructor
  · intro h
    have hdiv : k / 2 ^ (st + 1) = i / 2 ^ (st + 1) := by rw [← (hparts k).1, h, (hparts i).1]
    have hmod : k % 2 ^ (st + 1) % 2 ^ st = i % 2 ^ (st + 1) := by rw [← hlow, ← (hparts k).2, h, (hparts i).2, hi_low]
    rw [hdiv] at hk_eq
    by_cases hk : k % 2 ^ (st + 1) < 2 ^ st
    · rw [Nat.mod_eq_of_lt hk] at hmod
      omega
    · rw [Nat.mod_eq_sub_mod (by omega), Nat.mod_eq_of_lt (by omega)] at hmod
      omega
  · rintro (rfl | rfl)
    · rfl
    · rw [pairNo, pairNo, (block_lower hi).1, Nat.add_mod_right]

/-- Every element of the array takes part in one of the stage's 2^(m - st - 1) * 2^st butterflies. -/
theorem pairNo_lt (hst : st < m) (hk : k < 2 ^ m) : pairNo st k < 2 ^ (m - (st + 1)) * 2 ^ st := by
  have hm : 2 ^ m = 2 ^ (st + 1) * 2 ^ (m - (st + 1)) := by rw [← Nat.pow_add]; congr 1; omega
  have hblk : k / 2 ^ (st + 1) < 2 ^ (m - (st + 1)) := Nat.div_lt_of_lt_mul (hm ▸ hk)
  have hmod := Nat.mod_lt k (Nat.two_pow_pos st)
  calc pairNo st k < k / 2 ^ (st + 1) * 2 ^ st + 2 ^ st := by rw [pairNo]; omega
    _ = (k / 2 ^ (st + 1) + 1) * 2 ^ st := by rw [Nat.add_mul, Nat.one_mul]
    _ ≤ 2 ^ (m - (st + 1)) * 2 ^ st := Nat.mul_le_mul_right _ hblk

theorem stageElem_upper (hk : IsUpper st k) :
    stageElem m sc st tw x k = clampC (upper sc (x k) (x (k + 2 ^ st)) (tw (twiddleNo m st k))) := if_pos hk

theorem stageElem_lower (hk : IsUpper st k) :
    stageElem m sc st tw x (k + 2 ^ st) = clampC (lower sc (x k) (x (k + 2 ^ st)) (tw (twiddleNo m st k))) := by
  simp only [stageElem, (block_lower hk).2, Nat.add_sub_cancel, twiddleNo]
  rw [if_neg (by omega)]

/-! ## One stage (R334) -/

/-- The butterfly of stage st + 1 whose upper element is k clamps. -/
def PairClamps (m sc st : Nat) (tw x : Nat → Int × Int) (k : Nat) : Prop :=
  OutC (exactMul (x (k + 2 ^ st)) (tw (twiddleNo m st k))) ∨ OutC (upper sc (x k) (x (k + 2 ^ st)) (tw (twiddleNo m st k))) ∨
    OutC (lower sc (x k) (x (k + 2 ^ st)) (tw (twiddleNo m st k)))

/-- Element k once the first n butterflies of stage st + 1 have run. -/
def stageUpTo (m sc st : Nat) (tw x : Nat → Int × Int) (n k : Nat) : Int × Int :=
  if pairNo st k < n then stageElem m sc st tw x k else x k

/-- One of the first n butterflies of stage st + 1 clamps. -/
def ClampsUpTo (m sc st : Nat) (tw x : Nat → Int × Int) (n : Nat) : Prop :=
  ∃ k, k < 2 ^ m ∧ IsUpper st k ∧ pairNo st k < n ∧ PairClamps m sc st tw x k

theorem clampsUpTo_zero : ¬ClampsUpTo m sc st tw x 0 := by
  rintro ⟨k, -, -, hlt, -⟩
  exact Nat.not_lt_zero _ hlt

theorem clampsUpTo_succ (hi : IsUpper st i) (hm : i < 2 ^ m) :
    ClampsUpTo m sc st tw x (pairNo st i + 1) ↔ ClampsUpTo m sc st tw x (pairNo st i) ∨ PairClamps m sc st tw x i := by
  constructor
  · rintro ⟨k, hk, hup, hlt, hc⟩
    rcases Nat.lt_succ_iff_lt_or_eq.mp hlt with hlt | heq
    · exact .inl ⟨k, hk, hup, hlt, hc⟩
    · rcases (pairNo_eq_iff hi).mp heq with rfl | rfl
      · exact .inr hc
      · rw [IsUpper, (block_lower hi).2] at hup
        omega
  · rintro (⟨k, hk, hup, hlt, hc⟩ | hc)
    · exact ⟨k, hk, hup, by omega, hc⟩
    · exact ⟨i, hm, hi, by omega, hc⟩

theorem clampsUpTo_all (hst : st < m) : ClampsUpTo m sc st tw x (2 ^ (m - (st + 1)) * 2 ^ st) ↔ StageClamps m sc st tw x := by
  constructor
  · rintro ⟨k, hk, hup, -, hc⟩
    exact ⟨k, hk, hup, hc⟩
  · rintro ⟨k, hk, hup, hc⟩
    exact ⟨k, hk, hup, pairNo_lt hst hk, hc⟩

/-- The network's array lies in [lo, hi), and its twiddle table, held at the start, apart from [lo, hi). -/
structure NetworkAt (s : State) (lo hi z T m : Nat) (tw : Nat → Int × Int) : Prop where
  inside : lo ≤ z ∧ z + 8 * 2 ^ m ≤ hi
  apart : T + 8 * 2 ^ (m - 1) ≤ lo ∨ hi ≤ T
  twiddles : HoldsArray T (2 ^ (m - 1)) tw s.mem

/-- The invariant of a stage's loops: its first n butterflies have run. -/
def StageWork (s : State) (lo hi z m sc st : Nat) (tw x : Nat → Int × Int) (bad : Prop) (n : Nat) (w : Work) : Prop :=
  WorkHas s lo hi (HoldsArray z (2 ^ m) (stageUpTo m sc st tw x n)) (bad ∨ ClampsUpTo m sc st tw x n) w

theorem butterfly_turn (hN : NetworkAt s lo hi z T m tw) (hup : IsUpper st i) (hfit : i + 2 ^ st < 2 ^ m)
    (ht : twiddleNo m st i < 2 ^ (m - 1)) (h : StageWork s lo hi z m sc st tw x bad (pairNo st i) w) :
    ∃ w', butterfly z T sc (twiddleNo m st i) i (2 ^ st) w = .ok w' ∧
      StageWork s lo hi z m sc st tw x bad (pairNo st i + 1) w' := by
  obtain ⟨hlo, hhi⟩ := hN.inside
  have hpos := Nat.two_pow_pos st
  have hpart : pairNo st (i + 2 ^ st) = pairNo st i := (pairNo_eq_iff hup).mpr (.inr rfl)
  have hc : HoldsC w.mem T (twiddleNo m st i) (tw (twiddleNo m st i)) := hN.twiddles.of_touches h.touches hN.apart _ ht
  have hx : stageUpTo m sc st tw x (pairNo st i) i = x i := if_neg (by omega)
  have hx' : stageUpTo m sc st tw x (pairNo st i) (i + 2 ^ st) = x (i + 2 ^ st) := if_neg (by omega)
  have ha : HoldsC w.mem z i (x i) := hx ▸ h.holds i (by omega)
  have hb : HoldsC w.mem z (i + 2 ^ st) (x (i + 2 ^ st)) := hx' ▸ h.holds _ hfit
  have hy : stageUpTo m sc st tw x (pairNo st i + 1) i = clampC (upper sc (x i) (x (i + 2 ^ st)) (tw (twiddleNo m st i))) :=
    (if_pos (by omega)).trans (stageElem_upper hup)
  have hy' : stageUpTo m sc st tw x (pairNo st i + 1) (i + 2 ^ st) =
      clampC (lower sc (x i) (x (i + 2 ^ st)) (tw (twiddleNo m st i))) :=
    (if_pos (by omega)).trans (stageElem_lower hup)
  have hstored := h.holds.store_pair (y := stageUpTo m sc st tw x (pairNo st i + 1)) (i := i) (j := i + 2 ^ st) (by omega)
    (hy ▸ fitsC_clampC _) (hy' ▸ fitsC_clampC _) fun k hk hki hkj => by
      have hne : pairNo st k ≠ pairNo st i := fun he => ((pairNo_eq_iff hup).mp he).elim hki hkj
      simp only [stageUpTo, show pairNo st k < pairNo st i + 1 ↔ pairNo st k < pairNo st i by omega]
  rw [hy, hy'] at hstored
  exact h.turn (butterfly_of_holds hc ha hb) (touches_storeC2 _ _ _ (by omega) (by omega) (by omega) (by omega)) hstored
    (by rw [clampsUpTo_succ hup (by omega), or_assoc]; rfl)

theorem fftStage_runs (hN : NetworkAt s lo hi z T m tw) (hst : st < m) (h : WorkHas s lo hi (HoldsArray z (2 ^ m) x) bad w) :
    ∃ w', fftStage z T m sc (st + 1) w = .ok w' ∧
      WorkHas s lo hi (HoldsArray z (2 ^ m) (stageElem m sc st tw x)) (bad ∨ StageClamps m sc st tw x) w' := by
  have hspan : 2 ^ m / 2 ^ (st + 1) = 2 ^ (m - (st + 1)) := Nat.pow_div (by omega) (by omega)
  have h0 : StageWork s lo hi z m sc st tw x bad (0 * 2 ^ st) w := by
    rw [Nat.zero_mul]
    exact h.imp (fun hx => hx.congr fun _ _ => if_neg (Nat.not_lt_zero _)) (by simp [clampsUpTo_zero])
  obtain ⟨w', hrun, hdone⟩ := forFrom_zero_ok (fun blk => StageWork s lo hi z m sc st tw x bad (blk * 2 ^ st)) (2 ^ (m - (st + 1)))
    (fun blk a hblk ha => by
      obtain ⟨b, hb, hP⟩ := forFrom_zero_ok (fun j => StageWork s lo hi z m sc st tw x bad (blk * 2 ^ st + j)) (2 ^ st)
        (fun j c hj hc => by
          obtain ⟨hmod, hno⟩ := block_upper (blk := blk) hj
          have hup : IsUpper st (blk * 2 ^ (st + 1) + j) := by rwa [IsUpper, hmod]
          have htw : twiddleNo m st (blk * 2 ^ (st + 1) + j) = j * 2 ^ (m - (st + 1)) := by rw [twiddleNo, hmod, hspan]
          have hturn := butterfly_turn hN hup (butterfly_index (Nat.le_add_left 1 st) hst hblk hj)
            (htw ▸ twiddle_index (Nat.le_add_left 1 st) hst hj) (hno.symm ▸ hc)
          rwa [htw, hno] at hturn) ha
      exact ⟨b, hb, by rwa [← Nat.succ_mul] at hP⟩) h0
  refine ⟨w', hrun, hdone.imp (fun hx => hx.congr fun k hk => ?_) (by rw [clampsUpTo_all hst])⟩
  exact (if_pos (pairNo_lt hst hk)).symm

/-! ## The network (R334) and FFT (R335) -/

/-- Element k after the first st stages. -/
def stagesOf (m sc : Nat) (tw x : Nat → Int × Int) : Nat → Nat → Int × Int
  | 0 => x
  | st + 1 => stageElem m sc st tw (stagesOf m sc tw x st)

theorem fftCore_runs (hN : NetworkAt s lo hi z T m tw) (h : WorkHas s lo hi (HoldsArray z (2 ^ m) x) bad w) :
    ∃ w', fftCore z T m sc w = .ok w' ∧
      WorkHas s lo hi (HoldsArray z (2 ^ m) (stagesOf m sc tw x m))
        (bad ∨ ∃ st, st < m ∧ StageClamps m sc st tw (stagesOf m sc tw x st)) w' := by
  obtain ⟨w', hrun, hdone⟩ := forFrom_ok (f := fftStage z T m sc)
    (fun i => WorkHas s lo hi (HoldsArray z (2 ^ m) (stagesOf m sc tw x (i - 1)))
      (bad ∨ ∃ st, st < i - 1 ∧ StageClamps m sc st tw (stagesOf m sc tw x st))) m (start := 1)
    (fun i a hlo hhi ha => by
      obtain ⟨st, rfl⟩ : ∃ st, i = st + 1 := ⟨i - 1, by omega⟩
      obtain ⟨b, hb, hP⟩ := fftStage_runs (sc := sc) hN (st := st) (by omega) ha
      refine ⟨b, hb, hP.imp id ?_⟩
      simp only [Nat.add_sub_cancel, Nat.lt_succ_iff_lt_or_eq, or_and_right, exists_or, exists_eq_left, or_assoc])
    (h.imp id (by simp))
  exact ⟨w', hrun, by rwa [Nat.add_sub_cancel_left] at hdone⟩

theorem execFft_completes {rbuf rtw : Reg} {n : BitVec 4} {half : Bool}
    (hz : region (lmemSize s) (reg s rbuf).toNat (8 * 2 ^ n.toNat) 4 = .ok ())
    (hT : region (lmemSize s) (reg s rtw).toNat (4 * 2 ^ n.toNat) 4 = .ok ())
    (hw : fftCore (reg s rbuf).toNat (reg s rtw).toNat n.toNat half.toNat (startWork s) = .ok w) :
    execFft rbuf rtw n half s = .next (commitWork s w) := by
  simp only [execFft, hz, hT, hw, conclude_ok]

/-- Settles O50, with the arrays of `stagesOf` (`fftCore_runs`). -/
theorem fftRunsItsStages : Obligations.FftRunsItsStages := by
  intro rbuf rtw n half x tw s z T M hn hz hin hT hTin hdisj hx htw
  have htable : M = 2 * 2 ^ (n.toNat - 1) := (mul_pow_sub_one (by omega) 2).symm
  have hN : NetworkAt s z (z + 8 * M) z T n.toNat tw :=
    ⟨⟨Nat.le_refl _, Nat.le_refl _⟩, by omega, fun k hk => htw k (by omega)⟩
  obtain ⟨w, hrun, hdone⟩ := fftCore_runs (sc := half.toNat) hN (.start hx)
  obtain ⟨hsat, hframe⟩ := hdone.commit
  refine ⟨_, stagesOf n.toNat half.toNat tw x, execFft_completes (region_ok hz hin) (region_ok hT hTin) hrun, fun _ _ => rfl,
    fun _ _ _ _ => rfl, hdone.holds, ?_, hframe, nextPc_of_pc rfl⟩
  rwa [false_or] at hsat

end Sys2Proof.Machine
end

section
/-! PROOFS. IMDCT (45_transform R336): pre-rotation, post-rotation and unpacking, around the butterfly network; and the statement about
the command. -/

namespace Sys2Proof.Machine

variable {s : State} {lo hi inp out TR TW zb m n8 k : Nat} {x h : Nat → Int} {tr tw y : Nat → Int × Int}
  {Holds : Memory → Prop} {bad : Prop} {w : Work} {mem mem' : Memory}

/-! ## Arrays of words, and a complex array as one -/

/-- LMEM holds the numbers of `x` as the n words of the array at a. -/
def HoldsWords (a n : Nat) (x : Nat → Int) (m : Memory) : Prop := ∀ k, k < n → HoldsWord m (a + 4 * k) (x k)

theorem HoldsWords.of_touches {a n : Nat} (hx : HoldsWords a n x mem) (t : Touches lo hi mem mem') (d : a + 4 * n ≤ lo ∨ hi ≤ a) :
    HoldsWords a n x mem' :=
  fun k hk => holdsWord_of_touches (hx k hk) t (by omega)

/-- The parts of complex elements in the order of their words: the real part of an element, then its imaginary part. -/
def partsOf (y : Nat → Int × Int) (k : Nat) : Int := if k % 2 = 0 then (y (k / 2)).1 else (y (k / 2)).2

theorem partsOf_even (y : Nat → Int × Int) (k : Nat) : partsOf y (2 * k) = (y k).1 := by simp [partsOf]

theorem partsOf_odd (y : Nat → Int × Int) (k : Nat) : partsOf y (2 * k + 1) = (y k).2 := by
  rw [partsOf, if_neg (by omega), show (2 * k + 1) / 2 = k by omega]

theorem HoldsArray.words {z M : Nat} (hy : HoldsArray z M y mem) : HoldsWords z (2 * M) (partsOf y) mem := by
  intro k hk
  obtain ⟨hre, him⟩ := hy (k / 2) (by omega)
  by_cases hpar : k % 2 = 0
  · rwa [partsOf, if_pos hpar, show z + 4 * k = z + 8 * (k / 2) by omega]
  · rwa [partsOf, if_neg hpar, show z + 4 * k = z + 8 * (k / 2) + 4 by omega]

/-! ## The pre-rotation -/

/-- The exact pre-rotated coefficient k. -/
def preExact (m : Nat) (x : Nat → Int) (tr : Nat → Int × Int) (k : Nat) : Int × Int :=
  exactMul (x (2 * 2 ^ m - 1 - 2 * k), x (2 * k)) (tr k)

theorem imdctPre_of_holds {a b : Int} {c : Int × Int} (ha : HoldsWord w.mem (inp + 4 * (2 * 2 ^ m - 1 - 2 * k)) a)
    (hb : HoldsWord w.mem (inp + 4 * (2 * k)) b) (hc : HoldsC w.mem TR k c) :
    Turns (imdctPre inp TR zb (m + 2) k w) w (storeC w.mem zb (bitRev m k) (clampC (exactMul (a, b) c))) (OutC (exactMul (a, b) c)) := by
  have hhalf : 2 ^ (m + 2 - 1) = 2 * 2 ^ m := Nat.pow_succ'
  simp only [imdctPre, hhalf, loadW_of_holds ha, loadW_of_holds hb, loadC_of_holds hc, cmul_eq, Nat.add_sub_cancel]
  refine turns_ok ?_
  simp only [Bool.or_eq_true, cmulClamps_iff]

/-- The pre-rotated coefficients below k stand at their reversed indices. -/
def PreUpTo (zb m : Nat) (x : Nat → Int) (tr : Nat → Int × Int) (k : Nat) (mem : Memory) : Prop :=
  ∀ j, j < 2 ^ m → bitRev m j < k → HoldsC mem zb j (clampC (preExact m x tr (bitRev m j)))

theorem PreUpTo.store (hP : PreUpTo zb m x tr k mem) (hk : k < 2 ^ m) :
    PreUpTo zb m x tr (k + 1) (storeC mem zb (bitRev m k) (clampC (preExact m x tr k))) := by
  intro j hj hlt
  by_cases hjk : j = bitRev m k
  · subst hjk
    rw [bitRev_bitRev hk]
    exact holdsC_storeC_self _ _ _ (fitsC_clampC _)
  · have hne : bitRev m j ≠ k := fun he => hjk (he ▸ (bitRev_bitRev hj).symm)
    exact holdsC_storeC_of_ne (hP j hj (by omega)) hjk _

theorem imdctPre_runs (hx : HoldsWords inp (2 * 2 ^ m) x s.mem) (htr : HoldsArray TR (2 ^ m) tr s.mem)
    (hinp : inp + 8 * 2 ^ m ≤ lo ∨ hi ≤ inp) (hTR : TR + 8 * 2 ^ m ≤ lo ∨ hi ≤ TR) (hlo : lo ≤ zb) (hhi : zb + 8 * 2 ^ m ≤ hi) :
    ∃ w, forFrom (imdctPre inp TR zb (m + 2)) 0 (2 ^ m) (startWork s) = .ok w ∧
      WorkHas s lo hi (HoldsArray zb (2 ^ m) fun j => clampC (preExact m x tr (bitRev m j)))
        (∃ k, k < 2 ^ m ∧ OutC (preExact m x tr k)) w := by
  obtain ⟨w, hrun, hdone⟩ := forFrom_zero_ok (f := imdctPre inp TR zb (m + 2))
    (fun k => WorkHas s lo hi (PreUpTo zb m x tr k) (∃ i, i < k ∧ OutC (preExact m x tr i))) (2 ^ m)
    (fun k a hk ha => by
      have hrev := bitRev_lt m k
      have hxa := hx.of_touches ha.touches (by omega)
      have htra := htr.of_touches ha.touches hTR
      exact ha.turn (imdctPre_of_holds (hxa _ (by omega)) (hxa _ (by omega)) (htra k hk))
        (touches_storeC _ _ (by omega) (by omega)) (ha.holds.store hk)
        (by simp only [Nat.lt_succ_iff_lt_or_eq, or_and_right, exists_or, exists_eq_left, preExact]))
    ((WorkHas.start (Holds := PreUpTo zb m x tr 0) fun _ _ => nofun).imp id (by simp))
  exact ⟨w, hrun, hdone.imp (fun hP j hj => hP j hj (bitRev_lt m j)) Iff.rfl⟩

/-! ## The post-rotation -/

/-- The exact product of the post-rotation for element i, both factors with their parts exchanged. -/
def postExact (y tr : Nat → Int × Int) (i : Nat) : Int × Int := exactMul ((y i).2, (y i).1) ((tr i).2, (tr i).1)

/-- Element i after the post-rotation: the real part of its own product, the imaginary part of its mirror element's. -/
def postElem (n8 : Nat) (y tr : Nat → Int × Int) (i : Nat) : Int × Int :=
  ((clampC (postExact y tr i)).1, (clampC (postExact y tr (2 * n8 - 1 - i))).2)

theorem fitsC_postElem (n8 : Nat) (y tr : Nat → Int × Int) (i : Nat) : FitsC (postElem n8 y tr i) :=
  ⟨(fitsC_clampC _).1, (fitsC_clampC _).2⟩

theorem postElem_low (y tr : Nat → Int × Int) (hk : k < n8) :
    postElem n8 y tr (n8 - k - 1) = ((clampC (postExact y tr (n8 - k - 1))).1, (clampC (postExact y tr (n8 + k))).2) := by
  rw [postElem, show 2 * n8 - 1 - (n8 - k - 1) = n8 + k by omega]

theorem postElem_high (y tr : Nat → Int × Int) (n8 k : Nat) :
    postElem n8 y tr (n8 + k) = ((clampC (postExact y tr (n8 + k))).1, (clampC (postExact y tr (n8 - k - 1))).2) := by
  rw [postElem, show 2 * n8 - 1 - (n8 + k) = n8 - k - 1 by omega]

theorem imdctPost_of_holds (hk : k < n8) (ha : HoldsC w.mem zb (n8 - k - 1) (y (n8 - k - 1))) (hb : HoldsC w.mem zb (n8 + k) (y (n8 + k)))
    (hta : HoldsC w.mem TR (n8 - k - 1) (tr (n8 - k - 1))) (htb : HoldsC w.mem TR (n8 + k) (tr (n8 + k))) :
    Turns (imdctPost TR zb n8 k w) w
      (storeC (storeC w.mem zb (n8 - k - 1) (postElem n8 y tr (n8 - k - 1))) zb (n8 + k) (postElem n8 y tr (n8 + k)))
      (OutC (postExact y tr (n8 - k - 1)) ∨ OutC (postExact y tr (n8 + k))) := by
  simp only [imdctPost, loadC_of_holds ha, loadC_of_holds hb, loadC_of_holds hta, loadC_of_holds htb, cmul_eq,
    postElem_low y tr hk, postElem_high, postExact]
  refine turns_ok ?_
  simp only [Bool.or_eq_true, cmulClamps_iff, or_assoc]

/-- Element i once the first k turns of the post-rotation have run: they go outwards from the middle. -/
def postUpTo (n8 : Nat) (y tr : Nat → Int × Int) (k i : Nat) : Int × Int :=
  if n8 - k ≤ i ∧ i < n8 + k then postElem n8 y tr i else y i

theorem imdctPost_turn (hk : k < n8) (hlo : lo ≤ zb) (hhi : zb + 8 * (2 * n8) ≤ hi) (htr : HoldsArray TR (2 * n8) tr w.mem)
    (hw : WorkHas s lo hi (HoldsArray zb (2 * n8) (postUpTo n8 y tr k))
      (bad ∨ ∃ i, (n8 - k ≤ i ∧ i < n8 + k) ∧ OutC (postExact y tr i)) w) :
    ∃ w', imdctPost TR zb n8 k w = .ok w' ∧ WorkHas s lo hi (HoldsArray zb (2 * n8) (postUpTo n8 y tr (k + 1)))
      (bad ∨ ∃ i, (n8 - (k + 1) ≤ i ∧ i < n8 + (k + 1)) ∧ OutC (postExact y tr i)) w' := by
  have hcover (i : Nat) : (n8 - (k + 1) ≤ i ∧ i < n8 + (k + 1)) ↔ (n8 - k ≤ i ∧ i < n8 + k) ∨ i = n8 - k - 1 ∨ i = n8 + k := by omega
  have ha : HoldsC w.mem zb (n8 - k - 1) (y (n8 - k - 1)) := by
    have hold := hw.holds (n8 - k - 1) (by omega)
    rwa [postUpTo, if_neg (by omega)] at hold
  have hb : HoldsC w.mem zb (n8 + k) (y (n8 + k)) := by
    have hold := hw.holds (n8 + k) (by omega)
    rwa [postUpTo, if_neg (by omega)] at hold
  have hy : postUpTo n8 y tr (k + 1) (n8 - k - 1) = postElem n8 y tr (n8 - k - 1) := if_pos (by omega)
  have hy' : postUpTo n8 y tr (k + 1) (n8 + k) = postElem n8 y tr (n8 + k) := if_pos (by omega)
  have hstored := hw.holds.store_pair (y := postUpTo n8 y tr (k + 1)) (i := n8 - k - 1) (j := n8 + k) (by omega)
    (hy ▸ fitsC_postElem _ _ _ _) (hy' ▸ fitsC_postElem _ _ _ _) fun i _ hia hib => by
      simp only [postUpTo, hcover, hia, hib, or_false]
  rw [hy, hy'] at hstored
  refine hw.turn (imdctPost_of_holds hk ha hb (htr _ (by omega)) (htr _ (by omega)))
    (touches_storeC2 _ _ _ (by omega) (by omega) (by omega) (by omega)) hstored ?_
  simp only [hcover, or_and_right, exists_or, exists_eq_left, or_assoc]

theorem imdctPost_runs {M : Nat} (hM : 2 * n8 = M) (htr : HoldsArray TR M tr s.mem) (hTR : TR + 8 * M ≤ lo ∨ hi ≤ TR)
    (hlo : lo ≤ zb) (hhi : zb + 8 * M ≤ hi) (hw : WorkHas s lo hi (HoldsArray zb M y) bad w) :
    ∃ w', forFrom (imdctPost TR zb n8) 0 n8 w = .ok w' ∧
      WorkHas s lo hi (HoldsArray zb M (postElem n8 y tr)) (bad ∨ ∃ i, i < M ∧ OutC (postExact y tr i)) w' := by
  subst hM
  obtain ⟨w', hrun, hdone⟩ := forFrom_zero_ok (f := imdctPost TR zb n8)
    (fun k => WorkHas s lo hi (HoldsArray zb (2 * n8) (postUpTo n8 y tr k))
      (bad ∨ ∃ i, (n8 - k ≤ i ∧ i < n8 + k) ∧ OutC (postExact y tr i))) n8
    (fun k a hk ha => imdctPost_turn hk hlo hhi (htr.of_touches ha.touches hTR) ha)
    (hw.imp (fun hy => hy.congr fun i _ => if_neg (by omega))
      (by simp only [show ∀ i, ¬(n8 - 0 ≤ i ∧ i < n8 + 0) by omega, false_and, exists_false, or_false]))
  refine ⟨w', hrun, hdone.imp (fun hy => hy.congr fun i hi => (if_pos (by omega)).symm) ?_⟩
  simp only [show ∀ i, (n8 - n8 ≤ i ∧ i < n8 + n8) ↔ i < 2 * n8 by omega]

/-! ## The unpacking -/

theorem imdctUnpack_of_holds {u v : Int} (hk : k < 2 ^ m) (hu : HoldsWord w.mem (out + 4 * (2 * 2 ^ m - k - 1)) u)
    (hv : HoldsWord w.mem (out + 4 * (2 * 2 ^ m + k)) v) :
    Turns (imdctUnpack out (m + 2) k w) w
      (storeW (storeW w.mem (out + 4 * k) (clampTo 32 (-u))) (out + 4 * (4 * 2 ^ m - k - 1)) v) (OutOf 32 (-u)) := by
  have hhalf : 2 ^ (m + 2 - 1) = 2 * 2 ^ m := Nat.pow_succ'
  have hfull : 2 ^ (m + 2) = 4 * 2 ^ m := by rw [Nat.pow_add, Nat.mul_comm]
  have hv' : HoldsWord (storeW w.mem (out + 4 * k) (clampTo 32 (-u))) (out + 4 * (2 * 2 ^ m + k)) v :=
    holdsWord_of_touches hv (touches_storeW _ _ (Nat.le_refl _) (Nat.le_refl _)) (.inr (by omega))
  simp only [imdctUnpack, hhalf, hfull, loadW_of_holds hu, sat_eq_clampTo, loadW_of_holds hv']
  refine turns_ok ?_
  simp only [Bool.or_eq_true, clamps_iff]

/-- The half frame `h` in the middle of the output, with the first k turns of the unpacking done: the first k words and the last k. -/
structure UnpackedUpTo (out m : Nat) (h : Nat → Int) (k : Nat) (mem : Memory) : Prop where
  middle : HoldsWords (out + 4 * 2 ^ m) (2 * 2 ^ m) h mem
  first : HoldsWords out k (fun i => clampTo 32 (-h (2 ^ m - i - 1))) mem
  last : ∀ i, i < k → HoldsWord mem (out + 4 * (4 * 2 ^ m - i - 1)) (h (2 ^ m + i))

theorem UnpackedUpTo.store (hU : UnpackedUpTo out m h k mem) (hk : k < 2 ^ m) :
    UnpackedUpTo out m h (k + 1)
      (storeW (storeW mem (out + 4 * k) (clampTo 32 (-h (2 ^ m - k - 1)))) (out + 4 * (4 * 2 ^ m - k - 1)) (h (2 ^ m + k))) := by
  have hone := touches_storeW (lo := out + 4 * k) (hi := out + 4 * k + 4) (clampTo 32 (-h (2 ^ m - k - 1))) mem
    (Nat.le_refl _) (Nat.le_refl _)
  have htwo := touches_storeW (lo := out + 4 * (4 * 2 ^ m - k - 1)) (hi := out + 4 * (4 * 2 ^ m - k - 1) + 4) (h (2 ^ m + k))
    (storeW mem (out + 4 * k) (clampTo 32 (-h (2 ^ m - k - 1)))) (Nat.le_refl _) (Nat.le_refl _)
  refine ⟨(hU.middle.of_touches hone (by omega)).of_touches htwo (by omega), fun i hi => ?_, fun i hi => ?_⟩
  · refine holdsWord_of_touches ?_ htwo (by omega)
    rcases Nat.lt_succ_iff_lt_or_eq.mp hi with hlt | rfl
    · exact holdsWord_of_touches (hU.first i hlt) hone (by omega)
    · obtain ⟨hlo, hhi⟩ := clampTo_range 32 (-h (2 ^ m - i - 1))
      exact holds_storeW _ _ hlo hhi
  · rcases Nat.lt_succ_iff_lt_or_eq.mp hi with hlt | rfl
    · exact holdsWord_of_touches (holdsWord_of_touches (hU.last i hlt) hone (by omega)) htwo (by omega)
    · obtain ⟨hlo, hhi⟩ := holdsWord_range (hU.middle (2 ^ m + i) (by omega))
      exact holds_storeW _ _ hlo hhi

theorem imdctUnpack_runs (hlo : lo ≤ out) (hhi : out + 16 * 2 ^ m ≤ hi)
    (hw : WorkHas s lo hi (HoldsWords (out + 4 * 2 ^ m) (2 * 2 ^ m) h) bad w) :
    ∃ w', forFrom (imdctUnpack out (m + 2)) 0 (2 ^ m) w = .ok w' ∧
      WorkHas s lo hi (UnpackedUpTo out m h (2 ^ m)) (bad ∨ ∃ k, k < 2 ^ m ∧ OutOf 32 (-h k)) w' := by
  obtain ⟨w', hrun, hdone⟩ := forFrom_zero_ok (f := imdctUnpack out (m + 2))
    (fun k => WorkHas s lo hi (UnpackedUpTo out m h k) (bad ∨ ∃ i, (2 ^ m - k ≤ i ∧ i < 2 ^ m) ∧ OutOf 32 (-h i))) (2 ^ m)
    (fun k a hk ha => by
      have hcover (i : Nat) : (2 ^ m - (k + 1) ≤ i ∧ i < 2 ^ m) ↔ (2 ^ m - k ≤ i ∧ i < 2 ^ m) ∨ i = 2 ^ m - k - 1 := by omega
      have hu := ha.holds.middle (2 ^ m - k - 1) (by omega)
      have hv := ha.holds.middle (2 ^ m + k) (by omega)
      rw [show out + 4 * 2 ^ m + 4 * (2 ^ m - k - 1) = out + 4 * (2 * 2 ^ m - k - 1) by omega] at hu
      rw [show out + 4 * 2 ^ m + 4 * (2 ^ m + k) = out + 4 * (2 * 2 ^ m + k) by omega] at hv
      exact ha.turn (imdctUnpack_of_holds hk hu hv)
        ((touches_storeW _ _ (by omega) (by omega)).trans (touches_storeW _ _ (by omega) (by omega))) (ha.holds.store hk)
        (by simp only [hcover, or_and_right, exists_or, exists_eq_left, or_assoc]))
    (hw.imp (fun hm => ⟨hm, nofun, nofun⟩)
      (by simp only [show ∀ i, ¬(2 ^ m - 0 ≤ i ∧ i < 2 ^ m) by omega, false_and, exists_false, or_false]))
  refine ⟨w', hrun, hdone.imp id ?_⟩
  simp only [Nat.sub_self, Nat.zero_le, true_and]

/-! ## The whole command -/

/-- The arrays of an IMDCT at `s` with 2^m points: the input and the tables are held at the start and lie apart from the output. -/
structure ImdctAt (s : State) (out inp TR TW m : Nat) (x : Nat → Int) (tr tw : Nat → Int × Int) : Prop where
  points : 1 ≤ m
  input : HoldsWords inp (2 * 2 ^ m) x s.mem
  rotation : HoldsArray TR (2 ^ m) tr s.mem
  twiddles : HoldsArray TW (2 ^ (m - 1)) tw s.mem
  inputApart : inp + 8 * 2 ^ m ≤ out ∨ out + 16 * 2 ^ m ≤ inp
  rotationApart : TR + 8 * 2 ^ m ≤ out ∨ out + 16 * 2 ^ m ≤ TR
  twiddlesApart : TW + 4 * 2 ^ m ≤ out ∨ out + 16 * 2 ^ m ≤ TW

/-- The points after st stages of the network. -/
def imdctStages (m sc : Nat) (x : Nat → Int) (tr tw : Nat → Int × Int) (st : Nat) : Nat → Int × Int :=
  stagesOf m sc tw (fun j => clampC (preExact m x tr (bitRev m j))) st

/-- The points after the post-rotation. -/
def imdctRotated (m sc : Nat) (x : Nat → Int) (tr tw : Nat → Int × Int) : Nat → Int × Int :=
  postElem (2 ^ (m - 1)) (imdctStages m sc x tr tw m) tr

/-- One of the saturations of an IMDCT clamps. -/
def ImdctClamps (m sc : Nat) (x : Nat → Int) (tr tw : Nat → Int × Int) : Prop :=
  (∃ k, k < 2 ^ m ∧ OutC (preExact m x tr k)) ∨ (∃ st, st < m ∧ StageClamps m sc st tw (imdctStages m sc x tr tw st)) ∨
    (∃ k, k < 2 ^ m ∧ OutC (postExact (imdctStages m sc x tr tw m) tr k)) ∨
    (∃ k, k < 2 ^ m ∧ OutOf 32 (-partsOf (imdctRotated m sc x tr tw) k))

/-- The four parts of the command in turn. -/
theorem imdctCore_runs {sc : Nat} (hI : ImdctAt s out inp TR TW m x tr tw) :
    ∃ w, imdctCore out inp TR TW (m + 2) sc (startWork s) = .ok w ∧
      WorkHas s out (out + 16 * 2 ^ m) (UnpackedUpTo out m (partsOf (imdctRotated m sc x tr tw)) (2 ^ m))
        (ImdctClamps m sc x tr tw) w := by
  have hhalf : 2 * 2 ^ (m - 1) = 2 ^ m := mul_pow_sub_one (by have := hI.points; omega) 2
  have hTW := hI.twiddlesApart
  obtain ⟨w1, hrun1, h1⟩ := imdctPre_runs (zb := out + 4 * 2 ^ m) hI.input hI.rotation hI.inputApart hI.rotationApart
    (by omega) (by omega)
  have hN : NetworkAt s out (out + 16 * 2 ^ m) (out + 4 * 2 ^ m) TW m tw := ⟨by omega, by omega, hI.twiddles⟩
  obtain ⟨w2, hrun2, h2⟩ := fftCore_runs (sc := sc) hN h1
  obtain ⟨w3, hrun3, h3⟩ := imdctPost_runs hhalf hI.rotation hI.rotationApart (by omega) (by omega) h2
  obtain ⟨w4, hrun4, h4⟩ := imdctUnpack_runs (Nat.le_refl _) (Nat.le_refl _) (h3.imp HoldsArray.words Iff.rfl)
  refine ⟨w4, ?_, h4.imp id (by simp only [or_assoc]; rfl)⟩
  simp only [imdctCore, show m + 2 - 2 = m from rfl, show m + 2 - 3 = m - 1 from rfl, hrun1, hrun2, hrun3, hrun4]

theorem imdctChecks_pass (hout : region (lmemSize s) out (4 * 2 ^ (m + 2)) 4 = .ok ())
    (hinp : region (lmemSize s) inp (4 * 2 ^ (m + 2 - 1)) 4 = .ok ()) (hTR : region (lmemSize s) s.sr.mdtrig.toNat (8 * 2 ^ m) 4 = .ok ())
    (hTW : region (lmemSize s) s.sr.mdtw.toNat (4 * 2 ^ m) 4 = .ok ()) : imdctChecks s out inp (m + 2) = .ok () := by
  simp only [imdctChecks, hout, hinp, Nat.add_sub_cancel, hTR, hTW]

theorem execImdct_completes {rout rin : Reg} {n : BitVec 4} {half : Bool}
    (hc : imdctChecks s (reg s rout).toNat (reg s rin).toNat n.toNat = .ok ())
    (hw : imdctCore (reg s rout).toNat (reg s rin).toNat s.sr.mdtrig.toNat s.sr.mdtw.toNat n.toNat half.toNat (startWork s) = .ok w) :
    execImdct rout rin n half s = .next (commitWork s w) := by
  simp only [execImdct, hc, hw, conclude_ok]

/-- Settles O51, with the arrays of `imdctStages` and `imdctRotated` (`imdctCore_runs`). -/
theorem imdctTransforms : Obligations.ImdctTransforms := by
  intro rout rin n half x tr tw s out inp TR TW m n4 n8 hn hout houtIn hinp hinpIn hTR hTRIn hTW hTWIn hdI hdR hdT hx htr htw
  have hm : n.toNat = m + 2 := by omega
  have hn8 : n8 = 2 ^ (m - 1) := by
    have hhalf : 2 * 2 ^ (m - 1) = n4 := mul_pow_sub_one (by omega) 2
    omega
  have hI : ImdctAt s out inp TR TW m x tr tw := ⟨by omega, hx, htr, fun k hk => htw k (hn8 ▸ hk), hdI, hdR, hdT⟩
  obtain ⟨w, hrun, hdone⟩ := imdctCore_runs (sc := half.toNat) hI
  have hpass : imdctChecks s out inp n.toNat = .ok () := by
    have hfull : 2 ^ (m + 2) = 4 * n4 := by rw [Nat.pow_add, Nat.mul_comm]
    have hhalf : 2 ^ (m + 2 - 1) = 2 * n4 := Nat.pow_succ'
    rw [hm]
    exact imdctChecks_pass (region_ok hout (by omega)) (region_ok hinp (by omega)) (region_ok hTR hTRIn) (region_ok hTW hTWIn)
  obtain ⟨hsat, hframe⟩ := hdone.commit
  refine ⟨_, imdctStages m half.toNat x tr tw, imdctRotated m half.toNat x tr tw, partsOf (imdctRotated m half.toNat x tr tw),
    execImdct_completes hpass (hm ▸ hrun), fun k j hrev => ?_, fun _ _ _ _ => rfl, fun k hk => ?_,
    fun k _ => ⟨partsOf_even _ k, partsOf_odd _ k⟩, fun k hk => ⟨hdone.holds.first k hk, hdone.holds.last k hk⟩, fun k hk => ?_,
    hsat, hframe, nextPc_of_pc rfl⟩
  · rw [hrev.eq_bitRev]
    exact congrArg (fun i => clampC (preExact m x tr i)) (bitRev_bitRev hrev.1)
  · rw [hn8] at hk ⊢
    exact ⟨postElem_low _ _ hk, postElem_high _ _ _ _⟩
  · rw [show out + 4 * (n4 + k) = out + 4 * 2 ^ m + 4 * k by omega]
    exact hdone.holds.middle k hk

end Sys2Proof.Machine
end

section
/-! PROOFS. FSHIFT and PCMOUT (46_window R364, R365): arrays of words stored in order, halfwords stored at a stride, and the statements
about the two commands. -/

namespace Sys2Proof.Machine

variable {s : State} {a base K L dst src S cnt i k : Nat} {v : Int} {x y : Nat → Int} {m m' : Memory} {w : Work}

/-! ## An array of words, stored in order -/

theorem HoldsWords.store_next (h : HoldsWords a k y m) (hy : -2147483648 ≤ y k ∧ y k < 2147483648) :
    HoldsWords a (k + 1) y (storeW m (a + 4 * k) (y k)) := by
  intro i hi
  rcases Nat.lt_succ_iff_lt_or_eq.mp hi with hlt | rfl
  · exact holdsWord_of_touches (h i hlt) (touches_storeW _ _ (Nat.le_refl _) (Nat.le_refl _)) (.inl (by omega))
  · exact holds_storeW _ _ hy.1 hy.2

/-! ## FSHIFT (R364) -/

/-- Word i of the shifted buffer. -/
def shifted (K L : Nat) (x : Nat → Int) (i : Nat) : Int := if i + K < L then x (i + K) else 0

theorem shifted_range (hx : HoldsWords base L x m) (i : Nat) : -2147483648 ≤ shifted K L x i ∧ shifted K L x i < 2147483648 := by
  unfold shifted
  split
  · next hlt => exact holdsWord_range (hx _ hlt)
  · decide

/-- The word that a turn reads lies at or above the one it writes, so it is still as at the start. -/
theorem fshiftElem_of_touches (hx : HoldsWords base L x m) (ht : Touches base (base + 4 * i) m m') :
    fshiftElem base K L i m' = .ok (storeW m' (base + 4 * i) (shifted K L x i)) := by
  unfold fshiftElem shifted
  split
  · next hlt => rw [loadW_of_holds (holdsWord_of_touches (hx _ hlt) ht (.inr (by omega)))]
  · rfl

theorem fshift_runs (hx : HoldsWords base L x m) :
    ∃ m', forFrom (fshiftElem base K L) 0 L m = .ok m' ∧ HoldsWords base L (shifted K L x) m' ∧
      Touches base (base + 4 * L) m m' :=
  forFrom_zero_ok (fun k a => HoldsWords base k (shifted K L x) a ∧ Touches base (base + 4 * k) m a) L
    (fun _ _ _ ⟨hdone, ht⟩ => ⟨_, fshiftElem_of_touches hx ht, hdone.store_next (shifted_range hx _),
      (ht.mono (Nat.le_refl _) (by omega)).trans (touches_storeW _ _ (by omega) (by omega))⟩)
    ⟨nofun, .refl _ _ _⟩

theorem execFshift_completes {rbuf rk rl : Reg} (hreg : region (lmemSize s) (reg s rbuf).toNat (4 * (reg s rl).toNat) 4 = .ok ())
    (hm : forFrom (fshiftElem (reg s rbuf).toNat (reg s rk).toNat (reg s rl).toNat) 0 (reg s rl).toNat s.mem = .ok m) :
    execFshift rbuf rk rl s = .next (advance { s with mem := m }) := by
  simp only [execFshift, hreg, hm, conclude_ok]

/-- Settles O53: turn by turn the buffer fills with `shifted`, from words that no earlier turn has overwritten. -/
theorem fshiftMovesDown : Obligations.FshiftMovesDown := by
  intro rbuf rk rl x s base K L hregion hx
  obtain ⟨m, hrun, hdone, ht⟩ := fshift_runs (K := K) (L := L) (base := base) hx
  exact ⟨_, execFshift_completes (region_words_ok hregion) hrun, hdone, advance_withMem_only ht, nextPc_of_pc rfl⟩

/-! ## One halfword (20_memory R106) -/

theorem halfword_of_bytes (n : Nat) : (BitVec.ofNat 8 (n / 256) ++ BitVec.ofNat 8 n : BitVec 16) = BitVec.ofNat 16 n := by
  apply BitVec.eq_of_toNat_eq
  rw [toNat_append_add]
  simp only [BitVec.toNat_ofNat]
  omega

/-- A halfword written is the halfword held. -/
theorem holdsHalf_writeLE (m : Memory) (a : Nat) (hlo : -32768 ≤ v) (hhi : v < 32768) :
    HoldsHalf (writeLE m a 2 (u32 v).toNat) a v := by
  refine ⟨BitVec.ofNat 8 (u32 v).toNat, BitVec.ofNat 8 ((u32 v).toNat / 256), ?_, ?_, ?_⟩
  · simp [memGet_writeLE]
  · simp [memGet_writeLE]
  · rw [halfword_of_bytes, BitVec.toInt_ofNat', u32, BitVec.toNat_ofInt]
    simp only [Int.bmod]
    omega

theorem holdsHalf_congr (h : HoldsHalf m a v) (e : ∀ b, a ≤ b → b < a + 2 → memGet b m' = memGet b m) : HoldsHalf m' a v := by
  obtain ⟨b0, b1, h0, h1, hv⟩ := h
  exact ⟨b0, b1, by rw [e _ (by omega) (by omega), h0], by rw [e _ (by omega) (by omega), h1], hv⟩

/-! ## PCMOUT (R365) -/

/-- A sample rounded half up to 16 bits, before its saturation. -/
def rounded (x : Int) : Int := (x + 32768) / 65536

theorem pcmExact_eq (v : Int) : pcmExact v = rounded v := by rw [pcmExact, asr_eq]; rfl

/-- The bytes of sample i lie below those of sample k. -/
theorem pcm_below (hS : 1 ≤ S) (hik : i < k) : 2 * S * i + 2 ≤ 2 * S * k :=
  calc 2 * S * i + 2 ≤ 2 * S * (i + 1) := by rw [Nat.mul_add]; omega
    _ ≤ 2 * S * k := Nat.mul_le_mul_left _ hik

theorem pcmElem_of_holds (hv : HoldsWord w.mem (src + 4 * i) v) :
    Turns (pcmElem dst src S i w) w (writeLE w.mem (dst + 2 * S * i) 2 (u32 (clampTo 16 (rounded v))).toNat)
      (OutOf 16 (rounded v)) := by
  simp only [pcmElem, loadW_of_holds hv, pcmExact_eq, sat_eq_clampTo]
  exact turns_ok (by rw [Bool.or_eq_true, clamps_iff])

/-- The first k samples are converted, and every byte that none of them occupies is as in `m`. -/
structure PcmUpTo (m : Memory) (dst S : Nat) (x : Nat → Int) (k : Nat) (m' : Memory) : Prop where
  samples : ∀ i, i < k → HoldsHalf m' (dst + 2 * S * i) (clampTo 16 (rounded (x i)))
  between : ∀ a, (∀ i, i < k → a ≠ dst + 2 * S * i ∧ a ≠ dst + 2 * S * i + 1) → memGet a m' = memGet a m

theorem PcmUpTo.store (h : PcmUpTo m dst S x k m') (hS : 1 ≤ S) :
    PcmUpTo m dst S x (k + 1) (writeLE m' (dst + 2 * S * k) 2 (u32 (clampTo 16 (rounded (x k)))).toNat) where
  samples i hi := by
    rcases Nat.lt_succ_iff_lt_or_eq.mp hi with hlt | rfl
    · have hbelow := pcm_below hS hlt
      exact holdsHalf_congr (h.samples i hlt) fun b _ _ => by rw [memGet_writeLE, if_neg (by omega)]
    · obtain ⟨hlo, hhi⟩ := clampTo_range 16 (rounded (x i))
      exact holdsHalf_writeLE _ _ hlo hhi
  between a ha := by
    have hk := ha k (Nat.lt_succ_self k)
    rw [memGet_writeLE, if_neg (by omega)]
    exact h.between a fun i hi => ha i (by omega)

theorem pcm_runs (hS : 1 ≤ S) (hx : HoldsWords src cnt x s.mem)
    (hapart : cnt = 0 ∨ src + 4 * cnt ≤ dst ∨ dst + 2 * (S * (cnt - 1) + 1) ≤ src) :
    ∃ w, forFrom (pcmElem dst src S) 0 cnt (startWork s) = .ok w ∧
      WorkHas s dst (dst + 2 * (S * (cnt - 1) + 1)) (PcmUpTo s.mem dst S x cnt) (∃ i, i < cnt ∧ OutOf 16 (rounded (x i))) w :=
  forFrom_zero_ok
    (fun k => WorkHas s dst (dst + 2 * (S * (cnt - 1) + 1)) (PcmUpTo s.mem dst S x k) (∃ i, i < k ∧ OutOf 16 (rounded (x i)))) cnt
    (fun k _ hk h => by
      have hfit := pcm_stride (S := S) hk
      exact h.turn (pcmElem_of_holds (hx.of_touches h.touches (by omega) k hk)) (touches_writeLE 2 _ _ (by omega) (by omega))
        (h.holds.store hS) (by simp only [Nat.lt_succ_iff_lt_or_eq, or_and_right, exists_or, exists_eq_left]))
    ((WorkHas.start (Holds := PcmUpTo s.mem dst S x 0) ⟨nofun, fun _ _ => rfl⟩).imp id (by simp))

theorem pcmChecks_pass (h : cnt = 0 ∨ dst % 2 = 0 ∧ dst + 2 * (S * (cnt - 1) + 1) ≤ lmemSize s ∧
    region (lmemSize s) src (4 * cnt) 4 = .ok ()) : pcmChecks s dst src cnt S = .ok () := by
  unfold pcmChecks
  split
  · rfl
  · next hcnt =>
    obtain ⟨hal, hin, hsrc⟩ := h.resolve_left hcnt
    rw [if_neg (not_not.mpr hal), if_neg (by omega), hsrc]

theorem execPcmout_completes {rdst rsrc rcnt : Reg} {chm1 : BitVec 3}
    (hc : pcmChecks s (reg s rdst).toNat (reg s rsrc).toNat (reg s rcnt).toNat (chm1.toNat + 1) = .ok ())
    (hw : forFrom (pcmElem (reg s rdst).toNat (reg s rsrc).toNat (chm1.toNat + 1)) 0 (reg s rcnt).toNat (startWork s) = .ok w) :
    execPcmout rdst rsrc rcnt chm1 s = .next (commitWork s w) := by
  simp only [execPcmout, hc, hw, conclude_ok]

/-- Settles O54: the loop keeps `PcmUpTo`, whose samples lie apart because the stride is at least one halfword. -/
theorem pcmoutConverts : Obligations.PcmoutConverts := by
  intro rdst rsrc rcnt chm1 x s dst src cnt S span v hregion hx
  have hpass : pcmChecks s dst src cnt S = .ok () :=
    pcmChecks_pass (hregion.imp_right fun ⟨hd, hdin, hs, hsin, _⟩ => ⟨hd, hdin, region_ok hs hsin⟩)
  obtain ⟨w, hrun, hdone⟩ := pcm_runs (S := S) (dst := dst) (by omega) hx (hregion.imp_right fun ⟨_, _, _, _, hapart⟩ => hapart)
  obtain ⟨hsat, hregs, hsrs, hctl, -⟩ := hdone.commit
  exact ⟨_, execPcmout_completes hpass hrun, hdone.holds.samples, hdone.holds.between, hsat, hregs, hsrs, hctl, nextPc_of_pc rfl⟩

end Sys2Proof.Machine
end

section
/-! PROOFS. WOLA (46_window R361, R362, R366): what one element stores, the loops of each half as one array filled in order, the command's
checks, and the statement about it. -/

namespace Sys2Proof.Machine

variable {s : State} {d fp inp fo io wl wr cb pb nb a i j k count n B L R : Nat} {u v c : Int} {f x g y : Nat → Int}
  {Clamps : Nat → Prop} {bad bad' : Prop} {m m' : Memory} {w w0 w1 w2 w3 : Work} {r : Run Work}

/-! ## One element -/

/-- The turn `r` completes from the work `w`, stores the signed 32-bit number `v` at `a`, and clamps exactly when `bad`. -/
structure Stores (r : Run Work) (w : Work) (a : Nat) (v : Int) (bad : Prop) : Prop where
  turns : Turns r w (storeW w.mem a v) bad
  fits : -2147483648 ≤ v ∧ v < 2147483648

theorem Stores.congr (h : Stores r w a u bad) (hv : u = v) (hb : bad ↔ bad') : Stores r w a v bad' :=
  hv ▸ propext hb ▸ h

theorem wmExact_eq (x c : Int) : wmExact x c = windowed x c := by rw [wmExact, asr_eq]; rfl

theorem overlapElem_stores (hu : HoldsWord w.mem (fp + 4 * i) u) (hv : HoldsWord w.mem (inp + 4 * i) v)
    (hc : HoldsWord w.mem (wl + 4 * k) c) :
    Stores (overlapElem fp inp wl i k w) w (fp + 4 * i) (clampTo 32 (u + clampTo 32 (windowed v c)))
      (OutOf 32 (windowed v c) ∨ OutOf 32 (u + clampTo 32 (windowed v c))) := by
  refine ⟨?_, clampTo_range 32 _⟩
  simp only [overlapElem, loadW_of_holds hu, loadW_of_holds hv, loadW_of_holds hc, wmExact_eq, sat_eq_clampTo]
  refine turns_ok ?_
  simp only [Bool.or_eq_true, clamps_iff, or_assoc]

theorem tailElem_stores (hv : HoldsWord w.mem (io + 4 * j) v) (hc : HoldsWord w.mem (wr + 4 * k) c) :
    Stores (tailElem fo io wr j k w) w (fo + 4 * j) (clampTo 32 (windowed v c)) (OutOf 32 (windowed v c)) := by
  refine ⟨?_, clampTo_range 32 _⟩
  simp only [tailElem, loadW_of_holds hv, loadW_of_holds hc, wmExact_eq, sat_eq_clampTo]
  refine turns_ok ?_
  rw [Bool.or_eq_true, clamps_iff]

theorem copyElem_stores (hv : HoldsWord w.mem (io + 4 * i) v) : Stores (copyElem d io i w) w (d + 4 * i) v False := by
  refine ⟨?_, holdsWord_range hv⟩
  simp only [copyElem, loadW_of_holds hv]
  exact turns_ok (or_iff_left not_false).symm

theorem zeroElem_stores : Stores (zeroElem d i w) w (d + 4 * i) 0 False :=
  ⟨turns_ok (or_iff_left not_false).symm, by decide⟩

/-! ## An array filled in order -/

/-- The work `w` comes from `w0` by writing inside the first k words of the array at d; these hold `y`, and a saturation has clamped since
exactly when one of the k elements clamps. -/
structure Filled (w0 : Work) (d : Nat) (y : Nat → Int) (Clamps : Nat → Prop) (k : Nat) (w : Work) : Prop where
  words : HoldsWords d k y w.mem
  clamped : w.clamped = true ↔ w0.clamped = true ∨ ∃ i, i < k ∧ Clamps i
  touches : Touches d (d + 4 * k) w0.mem w.mem

namespace Filled

/-- Elements that hold their words already count as filled. -/
theorem start (h : HoldsWords d k y w.mem) (hc : ∀ i, i < k → ¬Clamps i) : Filled w d y Clamps k w :=
  ⟨h, (or_iff_left fun ⟨i, hi, hci⟩ => hc i hi hci).symm, .refl _ _ _⟩

theorem store (h : Filled w0 d y Clamps k w) (hr : Stores r w (d + 4 * k) (y k) (Clamps k)) :
    ∃ w', r = .ok w' ∧ Filled w0 d y Clamps (k + 1) w' := by
  obtain ⟨⟨w', hrun, hmem, hclamped⟩, hfits⟩ := hr
  refine ⟨w', hrun, hmem ▸ h.words.store_next hfits, ?_, ?_⟩
  · rw [hclamped, h.clamped]
    simp only [Nat.lt_succ_iff_lt_or_eq, or_and_right, exists_or, exists_eq_left, or_assoc]
  · exact hmem ▸ (h.touches.mono (Nat.le_refl _) (by omega)).trans (touches_storeW _ _ (by omega) (by omega))

/-- A loop whose turns store the elements from `k` on in order: each may assume that only the elements below its own are written. -/
theorem loop {turn : Nat → Work → Run Work} (h : Filled w0 d y Clamps k w)
    (hturn : ∀ i w', k ≤ i → i < k + count → Touches d (d + 4 * i) w0.mem w'.mem →
      Stores (turn i w') w' (d + 4 * i) (y i) (Clamps i)) :
    ∃ w', forFrom turn k count w = .ok w' ∧ Filled w0 d y Clamps (k + count) w' :=
  forFrom_ok (Filled w0 d y Clamps) count (fun i w' hlo hhi hw => hw.store (hturn i w' hlo hhi hw.touches)) h

end Filled

/-- A word of an array that the writes below its own index in the array at d cannot reach. -/
theorem HoldsWords.beyond (hx : HoldsWords a n x m) (ht : Touches d (d + 4 * i) m m') (hi : i ≤ B)
    (hapart : a + 4 * n ≤ d ∨ d + 4 * B ≤ a) : HoldsWords a n x m' :=
  hx.of_touches ht (by omega)

/-! ## The left half (R362, R366) -/

/-- The exact sum of element i and the windowed block, before its saturation; the window begins at element n. -/
def overlapped (f x g : Nat → Int) (n i : Nat) : Int := f i + clampTo 32 (windowed (x i) (g (i - n)))

/-- Element i of the left half: kept, overlapped with the block under the window `g` of L words, or the block itself. -/
def leftElem (B L : Nat) (f x g : Nat → Int) (i : Nat) : Int :=
  if i < (B - L) / 2 then f i else if i < (B - L) / 2 + L then clampTo 32 (overlapped f x g ((B - L) / 2) i) else x i

/-- A saturation of element i of the left half clamps. -/
def LeftClamps (B L : Nat) (f x g : Nat → Int) (i : Nat) : Prop :=
  (B - L) / 2 ≤ i ∧ i < (B - L) / 2 + L ∧
    (OutOf 32 (windowed (x i) (g (i - (B - L) / 2))) ∨ OutOf 32 (overlapped f x g ((B - L) / 2) i))

/-- The shorter block is not longer than the current one. -/
theorem two_pow_min_le (cb b : Nat) : 2 ^ min cb b ≤ 2 ^ cb := Nat.pow_le_pow_right (by decide) (Nat.min_le_left cb b)

/-- WOLA's two cases for the left half are one: beside a block that is not shorter the flat parts are empty. -/
theorem wolaLeft_of_loops (hL : 2 ^ min cb pb = L) (hn : (2 ^ cb - L) / 2 = n)
    (h1 : forFrom (fun i w => overlapElem fp inp wl i (i - n) w) n L w0 = .ok w1)
    (h2 : forFrom (copyElem fp inp) (n + L) (2 ^ cb - (n + L)) w1 = .ok w2) : wolaLeft fp inp wl pb cb w0 = .ok w2 := by
  unfold wolaLeft
  by_cases hle : cb ≤ pb
  · rw [Nat.min_eq_left hle] at hL
    obtain rfl : n = 0 := by omega
    subst hL
    rw [Nat.zero_add, Nat.sub_self] at h2
    rw [if_pos hle]
    exact h1.trans h2
  · rw [Nat.min_eq_right (by omega)] at hL
    subst hL hn
    simp only [if_neg hle, h1, h2]

theorem wolaLeft_fills (hB : 2 ^ cb = B) (hL : 2 ^ min cb pb = L) (hf : HoldsWords fp B f w.mem) (hx : HoldsWords inp B x w.mem)
    (hg : HoldsWords wl L g w.mem) (hinp : inp + 4 * B ≤ fp ∨ fp + 4 * B ≤ inp) (hwl : wl + 4 * L ≤ fp ∨ fp + 4 * B ≤ wl) :
    ∃ w', wolaLeft fp inp wl pb cb w = .ok w' ∧ Filled w fp (leftElem B L f x g) (LeftClamps B L f x g) B w' := by
  have hLB : L ≤ B := hB ▸ hL ▸ two_pow_min_le cb pb
  obtain ⟨n, hn⟩ : ∃ n, (B - L) / 2 = n := ⟨_, rfl⟩
  have h0 : Filled w fp (leftElem B L f x g) (LeftClamps B L f x g) n w :=
    .start (fun i hi => by rw [leftElem, if_pos (by omega)]; exact hf i (by omega)) fun i hi ⟨hlo, _⟩ => by omega
  obtain ⟨w1, hrun1, h1⟩ := h0.loop (count := L) (turn := fun i w => overlapElem fp inp wl i (i - n) w) fun i w' hlo hhi ht => by
    have hown : HoldsWord w'.mem (fp + 4 * i) (f i) := holdsWord_of_touches (hf i (by omega)) ht (.inr (Nat.le_refl _))
    refine (overlapElem_stores hown (hx.beyond ht (by omega) hinp i (by omega))
      (hg.beyond ht (by omega) hwl (i - n) (by omega))).congr ?_ ?_
    · rw [leftElem, if_neg (by omega), if_pos (by omega), hn]; rfl
    · simp only [LeftClamps, hn, hlo, hhi, true_and]; rfl
  obtain ⟨w2, hrun2, h2⟩ := h1.loop (count := B - (n + L)) (turn := copyElem fp inp) fun i w' hlo hhi ht => by
    refine (copyElem_stores (hx.beyond ht (by omega) hinp i (by omega))).congr ?_ ?_
    · rw [leftElem, if_neg (by omega), if_neg (by omega)]
    · simp only [LeftClamps, hn, show ¬i < n + L by omega, false_and, and_false]
  rw [Nat.add_sub_cancel' (by omega)] at h2
  exact ⟨w2, wolaLeft_of_loops hL (hB ▸ hn) hrun1 (hB ▸ hrun2), h2⟩

/-! ## The right half (R362, R366) -/

/-- Element j of the right half: the block itself, the block under the falling window `g` of R words, or 0. -/
def rightElem (B R : Nat) (x g : Nat → Int) (j : Nat) : Int :=
  if j < (B - R) / 2 then x j
  else if j < (B - R) / 2 + R then clampTo 32 (windowed (x j) (g (R - 1 - (j - (B - R) / 2)))) else 0

/-- The saturation of element j of the right half clamps. -/
def RightClamps (B R : Nat) (x g : Nat → Int) (j : Nat) : Prop :=
  (B - R) / 2 ≤ j ∧ j < (B - R) / 2 + R ∧ OutOf 32 (windowed (x j) (g (R - 1 - (j - (B - R) / 2))))

/-- WOLA's two cases for the right half are one: beside a block that is not shorter the flat parts are empty. -/
theorem wolaRight_of_loops (hR : 2 ^ min cb nb = R) (hn : (2 ^ cb - R) / 2 = n)
    (h1 : forFrom (copyElem fo io) 0 n w0 = .ok w1)
    (h2 : forFrom (fun j w => tailElem fo io wr j (R - 1 - (j - n)) w) n R w1 = .ok w2)
    (h3 : forFrom (zeroElem fo) (n + R) (2 ^ cb - (n + R)) w2 = .ok w3) : wolaRight fo io wr nb cb w0 = .ok w3 := by
  unfold wolaRight
  by_cases hle : cb ≤ nb
  · rw [Nat.min_eq_left hle] at hR
    obtain rfl : n = 0 := by omega
    subst hR
    rw [Nat.zero_add, Nat.sub_self] at h3
    obtain rfl : w0 = w1 := Except.ok.inj h1
    rw [if_pos hle]
    exact h2.trans h3
  · rw [Nat.min_eq_right (by omega)] at hR
    subst hR hn
    simp only [if_neg hle, h1, h2, h3]

theorem wolaRight_fills (hB : 2 ^ cb = B) (hR : 2 ^ min cb nb = R) (hx : HoldsWords io B x w.mem) (hg : HoldsWords wr R g w.mem)
    (hio : io + 4 * B ≤ fo ∨ fo + 4 * B ≤ io) (hwr : wr + 4 * R ≤ fo ∨ fo + 4 * B ≤ wr) :
    ∃ w', wolaRight fo io wr nb cb w = .ok w' ∧ Filled w fo (rightElem B R x g) (RightClamps B R x g) B w' := by
  have hRB : R ≤ B := hB ▸ hR ▸ two_pow_min_le cb nb
  obtain ⟨n, hn⟩ : ∃ n, (B - R) / 2 = n := ⟨_, rfl⟩
  have h0 : Filled w fo (rightElem B R x g) (RightClamps B R x g) 0 w := .start nofun nofun
  obtain ⟨w1, hrun1, h1⟩ := h0.loop (count := n) (turn := copyElem fo io) fun j w' _ hhi ht => by
    refine (copyElem_stores (hx.beyond ht (by omega) hio j (by omega))).congr ?_ ?_
    · rw [rightElem, if_pos (by omega)]
    · simp only [RightClamps, hn, show ¬n ≤ j by omega, false_and]
  rw [Nat.zero_add] at h1
  obtain ⟨w2, hrun2, h2⟩ := h1.loop (count := R) (turn := fun j w => tailElem fo io wr j (R - 1 - (j - n)) w) fun j w' hlo hhi ht => by
    refine (tailElem_stores (hx.beyond ht (by omega) hio j (by omega))
      (hg.beyond ht (by omega) hwr (R - 1 - (j - n)) (by omega))).congr ?_ ?_
    · rw [rightElem, if_neg (by omega), if_pos (by omega), hn]
    · simp only [RightClamps, hn, hlo, hhi, true_and]
  obtain ⟨w3, hrun3, h3⟩ := h2.loop (count := B - (n + R)) (turn := zeroElem fo) fun j w' hlo hhi ht => by
    refine zeroElem_stores.congr ?_ ?_
    · rw [rightElem, if_neg (by omega), if_neg (by omega)]
    · simp only [RightClamps, hn, show ¬j < n + R by omega, false_and, and_false]
  rw [Nat.add_sub_cancel' (by omega)] at h3
  exact ⟨w3, wolaRight_of_loops hR (hB ▸ hn) hrun1 hrun2 (hB ▸ hrun3), h3⟩

/-! ## Both halves -/

/-- An element that clamps lies under its window, so inside its half. -/
theorem exists_lt_and_iff {P : Nat → Prop} (h : ∀ i, P i → i < B) : (∃ i, i < B ∧ P i) ↔ ∃ i, P i :=
  exists_congr fun i => and_iff_right_of_imp (h i)

/-- The frame buffer at fp after both halves of a block of B words. -/
structure WolaDone (fp B : Nat) (left right : Nat → Int) (m : Memory) : Prop where
  left : HoldsWords fp B left m
  right : HoldsWords (fp + 4 * B) B right m

/-- The two halves in turn: the right one leaves what the left one has written. -/
theorem Filled.both {left right : Nat → Int} {CL CR : Nat → Prop} (hl : Filled (startWork s) fp left CL B w1)
    (hr : Filled w1 (fp + 4 * B) right CR B w2) (hCL : ∀ i, CL i → i < B) (hCR : ∀ j, CR j → j < B) :
    WorkHas s fp (fp + 8 * B) (WolaDone fp B left right) ((∃ i, CL i) ∨ ∃ j, CR j) w2 where
  holds := ⟨hl.words.of_touches hr.touches (.inl (Nat.le_refl _)), hr.words⟩
  clamped := by
    rw [hr.clamped, hl.clamped, exists_lt_and_iff hCL, exists_lt_and_iff hCR]
    simp [startWork]
  touches := (hl.touches.mono (Nat.le_refl _) (by omega)).trans (hr.touches.mono (by omega) (by omega))

/-! ## The whole command -/

/-- The arrays of a WOLA at `s`: the frame buffer's first half, the block, and the two windows, all held at the start; the block and the
windows lie apart from the frame buffer. -/
structure WolaAt (s : State) (fp inp wl wr B L R : Nat) (f x gl gr : Nat → Int) : Prop where
  frame : HoldsWords fp B f s.mem
  block : HoldsWords inp (2 * B) x s.mem
  leftWindow : HoldsWords wl L gl s.mem
  rightWindow : HoldsWords wr R gr s.mem
  blockApart : inp + 8 * B ≤ fp ∨ fp + 8 * B ≤ inp
  leftApart : wl + 4 * L ≤ fp ∨ fp + 8 * B ≤ wl
  rightApart : wr + 4 * R ≤ fp ∨ fp + 8 * B ≤ wr

/-- The second half of an array of words, as an array. -/
theorem HoldsWords.second_half (hx : HoldsWords a (2 * B) x m) : HoldsWords (a + 4 * B) B (fun j => x (B + j)) m := by
  intro j hj
  rw [show a + 4 * B + 4 * j = a + 4 * (B + j) by omega]
  exact hx (B + j) (by omega)

theorem wola_runs {gl gr : Nat → Int} (hB : 2 ^ cb = B) (hL : 2 ^ min cb pb = L) (hR : 2 ^ min cb nb = R)
    (hA : WolaAt s fp inp wl wr B L R f x gl gr) :
    ∃ w1 w2, wolaLeft fp inp wl pb cb (startWork s) = .ok w1 ∧ wolaRight (fp + 4 * B) (inp + 4 * B) wr nb cb w1 = .ok w2 ∧
      WorkHas s fp (fp + 8 * B) (WolaDone fp B (leftElem B L f x gl) (rightElem B R (fun j => x (B + j)) gr))
        ((∃ i, LeftClamps B L f x gl i) ∨ ∃ j, RightClamps B R (fun j => x (B + j)) gr j) w2 := by
  have hLB : L ≤ B := hB ▸ hL ▸ two_pow_min_le cb pb
  have hRB : R ≤ B := hB ▸ hR ▸ two_pow_min_le cb nb
  obtain ⟨hf, hx, hgl, hgr, hinp, hwl, hwr⟩ := hA
  obtain ⟨w1, hrun1, h1⟩ := wolaLeft_fills (w := startWork s) hB hL hf (fun i hi => hx i (by omega)) hgl (by omega) (by omega)
  obtain ⟨w2, hrun2, h2⟩ := wolaRight_fills (fo := fp + 4 * B) hB hR (hx.second_half.of_touches h1.touches (by omega))
    (hgr.of_touches h1.touches (by omega)) (by omega) (by omega)
  exact ⟨w1, w2, hrun1, hrun2, h1.both h2 (fun i ⟨_, hlt, _⟩ => by omega) fun j ⟨_, hlt, _⟩ => by omega⟩

theorem wolaChecks_pass {WL WR : Word} (hw : WcfgOk s) (hfp : region (lmemSize s) fp (8 * 2 ^ s.sr.wcb.toNat) 4 = .ok ())
    (hinp : region (lmemSize s) inp (8 * 2 ^ s.sr.wcb.toNat) 4 = .ok ()) (hD : s.sr.wdir.toNat % 4 = 0)
    (hLin : entryAddr s.sr.wdir (min s.sr.wcb.toNat s.sr.wpb.toNat) + 4 ≤ lmemSize s)
    (hRin : entryAddr s.sr.wdir (min s.sr.wcb.toNat s.sr.wnb.toNat) + 4 ≤ lmemSize s)
    (hWL : HoldsWord s.mem (entryAddr s.sr.wdir (min s.sr.wcb.toNat s.sr.wpb.toNat)) WL.toInt)
    (hWR : HoldsWord s.mem (entryAddr s.sr.wdir (min s.sr.wcb.toNat s.sr.wnb.toNat)) WR.toInt)
    (hl : region (lmemSize s) WL.toNat (4 * 2 ^ min s.sr.wcb.toNat s.sr.wpb.toNat) 4 = .ok ())
    (hr : region (lmemSize s) WR.toNat (4 * 2 ^ min s.sr.wcb.toNat s.sr.wnb.toNat) 4 = .ok ()) :
    wolaChecks s fp inp = .ok (WL.toNat, WR.toNat) := by
  simp only [wolaChecks, wcfgOk_iff.mpr hw, Bool.not_true, Bool.false_eq_true, if_false, hfp, hinp]
  rw [if_neg (not_not.mpr hD), if_neg (by omega), if_neg (by omega)]
  simp only [dirEntry_of_holds hD hLin hWL, dirEntry_of_holds hD hRin hWR, hl, hr]

theorem execWola_completes {rfp rin : Reg} (hc : wolaChecks s (reg s rfp).toNat (reg s rin).toNat = .ok (wl, wr))
    (hl : wolaLeft (reg s rfp).toNat (reg s rin).toNat wl s.sr.wpb.toNat s.sr.wcb.toNat (startWork s) = .ok w1)
    (hr : wolaRight ((reg s rfp).toNat + 4 * 2 ^ s.sr.wcb.toNat) ((reg s rin).toNat + 4 * 2 ^ s.sr.wcb.toNat) wr s.sr.wnb.toNat
      s.sr.wcb.toNat w1 = .ok w2) : execWola rfp rin s = .next (commitWork s w2) := by
  simp only [execWola, hc, hl, hr, conclude_ok]

/-- Settles O52: each half is one array filled in order (`Filled`), from sources that its earlier elements leave alone. -/
theorem wolaOverlapsAndAdds : Obligations.WolaOverlapsAndAdds := by
  intro rfp rin f x gl gr WL WR s fp inp pb cb nb B L R nl nr D eL eR left right hp1 hp14 hc1 hc14 hn1 hn14 hfp hfpIn hinp hinpIn hD
    hLin hRin hWL hWR hwl hwlIn hwr hwrIn hdI hdL hdR hf hx hgl hgr
  have hpass : wolaChecks s fp inp = .ok (WL.toNat, WR.toNat) :=
    wolaChecks_pass ⟨hp1, hp14, hc1, hc14, hn1, hn14⟩ (region_ok hfp hfpIn) (region_ok hinp hinpIn) hD hLin hRin hWL hWR
      (region_ok hwl hwlIn) (region_ok hwr hwrIn)
  obtain ⟨w1, w2, hrun1, hrun2, hdone⟩ := wola_runs (B := B) (L := L) (R := R) rfl rfl rfl ⟨hf, hx, hgl, hgr, hdI, hdL, hdR⟩
  obtain ⟨hsat, hframe⟩ := hdone.commit
  refine ⟨_, execWola_completes hpass hrun1 hrun2, hdone.holds.left, fun j hj => ?_, hsat, hframe, nextPc_of_pc rfl⟩
  rw [show fp + 4 * (B + j) = fp + 4 * B + 4 * j by omega]
  exact hdone.holds.right j hj

end Sys2Proof.Machine
end

section
/-! PROOFS. Control (47_control): the words of the spec's examples, the step of a decodable word, HALT, NOP, jumps, branches, and the moves
of special registers. -/

namespace Sys2Proof

variable {w : Word} {i : Instr}

/-! ## Words of the spec's examples (30_encoding R141 to R154) -/

theorem decodeWord_of_encode_eq (hwf : i.wellFormed = true) (h : encode i = w) : decodeWord w = .ok i := by
  rw [← h, encodedInstructionsDecode i hwf]

/-- Settles O3: each word is the command word of its instruction, and the last names special register 23, of which there is none. -/
theorem specWordsDecode : Obligations.SpecWordsDecode := by
  refine ⟨?j, ?beq, ?mfs, ?sub, ?lw, ?read, ?vlcdec, ?imdct, ?pcmout, ?unassigned⟩
  case unassigned => decide
  all_goals exact decodeWord_of_encode_eq rfl (by decide)

end Sys2Proof

namespace Sys2Proof.Machine

variable {s u : State} {but : List Reg} {sbut : List SReg}

/-! ## The step (R413) -/

theorem step_of_decodable {w : Word} {i : Instr} (h : Fetches s w) (hd : decodeWord w = .ok i) : step s = exec i s := by
  obtain ⟨b0, b1, b2, b3, hf, rfl⟩ := fetchBytes_of_fetches h
  obtain ⟨hb, ha, -⟩ := h
  simp [step, boundary, hb, ha, hf, decode_cons, hd, Except.map]

/-- Settles O5: the step is `step_of_decodable`, and the decoder accepts only well-formed instructions (`decodeWord_decoded`). -/
theorem stepRunsTheDecodedInstruction : Obligations.StepRunsTheDecodedInstruction := by
  intro s w i hf hd
  obtain ⟨hwf, -⟩ := decodeWord_decoded hd
  exact ⟨step_of_decodable hf hd, hwf⟩

/-- Settles O6: an idle step ends at its boundary. -/
theorem idleStepChangesNothing : Obligations.IdleStepChangesNothing := fun _ hb => step_of_idle hb

/-! ## What a move of PC leaves unchanged -/

theorem OnlyRegs.advance (h : OnlyRegs s u but) : OnlyRegs s (advance u) but := h

theorem OnlyRegs.jumpTo (h : OnlyRegs s u but) (p : Word) : OnlyRegs s (jumpTo u p) but := h

theorem OnlyRegsAndSrs.advance (h : OnlyRegsAndSrs s u but sbut) : OnlyRegsAndSrs s (advance u) but sbut := h

/-! ## HALT and NOP (R400, R401) -/

/-- Settles O22: HALT writes two bits of STATUS beside PC, NOP nothing. -/
theorem haltAndNop : Obligations.HaltAndNop := by
  intro s
  refine ⟨⟨endRun (advance s), rfl, ?ctl, nextPc_of_pc ?pc, fun r _ => ?regs, fun r _ => ?srs, ?latch, ?size, fun a => ?mem⟩,
    advance s, rfl, (OnlyRegs.refl s []).advance, nextPc_of_pc (advance_pc s)⟩
  all_goals simp

/-! ## Jumps (R402 to R404) -/

/-- Settles O23: each jump's target as a number (`toNat_add_offset`), and JAL's link in its register. -/
theorem jumpsGoToTheirTargets : Obligations.JumpsGoToTheirTargets := by
  intro off rd rs off18 s
  refine ⟨⟨_, rfl, toNat_add_offset s.pc off, (OnlyRegs.refl s []).jumpTo _⟩,
    ⟨_, rfl, toNat_add_offset s.pc off18, ?link, (setReg_only s rd _).jumpTo _⟩,
    _, rfl, jumpTo_pc s _, (OnlyRegs.refl s []).jumpTo _⟩
  rw [jumpTo_reg, reg_setReg_self, BitVec.toNat_add]
  rfl

/-! ## Branches (R405 to R410) -/

/-- A branch moves PC alone, as its condition tells (`branch_pc`). -/
theorem branch_completes (c : Prop) [Decidable c] (off : BitVec 18) (s : State) :
    ∃ t, branch (decide c) off s = .next t ∧ OnlyRegs s t [] ∧
      (c → (t.pc.toNat : Int) = (s.pc.toNat + 4 * off.toInt) % 2 ^ 32) ∧ (¬c → NextPc s t) := by
  refine ⟨_, rfl, ?frame, branch_pc rfl⟩
  split
  · exact (OnlyRegs.refl s []).jumpTo _
  · exact (OnlyRegs.refl s []).advance

theorem execBeq_eq (ra rb : Reg) (off : BitVec 18) (s : State) :
    execBeq ra rb off s = branch (decide ((reg s ra).toNat = (reg s rb).toNat)) off s := by
  simp only [execBeq, beq_eq_decide, BitVec.toNat_inj]

theorem execBne_eq (ra rb : Reg) (off : BitVec 18) (s : State) :
    execBne ra rb off s = branch (decide ((reg s ra).toNat ≠ (reg s rb).toNat)) off s := by
  simp only [execBne, bne, beq_eq_decide, ne_eq, decide_not, BitVec.toNat_inj]

/-- Settles O24: each branch decides its comparison (`branch_completes`); equal bit patterns are equal numbers. -/
theorem branchesCompareRegisters : Obligations.BranchesCompareRegisters := by
  intro ra rb off s a b goes
  refine ⟨?beq, ?bne, branch_completes (a.toInt < b.toInt) off s, branch_completes (b.toInt ≤ a.toInt) off s,
    branch_completes (a.toNat < b.toNat) off s, branch_completes (b.toNat ≤ a.toNat) off s⟩
  case beq =>
    simp only [goes, exec_beq, execBeq_eq]
    exact branch_completes (a.toNat = b.toNat) off s
  case bne =>
    simp only [goes, exec_bne, execBne_eq]
    exact branch_completes (a.toNat ≠ b.toNat) off s

/-! ## Moves of special registers (R411, R412; 10_state R49 to R51) -/

/-- A field that a register zero-extends to a word is the low part of that word. -/
theorem extract_setWidth {n : Nat} (x : BitVec n) (hn : n ≤ 32) : (x.setWidth 32).extractLsb' 0 n = x := by
  rw [BitVec.extractLsb'_setWidth_of_le (by omega), extract_all]

/-- The three exponents are the fields of WCFG (10_state R62). -/
theorem extract_wcfg (wnb wcb wpb : BitVec 5) :
    let w : Word := 0#11 ++ wnb ++ 0#3 ++ wcb ++ 0#3 ++ wpb
    w.extractLsb' 0 5 = wpb ∧ w.extractLsb' 8 5 = wcb ∧ w.extractLsb' 16 5 = wnb := by
  refine ⟨extract_low _ _, ?_, ?_⟩
  · rw [extract_high _ _ _ _ (by decide), extract_high _ _ _ _ (by decide)]
    exact extract_low _ wcb
  · rw [extract_high _ _ _ _ (by decide), extract_high _ _ _ _ (by decide), extract_high _ _ _ _ (by decide),
      extract_high _ _ _ _ (by decide)]
    exact extract_low _ wnb

/-- A register written with what it reads as keeps its value: the bits not stored read 0 (10_state R50). -/
theorem writeSr_readSr {r : SReg} (h : r ≠ .bspos) (s : State) : writeSr s r (readSr s r) = s := by
  cases r with
  | bspos => exact absurd rfl h
  | astat | escw | runw | gwid | nshift | cstages => simp [writeSr, readSr, extract_setWidth]
  | wcfg => simp [writeSr, readSr, extract_wcfg]
  | _ => rfl

theorem readSr_and_usedBits (s : State) (r : SReg) : readSr s r &&& usedBits r = readSr s r := by
  by_cases h : r ∈ [SReg.bsbase, .bslen, .bspos]
  · simp only [List.mem_cons, List.not_mem_nil, or_false] at h
    rcases h with rfl | rfl | rfl <;> exact BitVec.and_allOnes
  · have hpos : r ≠ .bspos := fun e => h (by simp [e])
    rw [← readSr_writeSr_self h, writeSr_readSr hpos]

/-- The unused bits of a special register read 0 (10_state R50). -/
theorem readSr_and_not_usedBits (s : State) (r : SReg) : readSr s r &&& ~~~usedBits r = 0 := by
  rw [← readSr_and_usedBits, BitVec.and_assoc, BitVec.and_not_self]
  exact BitVec.and_zero

/-- A write of the cursor is clamped to the stream's end (10_state R51). -/
theorem toNat_readSr_writeSr_bspos (s : State) (v : Word) :
    (readSr (writeSr s .bspos v) .bspos).toNat = min v.toNat s.sr.bslen.toNat := by
  simp only [readSr, writeSr]
  split <;> omega

/-- Settles O25: MFS reads used bits only, and MTS is the legalised write of its register. -/
theorem specialRegisterMoves : Obligations.SpecialRegisterMoves := by
  intro rd rs sr s
  have hread : reg (advance (setReg s rd (readSr s sr))) rd = readSr s sr := reg_setReg_self s rd _
  refine ⟨⟨_, rfl, hread, ?unused, (setReg_only s rd _).advance, nextPc_of_pc rfl⟩, fun hbase hlen =>
    ⟨_, rfl, fun hpos => ?stored, ?clamped, (writeSr_only s sr _).advance, nextPc_of_pc ?pc⟩⟩
  case unused => rw [hread, readSr_and_not_usedBits]
  case stored => exact readSr_writeSr_self (by simp [hbase, hlen, hpos]) s (reg s rs)
  case clamped => rintro rfl; exact toNat_readSr_writeSr_bspos s (reg s rs)
  case pc => rw [advance_pc, writeSr_pc]

end Sys2Proof.Machine
end

section
/-! PROOFS. The integer instructions (48_integer): each writes one word and goes on (`intResult_completes`), so each statement is that
word's value, as a number or bit by bit. -/

namespace Sys2Proof.Machine

/-- An integer instruction whose result has the property `P` leaves a register with it, and changes no more than that register and PC. -/
theorem intResult_completes {P : Word → Prop} {v : Word} (h : P v) (rd : Reg) (s : State) :
    ∃ t, intResult rd v s = .next t ∧ P (reg t rd) ∧ OnlyRegs s t [rd] ∧ NextPc s t :=
  ⟨advance (setReg s rd v), rfl, by rwa [advance_reg, reg_setReg_self], (setReg_only s rd v).advance, nextPc_of_pc rfl⟩

/-! ## Sums and differences (R430, R431, R440) -/

/-- A difference of words, as numbers modulo 2^32. -/
theorem toNat_sub_emod (a b : Word) : ((a - b).toNat : Int) = (a.toNat - b.toNat) % 2 ^ 32 := by
  have := a.isLt
  have := b.isLt
  rw [BitVec.toNat_sub]
  omega

/-- Settles O18: words add and subtract modulo 2^32; ADDI's sum is that of an effective address (`toNat_effAddr`). -/
theorem integerAddSubtract : Obligations.IntegerAddSubtract := by
  intro rd rs rt imm s
  exact ⟨intResult_completes (P := (·.toNat = _)) (BitVec.toNat_add _ _) rd s,
    intResult_completes (P := fun w => (w.toNat : Int) = _) (toNat_sub_emod _ _) rd s,
    intResult_completes (P := fun w => (w.toNat : Int) = _) (toNat_effAddr s rs imm) rd s⟩

/-! ## Bitwise operations (R432 to R434, R441 to R443) -/

/-- The bits of a zero-extended immediate are its own 18, then zeros (30_encoding R147). -/
theorem getLsbD_zext18 (imm : BitVec 18) {k : Nat} (hk : k < 32) :
    (zext18 imm).getLsbD k = (decide (k < 18) && imm.getLsbD k) := by
  by_cases h : k < 18
  · simp [zext18, hk, h]
  · simp [zext18, h, BitVec.getLsbD_of_ge imm k (Nat.le_of_not_lt h)]

/-- A word named bit by bit. -/
def HasBits (f : Nat → Bool) (w : Word) : Prop := ∀ k, k < 32 → w.getLsbD k = f k

/-- Settles O19: each bit of the result is the operation on the operands' bits. -/
theorem integerBitwise : Obligations.IntegerBitwise := by
  intro rd rs rt imm s
  refine ⟨intResult_completes (P := HasBits _) (fun k _ => BitVec.getLsbD_and) rd s,
    intResult_completes (P := HasBits _) (fun k _ => BitVec.getLsbD_or) rd s,
    intResult_completes (P := HasBits _) (fun k _ => BitVec.getLsbD_xor) rd s,
    intResult_completes (P := HasBits _) (fun k hk => ?andi) rd s,
    intResult_completes (P := HasBits _) (fun k hk => ?ori) rd s,
    intResult_completes (P := HasBits _) (fun k hk => ?xori) rd s⟩
  case andi => rw [BitVec.getLsbD_and, getLsbD_zext18 imm hk]
  case ori => rw [BitVec.getLsbD_or, getLsbD_zext18 imm hk]
  case xori => rw [BitVec.getLsbD_xor, getLsbD_zext18 imm hk]

/-! ## Shifts (R435 to R437, R445 to R447) -/

/-- The low five bits of an amount are its remainder by 32. -/
theorem shiftAmount_eq (v : Word) : shiftAmount v = v.toNat % 32 := by
  simp [shiftAmount]

theorem toNat_shiftLeft_eq_mul (v : Word) (k : Nat) : (shiftLeft v k).toNat = v.toNat * 2 ^ k % 2 ^ 32 := by
  rw [shiftLeft, BitVec.toNat_shiftLeft, Nat.shiftLeft_eq]

theorem toNat_shiftRight_eq_div (v : Word) (k : Nat) : (shiftRight v k).toNat = v.toNat / 2 ^ k := by
  rw [shiftRight, BitVec.toNat_ushiftRight, Nat.shiftRight_eq_div_pow]

/-- Shifting the sign in is the floor of the signed quotient, also for a negative value. -/
theorem toInt_shiftRightArith_eq_div (v : Word) (k : Nat) : (shiftRightArith v k).toInt = v.toInt / 2 ^ k := by
  rw [shiftRightArith, BitVec.toInt_sshiftRight, Int.shiftRight_eq_div_pow]
  norm_cast

/-- Settles O20: the three shifts by an amount, taken at the low five bits of a register (`shiftAmount_eq`) or at an immediate. -/
theorem integerShifts : Obligations.IntegerShifts := by
  intro rd rs rt sh s
  rw [← shiftAmount_eq (reg s rt)]
  exact ⟨intResult_completes (P := (·.toNat = _)) (toNat_shiftLeft_eq_mul _ _) rd s,
    intResult_completes (P := (·.toNat = _)) (toNat_shiftRight_eq_div _ _) rd s,
    intResult_completes (P := (·.toInt = _)) (toInt_shiftRightArith_eq_div _ _) rd s,
    intResult_completes (P := (·.toNat = _)) (toNat_shiftLeft_eq_mul _ _) rd s,
    intResult_completes (P := (·.toNat = _)) (toNat_shiftRight_eq_div _ _) rd s,
    intResult_completes (P := (·.toInt = _)) (toInt_shiftRightArith_eq_div _ _) rd s⟩

/-! ## Comparisons and LUI (R438, R439, R444) -/

theorem toNat_boolWord (p : Prop) [Decidable p] : (boolWord (decide p)).toNat = if p then 1 else 0 := by
  by_cases h : p <;> simp [boolWord, h]

/-- An immediate in the upper half of a word. -/
theorem toNat_upper_half (imm : BitVec 16) : (imm ++ 0#16 : Word).toNat = imm.toNat * 65536 :=
  (toNat_append_add imm 0#16).trans (by simp)

/-- Settles O21: a comparison is written as 1 or 0 (`toNat_boolWord`), LUI's immediate above 16 zeros. -/
theorem integerCompareAndUpper : Obligations.IntegerCompareAndUpper := by
  intro rd rs rt imm s
  exact ⟨intResult_completes (P := (·.toNat = _)) (toNat_boolWord _) rd s,
    intResult_completes (P := (·.toNat = _)) (toNat_boolWord _) rd s,
    intResult_completes (P := (·.toNat = _)) (toNat_upper_half imm) rd s⟩

end Sys2Proof.Machine
end

section
/-! PROOFS. Faults, runs and reset: a fault changes STATUS, FAULTPC and FAULTINFO, and LMEM only where RLDEC's array lies; what begins and
what ends a run; what reset leaves. -/

namespace Sys2Proof.Machine

variable {i : Instr} {s t : State}

/-! ## A fault discards what its instruction had written (60_exceptions R505) -/

/-- Pseudocode that, where it completes, leaves FAULT as it was. -/
def CompletesUnfaulted (s : State) (r : Run State) : Prop := ∀ u, r = .ok u → u.ctl.fault = s.ctl.fault

theorem CompletesUnfaulted.ok {u : State} (h : u.ctl.fault = s.ctl.fault) : CompletesUnfaulted s (.ok u) :=
  fun _ e => by cases e; exact h

theorem CompletesUnfaulted.stop (e : Stop) : CompletesUnfaulted s (.error e) := nofun

/-- What one instruction may answer: it completes with FAULT as it was, or it does nothing but enter its fault. -/
inductive AllOrFault (s : State) : Host.Outcome State Fault Refusal → Prop
  | completes {u : State} (h : u.ctl.fault = s.ctl.fault) : AllOrFault s (.next u)
  | faults (c : Cause) (n : Nat) : AllOrFault s (.next (takeFault c s.pc n s))
  | stuck (f : Fault) : AllOrFault s (.fault f)

namespace AllOrFault

/-- Pseudocode concluded from the state it began in: a fault takes none of its writes along. -/
theorem conclude {r : Run State} (h : CompletesUnfaulted s r) : AllOrFault s (conclude s r) := by
  cases r with
  | ok u => exact .completes (h u rfl)
  | error e =>
    cases e with
    | raise c n => exact .faults c n
    | stuck f => exact .stuck f

theorem ite {p : Prop} [Decidable p] {o o' : Host.Outcome State Fault Refusal} (h : AllOrFault s o) (h' : AllOrFault s o') :
    AllOrFault s (if p then o else o') := by
  split
  · exact h
  · exact h'

theorem mem_of_fault (h : AllOrFault s (.next t)) (h0 : s.ctl.fault = false) (h1 : t.ctl.fault = true) : t.mem = s.mem := by
  cases h with
  | completes h => rw [h, h0] at h1; cases h1
  | faults c n => rfl

end AllOrFault

theorem peekInto_unfaulted (rd : Reg) (n : Nat) : CompletesUnfaulted s (peekInto rd n s) := by
  unfold peekInto
  split
  · exact .stop _
  · exact .ok rfl

theorem readInto_unfaulted (rd : Reg) (n : Nat) : CompletesUnfaulted s (readInto rd n s) := by
  unfold readInto
  split
  · exact .stop _
  · exact .ok rfl

theorem skipBits_unfaulted (n : Nat) : CompletesUnfaulted s (skipBits n s) := by
  unfold skipBits
  split
  · exact .stop _
  · exact .ok rfl

/-- Every instruction but RLDEC commits its writes past its last check and its last read: the cases are by how many of those it has. -/
theorem exec_allOrFault (hi : ∀ rd rcoef rtab nb, i ≠ .rldec rd rcoef rtab nb) (s : State) : AllOrFault s (exec i s) := by
  cases i with
  | rldec rd rcoef rtab nb => exact absurd rfl (hi rd rcoef rtab nb)
  | mts sr rs => exact .completes (by rw [advance_ctl, writeSr_ctl])
  | beq ra rb off | bne ra rb off | blt ra rb off | bge ra rb off | bltu ra rb off | bgeu ra rb off =>
    exact .completes (by split <;> rfl)
  | fdiv rd rs rt | fsqrt rd rs | wdiv pd ps pt => exact .ite (.completes rfl) (.completes rfl)
  | peek rd n => exact .conclude (peekInto_unfaulted rd _)
  | read rd n => exact .conclude (readInto_unfaulted rd _)
  | skip n | skipr rn => exact .conclude (skipBits_unfaulted _)
  | peekr rd rn =>
    refine .conclude ?_
    split
    · exact .stop _
    · exact peekInto_unfaulted rd _
  | readr rd rn =>
    refine .conclude ?_
    split
    · exact .stop _
    · exact readInto_unfaulted rd _
  | lb rd rb imm | lbu rd rb imm | lh rd rb imm | lhu rd rb imm | lw rd rb imm | sb rv rb imm | sh rv rb imm | sw rv rb imm
  | bsinit rbase rlen | align | gain rd | ngen rdst rcnt =>
    refine .conclude ?_
    split
    · exact .stop _
    · exact .ok rfl
  | vlcdec rd rtab nb =>
    refine .conclude ?_
    split
    · exact .stop _
    · split
      · exact .stop _
      · exact .ok rfl
      · exact .ok rfl
  | deq rout rq re | deqn rout rnoise re | brev rbuf m | imdct rout rin n sc | fshift rbuf rk rl | pcmout rdst rsrc rcnt chm1 =>
    refine .conclude ?_
    split
    · exact .stop _
    · split
      · exact .stop _
      · exact .ok rfl
  | fft rbuf rtw m sc | wola rfp rin =>
    refine .conclude ?_
    split
    · exact .stop _
    · split
      · exact .stop _
      · split
        · exact .stop _
        · exact .ok rfl
  | _ => exact .completes rfl

/-- A run concluded with the writes it has made: LMEM is as they have left it, whether the run completes or faults. -/
theorem mem_of_conclude {r : Run State} (hr : ∀ u, r = .ok u → u.mem = s.mem) (h : conclude s r = .next t) : t.mem = s.mem := by
  rcases conclude_next h with rfl | ⟨c, n, -, rfl⟩
  · exact hr t rfl
  · rfl

/-- RLDEC writes its coefficient array alone, whether it completes or faults (44_spectral R303). -/
theorem rldec_memKeptOutside {rd rcoef rtab : Reg} {nb : BitVec 5} (h : execRldec rd rcoef rtab nb s = .next t) :
    MemKeptOutside s t (reg s rcoef).toNat (4 * s.sr.ncoef.toNat) := by
  unfold execRldec at h
  simp only at h
  split at h
  · rw [MemKeptOutside, mem_of_conclude (fun _ hu => by cases hu) h]
    exact fun _ _ => rfl
  · have zeroed := touches_zeroFill s.sr.ncoef.toNat s.mem (Nat.le_refl (reg s rcoef).toNat) (Nat.le_refl _)
    have looped := rldecLoop_touches s (reg s rcoef).toNat (reg s rtab).toNat nb.toNat s.sr.ncoef.toNat s.sr.ncoef.toNat
      (zeroFill (reg s rcoef).toNat s.sr.ncoef.toNat s.mem) s.sr.bspos.toNat 0 (Nat.le_refl _) (Nat.le_refl _)
    rw [MemKeptOutside, mem_of_conclude (fun u hu => ?_) h]
    · exact (zeroed.trans looped).out
    · split at hu
      · cases hu
      · cases hu; rfl

/-- An instruction that sets FAULT has entered a fault. -/
theorem faultsAt_of_fault (h : exec i s = .next t) (h0 : s.ctl.fault = false) (h1 : t.ctl.fault = true) : FaultsAt s t := by
  have same : t.ctl.fault = s.ctl.fault → FaultsAt s t := fun e => by rw [h1, h0] at e; cases e
  rcases exec_cases h with hc | hf | ⟨-, rfl⟩ | ⟨r, rs, -, rfl⟩ | ⟨rbase, rlen, -, -, rfl⟩
  · exact same (by rw [hc.ctl])
  · exact hf
  · exact same rfl
  · exact same (by rw [advance_ctl, writeSr_ctl])
  · exact same rfl

/-- Settles O12: the fault entry (`faultsAt_of_fault`), on an LMEM that only RLDEC has changed. -/
theorem faultsArePrecise : Obligations.FaultsArePrecise := by
  intro i s t _ h h0 h1
  have kept (hi : ∀ rd rcoef rtab nb, i ≠ .rldec rd rcoef rtab nb) : MemKept s t := fun a => by
    have hend := exec_allOrFault hi s
    rw [h] at hend
    rw [hend.mem_of_fault h0 h1]
  obtain ⟨c, n, m, hc, -, rfl⟩ := faultsAt_of_fault h h0 h1
  refine ⟨rfl, rfl, rfl, rfl, rfl, rfl, hc, ?_⟩
  cases i with
  | rldec rd rcoef rtab nb => exact rldec_memKeptOutside h
  | _ => exact kept nofun

/-! ## Runs (60_exceptions R506, R508, R520) -/

/-- Settles O16: of the three things a step may do to the control registers (`step_control`) two end a run, and the invariant after the
step says what goes with DONE and with FAULT. -/
theorem runsEndInOneWay : Obligations.RunsEndInOneWay := by
  intro s t hi hb h hidle
  have hi' : Inv t := stepKeepsTheInvariant s t hi h
  obtain ⟨-, hstep⟩ := step_control h
  cases hstep with
  | kept hctl => rw [hctl, hb] at hidle; cases hidle
  | faulted hpc hctl =>
    have hfault : t.ctl.fault = true := by rw [hctl]
    have hdone : t.ctl.done = false := by rw [hctl]; exact (hi.running hb).1
    exact .inr ⟨hfault, hdone, hi'.caused hfault⟩
  | halted hw hctl =>
    have hdone : t.ctl.done = true := by rw [hctl]
    exact .inl ⟨hdone, hi'.oneEnd hdone⟩

/-- A host write of CTRL without ABORT stores IRQEN, and then starts a run if START is 1 and the block is idle (10_state R72). -/
theorem hostWrite_of_no_abort {v : Word} (h : v.getLsbD 1 = false) (s : State) :
    hostWrite 0x004 .word v s =
      if v.getLsbD 0 = true ∧ s.ctl.busy = false then startRun { s with ctl := { s.ctl with irqen := v.getLsbD 2 } }
      else { s with ctl := { s.ctl with irqen := v.getLsbD 2 } } := by
  change writeCtrl s v = _
  rw [writeCtrl, if_neg (ne_true_of_eq_false h)]
  cases v.getLsbD 0 <;> cases s.ctl.busy <;> rfl

/-- Settles O57: START acts on an idle block alone (`hostWrite_of_no_abort`). -/
theorem startBeginsARun : Obligations.StartBeginsARun := by
  intro s v h
  simp only [hostWrite_of_no_abort h]
  refine ⟨fun hstart hb => if_pos ⟨hstart, hb⟩, fun _ hb => if_neg fun ⟨_, hidle⟩ => ?_, fun hstart => if_neg fun ⟨hone, _⟩ => ?_⟩
  · rw [hb] at hidle; cases hidle
  · rw [hstart] at hone; cases hone

/-! ## Reset (70_reset R562 to R565) -/

/-- Settles O9, by the reset values of each clause (`inv_resetOf`). -/
theorem invariantAtReset : Obligations.InvariantAtReset := inv_resetOf

/-- The special registers that 10_state R49 resets to 0. -/
theorem readSr_resetOf_zero (n : Fin 9) : ∀ r ∈ [SReg.bsbase, .bslen, .bspos, .astat, .ncoef, .rltab, .escw, .runw, .nidx, .mdtrig,
    .mdtw, .wcfg, .wdir], readSr (State.resetOf n) r = 0 := by
  intro r hr
  rw [show readSr (State.resetOf n) r = readSr State.reset r from readSr_congr rfl r]
  revert r
  decide

/-- CTRL and STATUS do not depend on LMEM_SIZE. -/
theorem ctrlWord_statusWord_resetOf (n : Fin 9) : ctrlWord (State.resetOf n) = 0 ∧ statusWord (State.resetOf n) = 0 := by
  change ctrlWord State.reset = 0 ∧ statusWord State.reset = 0
  decide

/-- Settles O56: the constants ID and LMEMSIZE as the host reads them, every other value as reset writes it. -/
theorem resetValues : Obligations.ResetValues := by
  intro s
  obtain ⟨hctrl, hstatus⟩ := ctrlWord_statusWord_resetOf s.lmemLog
  have hid : hostRead 0x000 .word (platformReset s) = .next (0x46585031#32, platformReset s) := rfl
  have hsize : hostRead 0x018 .word (platformReset s) = .next (BitVec.ofNat 32 (lmemSize s), platformReset s) := rfl
  exact ⟨rfl, rfl, hctrl, hstatus, rfl, rfl, rfl, hid, hsize, readSr_resetOf_zero s.lmemLog, rfl, rfl, rfl, rfl, rfl, rfl, rfl, rfl,
    rfl, rfl⟩

end Sys2Proof.Machine
end
